-- ==== Sys2Proof/Word.lean ====
section
/-! DEFINITION. The widths HUFFCORE's values have (10_state.md; 00_scope.md rules R5, R7, R9). All integers are unsigned. -/

namespace Sys2Proof

/-- A byte of a stream, or a byte value of the alphabet (R5: ALPHABET, 0 to 255). -/
abbrev Byte := BitVec 8

/-- A command word (R90), a frequency counter (R27), a header length (R26). -/
abbrev Word32 := BitVec 32

/-- `ARG0`, `RES0`, `ERRINFO`, a node's weight (R21, R25, R28). -/
abbrev Word64 := BitVec 64

/-- A node-store index (R28, R91 format N): 0 to 511, of which 511 is never valid. -/
abbrev NodeIx := BitVec 9

/-- The number of a code register `C[0]` to `C[3]` (R31, R91 format C). -/
abbrev CodeReg := BitVec 2

/-- A BinaryCode value (R9): a sequence of bits, element 0 first. The registers hold only lengths 1 to 255 (R31);
that is an invariant (`Sys2Proof.Machine.CodesInv`), not part of the type. -/
abbrev BinaryCode := List Bool

/-- The frequency table `FT` (R27): 256 counters of 32 bits. -/
abbrev FreqTable := Vector Word32 256

/-- The code table `CT` (R32): 256 entries, each a code or nothing (`valid = 0`). -/
abbrev CodeTable := Vector (Option BinaryCode) 256

end Sys2Proof
end

