-- ==== Sys2Proof/Config.lean ====
section
/-! DEFINITION. What the spec leaves open for every machine: one parameter, DEGEN_PICK (R5; 92_eei_decisions.md D12). -/

namespace Sys2Proof

/-- DEGEN_PICK (R5, R191, D12: OPEN), "a function of `FT` that must return one of the two occupied values".
The free part of it is which of the two: `true` the higher byte value, `false` the lower. It has no body, so no
proof can know the choice; `Sys2Proof.Machine.degenPick` turns it into the byte value, which is one of the two
whatever this constant is. Log entry 1. -/
opaque Config.degenPicksHigher : FreqTable → Bool

end Sys2Proof
end

