-- ==== Sys2Proof/Syntax.lean ====
section
/-! DEFINITION. The instruction syntax: one constructor for each row of spec/opcode_table.json, the 52 commands of
30_encoding.md rule R92 in its order and the 3 stream records of rule R95. -/

namespace Sys2Proof

/-- An instruction of HUFFCORE. Operand names are those of R91, R92 and R95. -/
inductive Instr where
  -- system (48_system.md)
  | nop
  | rst
  | rew (src snk : Bool)
  -- frequency table (41_frequency.md)
  | ftClr
  | ftInc (v : Byte)
  | ftSet (v : Byte)
  | ftCnt (v : Byte)
  | ftOcc
  | ftScan
  -- priority queue (42_priority_queue.md)
  | pqClr
  | pqEnq (n : NodeIx)
  | pqDeq
  | pqPeek
  | pqLen
  -- tree (43_tree.md)
  | trClr
  | trLeaf (v : Byte)
  | trMerge (n1 n2 : NodeIx)
  | trBuild
  | trRoot
  | trSetroot (n : NodeIx)
  | trIsleaf (n : NodeIx)
  | trValue (n : NodeIx)
  | trLeft (n : NodeIx)
  | trRight (n : NodeIx)
  | trWeight (n : NodeIx)
  | trHeight (n : NodeIx)
  | trEq (n1 n2 : NodeIx)
  -- binary codes and the code table (44_binary_code.md)
  | bcNew (cd : CodeReg) (bit : Bool)
  | bcPush (cd : CodeReg) (bit : Bool)
  | bcLen (cs : CodeReg)
  | bcGet (cs : CodeReg) (a : Byte)
  | bcSlice (cd cs : CodeReg) (a b : Byte)
  | bcSet (cd : CodeReg) (a : Byte) (bit : Bool)
  | bcSplice (cd cs : CodeReg) (a b : Byte)
  | bcIns (cd : CodeReg) (a : Byte) (bit : Bool)
  | bcDel (cd : CodeReg) (a b : Byte)
  | bcCat (cd cs ct : CodeReg)
  | bcEq (cs ct : CodeReg)
  | ctClr
  | ctSt (a : Byte) (cs : CodeReg)
  | ctLd (cd : CodeReg) (a : Byte)
  -- code generator (45_codegen.md)
  | cgRun
  -- encoder (46_encoder.md)
  | encHdr
  | encPut (v : Byte)
  | encFlush
  | encBody
  | encRun
  -- decoder (47_decoder.md)
  | decHdr
  | decBit
  | decSym
  | decBody
  | decRun
  -- stream records (R95): what the decoder decodes from the source stream
  | streamEmpty
  | streamDegen (count : Word32) (value : Byte)
  | streamGeneral (total : Word32) (counts : List Word32)
deriving DecidableEq, Repr

end Sys2Proof
end

