-- ==== Sys2Proof/WellFormed.lean ====
section
/-! DEFINITION. Which instructions are well formed. The operand widths of R91 are in the types; the one shape the types
leave open is the number of counts in a general stream record. -/

namespace Sys2Proof

/-- A general record carries exactly `counts[0..255]` (R65, R95); every other instruction is well formed by its types
(a node index 511 is a legal word, R91 and 95_test_vectors.md section 2.1). -/
def Instr.wf : Instr → Bool
  | .nop => true
  | .rst => true
  | .rew _ _ => true
  | .ftClr => true
  | .ftInc _ => true
  | .ftSet _ => true
  | .ftCnt _ => true
  | .ftOcc => true
  | .ftScan => true
  | .pqClr => true
  | .pqEnq _ => true
  | .pqDeq => true
  | .pqPeek => true
  | .pqLen => true
  | .trClr => true
  | .trLeaf _ => true
  | .trMerge _ _ => true
  | .trBuild => true
  | .trRoot => true
  | .trSetroot _ => true
  | .trIsleaf _ => true
  | .trValue _ => true
  | .trLeft _ => true
  | .trRight _ => true
  | .trWeight _ => true
  | .trHeight _ => true
  | .trEq _ _ => true
  | .bcNew _ _ => true
  | .bcPush _ _ => true
  | .bcLen _ => true
  | .bcGet _ _ => true
  | .bcSlice _ _ _ _ => true
  | .bcSet _ _ _ => true
  | .bcSplice _ _ _ _ => true
  | .bcIns _ _ _ => true
  | .bcDel _ _ _ => true
  | .bcCat _ _ _ => true
  | .bcEq _ _ => true
  | .ctClr => true
  | .ctSt _ _ => true
  | .ctLd _ _ => true
  | .cgRun => true
  | .encHdr => true
  | .encPut _ => true
  | .encFlush => true
  | .encBody => true
  | .encRun => true
  | .decHdr => true
  | .decBit => true
  | .decSym => true
  | .decBody => true
  | .decRun => true
  | .streamEmpty => true
  | .streamDegen _ _ => true
  | .streamGeneral _ counts => counts.length == 256

end Sys2Proof
end

