-- ==== Sys2Proof/Decode.lean ====
section
/-! DEFINITION. Decoding and encoding (30_encoding.md). Two kinds of encoded input become instructions: a 32-bit command
word (R90 to R93) and the record at the start of a compressed stream (R95, 20_memory.md R65). Both decoders are total and
reject by name; the encoder after them is written from the same tables. -/

namespace Sys2Proof

/-! ### Byte order (R66) -/

/-- `be32(x)` (R8, R66): the four bytes of `x`, most significant first. -/
def be32 (x : Word32) : List Byte :=
  [x.extractLsb' 24 8, x.extractLsb' 16 8, x.extractLsb' 8 8, x.extractLsb' 0 8]

/-- `unbe32([b0, b1, b2, b3])` (R8, R66): `b0` is the most significant byte. -/
def unbe32 (b0 b1 b2 b3 : Byte) : Word32 := b0 ++ b1 ++ b2 ++ b3

/-! ### The formats of a command word (R91) -/

/-- Bits 31:24, the opcode (R90). -/
def opcodeOf (w : Word32) : Byte := w.extractLsb' 24 8
/-- `v` of format B, bits 7:0. -/
def fieldV (w : Word32) : Byte := w.extractLsb' 0 8
/-- `n` of format N and `n1` of format NN, bits 8:0. -/
def fieldN1 (w : Word32) : NodeIx := w.extractLsb' 0 9
/-- `n2` of format NN, bits 20:12. -/
def fieldN2 (w : Word32) : NodeIx := w.extractLsb' 12 9
/-- `cd` of format C, bits 1:0. -/
def fieldCd (w : Word32) : CodeReg := w.extractLsb' 0 2
/-- `cs` of format C, bits 3:2. -/
def fieldCs (w : Word32) : CodeReg := w.extractLsb' 2 2
/-- `ct` of format C, bits 5:4. -/
def fieldCt (w : Word32) : CodeReg := w.extractLsb' 4 2
/-- `bit` of format C, bit 6. -/
def fieldBit (w : Word32) : Bool := w.getLsbD 6
/-- `a` of format C, bits 15:8. -/
def fieldA (w : Word32) : Byte := w.extractLsb' 8 8
/-- `b` of format C, bits 23:16. -/
def fieldB (w : Word32) : Byte := w.extractLsb' 16 8
/-- `src` of format M, bit 0. -/
def fieldSrc (w : Word32) : Bool := w.getLsbD 0
/-- `snk` of format M, bit 1. -/
def fieldSnk (w : Word32) : Bool := w.getLsbD 1

/-- The operand bits a command uses; every other bit of bits 23:0 is reserved (R91, R93). -/
def usesZ : Word32 := 0x000000#32
def usesB : Word32 := 0x0000FF#32
def usesN : Word32 := 0x0001FF#32
def usesNN : Word32 := 0x1FF1FF#32
def usesM : Word32 := 0x000003#32
def usesCd : Word32 := 0x000003#32
def usesCs : Word32 := 0x00000C#32
def usesCt : Word32 := 0x000030#32
def usesBit : Word32 := 0x000040#32
def usesA : Word32 := 0x00FF00#32
def usesAB : Word32 := 0xFFFF00#32

/-- One row of R92: the opcode, the operand bits the command uses, and the instruction those bits give. -/
structure CommandRow where
  op : Byte
  uses : Word32
  build : Word32 → Instr

/-- The `mask` of the row (R93): the opcode and every must-be-zero bit. -/
def CommandRow.mask (r : CommandRow) : Word32 := ~~~ r.uses
/-- The `match` of the row (R93). -/
def CommandRow.pattern (r : CommandRow) : Word32 := r.op ++ 0#24

/-- R92, opcodes 0x00 to 0x15. -/
def systemRows : List CommandRow := [
  ⟨0x00#8, usesZ, fun _ => .nop⟩,
  ⟨0x01#8, usesZ, fun _ => .rst⟩,
  ⟨0x02#8, usesM, fun w => .rew (fieldSrc w) (fieldSnk w)⟩]

def frequencyRows : List CommandRow := [
  ⟨0x10#8, usesZ, fun _ => .ftClr⟩,
  ⟨0x11#8, usesB, fun w => .ftInc (fieldV w)⟩,
  ⟨0x12#8, usesB, fun w => .ftSet (fieldV w)⟩,
  ⟨0x13#8, usesB, fun w => .ftCnt (fieldV w)⟩,
  ⟨0x14#8, usesZ, fun _ => .ftOcc⟩,
  ⟨0x15#8, usesZ, fun _ => .ftScan⟩]

def queueRows : List CommandRow := [
  ⟨0x20#8, usesZ, fun _ => .pqClr⟩,
  ⟨0x21#8, usesN, fun w => .pqEnq (fieldN1 w)⟩,
  ⟨0x22#8, usesZ, fun _ => .pqDeq⟩,
  ⟨0x23#8, usesZ, fun _ => .pqPeek⟩,
  ⟨0x24#8, usesZ, fun _ => .pqLen⟩]

def treeRows : List CommandRow := [
  ⟨0x30#8, usesZ, fun _ => .trClr⟩,
  ⟨0x31#8, usesB, fun w => .trLeaf (fieldV w)⟩,
  ⟨0x32#8, usesNN, fun w => .trMerge (fieldN1 w) (fieldN2 w)⟩,
  ⟨0x33#8, usesZ, fun _ => .trBuild⟩,
  ⟨0x34#8, usesZ, fun _ => .trRoot⟩,
  ⟨0x35#8, usesN, fun w => .trSetroot (fieldN1 w)⟩,
  ⟨0x36#8, usesN, fun w => .trIsleaf (fieldN1 w)⟩,
  ⟨0x37#8, usesN, fun w => .trValue (fieldN1 w)⟩,
  ⟨0x38#8, usesN, fun w => .trLeft (fieldN1 w)⟩,
  ⟨0x39#8, usesN, fun w => .trRight (fieldN1 w)⟩,
  ⟨0x3A#8, usesN, fun w => .trWeight (fieldN1 w)⟩,
  ⟨0x3B#8, usesN, fun w => .trHeight (fieldN1 w)⟩,
  ⟨0x3C#8, usesNN, fun w => .trEq (fieldN1 w) (fieldN2 w)⟩]

def codeRows : List CommandRow := [
  ⟨0x40#8, usesCd ||| usesBit, fun w => .bcNew (fieldCd w) (fieldBit w)⟩,
  ⟨0x41#8, usesCd ||| usesBit, fun w => .bcPush (fieldCd w) (fieldBit w)⟩,
  ⟨0x42#8, usesCs, fun w => .bcLen (fieldCs w)⟩,
  ⟨0x43#8, usesCs ||| usesA, fun w => .bcGet (fieldCs w) (fieldA w)⟩,
  ⟨0x44#8, usesCd ||| usesCs ||| usesAB, fun w => .bcSlice (fieldCd w) (fieldCs w) (fieldA w) (fieldB w)⟩,
  ⟨0x45#8, usesCd ||| usesA ||| usesBit, fun w => .bcSet (fieldCd w) (fieldA w) (fieldBit w)⟩,
  ⟨0x46#8, usesCd ||| usesCs ||| usesAB, fun w => .bcSplice (fieldCd w) (fieldCs w) (fieldA w) (fieldB w)⟩,
  ⟨0x47#8, usesCd ||| usesA ||| usesBit, fun w => .bcIns (fieldCd w) (fieldA w) (fieldBit w)⟩,
  ⟨0x48#8, usesCd ||| usesAB, fun w => .bcDel (fieldCd w) (fieldA w) (fieldB w)⟩,
  ⟨0x49#8, usesCd ||| usesCs ||| usesCt, fun w => .bcCat (fieldCd w) (fieldCs w) (fieldCt w)⟩,
  ⟨0x4A#8, usesCs ||| usesCt, fun w => .bcEq (fieldCs w) (fieldCt w)⟩]

def codeTableRows : List CommandRow := [
  ⟨0x4C#8, usesZ, fun _ => .ctClr⟩,
  ⟨0x4D#8, usesCs ||| usesA, fun w => .ctSt (fieldA w) (fieldCs w)⟩,
  ⟨0x4E#8, usesCd ||| usesA, fun w => .ctLd (fieldCd w) (fieldA w)⟩,
  ⟨0x50#8, usesZ, fun _ => .cgRun⟩]

def codecRows : List CommandRow := [
  ⟨0x60#8, usesZ, fun _ => .encHdr⟩,
  ⟨0x61#8, usesB, fun w => .encPut (fieldV w)⟩,
  ⟨0x62#8, usesZ, fun _ => .encFlush⟩,
  ⟨0x63#8, usesZ, fun _ => .encBody⟩,
  ⟨0x64#8, usesZ, fun _ => .encRun⟩,
  ⟨0x70#8, usesZ, fun _ => .decHdr⟩,
  ⟨0x71#8, usesZ, fun _ => .decBit⟩,
  ⟨0x72#8, usesZ, fun _ => .decSym⟩,
  ⟨0x73#8, usesZ, fun _ => .decBody⟩,
  ⟨0x74#8, usesZ, fun _ => .decRun⟩]

/-- The command set, R92: 52 rows. -/
def commandRows : List CommandRow :=
  systemRows ++ frequencyRows ++ queueRows ++ treeRows ++ codeRows ++ codeTableRows ++ codecRows

/-- Why an encoded input is no instruction. -/
inductive Reject where
  /-- The opcode is not one of the 52 of R92 (R93); the step raises `IllegalCommand`. -/
  | unassignedOpcode
  /-- A bit the row leaves unused is 1 (R93); the step raises `IllegalCommand`. -/
  | reservedBits
  /-- The record does not begin with 0x34, 0x32 (R95); `DEC.HDR` raises `BadMagic`. -/
  | badMagic
  /-- The file_type byte is 3 to 255 (R95); `DEC.HDR` raises `BadFileType`. -/
  | badFileType (t : Byte)
  /-- The record is not wholly there; `DEC.HDR` raises `StreamUnderrun`. -/
  | truncated
deriving DecidableEq, Repr

/-- The row of an opcode, if it is assigned. -/
def rowOf (op : Byte) : Option CommandRow := commandRows.find? (fun r => r.op == op)

/-- Decode a command word (R90, R93): "`word & mask == match` is exactly 'this word is this legal command'". -/
def decodeCommand (w : Word32) : Except Reject Instr :=
  match rowOf (opcodeOf w) with
  | none => .error .unassignedOpcode
  | some r => if w &&& r.mask = r.pattern then .ok (r.build w) else .error .reservedBits

/-! ### Stream records (R65, R95) -/

/-- The magic (R5, R65): 0x34 at offset 0, 0x32 at offset 1. -/
def magic0 : Byte := 0x34#8
def magic1 : Byte := 0x32#8

/-- The first `k` big-endian 4-byte fields of a byte sequence, and the rest. -/
def takeCounts : Nat → List Byte → Option (List Word32 × List Byte)
  | 0, bs => some ([], bs)
  | k + 1, b0 :: b1 :: b2 :: b3 :: bs =>
    match takeCounts k bs with
    | some (cs, rest) => some (unbe32 b0 b1 b2 b3 :: cs, rest)
    | none => none
  | _ + 1, _ => none

/-- The operands that follow a file_type byte (R95). -/
def decodeOperands (t : Byte) (bs : List Byte) : Except Reject (Instr × List Byte) :=
  if t = 0#8 then .ok (.streamEmpty, bs)
  else if t = 1#8 then
    match bs with
    | b0 :: b1 :: b2 :: b3 :: p :: rest => .ok (.streamDegen (unbe32 b0 b1 b2 b3) p, rest)
    | _ => .error .truncated
  else if t = 2#8 then
    match bs with
    | b0 :: b1 :: b2 :: b3 :: rest =>
      match takeCounts 256 rest with
      | some (counts, rest') => .ok (.streamGeneral (unbe32 b0 b1 b2 b3) counts, rest')
      | none => .error .truncated
    | _ => .error .truncated
  else .error (.badFileType t)

/-- Decode the record at the front of a compressed stream (R95); the rest of the stream (for a general record, the
bitstream) is returned with it. -/
def decodeRecord : List Byte → Except Reject (Instr × List Byte)
  | m0 :: m1 :: bs =>
    if m0 = magic0 ∧ m1 = magic1 then
      match bs with
      | [] => .error .truncated
      | t :: rest => decodeOperands t rest
    else .error .badMagic
  | _ => .error .badMagic

/-! ### The encoder -/

/-- Format Z. -/
def wordZ (op : Byte) : Word32 := op ++ 0#24
/-- Format B. -/
def wordB (op v : Byte) : Word32 := op ++ 0#16 ++ v
/-- Format N. -/
def wordN (op : Byte) (n : NodeIx) : Word32 := op ++ 0#15 ++ n
/-- Format NN. -/
def wordNN (op : Byte) (n1 n2 : NodeIx) : Word32 := op ++ 0#3 ++ n2 ++ 0#3 ++ n1
/-- Format C; a field a command does not use is given as 0. -/
def wordC (op : Byte) (cd cs ct : CodeReg) (bit : Bool) (a b : Byte) : Word32 :=
  op ++ b ++ a ++ 0#1 ++ BitVec.ofBool bit ++ ct ++ cs ++ cd
/-- Format M. -/
def wordM (op : Byte) (src snk : Bool) : Word32 := op ++ 0#22 ++ BitVec.ofBool snk ++ BitVec.ofBool src

/-- The bytes of a record (R65). -/
def recordBytes (t : Byte) (operands : List Byte) : List Byte := magic0 :: magic1 :: t :: operands

/-- An encoded instruction: a command word written to `CMD`, or the bytes of a record in the source stream. -/
inductive Encoded where
  | command (w : Word32)
  | record (bytes : List Byte)
deriving DecidableEq, Repr

/-- The encoding of an instruction (R91, R92, R65). -/
def encode : Instr → Encoded
  | .nop => .command (wordZ 0x00#8)
  | .rst => .command (wordZ 0x01#8)
  | .rew src snk => .command (wordM 0x02#8 src snk)
  | .ftClr => .command (wordZ 0x10#8)
  | .ftInc v => .command (wordB 0x11#8 v)
  | .ftSet v => .command (wordB 0x12#8 v)
  | .ftCnt v => .command (wordB 0x13#8 v)
  | .ftOcc => .command (wordZ 0x14#8)
  | .ftScan => .command (wordZ 0x15#8)
  | .pqClr => .command (wordZ 0x20#8)
  | .pqEnq n => .command (wordN 0x21#8 n)
  | .pqDeq => .command (wordZ 0x22#8)
  | .pqPeek => .command (wordZ 0x23#8)
  | .pqLen => .command (wordZ 0x24#8)
  | .trClr => .command (wordZ 0x30#8)
  | .trLeaf v => .command (wordB 0x31#8 v)
  | .trMerge n1 n2 => .command (wordNN 0x32#8 n1 n2)
  | .trBuild => .command (wordZ 0x33#8)
  | .trRoot => .command (wordZ 0x34#8)
  | .trSetroot n => .command (wordN 0x35#8 n)
  | .trIsleaf n => .command (wordN 0x36#8 n)
  | .trValue n => .command (wordN 0x37#8 n)
  | .trLeft n => .command (wordN 0x38#8 n)
  | .trRight n => .command (wordN 0x39#8 n)
  | .trWeight n => .command (wordN 0x3A#8 n)
  | .trHeight n => .command (wordN 0x3B#8 n)
  | .trEq n1 n2 => .command (wordNN 0x3C#8 n1 n2)
  | .bcNew cd bit => .command (wordC 0x40#8 cd 0 0 bit 0 0)
  | .bcPush cd bit => .command (wordC 0x41#8 cd 0 0 bit 0 0)
  | .bcLen cs => .command (wordC 0x42#8 0 cs 0 false 0 0)
  | .bcGet cs a => .command (wordC 0x43#8 0 cs 0 false a 0)
  | .bcSlice cd cs a b => .command (wordC 0x44#8 cd cs 0 false a b)
  | .bcSet cd a bit => .command (wordC 0x45#8 cd 0 0 bit a 0)
  | .bcSplice cd cs a b => .command (wordC 0x46#8 cd cs 0 false a b)
  | .bcIns cd a bit => .command (wordC 0x47#8 cd 0 0 bit a 0)
  | .bcDel cd a b => .command (wordC 0x48#8 cd 0 0 false a b)
  | .bcCat cd cs ct => .command (wordC 0x49#8 cd cs ct false 0 0)
  | .bcEq cs ct => .command (wordC 0x4A#8 0 cs ct false 0 0)
  | .ctClr => .command (wordZ 0x4C#8)
  | .ctSt a cs => .command (wordC 0x4D#8 0 cs 0 false a 0)
  | .ctLd cd a => .command (wordC 0x4E#8 cd 0 0 false a 0)
  | .cgRun => .command (wordZ 0x50#8)
  | .encHdr => .command (wordZ 0x60#8)
  | .encPut v => .command (wordB 0x61#8 v)
  | .encFlush => .command (wordZ 0x62#8)
  | .encBody => .command (wordZ 0x63#8)
  | .encRun => .command (wordZ 0x64#8)
  | .decHdr => .command (wordZ 0x70#8)
  | .decBit => .command (wordZ 0x71#8)
  | .decSym => .command (wordZ 0x72#8)
  | .decBody => .command (wordZ 0x73#8)
  | .decRun => .command (wordZ 0x74#8)
  | .streamEmpty => .record (recordBytes 0#8 [])
  | .streamDegen count value => .record (recordBytes 1#8 (be32 count ++ [value]))
  | .streamGeneral total counts => .record (recordBytes 2#8 (be32 total ++ counts.flatMap be32))

/-- Decoding of either kind of encoded input; what follows a record is dropped. -/
def decode : Encoded → Except Reject Instr
  | .command w => decodeCommand w
  | .record bytes => (decodeRecord bytes).map Prod.fst

/-- The command word of an instruction, which `OperandRange` reports (R175(d), R232); 0 for a record, which has none. -/
def commandWord (i : Instr) : Word32 :=
  match encode i with
  | .command w => w
  | .record _ => 0#32

/-! ### The table's numbering of an encoded instruction's bits -/

/-- The bytes of a `STREAM` row's 24-bit number `h`, first byte most significant (R95), then zeros for the operands. -/
def tableRecordBytes (w : Nat) : List Byte :=
  [BitVec.ofNat 8 (w / 65536), BitVec.ofNat 8 (w / 256), BitVec.ofNat 8 w] ++ List.replicate 1028 0#8

/-- The instruction the decoder reads from a word numbered as spec/opcode_table.json numbers it: 32 bits are a command
word, 24 bits the `h` of a stream record (R95). -/
def decodeTableWord (nbits w : Nat) : Option Instr :=
  if nbits = 32 then (decodeCommand (BitVec.ofNat 32 w)).toOption
  else if nbits = 24 then ((decodeRecord (tableRecordBytes w)).map Prod.fst).toOption
  else none

end Sys2Proof
end

