-- ==== Sys2Proof/Machine/State.lean ====
section
/-! DEFINITION. The state of HUFFCORE (10_state.md rules R20 to R41) as plain data, and its value after reset (R39). -/

namespace Sys2Proof.Machine

/-- The closed enumeration of error kinds (R230), `ok` included. The field `STATUS.ERR` holds one of them; its
number is `Err.code`. -/
inductive Err where
  | ok
  /-- Kept because HUFDOC lists it; no rule raises it (R240). -/
  | nonComparable
  | emptyQueue
  | notALeaf
  | isALeaf
  | emptyCode
  | badMagic
  | illegalCommand
  | operandRange
  | codeOverflow
  | countOverflow
  | lengthOverflow
  | streamUnderrun
  | badFileType
  | noTree
  | badNode
  | noCode
  | queueFull
  | arenaFull
  | selfMerge
  | weightOverflow
  | noHeader
deriving DecidableEq, Repr

/-- What a node is (R28): HUFDOC's `Leaf{value, weight}` or `Internal{left, right, weight}`. -/
inductive NodeBody where
  | leaf (value : Byte) (weight : Word64)
  | internal (left right : NodeIx) (weight : Word64)
deriving DecidableEq, Repr

/-- A valid entry of the node store (R28): `owned`, and the `tag`, `value`, `weight`, `left`, `right` of its body. -/
structure Node where
  owned : Bool
  body : NodeBody
deriving DecidableEq, Repr

/-- The sink's storage (20_memory.md R60, R74): position and byte, positions strictly rising (`Memory.wf`). A position
that is not listed holds no byte (log entry 4). -/
abbrev Memory := List Host.Cell

/-- What the outside world does to the core (R263): the host's moves between commands. -/
inductive HostMove where
  /-- A bus write of `value` at `offset`, `width` bits wide (R38). At offset 0, 32 bits, it writes `CMD`. -/
  | write (offset width : Nat) (value : Word64)
  /-- The host supplies the source stream: these bytes from position 0 (R262). `SRC_LEN` is written apart. -/
  | connectSource (bytes : List Byte)
  /-- The host supplies the sink's storage, which may hold old bytes (R262, R274). -/
  | connectSink (bytes : List Byte)
  /-- Hardware reset (R260). -/
  | hardwareReset
deriving DecidableEq, Repr

/-- The complete state (R20). Fields stand in the order of R20; the comment gives the register and its rule. -/
structure State where
  /-- `ARG0` (R21) -/
  arg0 : Word64
  /-- `RES0` (R21) -/
  res0 : Word64
  /-- `OCC` (R33) -/
  occ : BitVec 256
  /-- `STATUS.ERR` (R24, R230) -/
  err : Err
  /-- `STATUS.FAULTED` (R24) -/
  faulted : Bool
  /-- `ERRINFO` (R25) -/
  errInfo : Word64
  /-- `FILE_TYPE` (R26) -/
  fileType : Byte
  /-- `TOTAL_LEN` (R26) -/
  totalLen : Word32
  /-- `DG_COUNT` (R26) -/
  dgCount : Word32
  /-- `DG_VALUE` (R26) -/
  dgValue : Byte
  /-- `HDR_VALID` (R26) -/
  hdrValid : Bool
  /-- `FT` (R27) -/
  ft : FreqTable
  /-- `NM` (R28): the valid entries `NM[0..NM_NEXT)`, in index order; `NM_NEXT` is the length (log entry 5). -/
  nm : List Node
  /-- `ROOT` (R29) -/
  root : NodeIx
  /-- `ROOT_VALID` (R29) -/
  rootValid : Bool
  /-- `PQ` (R30): the entries `PQ[0..PQ_LEN)`, front first; `PQ_LEN` is the length (log entry 5). -/
  pq : List NodeIx
  /-- `C[0..3]` (R31); `none` is `valid = 0`. -/
  codes : Vector (Option BinaryCode) 4
  /-- `CT` (R32); `none` is `valid = 0`. -/
  ct : CodeTable
  /-- `BB_BITS` (R34) -/
  bbBits : BitVec 8
  /-- `BB_CNT` (R34) -/
  bbCnt : BitVec 4
  /-- `DBYTE` (R35) -/
  dbyte : Byte
  /-- `BITPOS` (R35) -/
  bitPos : BitVec 3
  /-- `CUR` (R35) -/
  cur : NodeIx
  /-- `CUR_VALID` (R35) -/
  curValid : Bool
  /-- `EMITTED` (R35) -/
  emitted : Word32
  /-- `SRC_POS` (R36), a natural number (D19; log entry 3) -/
  srcPos : Nat
  /-- `SRC_LEN` (R36) -/
  srcLen : Word64
  /-- `SNK_POS` (R36), a natural number (D19; log entry 3) -/
  snkPos : Nat
  /-- The sink's storage (R36, R74): the produced output is its bytes at positions below `SNK_POS`. -/
  snk : Memory
  /-- The source's bytes `SRC[0]`, `SRC[1]`, ... (R11, R60): "a finite sequence of bytes", a parameter of the run, held
  here so that a run can be written down; no instruction writes it (log entry 6). -/
  src : List Byte
  /-- The host's coming moves, the next one first (R10, R263; log entry 7). -/
  host : List HostMove
deriving DecidableEq, Repr

/-- Why the machine stops. No command of the spec stops it: an error of R230 is a next state. -/
inductive Fault where
  /-- Raised by the commands that read the source (`FT.SCAN`, `ENC.BODY`, `ENC.RUN`, `DEC.*`, the general record)
  when `SRC_POS < SRC_LEN` but the source holds no byte there: the host broke its duty to "write `SRC_LEN` ≤ the
  number of bytes the source really has" (R263), and the spec gives no byte to read. Safe. Log entry 4. -/
  | sourceByteAbsent
  /-- Raised by `TR.HEIGHT`, `TR.EQ` and `CG.RUN` when the node store holds a cycle, so that the walk of R152, R153,
  R181 has no end. No run reaches such a store (R28, R145); safe. Log entry 8. -/
  | endlessWalk
deriving DecidableEq, Repr

/-- Why an instruction has no meaning. -/
inductive Refusal where
  /-- Raised by `exec`'s arm of an instruction that is not modelled yet; safe. -/
  | notModelled (mnemonic : String)
deriving DecidableEq, Repr

/-- The state after hardware reset (R39). The fields R39 calls "unspecified and never read" (`ROOT`, `CUR`) are 0
(log entry 2); the entries of `NM`, `PQ`, `C`, `CT` that hold nothing have no value to give. No stream is connected
and the host has made no move. -/
def State.reset : State where
  arg0 := 0
  res0 := 0
  occ := 0
  err := .ok
  faulted := false
  errInfo := 0
  fileType := 0
  totalLen := 0
  dgCount := 0
  dgValue := 0
  hdrValid := false
  ft := Vector.replicate 256 0
  nm := []
  root := 0
  rootValid := false
  pq := []
  codes := Vector.replicate 4 none
  ct := Vector.replicate 256 none
  bbBits := 0
  bbCnt := 0
  dbyte := 0
  bitPos := 0
  cur := 0
  curValid := false
  emitted := 0
  srcPos := 0
  srcLen := 0
  snkPos := 0
  snk := []
  src := []
  host := []

end Sys2Proof.Machine
end

