-- ==== Sys2Proof/Machine/Ops.lean ====
section
/-! DEFINITION. The named operations over the state that the meanings share: raising an error and completing a command,
the streams, the frequency table, the code registers and table, the node store, the queue, the bit buffer. -/

namespace Sys2Proof.Machine

/-! ### The sizes of R5 -/

/-- COUNT_W: the largest count, 2^32 − 1 (R121). -/
def countMax : Word32 := 0xFFFFFFFF#32
/-- NODE_MAX (R28). -/
def nodeMax : Nat := 511
/-- PQ_CAP (R30). -/
def pqCap : Nat := 256
/-- CODE_MAX (R31, R175). -/
def codeMax : Nat := 255
/-- DEGEN_TAIL (R206). -/
def degenTail : Byte := 0x0A#8
/-- The byte values 0 to 255 in ascending order, the enumeration order of R146 and R191 (D7). -/
def allBytes : List Byte := (List.range 256).map (BitVec.ofNat 8)

/-! ### Raising an error, completing a command (60_exceptions.md R233) -/

/-- `raise K(info)`: "`STATUS.ERR <- code(K)`; `FAULTED <- 1`; `ERRINFO <- info`. Nothing else". There is no handler,
vector, mode or saved program counter (R233, R239), so this is all of taking an exception, and there is no return from
one (R237). -/
def State.raise (k : Err) (info : Word64) (s : State) : State :=
  { s with err := k, faulted := true, errInfo := info }

/-- The end of a command that met no `raise`: "`STATUS.ERR <- 0`" and nothing else (R233). -/
def State.complete (s : State) : State := { s with err := .ok }

/-- What the body of a command comes to. -/
inductive Res where
  /-- The body reached its end in this state. -/
  | done (s : State)
  /-- The body reached `raise K(info)` in this state. -/
  | raised (k : Err) (info : Word64) (s : State)
  /-- The machine stopped. -/
  | stopped (f : Fault)
deriving DecidableEq, Repr

/-- Go on with the next step of a sequenced command; "the command stops at the first step that raises; the effects of
the earlier steps stay" (R235). -/
def Res.andThen (r : Res) (next : State → Res) : Res :=
  match r with
  | .done s => next s
  | .raised k info s => .raised k info s
  | .stopped f => .stopped f

/-- Go on with the next whole command of a pass: "the steps are whole commands" (R197, R212), so the one that ends has
done `STATUS.ERR <- 0`. -/
def Res.thenCommand (r : Res) (next : State → Res) : Res := r.andThen fun s => next s.complete

/-- The end of a command (R233). -/
def Res.finish : Res → Host.Outcome State Fault Refusal
  | .done s => .next s.complete
  | .raised k info s => .next (s.raise k info)
  | .stopped f => .fault f

/-! ### Streams (20_memory.md) -/

/-- What a position that is not listed reads as: no byte (log entry 4). -/
def Memory.unlisted : Option Byte := none

/-- The byte at a position. -/
def Memory.read : Memory → Nat → Option Byte
  | [], _ => Memory.unlisted
  | (p, b) :: rest, a => if p = a then some b else Memory.read rest a

/-- Write the byte at a position, keeping the positions strictly rising. -/
def Memory.write : Memory → Nat → Byte → Memory
  | [], a, v => [(a, v)]
  | (p, b) :: rest, a, v =>
    if a < p then (a, v) :: (p, b) :: rest
    else if a = p then (a, v) :: rest
    else (p, b) :: Memory.write rest a v

/-- The canonical form: positions strictly rising (no listed entry can equal an unlisted one, which holds no byte). -/
def Memory.wf : Memory → Bool
  | [] => true
  | [_] => true
  | a :: b :: rest => decide (a.1 < b.1) && Memory.wf (b :: rest)

/-- Bytes at consecutive positions from `pos`. -/
def Memory.ofBytes (pos : Nat) : List Byte → Memory
  | [] => []
  | b :: bs => (pos, b) :: Memory.ofBytes (pos + 1) bs

/-- How many source bytes are left: `SRC_LEN − SRC_POS`, 0 when `SRC_POS ≥ SRC_LEN` (`SrcAtEnd`, R62; log entry 9). -/
def State.srcLeft (s : State) : Nat := s.srcLen.toNat - s.srcPos

/-- `SRC[SRC_POS]`, the byte the next `SrcRead()` returns (R62). -/
def State.srcPeek (s : State) : Option Byte := s.src[s.srcPos]?

/-- The next `n` bytes of the source, in order of increasing position, if the source holds them all. -/
def State.srcRun (n : Nat) (s : State) : Option (List Byte) :=
  let bs := (s.src.drop s.srcPos).take n
  if bs.length = n then some bs else none

/-- `SinkWrite(b)` (R63). -/
def State.sinkWrite (b : Byte) (s : State) : State :=
  { s with snk := s.snk.write s.snkPos b, snkPos := s.snkPos + 1 }

/-- `SinkWrite` of several bytes in order. -/
def State.sinkWrites (bs : List Byte) (s : State) : State := bs.foldl (fun s b => s.sinkWrite b) s

/-- The rewinds (R64). -/
def State.rewindSrc (s : State) : State := { s with srcPos := 0 }
def State.rewindSnk (s : State) : State := { s with snkPos := 0 }

/-- The produced output `SNK[0..SNK_POS)` (R74), position by position. -/
def State.output (s : State) : List (Option Byte) := (List.range s.snkPos).map s.snk.read

/-- `need(n)` and then `n` times `SrcRead()` (47_decoder.md): `StreamUnderrun(SRC_POS)` when the field is not wholly
there, and then none of it is consumed (R205). -/
def withBytes (n : Nat) (s : State) (k : List Byte → State → Res) : Res :=
  if s.srcLeft < n then .raised .streamUnderrun (BitVec.ofNat 64 s.srcPos) s
  else
    match s.srcRun n with
    | none => .stopped .sourceByteAbsent
    | some bs => k bs { s with srcPos := s.srcPos + n }

/-- `withBytes` for one 4-byte big-endian field (R66). -/
def withField (s : State) (k : Word32 → State → Res) : Res :=
  withBytes 4 s fun bs s =>
    match bs with
    | [b0, b1, b2, b3] => k (unbe32 b0 b1 b2 b3) s
    | _ => .stopped .sourceByteAbsent

/-- `withBytes` for one byte. -/
def withByte (s : State) (k : Byte → State → Res) : Res :=
  withBytes 1 s fun bs s =>
    match bs with
    | [b] => k b s
    | _ => .stopped .sourceByteAbsent

/-! ### Tables indexed by a byte value -/

/-- `FT[v]`, `CT[v]` (R8). -/
def tableGet {α : Type} (t : Vector α 256) (v : Byte) : α := t[v.toNat]'v.isLt

/-- `FT[v] <- x`, `CT[v] <- x` (R8). -/
def tableSet {α : Type} (t : Vector α 256) (v : Byte) (x : α) : Vector α 256 := t.set v.toNat x v.isLt

/-- `FT[v]` (R27). -/
def State.count (s : State) (v : Byte) : Word32 := tableGet s.ft v

/-- `FT[v] <- n` (R27). -/
def State.setCount (v : Byte) (n : Word32) (s : State) : State := { s with ft := tableSet s.ft v n }

/-- `occupied(FT)` (R8): the ascending list of byte values with a count that is not 0. -/
def occupied (ft : FreqTable) : List Byte := allBytes.filter (fun v => tableGet ft v != 0#32)

/-- The bit map of `occupied(FT)` as a number (R33, R124): bit `v` is 1 exactly when the `v`-th count is not 0. -/
def occBits : List Word32 → Nat
  | [] => 0
  | c :: cs => (if c = 0#32 then 0 else 1) + 2 * occBits cs

/-- The sum of the counts as a natural number (R126, R191). -/
def countSum (ft : FreqTable) : Nat := (ft.toList.map BitVec.toNat).sum

/-- DEGEN_PICK (R191, D12): one of the two occupied values, which of them being open (log entry 1). Of a table with
one occupied value it is that value (R191's `k = 1`). -/
def degenPick (ft : FreqTable) : Byte :=
  match occupied ft with
  | [] => 0#8
  | [p] => p
  | p :: q :: _ => if Config.degenPicksHigher ft then q else p

/-! ### The node store (10_state.md R28) -/

/-- `NM_NEXT` (R28). -/
def State.nmNext (s : State) : Nat := s.nm.length

/-- The node at an index, if `n ≤ 510` and `NM[n].valid = 1` (R40, 43_tree.md). -/
def State.node? (s : State) (n : NodeIx) : Option Node :=
  if n.toNat < nodeMax then s.nm[n.toNat]? else none

/-- `NM[n].weight` (R28), of both kinds of node. -/
def NodeBody.weight : NodeBody → Word64
  | .leaf _ w => w
  | .internal _ _ w => w

/-- Set the `owned` bit of an entry (R28). -/
def setOwned (nm : List Node) (n : NodeIx) : List Node := nm.modify n.toNat (fun nd => { nd with owned := true })

/-- Write the entry `NM[NM_NEXT]`, not owned, and advance `NM_NEXT` (R141, R142, R146). -/
def State.pushNode (b : NodeBody) (s : State) : State := { s with nm := s.nm ++ [⟨false, b⟩] }

/-- The index of the next entry, as a register value. -/
def State.nextIx (s : State) : NodeIx := BitVec.ofNat 9 s.nm.length

/-- Why a walk over nodes cannot be made; neither case arises in a store a run reaches (R145). -/
inductive WalkErr where
  /-- The walk came to an index that names no node: `BadNode` (R40). -/
  | badNode (n : NodeIx)
  /-- The walk has no end: a cycle (log entry 8). -/
  | endless
deriving DecidableEq, Repr

/-- What a failed walk does to its command, which has changed nothing yet. -/
def WalkErr.toRes (s : State) : WalkErr → Res
  | .badNode n => .raised .badNode (n.setWidth 64) s
  | .endless => .stopped .endlessWalk

/-- What `TR.CLR` does (R140); also the first step of `TR.BUILD`. -/
def State.clearTree (s : State) : State :=
  { s with nm := [], rootValid := false, curValid := false, pq := [] }

/-! ### The priority queue (42_priority_queue.md) -/

/-- The linear scan of R131: the item goes before the first entry "whose existing weight is strictly greater", and to
the end when there is none. An entry that names no node has no weight to compare (R40); no run reaches one. -/
def insertByWeight (s : State) (w : Word64) (n : NodeIx) : List NodeIx → Except NodeIx (List NodeIx)
  | [] => .ok [n]
  | q :: qs =>
    match s.node? q with
    | none => .error q
    | some nd =>
      if nd.body.weight > w then .ok (n :: q :: qs)
      else
        match insertByWeight s w n qs with
        | .ok l => .ok (q :: l)
        | .error e => .error e

/-- `enqueue(n)`, the algorithm of R131. -/
def enqueue (n : NodeIx) (s : State) : Res :=
  match s.node? n with
  | none => .raised .badNode (n.setWidth 64) s
  | some nd =>
    if pqCap ≤ s.pq.length then .raised .queueFull (n.setWidth 64) s
    else
      match insertByWeight s nd.body.weight n s.pq with
      | .ok q => .done { s with pq := q }
      | .error q => .raised .badNode (q.setWidth 64) s

/-- `dequeue()`, the algorithm of R132, without its write to `RES0`. -/
def dequeue (s : State) (k : NodeIx → State → Res) : Res :=
  match s.pq with
  | [] => .raised .emptyQueue 0#64 s
  | q :: qs => k q { s with pq := qs }

/-! ### Code registers (10_state.md R31) -/

/-- `C[k]` (R31). -/
def State.codeAt (s : State) (k : CodeReg) : Option BinaryCode := s.codes[k.toNat]'k.isLt

/-- `C[k] <- c` (R31, R175(a)): `valid`, `len` and `bits`. -/
def State.setCode (k : CodeReg) (c : BinaryCode) (s : State) : State :=
  { s with codes := s.codes.set k.toNat (some c) k.isLt }

/-! ### The bit buffer (46_encoder.md R190) -/

/-- `x[i] <- v` on a byte. -/
def setBit (x : BitVec 8) (i : Nat) (v : Bool) : BitVec 8 :=
  if v then x ||| (1#8 <<< i) else x &&& ~~~(1#8 <<< i)

/-- `bb_append(bit)` (R190). -/
def bbAppend (s : State) (bit : Bool) : State :=
  let s' := { s with bbBits := setBit s.bbBits s.bbCnt.toNat bit, bbCnt := s.bbCnt + 1 }
  if s'.bbCnt = 8#4 then { (s'.sinkWrite s'.bbBits) with bbBits := 0#8, bbCnt := 0#4 } else s'

/-- `bb_append` of several bits in order (R192). -/
def bbAppends (s : State) (bits : List Bool) : State := bits.foldl bbAppend s

/-- The final flush (R193): "only if any bits remain pending". -/
def bbFlush (s : State) : State :=
  if s.bbCnt = 0#4 then s else { (s.sinkWrite s.bbBits) with bbBits := 0#8, bbCnt := 0#4 }

end Sys2Proof.Machine
end

