-- ==== Sys2Proof/Machine/Flags.lean ====
section
/-! DEFINITION. `STATUS` (10_state.md R24) and the one-bit state (R23). HUFFCORE has no condition codes: no command's result
depends on a flag set by an earlier arithmetic result (R23). -/

namespace Sys2Proof.Machine

/-- The number of an error kind (R230), which `STATUS.ERR` shows. -/
def Err.code : Err → BitVec 8
  | .ok => 0#8
  | .nonComparable => 1#8
  | .emptyQueue => 2#8
  | .notALeaf => 3#8
  | .isALeaf => 4#8
  | .emptyCode => 5#8
  | .badMagic => 6#8
  | .illegalCommand => 7#8
  | .operandRange => 8#8
  | .codeOverflow => 9#8
  | .countOverflow => 10#8
  | .lengthOverflow => 11#8
  | .streamUnderrun => 12#8
  | .badFileType => 13#8
  | .noTree => 14#8
  | .badNode => 15#8
  | .noCode => 16#8
  | .queueFull => 17#8
  | .arenaFull => 18#8
  | .selfMerge => 19#8
  | .weightOverflow => 20#8
  | .noHeader => 21#8

/-- `STATUS` as the host reads it (R24): bits 7:0 `ERR`, 8 `FAULTED`, 9 `ROOT_VALID`, 10 `HDR_VALID`, 11 `CUR_VALID`,
14:12 `BB_CNT`, 15 reserved, 18:16 `BITPOS`, 31:19 reserved. -/
def State.status (s : State) : Word32 :=
  0#13 ++ s.bitPos ++ 0#1 ++ s.bbCnt.extractLsb' 0 3 ++ BitVec.ofBool s.curValid ++ BitVec.ofBool s.hdrValid ++
    BitVec.ofBool s.rootValid ++ BitVec.ofBool s.faulted ++ s.err.code

/-- `NM[n].valid` (R28). -/
def State.nodeValid (s : State) (n : NodeIx) : Bool := (s.node? n).isSome

/-- `NM[n].owned` (R28), 0 for an invalid entry (R39). -/
def State.nodeOwned (s : State) (n : NodeIx) : Bool := ((s.node? n).map Node.owned).getD false

/-- `C[k].valid` (R31). -/
def State.codeValid (s : State) (k : CodeReg) : Bool := (s.codeAt k).isSome

/-- `CT[v].valid` (R32). -/
def State.ctValid (s : State) (v : Byte) : Bool := (tableGet s.ct v).isSome

end Sys2Proof.Machine
end

