-- ==== Sys2Proof/Machine/Operands.lean ====
section
/-! DEFINITION. The operand forms of the commands (30_encoding.md R91, R94): a node index, a code register, an index or a span of
a code, a code-table entry. Each form checks what its rules check and hands the operand's value on; no operand is
sign-extended, scaled or shifted (R94). -/

namespace Sys2Proof.Machine

/-- `raise K(info)` at this point of a body (R233). -/
def raise (k : Err) (info : Word64) (s : State) : Res := .raised k info s

/-- `RES0 <- x`, the end of a query command (R21). -/
def result (x : Word64) (s : State) : Res := .done { s with res0 := x }

/-- A flag in `RES0`: 1 or 0. -/
def boolWord (b : Bool) : Word64 := if b then 1#64 else 0#64

/-- A node operand: `if not valid(n): raise BadNode(n)` (43_tree.md). -/
def withNode (n : NodeIx) (s : State) (k : Node → Res) : Res :=
  match s.node? n with
  | none => raise .badNode (n.setWidth 64) s
  | some nd => k nd

/-- A code register operand that is read: `if C[k].valid = 0: raise NoCode(k)` (R175(e)). -/
def withCode (k : CodeReg) (s : State) (f : BinaryCode → Res) : Res :=
  match s.codeAt k with
  | none => raise .noCode (k.setWidth 64) s
  | some c => f c

/-- A code-table operand that is read: `if CT[v].valid = 0: raise NoCode(0x100 + v)` (R175(e)). -/
def withCtEntry (v : Byte) (s : State) (f : BinaryCode → Res) : Res :=
  match tableGet s.ct v with
  | none => raise .noCode (0x100#64 + v.setWidth 64) s
  | some c => f c

/-- `OperandRange(word)`, `word` the command word (R175(d)). -/
def rangeError (i : Instr) (s : State) : Res := raise .operandRange ((commandWord i).setWidth 64) s

/-- An index is in range when `i < len(s)` (R175(b)). -/
def indexOk (i : Byte) (c : BinaryCode) : Bool := decide (i.toNat < c.length)

/-- A span is in range when `a ≤ b ≤ len(s)` (R175(c)). -/
def spanOk (a b : Byte) (c : BinaryCode) : Bool := decide (a.toNat ≤ b.toNat) && decide (b.toNat ≤ c.length)

/-- `c[a..b)` (R7): the elements from `a` up to but not including `b`. -/
def codeSlice (c : BinaryCode) (a b : Nat) : BinaryCode := (c.take b).drop a

/-- Replace the span `a, b` of a code by a sequence of bits: `c[0..a) ++ bits ++ c[b..len)` (R166, R167, R168). -/
def codeReplace (c : BinaryCode) (a b : Nat) (bits : List Bool) : BinaryCode := c.take a ++ bits ++ c.drop b

end Sys2Proof.Machine
end

