-- ==== Sys2Proof/Machine/Code.lean ====
section
/-! DEFINITION. Binary code and code table commands (44_binary_code.md R160 to R173, conventions R175). Each meaning makes
the checks of its rule in R175(h)'s order and reads every source before it writes the destination (R175(i)). -/

namespace Sys2Proof.Machine

/-- Write a result of at most 255 bits to `C[cd]`; a longer one is `CodeOverflow(cd)` (R175(f)). -/
def storeCode (cd : CodeReg) (c : BinaryCode) (s : State) : Res :=
  if codeMax < c.length then raise .codeOverflow (cd.setWidth 64) s else .done (s.setCode cd c)

/-- `BC.GET` (R163). -/
def getBody (cs : CodeReg) (a : Byte) (s : State) : Res :=
  withCode cs s fun code =>
    match code[a.toNat]? with
    | none => rangeError (.bcGet cs a) s
    | some bit => result (boolWord bit) s

/-- `BC.SLICE` (R164). -/
def sliceBody (cd cs : CodeReg) (a b : Byte) (s : State) : Res :=
  withCode cs s fun c =>
    if !spanOk a b c then rangeError (.bcSlice cd cs a b) s
    else if a = b then raise .emptyCode (cd.setWidth 64) s
    else .done (s.setCode cd (codeSlice c a.toNat b.toNat))

/-- `BC.SET` (R165). -/
def setBody (cd : CodeReg) (a : Byte) (bit : Bool) (s : State) : Res :=
  withCode cd s fun c =>
    if !indexOk a c then rangeError (.bcSet cd a bit) s
    else .done (s.setCode cd (c.set a.toNat bit))

/-- `BC.SPLICE` (R166): `NoCode` on the destination first. -/
def spliceBody (cd cs : CodeReg) (a b : Byte) (s : State) : Res :=
  withCode cd s fun d =>
  withCode cs s fun c =>
    if !spanOk a b d then rangeError (.bcSplice cd cs a b) s
    else storeCode cd (codeReplace d a.toNat b.toNat c) s

/-- `BC.INS` (R167): `i = len` appends. -/
def insBody (cd : CodeReg) (a : Byte) (bit : Bool) (s : State) : Res :=
  withCode cd s fun c =>
    if c.length < a.toNat then rangeError (.bcIns cd a bit) s
    else storeCode cd (codeReplace c a.toNat a.toNat [bit]) s

/-- `BC.DEL` (R168): "code left unchanged (no partial delete)". -/
def delBody (cd : CodeReg) (a b : Byte) (s : State) : Res :=
  withCode cd s fun c =>
    if !spanOk a b c then rangeError (.bcDel cd a b) s
    else if b.toNat - a.toNat = c.length then raise .emptyCode (cd.setWidth 64) s
    else .done (s.setCode cd (codeReplace c a.toNat b.toNat []))

/-- `BC.NEW Cd, bit` (R160). -/
def execBcNew (cd : CodeReg) (bit : Bool) (s : State) : Host.Outcome State Fault Refusal :=
  (Res.done (s.setCode cd [bit])).finish

/-- `BC.PUSH Cd, bit` (R161). -/
def execBcPush (cd : CodeReg) (bit : Bool) (s : State) : Host.Outcome State Fault Refusal :=
  (withCode cd s fun c => storeCode cd (c ++ [bit]) s).finish

/-- `BC.LEN Cs` (R162). -/
def execBcLen (cs : CodeReg) (s : State) : Host.Outcome State Fault Refusal :=
  (withCode cs s fun c => result (BitVec.ofNat 64 c.length) s).finish

/-- `BC.GET Cs, i` (R163). -/
def execBcGet (cs : CodeReg) (a : Byte) (s : State) : Host.Outcome State Fault Refusal := (getBody cs a s).finish

/-- `BC.SLICE Cd, Cs, a, b` (R164). -/
def execBcSlice (cd cs : CodeReg) (a b : Byte) (s : State) : Host.Outcome State Fault Refusal :=
  (sliceBody cd cs a b s).finish

/-- `BC.SET Cd, i, bit` (R165). -/
def execBcSet (cd : CodeReg) (a : Byte) (bit : Bool) (s : State) : Host.Outcome State Fault Refusal :=
  (setBody cd a bit s).finish

/-- `BC.SPLICE Cd, Cs, a, b` (R166). -/
def execBcSplice (cd cs : CodeReg) (a b : Byte) (s : State) : Host.Outcome State Fault Refusal :=
  (spliceBody cd cs a b s).finish

/-- `BC.INS Cd, i, bit` (R167). -/
def execBcIns (cd : CodeReg) (a : Byte) (bit : Bool) (s : State) : Host.Outcome State Fault Refusal :=
  (insBody cd a bit s).finish

/-- `BC.DEL Cd, a, b` (R168). -/
def execBcDel (cd : CodeReg) (a b : Byte) (s : State) : Host.Outcome State Fault Refusal :=
  (delBody cd a b s).finish

/-- `BC.CAT Cd, Cs, Ct` (R169). -/
def execBcCat (cd cs ct : CodeReg) (s : State) : Host.Outcome State Fault Refusal :=
  (withCode cs s fun c => withCode ct s fun d => storeCode cd (c ++ d) s).finish

/-- `BC.EQ Cs, Ct` (R170). -/
def execBcEq (cs ct : CodeReg) (s : State) : Host.Outcome State Fault Refusal :=
  (withCode cs s fun c => withCode ct s fun d => result (boolWord (c == d)) s).finish

/-- The empty code table (R171); also the first change `CG.RUN` makes (R181). -/
def emptyTable : CodeTable := Vector.replicate 256 none

/-- `CT.CLR` (R171). -/
def execCtClr (s : State) : Host.Outcome State Fault Refusal := (Res.done { s with ct := emptyTable }).finish

/-- `CT.ST v, Cs` (R172): the code is copied. -/
def execCtSt (a : Byte) (cs : CodeReg) (s : State) : Host.Outcome State Fault Refusal :=
  (withCode cs s fun c => .done { s with ct := tableSet s.ct a (some c) }).finish

/-- `CT.LD Cd, v` (R173). -/
def execCtLd (cd : CodeReg) (a : Byte) (s : State) : Host.Outcome State Fault Refusal :=
  (withCtEntry a s fun c => .done (s.setCode cd c)).finish

end Sys2Proof.Machine
end

