-- ==== Sys2Proof/Machine/Tree.lean ====
section
/-! DEFINITION. Huffman tree commands (43_tree.md R140 to R153). -/

namespace Sys2Proof.Machine

/-! ### Making nodes -/

/-- `TR.LEAF` (R141). -/
def leafBody (v : Byte) (s : State) : Res :=
  if nodeMax ≤ s.nmNext then raise .arenaFull 511#64 s
  else result (s.nextIx.setWidth 64) (s.pushNode (.leaf v s.arg0))

/-- Make the internal node of two children that are both valid, at `NM[NM_NEXT]`, and own them (R142, R146). -/
def joinNodes (a b : NodeIx) (na nb : Node) (s : State) : State :=
  State.pushNode (.internal a b (na.body.weight + nb.body.weight)) { s with nm := setOwned (setOwned s.nm a) b }

/-- `TR.MERGE` (R142), its checks in the order of the pseudocode. -/
def mergeBody (n1 n2 : NodeIx) (s : State) : Res :=
  withNode n1 s fun nd1 =>
  withNode n2 s fun nd2 =>
    if n1 = n2 then raise .selfMerge (n1.setWidth 64) s
    else if nd1.owned then raise .badNode (n1.setWidth 64) s
    else if nd2.owned then raise .badNode (n2.setWidth 64) s
    else if 2 ^ 64 ≤ nd1.body.weight.toNat + nd2.body.weight.toNat then raise .weightOverflow (n1.setWidth 64) s
    else if nodeMax ≤ s.nmNext then raise .arenaFull 511#64 s
    else result (s.nextIx.setWidth 64) (joinNodes n1 n2 nd1 nd2 s)

/-! ### Construction by priority-queue merge (R146) -/

/-- Step 1 for one occupied byte value: make its leaf and enqueue it. -/
def addLeaf (v : Byte) (s : State) : Res :=
  enqueue s.nextIx (s.pushNode (.leaf v ((s.count v).setWidth 64)))

/-- Step 1: "one leaf per occupied byte value, in ascending byte-value order". -/
def buildLeaves : List Byte → State → Res
  | [], s => .done s
  | v :: vs, s =>
    if s.count v = 0#32 then buildLeaves vs s
    else (addLeaf v s).andThen (buildLeaves vs)

/-- Step 3, one merge: the first-dequeued is the left child, the second the right; the new node is re-enqueued. -/
def mergeStep (s : State) : Res :=
  dequeue s fun a s =>
  dequeue s fun b s =>
    if a = b then raise .selfMerge (a.setWidth 64) s
    else
      withNode a s fun na =>
      withNode b s fun nb =>
        enqueue s.nextIx (joinNodes a b na nb s)

/-- Step 3: `while PQ_LEN > 1`. Each merge shortens the queue by one, so `PQ_LEN` merges are enough. -/
def mergeLoop : Nat → State → Res
  | 0, s => .done s
  | k + 1, s => if s.pq.length > 1 then (mergeStep s).andThen (mergeLoop k) else .done s

/-- Step 4: "the one remaining tree is the result". -/
def takeRoot (s : State) : Res :=
  dequeue s fun r s => result (r.setWidth 64) { s with root := r, rootValid := true }

/-- `TR.BUILD` (R146). -/
def buildBody (s : State) : Res :=
  (buildLeaves allBytes s.clearTree).andThen fun s =>
    if s.pq = [] then raise .emptyQueue 0#64 s
    else (mergeLoop s.pq.length s).andThen takeRoot

/-! ### Accessors -/

/-- `height` (R152), walking at most `fuel` nodes deep. -/
def heightFrom (s : State) : Nat → NodeIx → Except WalkErr Nat
  | 0, _ => .error .endless
  | fuel + 1, n =>
    match s.node? n with
    | none => .error (.badNode n)
    | some ⟨_, .leaf _ _⟩ => .ok 0
    | some ⟨_, .internal l r _⟩ =>
      match heightFrom s fuel l, heightFrom s fuel r with
      | .ok hl, .ok hr => .ok (1 + max hl hr)
      | .ok _, .error e => .error e
      | .error e, _ => .error e

/-- How deep a walk may go: a walk that passes more nodes than the store holds meets one of them twice, so the store
holds a cycle (R28: it never does). -/
def walkFuel (s : State) : Nat := s.nm.length + 1

/-- `equiv(p, q)` (R153): the weights of internal nodes and the indices are not compared. -/
def equivFrom (s : State) : Nat → NodeIx → NodeIx → Except WalkErr Bool
  | 0, _, _ => .error .endless
  | fuel + 1, p, q =>
    match s.node? p, s.node? q with
    | none, _ => .error (.badNode p)
    | some _, none => .error (.badNode q)
    | some ⟨_, .leaf v w⟩, some ⟨_, .leaf v' w'⟩ => .ok (v == v' && w == w')
    | some ⟨_, .internal l r _⟩, some ⟨_, .internal l' r' _⟩ =>
      match equivFrom s fuel l l' with
      | .ok true => equivFrom s fuel r r'
      | .ok false => .ok false
      | .error e => .error e
    | some ⟨_, .leaf _ _⟩, some ⟨_, .internal _ _ _⟩ => .ok false
    | some ⟨_, .internal _ _ _⟩, some ⟨_, .leaf _ _⟩ => .ok false

/-- `TR.HEIGHT` (R152). -/
def heightBody (n : NodeIx) (s : State) : Res :=
  withNode n s fun _ =>
    match heightFrom s (walkFuel s) n with
    | .ok h => result (BitVec.ofNat 64 h) s
    | .error e => e.toRes s

/-- `TR.EQ` (R153). -/
def eqBody (n1 n2 : NodeIx) (s : State) : Res :=
  withNode n1 s fun _ =>
  withNode n2 s fun _ =>
    match equivFrom s (walkFuel s) n1 n2 with
    | .ok b => result (boolWord b) s
    | .error e => e.toRes s

/-- The left child's index, if the node is internal (R149). -/
def childLeft (n : NodeIx) (nd : Node) (s : State) (k : NodeIx → Res) : Res :=
  match nd.body with
  | .leaf _ _ => raise .isALeaf (n.setWidth 64) s
  | .internal l _ _ => k l

/-- The right child's index, if the node is internal (R150). -/
def childRight (n : NodeIx) (nd : Node) (s : State) (k : NodeIx → Res) : Res :=
  match nd.body with
  | .leaf _ _ => raise .isALeaf (n.setWidth 64) s
  | .internal _ r _ => k r

/-- The byte value, if the node is a leaf (R148). -/
def leafValue (n : NodeIx) (nd : Node) (s : State) (k : Byte → Res) : Res :=
  match nd.body with
  | .leaf v _ => k v
  | .internal _ _ _ => raise .notALeaf (n.setWidth 64) s

/-- `NM[n].tag = Leaf` (R28). -/
def NodeBody.isLeaf : NodeBody → Bool
  | .leaf _ _ => true
  | .internal _ _ _ => false

/-! ### The commands -/

/-- `TR.CLR` (R140). -/
def execTrClr (s : State) : Host.Outcome State Fault Refusal := (Res.done s.clearTree).finish

/-- `TR.LEAF v, #w` (R141). -/
def execTrLeaf (v : Byte) (s : State) : Host.Outcome State Fault Refusal := (leafBody v s).finish

/-- `TR.MERGE n1, n2` (R142). -/
def execTrMerge (n1 n2 : NodeIx) (s : State) : Host.Outcome State Fault Refusal := (mergeBody n1 n2 s).finish

/-- `TR.BUILD` (R146). -/
def execTrBuild (s : State) : Host.Outcome State Fault Refusal := (buildBody s).finish

/-- `TR.ROOT` (R143). -/
def execTrRoot (s : State) : Host.Outcome State Fault Refusal :=
  (if s.rootValid then result (s.root.setWidth 64) s else raise .noTree 0#64 s).finish

/-- `TR.SETROOT n` (R144). -/
def execTrSetroot (n : NodeIx) (s : State) : Host.Outcome State Fault Refusal :=
  (withNode n s fun _ => .done { s with root := n, rootValid := true, curValid := false }).finish

/-- `TR.ISLEAF n` (R147). -/
def execTrIsleaf (n : NodeIx) (s : State) : Host.Outcome State Fault Refusal :=
  (withNode n s fun nd => result (boolWord nd.body.isLeaf) s).finish

/-- `TR.VALUE n` (R148). -/
def execTrValue (n : NodeIx) (s : State) : Host.Outcome State Fault Refusal :=
  (withNode n s fun nd => leafValue n nd s fun v => result (v.setWidth 64) s).finish

/-- `TR.LEFT n` (R149). -/
def execTrLeft (n : NodeIx) (s : State) : Host.Outcome State Fault Refusal :=
  (withNode n s fun nd => childLeft n nd s fun l => result (l.setWidth 64) s).finish

/-- `TR.RIGHT n` (R150). -/
def execTrRight (n : NodeIx) (s : State) : Host.Outcome State Fault Refusal :=
  (withNode n s fun nd => childRight n nd s fun r => result (r.setWidth 64) s).finish

/-- `TR.WEIGHT n` (R151). -/
def execTrWeight (n : NodeIx) (s : State) : Host.Outcome State Fault Refusal :=
  (withNode n s fun nd => result nd.body.weight s).finish

/-- `TR.HEIGHT n` (R152). -/
def execTrHeight (n : NodeIx) (s : State) : Host.Outcome State Fault Refusal := (heightBody n s).finish

/-- `TR.EQ n1, n2` (R153). -/
def execTrEq (n1 n2 : NodeIx) (s : State) : Host.Outcome State Fault Refusal := (eqBody n1 n2 s).finish

end Sys2Proof.Machine
end

