-- ==== Sys2Proof/Machine/CodeGen.lean ====
section
/-! DEFINITION. The code generator (45_codegen.md R180, R181). The transient path and stack of R37 are the recursion's own. -/

namespace Sys2Proof.Machine

/-- `walk(n, p)` (R181): left before right; a leaf stores the accumulated path, and a leaf visited later overwrites the
entry of one visited earlier that has its byte value. -/
def walkCodes (s : State) : Nat → NodeIx → BinaryCode → CodeTable → Except WalkErr CodeTable
  | 0, _, _, _ => .error .endless
  | fuel + 1, n, p, t =>
    match s.node? n with
    | none => .error (.badNode n)
    | some ⟨_, .leaf v _⟩ => .ok (tableSet t v (some p))
    | some ⟨_, .internal l r _⟩ =>
      match walkCodes s fuel l (p ++ [false]) t with
      | .ok t => walkCodes s fuel r (p ++ [true]) t
      | .error e => .error e

/-- Both subtrees of the root, the first path bit 0 for the left and 1 for the right (R181). -/
def rootCodes (s : State) (l r : NodeIx) : Except WalkErr CodeTable :=
  match walkCodes s (walkFuel s) l [false] emptyTable with
  | .ok t => walkCodes s (walkFuel s) r [true] t
  | .error e => .error e

/-- `CG.RUN` (R180, R181): both checks are made before anything is changed. -/
def codegenBody (s : State) : Res :=
  if !s.rootValid then raise .noTree 0#64 s
  else
    withNode s.root s fun nd =>
      match nd.body with
      | .leaf _ _ => raise .emptyCode (s.root.setWidth 64) s
      | .internal l r _ =>
        match rootCodes s l r with
        | .ok t => .done { s with ct := t }
        | .error e => e.toRes s

/-- `CG.RUN` (R181). -/
def execCgRun (s : State) : Host.Outcome State Fault Refusal := (codegenBody s).finish

end Sys2Proof.Machine
end

