-- ==== Sys2Proof/Machine/Frequency.lean ====
section
/-! DEFINITION. Frequency table commands (41_frequency.md R120 to R125). -/

namespace Sys2Proof.Machine

/-- `FT.CLR` (R120). -/
def clearCounts (s : State) : State := { s with ft := Vector.replicate 256 0#32 }

/-- The increment of R121 and R125, with its check: the counter is unchanged on `CountOverflow`. -/
def incCount (v : Byte) (s : State) : Res :=
  if s.count v = countMax then raise .countOverflow (v.setWidth 64) s
  else .done (s.setCount v (s.count v + 1))

/-- `FT.SET` (R122). -/
def setCountFromArg (v : Byte) (s : State) : Res :=
  if s.arg0.extractLsb' 32 32 ≠ 0#32 then raise .operandRange s.arg0 s
  else .done (s.setCount v (s.arg0.extractLsb' 0 32))

/-- `FT.OCC` (R124). -/
def occBody (s : State) : Res :=
  .done { s with
    occ := BitVec.ofNat 256 (occBits s.ft.toList)
    res0 := BitVec.ofNat 64 (occupied s.ft).length }

/-- The loop of `FT.SCAN` (R125), `left` bytes still to count, `k` counted. The full counter is met "before the byte is
consumed". -/
def scanLoop : Nat → Nat → State → Res
  | 0, k, s => .done { s with res0 := BitVec.ofNat 64 k }
  | left + 1, k, s =>
    match s.srcPeek with
    | none => .stopped .sourceByteAbsent
    | some v =>
      (incCount v s).andThen fun s => scanLoop left (k + 1) { s with srcPos := s.srcPos + 1 }

/-- `FT.SCAN` (R125): `while SRC_POS < SRC_LEN`, which is `SRC_LEN − SRC_POS` times. -/
def scanBody (s : State) : Res := scanLoop s.srcLeft 0 s

/-- `FT.CLR` (R120). -/
def execFtClr (s : State) : Host.Outcome State Fault Refusal := (Res.done (clearCounts s)).finish

/-- `FT.INC v` (R121). -/
def execFtInc (v : Byte) (s : State) : Host.Outcome State Fault Refusal := (incCount v s).finish

/-- `FT.SET v, #n` (R122). -/
def execFtSet (v : Byte) (s : State) : Host.Outcome State Fault Refusal := (setCountFromArg v s).finish

/-- `FT.CNT v` (R123). -/
def execFtCnt (v : Byte) (s : State) : Host.Outcome State Fault Refusal :=
  (result ((s.count v).setWidth 64) s).finish

/-- `FT.OCC` (R124). -/
def execFtOcc (s : State) : Host.Outcome State Fault Refusal := (occBody s).finish

/-- `FT.SCAN` (R125). -/
def execFtScan (s : State) : Host.Outcome State Fault Refusal := (scanBody s).finish

end Sys2Proof.Machine
end

