-- ==== Sys2Proof/Machine/System.lean ====
section
/-! DEFINITION. System commands (48_system.md R220 to R222). -/

namespace Sys2Proof.Machine

/-- The soft reset (R221): "every piece of state <- its reset value (R39), except `SRC_LEN`, which is unchanged". The
sink's storage is not erased, and the source and the host's moves are not state of the core (log entry 10). -/
def softReset (s : State) : State :=
  { State.reset with srcLen := s.srcLen, snk := s.snk, src := s.src, host := s.host }

/-- Hardware reset (R260): as `RST`, and `SRC_LEN` becomes 0 as well. -/
def hardReset (s : State) : State := { softReset s with srcLen := 0#64 }

/-- The rewinds that a stream mask selects (R222). -/
def rewind (src snk : Bool) (s : State) : State :=
  let s := if src then s.rewindSrc else s
  if snk then s.rewindSnk else s

/-- `NOP` (R220). -/
def execNop (s : State) : Host.Outcome State Fault Refusal := (Res.done s).finish

/-- `RST` (R221). -/
def execRst (s : State) : Host.Outcome State Fault Refusal := (Res.done (softReset s)).finish

/-- `REW src, snk` (R222). -/
def execRew (src snk : Bool) (s : State) : Host.Outcome State Fault Refusal := (Res.done (rewind src snk s)).finish

end Sys2Proof.Machine
end

