-- ==== Sys2Proof/Machine/Encoder.lean ====
section
/-! DEFINITION. Header writer and bit-pack encoder (46_encoder.md R190 to R197). -/

namespace Sys2Proof.Machine

/-! ### The header (R191) -/

/-- The header registers and `HDR_VALID`, `RES0` at the end of a header command (R26, R191, R205). -/
def setHeader (t : Byte) (total dgCount : Word32) (dgValue : Byte) (s : State) : State :=
  { s with
    fileType := t
    totalLen := total
    dgCount := dgCount
    dgValue := dgValue
    hdrValid := true
    res0 := t.setWidth 64 }

/-- The header bytes of a table (R65, R191), by file class (R96), with the file_type, `TOTAL_LEN`, `DG_COUNT`,
`DG_VALUE` that go with them. -/
def headerOf (ft : FreqTable) : List Byte × Byte × Word32 × Word32 × Byte :=
  if (occupied ft).length = 0 then (recordBytes 0#8 [], 0#8, 0#32, 0#32, 0#8)
  else if (occupied ft).length ≤ 2 then
    let p := degenPick ft
    (recordBytes 1#8 (be32 (tableGet ft p) ++ [p]), 1#8, 0#32, tableGet ft p, p)
  else
    let total := BitVec.ofNat 32 (countSum ft)
    (recordBytes 2#8 (be32 total ++ ft.toList.flatMap be32), 2#8, total, 0#32, 0#8)

/-- `ENC.HDR` (R191). -/
def headerBody (s : State) : Res :=
  if 3 ≤ (occupied s.ft).length ∧ 2 ^ 32 ≤ countSum s.ft then
    raise .lengthOverflow (BitVec.ofNat 64 (countSum s.ft)) s
  else
    let h := headerOf s.ft
    let s := { s with hdrValid := false, bbBits := 0#8, bbCnt := 0#4 }
    .done (setHeader h.2.1 h.2.2.1 h.2.2.2.1 h.2.2.2.2 (s.sinkWrites h.1))

/-! ### The body (R192, R193, R196) -/

/-- `ENC.PUT` (R192): `NoCode` before any bit is appended. -/
def putBody (v : Byte) (s : State) : Res := withCtEntry v s fun c => .done (bbAppends s c)

/-- The loop of `ENC.BODY` (R196), `left` bytes still to encode: a byte with no code is met "before the byte is
consumed". -/
def encodeLoop : Nat → State → Res
  | 0, s => .done s
  | left + 1, s =>
    match s.srcPeek with
    | none => .stopped .sourceByteAbsent
    | some v => (putBody v s).andThen fun s => encodeLoop left { s with srcPos := s.srcPos + 1 }

/-- `ENC.BODY` (R196). -/
def encodeBody (s : State) : Res := (encodeLoop s.srcLeft s).andThen fun s => .done (bbFlush s)

/-! ### The whole pass (R197) -/

/-- Step 5 of R197, for `FILE_TYPE = 2`: `TR.BUILD`, `CG.RUN`, the rewind of the source, `ENC.BODY`. -/
def encodeGeneral (s : State) : Res :=
  (buildBody s).thenCommand fun s =>
  (codegenBody s).thenCommand fun s =>
  encodeBody s.rewindSrc

/-- `ENC.RUN` (R197): steps 1 to 6. -/
def encodePass (s : State) : Res :=
  (Res.done (clearCounts (rewind true true s))).thenCommand fun s =>
  (scanBody s).thenCommand fun s =>
  (headerBody s).thenCommand fun s =>
  (if s.fileType = 2#8 then encodeGeneral s else .done s).andThen fun s =>
  result (BitVec.ofNat 64 s.snkPos) s

/-- `ENC.HDR` (R191). -/
def execEncHdr (s : State) : Host.Outcome State Fault Refusal := (headerBody s).finish

/-- `ENC.PUT v` (R192). -/
def execEncPut (v : Byte) (s : State) : Host.Outcome State Fault Refusal := (putBody v s).finish

/-- `ENC.FLUSH` (R193). -/
def execEncFlush (s : State) : Host.Outcome State Fault Refusal := (Res.done (bbFlush s)).finish

/-- `ENC.BODY` (R196). -/
def execEncBody (s : State) : Host.Outcome State Fault Refusal := (encodeBody s).finish

/-- `ENC.RUN` (R197). -/
def execEncRun (s : State) : Host.Outcome State Fault Refusal := (encodePass s).finish

end Sys2Proof.Machine
end

