-- ==== Sys2Proof/Machine/Decoder.lean ====
section
/-! DEFINITION. Header reader and bit-unpack decoder (47_decoder.md R205 to R212), and the meanings of the three stream
records (30_encoding.md R95). -/

namespace Sys2Proof.Machine

/-! ### The header (R205) -/

/-- "begin the decoder's life" (R205, R41). -/
def beginDecode (s : State) : State :=
  { s with hdrValid := false, bitPos := 0#3, curValid := false, emitted := 0#32 }

/-- The magic, "tested before anything is consumed": how many of its two bytes are there, and their values (R205). -/
def withMagic (s : State) (k : State → Res) : Res :=
  let avail := min 2 s.srcLeft
  match s.srcRun avail with
  | none => .stopped .sourceByteAbsent
  | some bs =>
    let m0 := bs.getD 0 0#8
    let m1 := bs.getD 1 0#8
    if avail < 2 ∨ m0 ≠ magic0 ∨ m1 ≠ magic1 then
      raise .badMagic (BitVec.ofNat 64 (avail * 65536 + m0.toNat * 256 + m1.toNat)) s
    else k { s with srcPos := s.srcPos + 2 }

/-- `counts[v]` for the byte values given, "what `FT.SET` does" for each: the counters before a missing one are already
written (R205). -/
def loadCounts : List Byte → State → Res
  | [], s => .done s
  | v :: vs, s => withField s fun n s => loadCounts vs (s.setCount v n)

/-- `DEC.HDR` (R205). -/
def decodeHeader (s : State) : Res :=
  withMagic (beginDecode s) fun s =>
  withByte s fun t s =>
    if t = 0#8 then .done (setHeader 0#8 0#32 0#32 0#8 s)
    else if t = 1#8 then
      withField s fun c s => withByte s fun p s => .done (setHeader 1#8 0#32 c p s)
    else if t = 2#8 then
      withField s fun total s =>
        (loadCounts allBytes s).andThen fun s => .done (setHeader 2#8 total 0#32 0#8 s)
    else raise .badFileType (t.setWidth 64) s

/-! ### The tree-descent engine (R208, R209) -/

/-- The input byte of a descent step: the current one, or when `BITPOS = 0` a new one, read lazily (R208, D13). -/
def withDescentByte (s : State) (k : State → Res) : Res :=
  if s.bitPos = 0#3 then withByte s fun b s => k { s with dbyte := b } else k s

/-- One step to the child `c` of the node the descent stands at (R208): emit a leaf's byte, or stand at an internal
node. `s₀` is the state before the command, in which an index that names no node is an error (R40, R234). -/
def arrive (c : NodeIx) (s₀ s : State) : Res :=
  withNode c s₀ fun nd =>
    match nd.body with
    | .leaf v _ =>
      result 1#64 { (s.sinkWrite v) with curValid := false, emitted := s.emitted + 1#32 }
    | .internal _ _ _ => result 0#64 { s with cur := c, curValid := true }

/-- `DEC.BIT` (R208): where the descent stands, the checks, the bit, the step. An index that names no node is `BadNode`
(R40); no run reaches one. -/
def bitBody (s₀ : State) : Res :=
  if !s₀.rootValid then raise .noTree 0#64 s₀
  else
    let c := if s₀.curValid then s₀.cur else s₀.root
    withNode c s₀ fun nd =>
      match nd.body with
      | .leaf _ _ => raise .isALeaf (c.setWidth 64) s₀
      | .internal l r _ =>
        withDescentByte s₀ fun s =>
          let bit := s.dbyte.getLsbD s.bitPos.toNat
          arrive (if bit then r else l) s₀ { s with bitPos := s.bitPos + 1#3 }

/-- How many bits are left to inspect: those of `DBYTE` and of the unread source. -/
def bitsLeft (s : State) : Nat := (if s.bitPos = 0#3 then 0 else 8 - s.bitPos.toNat) + 8 * s.srcLeft

/-- `repeat DEC.BIT until RES0 = 1` (R209). Every turn takes a bit or raises, so `bitsLeft + 1` turns are enough. -/
def symbolLoop : Nat → State → Res
  | 0, s => .done s
  | k + 1, s => (bitBody s).andThen fun s => if s.res0 = 1#64 then .done s else symbolLoop k s

/-- `DEC.SYM` (R209). -/
def symbolBody (s : State) : Res := symbolLoop (bitsLeft s + 1) s

/-! ### The bodies (R206, R207, R211) -/

/-- `SinkWrite(b)` `n` times. -/
def sinkFill (b : Byte) : Nat → State → State
  | 0, s => s
  | n + 1, s => sinkFill b n (s.sinkWrite b)

/-- The degenerate body (R206): the run, then "one extra newline byte (0x0A)". -/
def degenerateBody (s : State) : State := (sinkFill s.dgValue s.dgCount.toNat s).sinkWrite degenTail

/-- `while EMITTED < TOTAL_LEN: do DEC.SYM` (R211). Every turn emits one symbol, so `TOTAL_LEN − EMITTED` turns. -/
def symbolsLoop : Nat → State → Res
  | 0, s => .done s
  | k + 1, s => (symbolBody s).andThen (symbolsLoop k)

/-- The general body (R211). -/
def generalBody (s : State) : Res :=
  if !s.rootValid then raise .noTree 0#64 s
  else symbolsLoop (s.totalLen.toNat - s.emitted.toNat) s

/-- The body that `FILE_TYPE` selects (R211); R207: an empty body writes and reads nothing. A file type above 2 is
written by no command, and R211 gives it no step. -/
def bodyOfType (s : State) : Res :=
  if s.fileType = 0#8 then .done s
  else if s.fileType = 1#8 then .done (degenerateBody s)
  else if s.fileType = 2#8 then generalBody s
  else .done s

/-- `DEC.BODY` (R211). -/
def decodeBody (s : State) : Res := if !s.hdrValid then raise .noHeader 0#64 s else bodyOfType s

/-- Step 3 of R212. -/
def rebuildTree (s : State) : Res := if s.fileType = 2#8 then buildBody s else .done s

/-- `DEC.RUN` (R212): steps 1 to 5. -/
def decodePass (s : State) : Res :=
  (decodeHeader (rewind true true s)).thenCommand fun s =>
  (rebuildTree s).thenCommand fun s =>
  (decodeBody s).andThen fun s =>
  result (BitVec.ofNat 64 s.snkPos) s

/-- `DEC.HDR` (R205). -/
def execDecHdr (s : State) : Host.Outcome State Fault Refusal := (decodeHeader s).finish

/-- `DEC.BIT` (R208). -/
def execDecBit (s : State) : Host.Outcome State Fault Refusal := (bitBody s).finish

/-- `DEC.SYM` (R209). -/
def execDecSym (s : State) : Host.Outcome State Fault Refusal := (symbolBody s).finish

/-- `DEC.BODY` (R211). -/
def execDecBody (s : State) : Host.Outcome State Fault Refusal := (decodeBody s).finish

/-- `DEC.RUN` (R212). -/
def execDecRun (s : State) : Host.Outcome State Fault Refusal := (decodePass s).finish

/-! ### The stream records (R95)

A record is what the decoder decodes at `SRC_POS`; it is not written to `CMD`. Its meaning is what a decompress pass
does with it after the rewind (R212 steps 2 to 4): the header registers of R205 with `SRC_POS` past the record's own
bytes, the tree for a general record, and the body that R95 names for it (log entry 11). -/

/-- The header registers of a record of `size` bytes (R205). -/
def takeRecord (size : Nat) (t : Byte) (total dgCount : Word32) (dgValue : Byte) (s : State) : State :=
  let s := beginDecode s
  setHeader t total dgCount dgValue { s with srcPos := s.srcPos + size }

/-- `FT[v] <- counts[v]` in byte-value order (R205). -/
def putCounts : List Byte → List Word32 → State → State
  | v :: vs, n :: ns, s => putCounts vs ns (s.setCount v n)
  | _, _, s => s

/-- What follows the header of a record: the tree (R212 step 3) and the body (R211). -/
def runRecord (s : State) : Res :=
  (Res.done s).thenCommand fun s =>
  (rebuildTree s).thenCommand decodeBody

/-- `STREAM.EMPTY` (R95, R207). -/
def execStreamEmpty (s : State) : Host.Outcome State Fault Refusal :=
  (runRecord (takeRecord 3 0#8 0#32 0#32 0#8 s)).finish

/-- `STREAM.DEGEN` (R95, R206). -/
def execStreamDegen (count : Word32) (value : Byte) (s : State) : Host.Outcome State Fault Refusal :=
  (runRecord (takeRecord 8 1#8 0#32 count value s)).finish

/-- `STREAM.GENERAL` (R95, R205, R211). -/
def execStreamGeneral (total : Word32) (counts : List Word32) (s : State) : Host.Outcome State Fault Refusal :=
  (runRecord (takeRecord 1031 2#8 total 0#32 0#8 (putCounts allBytes counts s))).finish

end Sys2Proof.Machine
end

