-- ==== Sys2Proof/Machine/HostPort.lean ====
section
/-! DEFINITION. The host's side (10_state.md R38, 70_reset_and_hazards.md R262, R263): the register map, the moves the host
makes between commands, and how the next command word comes to the core. -/

namespace Sys2Proof.Machine

/-- `OCCk` (R33): bit `j` of `OCCk` is bit `64k + j` of `OCC`. -/
def State.occWord (s : State) (k : Nat) : Word64 := s.occ.extractLsb' (64 * k) 64

/-- A host read through the register map (R38): "Accesses are of the register's full width at its own offset; any
other access ... returns 0 on read". `CMD` is write-only (R21). Reads have no side effects (R263). -/
def mapRead (s : State) (offset width : Nat) : Word64 :=
  if width = 64 then
    if offset = 0x008 then s.arg0
    else if offset = 0x010 then s.res0
    else if offset = 0x020 then s.errInfo
    else if offset = 0x028 then BitVec.ofNat 64 s.srcPos
    else if offset = 0x030 then s.srcLen
    else if offset = 0x038 then BitVec.ofNat 64 s.snkPos
    else if offset = 0x060 then s.occWord 0
    else if offset = 0x068 then s.occWord 1
    else if offset = 0x070 then s.occWord 2
    else if offset = 0x078 then s.occWord 3
    else 0#64
  else if width = 32 then
    if offset = 0x018 then s.status.setWidth 64
    else if offset = 0x040 then s.fileType.setWidth 64
    else if offset = 0x044 then s.totalLen.setWidth 64
    else if offset = 0x048 then s.dgCount.setWidth 64
    else if offset = 0x04C then s.dgValue.setWidth 64
    else if offset = 0x050 then s.emitted.setWidth 64
    else if offset = 0x054 then BitVec.ofNat 64 (s.nmNext % 1024)
    else if offset = 0x058 then BitVec.ofNat 64 (s.pq.length % 512)
    else 0#64
  else 0#64

/-- A host write through the register map to a register that is only stored (R38): `ARG0` and `SRC_LEN`; any other is
ignored. -/
def mapWrite (offset width : Nat) (value : Word64) (s : State) : State :=
  if width = 64 ∧ offset = 0x008 then { s with arg0 := value }
  else if width = 64 ∧ offset = 0x030 then { s with srcLen := value }
  else s

/-- The command word a move writes to `CMD`, if it is a 32-bit write at offset 0 (R21, R38). -/
def HostMove.commandWord? : HostMove → Option Word32
  | .write offset width value => if offset = 0x000 ∧ width = 32 then some (value.setWidth 32) else none
  | .connectSource _ => none
  | .connectSink _ => none
  | .hardwareReset => none

/-- What a move that is no command does. -/
def hostMove (m : HostMove) (s : State) : State :=
  match m with
  | .write offset width value => mapWrite offset width value s
  | .connectSource bytes => { s with src := bytes }
  | .connectSink bytes => { s with snk := Memory.ofBytes 0 bytes }
  | .hardwareReset => hardReset s

/-- What the core does next: wait, see a move of the host, or run the command word the host wrote. -/
inductive Fetched where
  | idle
  | moved (s : State)
  | command (w : Word32) (s : State)
deriving DecidableEq, Repr

/-- The host's next move (R261: with none, the core "is idle and waits for a write to `CMD`"). The move leaves the list
before it takes effect. -/
def fetch (s : State) : Fetched :=
  match s.host with
  | [] => .idle
  | m :: rest =>
    match m.commandWord? with
    | some w => .command w { s with host := rest }
    | none => .moved (hostMove m { s with host := rest })

/-- An illegal command word (R93): `IllegalCommand(word)`, and "changes no state other than `STATUS.ERR`, `FAULTED`,
`ERRINFO`". -/
def illegalCommand (w : Word32) (s : State) : State := s.raise .illegalCommand (w.setWidth 64)

/-- The host's move that runs a command word. -/
def writeCommand (w : Word32) : HostMove := .write 0x000 32 (w.setWidth 64)

/-- Place a command word as the host's next move. -/
def placeCommand (w : Word32) (s : State) : State := { s with host := writeCommand w :: s.host }

/-- Place a compressed stream that begins with a record in the source, and the command that has the decoder run the
record at the source's start, `DEC.RUN` (R95, R212; log entry 12). -/
def placeRecord (bytes : List Byte) (s : State) : State :=
  placeCommand (commandWord .decRun)
    { s with src := bytes, srcLen := BitVec.ofNat 64 bytes.length }

end Sys2Proof.Machine
end

