-- ==== Sys2Proof/Machine/Queue.lean ====
section
/-! DEFINITION. Priority queue commands (42_priority_queue.md R130 to R134). -/

namespace Sys2Proof.Machine

/-- `PQ.CLR` (R130). -/
def execPqClr (s : State) : Host.Outcome State Fault Refusal := (Res.done { s with pq := [] }).finish

/-- `PQ.ENQ n` (R131). -/
def execPqEnq (n : NodeIx) (s : State) : Host.Outcome State Fault Refusal := (enqueue n s).finish

/-- `PQ.DEQ` (R132). -/
def execPqDeq (s : State) : Host.Outcome State Fault Refusal :=
  (dequeue s fun n s => result (n.setWidth 64) s).finish

/-- `PQ.PEEK` (R133): "mirrors dequeue without removal, same error". -/
def execPqPeek (s : State) : Host.Outcome State Fault Refusal :=
  (dequeue s fun n _ => result (n.setWidth 64) s).finish

/-- `PQ.LEN` (R134). -/
def execPqLen (s : State) : Host.Outcome State Fault Refusal :=
  (result (BitVec.ofNat 64 s.pq.length) s).finish

end Sys2Proof.Machine
end

