-- ==== Sys2Proof/Machine/Dispatch.lean ====
section
/-! DEFINITION. The dispatch: one arm for each constructor of Instr, each one call of its meaning. -/

namespace Sys2Proof.Machine

def exec (i : Instr) (s : State) : Host.Outcome State Fault Refusal :=
  match i with
  | .nop => Sys2Proof.Machine.execNop s
  | .rst => Sys2Proof.Machine.execRst s
  | .rew src snk => Sys2Proof.Machine.execRew src snk s
  | .ftClr => Sys2Proof.Machine.execFtClr s
  | .ftInc v => Sys2Proof.Machine.execFtInc v s
  | .ftSet v => Sys2Proof.Machine.execFtSet v s
  | .ftCnt v => Sys2Proof.Machine.execFtCnt v s
  | .ftOcc => Sys2Proof.Machine.execFtOcc s
  | .ftScan => Sys2Proof.Machine.execFtScan s
  | .pqClr => Sys2Proof.Machine.execPqClr s
  | .pqEnq n => Sys2Proof.Machine.execPqEnq n s
  | .pqDeq => Sys2Proof.Machine.execPqDeq s
  | .pqPeek => Sys2Proof.Machine.execPqPeek s
  | .pqLen => Sys2Proof.Machine.execPqLen s
  | .trClr => Sys2Proof.Machine.execTrClr s
  | .trLeaf v => Sys2Proof.Machine.execTrLeaf v s
  | .trMerge n1 n2 => Sys2Proof.Machine.execTrMerge n1 n2 s
  | .trBuild => Sys2Proof.Machine.execTrBuild s
  | .trRoot => Sys2Proof.Machine.execTrRoot s
  | .trSetroot n => Sys2Proof.Machine.execTrSetroot n s
  | .trIsleaf n => Sys2Proof.Machine.execTrIsleaf n s
  | .trValue n => Sys2Proof.Machine.execTrValue n s
  | .trLeft n => Sys2Proof.Machine.execTrLeft n s
  | .trRight n => Sys2Proof.Machine.execTrRight n s
  | .trWeight n => Sys2Proof.Machine.execTrWeight n s
  | .trHeight n => Sys2Proof.Machine.execTrHeight n s
  | .trEq n1 n2 => Sys2Proof.Machine.execTrEq n1 n2 s
  | .bcNew cd bit => Sys2Proof.Machine.execBcNew cd bit s
  | .bcPush cd bit => Sys2Proof.Machine.execBcPush cd bit s
  | .bcLen cs => Sys2Proof.Machine.execBcLen cs s
  | .bcGet cs a => Sys2Proof.Machine.execBcGet cs a s
  | .bcSlice cd cs a b => Sys2Proof.Machine.execBcSlice cd cs a b s
  | .bcSet cd a bit => Sys2Proof.Machine.execBcSet cd a bit s
  | .bcSplice cd cs a b => Sys2Proof.Machine.execBcSplice cd cs a b s
  | .bcIns cd a bit => Sys2Proof.Machine.execBcIns cd a bit s
  | .bcDel cd a b => Sys2Proof.Machine.execBcDel cd a b s
  | .bcCat cd cs ct => Sys2Proof.Machine.execBcCat cd cs ct s
  | .bcEq cs ct => Sys2Proof.Machine.execBcEq cs ct s
  | .ctClr => Sys2Proof.Machine.execCtClr s
  | .ctSt a cs => Sys2Proof.Machine.execCtSt a cs s
  | .ctLd cd a => Sys2Proof.Machine.execCtLd cd a s
  | .cgRun => Sys2Proof.Machine.execCgRun s
  | .encHdr => Sys2Proof.Machine.execEncHdr s
  | .encPut v => Sys2Proof.Machine.execEncPut v s
  | .encFlush => Sys2Proof.Machine.execEncFlush s
  | .encBody => Sys2Proof.Machine.execEncBody s
  | .encRun => Sys2Proof.Machine.execEncRun s
  | .decHdr => Sys2Proof.Machine.execDecHdr s
  | .decBit => Sys2Proof.Machine.execDecBit s
  | .decSym => Sys2Proof.Machine.execDecSym s
  | .decBody => Sys2Proof.Machine.execDecBody s
  | .decRun => Sys2Proof.Machine.execDecRun s
  | .streamEmpty => Sys2Proof.Machine.execStreamEmpty s
  | .streamDegen count value => Sys2Proof.Machine.execStreamDegen count value s
  | .streamGeneral total counts => Sys2Proof.Machine.execStreamGeneral total counts s

end Sys2Proof.Machine
end

