-- ==== Sys2Proof/Machine/Step.lean ====
section
/-! DEFINITION. One step of the machine: one move of the host, which is one command run to completion (R12, R264) or a move
that runs none. -/

namespace Sys2Proof.Machine

/-- One step (R12: "one command is one transition"). A word that decodes to no command raises `IllegalCommand` (R93). -/
def step (s : State) : Host.Outcome State Fault Refusal :=
  match fetch s with
  | .idle => .next s
  | .moved s' => .next s'
  | .command w s' =>
    match decodeCommand w with
    | .ok i => exec i s'
    | .error _ => .next (illegalCommand w s')

/-- The state `s` with the instruction whose bits are `w`, numbered as spec/opcode_table.json numbers them, where the
next step takes its instruction from: a command word (32 bits) as the host's next move, a stream record (24 bits and
zeros for its operands) at the start of the source, with the `DEC.RUN` that has the decoder run it (log entry 12). -/
def State.withFetchWord (s : State) (nbits w : Nat) : State :=
  if nbits = 24 then placeRecord (tableRecordBytes w) s
  else placeCommand (BitVec.ofNat 32 w) s

end Sys2Proof.Machine
end

