-- ==== Sys2Proof/Safety.lean ====
section
/-! DEFINITION. The terms claims are made in: the invariants the spec states of the state, the trees the node store holds, the
bits of the encoder and the decoder, what has been written to the sink. None of it is used by the machine. -/

namespace Sys2Proof.Machine

/-! ### Trees in the node store (00_scope.md R9, 43_tree.md R145) -/

/-- `c` is a child of the node (R28). -/
def Node.hasChild (nd : Node) (c : NodeIx) : Prop :=
  match nd.body with
  | .leaf _ _ => False
  | .internal l r _ => c = l ∨ c = r

/-- R145(a) to (c), and R28's meaning of `owned`, "the node is the child of an internal node". Part (a) is in the form of
the state: the valid entries are those below `NM_NEXT`, which is at most 511. -/
structure StoreInv (s : State) : Prop where
  bound : s.nm.length ≤ nodeMax
  children : ∀ (n : Nat) (o : Bool) (l r : NodeIx) (w : Word64), s.nm[n]? = some ⟨o, .internal l r w⟩ →
    l.toNat < n ∧ r.toNat < n ∧ l ≠ r ∧
    ∃ nl nr : Node, s.node? l = some nl ∧ s.node? r = some nr ∧ nl.owned = true ∧ nr.owned = true ∧
      w.toNat = nl.body.weight.toNat + nr.body.weight.toNat
  oneParent : ∀ (m n : Nat) (c : NodeIx) (ndm ndn : Node), s.nm[m]? = some ndm → s.nm[n]? = some ndn →
    ndm.hasChild c → ndn.hasChild c → m = n
  ownedIsChild : ∀ (n : NodeIx) (nd : Node), s.node? n = some nd → nd.owned = true → ∃ p ∈ s.nm, p.hasChild n

/-- The weight of the node an index names; 0 for an index that names none. -/
def State.weightOf (s : State) (n : NodeIx) : Nat := ((s.node? n).map fun nd => nd.body.weight.toNat).getD 0

/-- The queue invariants: at most 256 entries (R30), each naming a node (R273), weights non-decreasing from the front (R30, R135). -/
structure QueueInv (s : State) : Prop where
  bound : s.pq.length ≤ pqCap
  named : ∀ n ∈ s.pq, (s.node? n).isSome = true
  sorted : s.pq.Pairwise fun m n => s.weightOf m ≤ s.weightOf n

/-- A valid `ROOT` names a node (R29), and a valid `CUR` an internal one (R23: "set by `DEC.BIT` when it stops on an
internal node"). -/
structure PointersInv (s : State) : Prop where
  root : s.rootValid = true → (s.node? s.root).isSome = true
  cur : s.curValid = true → ∃ (o : Bool) (l r : NodeIx) (w : Word64), s.node? s.cur = some ⟨o, .internal l r w⟩

/-- R174(a): every valid `C[k]` and `CT[v]` holds 1 to 255 bits. -/
structure CodesInv (s : State) : Prop where
  regs : ∀ k c, s.codeAt k = some c → 1 ≤ c.length ∧ c.length ≤ codeMax
  table : ∀ v c, tableGet s.ct v = some c → 1 ≤ c.length ∧ c.length ≤ codeMax

/-- R34, R190: between commands `0 ≤ BB_CNT ≤ 7`, and bits `BB_CNT` and above of `BB_BITS` are 0. -/
structure BufferInv (s : State) : Prop where
  count : s.bbCnt.toNat ≤ 7
  zeros : ∀ i, s.bbCnt.toNat ≤ i → s.bbBits.getLsbD i = false

/-- Everything the spec says of the state after every command. -/
structure Inv (s : State) : Prop where
  store : StoreInv s
  queue : QueueInv s
  pointers : PointersInv s
  codes : CodesInv s
  buffer : BufferInv s
  sink : s.snk.wf = true

/-- The reset values of R39, but for `SRC_LEN`, which depends on the kind of reset. What R39 calls unspecified has no
clause. -/
structure AtReset (s : State) : Prop where
  arg0 : s.arg0 = 0
  res0 : s.res0 = 0
  occ : s.occ = 0
  err : s.err.code = 0
  faulted : s.faulted = false
  errInfo : s.errInfo = 0
  fileType : s.fileType = 0
  totalLen : s.totalLen = 0
  dgCount : s.dgCount = 0
  dgValue : s.dgValue = 0
  hdrValid : s.hdrValid = false
  ft : ∀ v, s.count v = 0
  nm : ∀ n, s.nodeValid n = false ∧ s.nodeOwned n = false
  nmNext : s.nmNext = 0
  rootValid : s.rootValid = false
  pqLen : s.pq.length = 0
  codes : ∀ k, s.codeValid k = false
  ct : ∀ v, s.ctValid v = false
  bbBits : s.bbBits = 0
  bbCnt : s.bbCnt = 0
  dbyte : s.dbyte = 0
  bitPos : s.bitPos = 0
  curValid : s.curValid = false
  emitted : s.emitted = 0
  srcPos : s.srcPos = 0
  snkPos : s.snkPos = 0

/-- The host's duty of R263: `SRC_LEN` is at most the number of bytes the source really has. -/
abbrev SourceThere (s : State) : Prop := s.srcLen.toNat ≤ s.src.length

/-- The source bytes from `SRC_POS` to the end (R62). -/
def State.unread (s : State) : List Byte := (s.src.drop s.srcPos).take s.srcLeft

/-- Where the descent stands (R208): `CUR`, or the root when no descent is under way. -/
def State.standsAt (s : State) : NodeIx := if s.curValid then s.cur else s.root

/-- `Path s n p m`: the bits `p`, 0 for left and 1 for right, lead from node `n` to node `m` (R97, R181). -/
inductive Path (s : State) : NodeIx → BinaryCode → NodeIx → Prop where
  | here (n : NodeIx) : Path s n [] n
  | left {n l r m : NodeIx} {o : Bool} {w : Word64} {p : BinaryCode} :
      s.node? n = some ⟨o, .internal l r w⟩ → Path s l p m → Path s n (false :: p) m
  | right {n l r m : NodeIx} {o : Bool} {w : Word64} {p : BinaryCode} :
      s.node? n = some ⟨o, .internal l r w⟩ → Path s r p m → Path s n (true :: p) m

/-- The bits `p` lead from node `n` to a leaf of byte value `v`. -/
def LeadsTo (s : State) (n : NodeIx) (p : BinaryCode) (v : Byte) : Prop :=
  ∃ (m : NodeIx) (o : Bool) (w : Word64), Path s n p m ∧ s.node? m = some ⟨o, .leaf v w⟩

/-- The leaf values below a node are distinct (R181, R182). -/
def DistinctLeaves (s : State) (n : NodeIx) : Prop := ∀ p q v, LeadsTo s n p v → LeadsTo s n q v → p = q

/-- The leaf at `q` is visited after the leaf at `p` (R181: left before right). -/
def VisitedAfter (q p : BinaryCode) : Prop :=
  ∃ c p' q' : BinaryCode, p = c ++ false :: p' ∧ q = c ++ true :: q'

/-- `height` as R152 defines it. -/
inductive HeightIs (s : State) : NodeIx → Nat → Prop where
  | leaf {n : NodeIx} {o : Bool} {v : Byte} {w : Word64} : s.node? n = some ⟨o, .leaf v w⟩ → HeightIs s n 0
  | internal {n l r : NodeIx} {o : Bool} {w : Word64} {hl hr : Nat} :
      s.node? n = some ⟨o, .internal l r w⟩ → HeightIs s l hl → HeightIs s r hr → HeightIs s n (1 + max hl hr)

/-- A tree value (R9). -/
inductive TreeVal where
  | leaf (value : Byte) (weight : Word64)
  | node (left right : TreeVal)
deriving DecidableEq, Repr

/-- `tree(n)` (R9). -/
inductive TreeIs (s : State) : NodeIx → TreeVal → Prop where
  | leaf {n : NodeIx} {o : Bool} {v : Byte} {w : Word64} :
      s.node? n = some ⟨o, .leaf v w⟩ → TreeIs s n (.leaf v w)
  | node {n l r : NodeIx} {o : Bool} {w : Word64} {tl tr : TreeVal} :
      s.node? n = some ⟨o, .internal l r w⟩ → TreeIs s l tl → TreeIs s r tr → TreeIs s n (.node tl tr)

/-- The byte value the bits `p` lead to in a tree value, 0 for left and 1 for right (R97): none where they pass a leaf or
end before one. -/
def TreeVal.follow : TreeVal → BinaryCode → Option Byte
  | .leaf v _, [] => some v
  | .leaf _ _, _ :: _ => none
  | .node _ _, [] => none
  | .node l r, b :: p => if b then r.follow p else l.follow p

/-! ### The merge of R146 on tree values

The construction of R146 told without an arena: a queue of weighted trees, kept by the stable insertion of R131. -/

/-- The insertion of R131: behind every entry whose weight is not strictly greater. -/
def insertTree (x : Nat × TreeVal) : List (Nat × TreeVal) → List (Nat × TreeVal)
  | [] => [x]
  | y :: ys => if y.1 > x.1 then x :: y :: ys else y :: insertTree x ys

/-- Step 1 of R146: one leaf per occupied byte value, in ascending order. -/
def leafQueue (ft : FreqTable) : List (Nat × TreeVal) :=
  (allBytes.filter fun v => tableGet ft v != 0#32).foldl
    (fun q v => insertTree ((tableGet ft v).toNat, .leaf v ((tableGet ft v).setWidth 64)) q) []

/-- Step 3 of R146: merge the first two, the first on the left, and put the result back, until one is left. -/
def mergeTrees : Nat → List (Nat × TreeVal) → Option TreeVal
  | _, [] => none
  | _, [x] => some x.2
  | 0, _ :: _ :: _ => none
  | k + 1, a :: b :: q => mergeTrees k (insertTree (a.1 + b.1, .node a.2 b.2) q)

/-! ### Bits (R67, R190, R194) -/

/-- The bits of a byte, bit 0 first. -/
def byteBits (b : Byte) : List Bool := (List.range 8).map b.getLsbD

/-- The pending bits of the encoder's buffer, the first pending one first (R34). -/
def State.pendingBits (s : State) : List Bool := (List.range s.bbCnt.toNat).map s.bbBits.getLsbD

/-- The bits the decoder has still to inspect, the next one first: those of `DBYTE` from `BITPOS` on when `BITPOS ≠ 0`,
then those of the unread source bytes (R35, R208). -/
def State.bitsAhead (s : State) : List Bool :=
  (if s.bitPos = 0#3 then [] else (byteBits s.dbyte).drop s.bitPos.toNat) ++
    s.unread.flatMap byteBits

/-- The bytes are the bits packed least significant bit first, the last byte filled up with 0 (R67, R194). -/
def Packs (bytes : List Byte) (bits : List Bool) : Prop :=
  bytes.length = (bits.length + 7) / 8 ∧
  ∀ k b, bytes[k / 8]? = some b → b.getLsbD (k % 8) = bits.getD k false

/-! ### What has been written to the sink -/

/-- Between `s` and `t` the bytes `bs` were written to the sink from `SNK_POS` on, and nothing else. -/
def Appended (s t : State) (bs : List Byte) : Prop :=
  t.snkPos = s.snkPos + bs.length ∧
  (∀ i b, bs[i]? = some b → t.snk.read (s.snkPos + i) = some b) ∧
  ∀ a, a < s.snkPos ∨ s.snkPos + bs.length ≤ a → t.snk.read a = s.snk.read a

/-- The produced output (R74) is `bs`. -/
def Produced (s : State) (bs : List Byte) : Prop := s.output = bs.map some

/-! ### Running several commands -/

/-- The commands one after another, as a host issues them; it goes on after an error and stops at a fault. -/
def runCommands : List Instr → State → Host.Outcome State Fault Refusal
  | [], s => .next s
  | i :: is, s =>
    match exec i s with
    | .next t => runCommands is t
    | .fault f => .fault f
    | .refused r => .refused r

/-- Go on with the next command of a pass unless the one before failed (R235). -/
def thenOk (o : Host.Outcome State Fault Refusal) (next : State → Host.Outcome State Fault Refusal) :
    Host.Outcome State Fault Refusal :=
  match o with
  | .next t => if t.err = .ok then next t else .next t
  | .fault f => .fault f
  | .refused r => .refused r

/-- The commands one after another, stopping at the first that fails (R99, R235). -/
def runSteps : List Instr → State → Host.Outcome State Fault Refusal
  | [], s => .next s
  | i :: is, s => thenOk (exec i s) (runSteps is)

/-! ### The tables of 60_exceptions.md -/

/-- The kinds each command can raise (R231), and for a stream record those of the part of `DEC.RUN` that runs it. -/
def kindsOf : Instr → List Err
  | .nop | .rst | .rew _ _ | .ftClr | .ftCnt _ | .ftOcc | .pqClr | .pqLen | .trClr | .ctClr | .encFlush | .bcNew _ _ => []
  | .ftInc _ | .ftScan => [.countOverflow]
  | .ftSet _ => [.operandRange]
  | .pqEnq _ => [.badNode, .queueFull]
  | .pqDeq | .pqPeek => [.emptyQueue]
  | .trLeaf _ => [.arenaFull]
  | .trMerge _ _ => [.badNode, .selfMerge, .weightOverflow, .arenaFull]
  | .trBuild => [.emptyQueue]
  | .trRoot => [.noTree]
  | .trSetroot _ | .trIsleaf _ | .trWeight _ | .trHeight _ => [.badNode]
  | .trValue _ => [.badNode, .notALeaf]
  | .trLeft _ | .trRight _ => [.badNode, .isALeaf]
  | .trEq _ _ => [.badNode]
  | .bcPush _ _ => [.noCode, .codeOverflow]
  | .bcLen _ => [.noCode]
  | .bcGet _ _ | .bcSet _ _ _ => [.noCode, .operandRange]
  | .bcSlice _ _ _ _ => [.noCode, .operandRange, .emptyCode]
  | .bcSplice _ _ _ _ => [.noCode, .operandRange, .codeOverflow]
  | .bcIns _ _ _ => [.noCode, .operandRange, .codeOverflow]
  | .bcDel _ _ _ => [.noCode, .operandRange, .emptyCode]
  | .bcCat _ _ _ => [.noCode, .codeOverflow]
  | .bcEq _ _ => [.noCode]
  | .ctSt _ _ | .ctLd _ _ => [.noCode]
  | .cgRun => [.noTree, .emptyCode]
  | .encHdr => [.lengthOverflow]
  | .encPut _ | .encBody => [.noCode]
  | .encRun => [.countOverflow, .lengthOverflow, .noCode]
  | .decHdr => [.badMagic, .streamUnderrun, .badFileType]
  | .decBit | .decSym => [.noTree, .isALeaf, .streamUnderrun]
  | .decBody => [.noHeader, .noTree, .isALeaf, .streamUnderrun]
  | .decRun => [.badMagic, .streamUnderrun, .badFileType, .emptyQueue, .isALeaf]
  | .streamEmpty | .streamDegen _ _ => []
  | .streamGeneral _ _ => [.emptyQueue, .isALeaf, .streamUnderrun]

/-- The sequenced commands (R235), and the records, which are sequences of steps as well. -/
def isSequenced : Instr → Bool
  | .ftScan | .trBuild | .encBody | .encRun | .decHdr | .decSym | .decBody | .decRun => true
  | .streamEmpty | .streamDegen _ _ | .streamGeneral _ _ => true
  | _ => false

/-! ### Which instruction writes which state (10_state.md sections 4 to 7, and the rules of the commands) -/

def isRecord : Instr → Bool
  | .streamEmpty | .streamDegen _ _ | .streamGeneral _ _ => true
  | _ => false

/-- A whole pass that builds a tree, or the reset: it writes the node store, the root, the queue, `CUR_VALID`. -/
def rebuildsTree : Instr → Bool
  | .trBuild | .encRun | .decRun | .rst | .streamGeneral _ _ => true
  | _ => false

def writesFt : Instr → Bool
  | .ftClr | .ftInc _ | .ftSet _ | .ftScan | .decHdr | .encRun | .decRun | .rst | .streamGeneral _ _ => true
  | _ => false

def writesNm : Instr → Bool
  | .trClr | .trLeaf _ | .trMerge _ _ => true
  | i => rebuildsTree i

def writesPq : Instr → Bool
  | .trClr | .pqClr | .pqEnq _ | .pqDeq => true
  | i => rebuildsTree i

def writesRoot : Instr → Bool
  | .trClr | .trSetroot _ => true
  | i => rebuildsTree i

def writesCodes : Instr → Bool
  | .bcNew _ _ | .bcPush _ _ | .bcSlice _ _ _ _ | .bcSet _ _ _ | .bcSplice _ _ _ _ | .bcIns _ _ _ | .bcDel _ _ _ => true
  | .bcCat _ _ _ | .ctLd _ _ | .rst => true
  | _ => false

def writesCt : Instr → Bool
  | .ctClr | .ctSt _ _ | .cgRun | .encRun | .rst => true
  | _ => false

def writesOcc : Instr → Bool
  | .ftOcc | .rst => true
  | _ => false

def writesHeader : Instr → Bool
  | .encHdr | .encRun | .decHdr | .decRun | .rst => true
  | i => isRecord i

def writesBuffer : Instr → Bool
  | .encHdr | .encPut _ | .encFlush | .encBody | .encRun | .rst => true
  | _ => false

/-- `DBYTE`, `BITPOS`, `EMITTED`. -/
def writesDecoder : Instr → Bool
  | .decHdr | .decBit | .decSym | .decBody | .decRun | .rst => true
  | i => isRecord i

/-- `CUR`, `CUR_VALID`. -/
def writesCur : Instr → Bool
  | .trClr | .trSetroot _ => true
  | i => rebuildsTree i || writesDecoder i

def writesSrcPos : Instr → Bool
  | .rew _ _ | .ftScan | .encBody | .encRun | .decHdr | .decBit | .decSym | .decBody | .decRun | .rst => true
  | i => isRecord i

/-- The sink's bytes. -/
def writesSink : Instr → Bool
  | .encHdr | .encPut _ | .encFlush | .encBody | .encRun | .decBit | .decSym | .decBody | .decRun => true
  | i => isRecord i

def writesSnkPos : Instr → Bool
  | .rew _ _ | .rst => true
  | i => writesSink i

/-- The instructions whose rule says `RES0 <- ...`. -/
def writesRes0 : Instr → Bool
  | .ftCnt _ | .ftOcc | .ftScan | .pqDeq | .pqPeek | .pqLen | .trLeaf _ | .trMerge _ _ | .trBuild | .trRoot => true
  | .trIsleaf _ | .trValue _ | .trLeft _ | .trRight _ | .trWeight _ | .trHeight _ | .trEq _ _ => true
  | .bcLen _ | .bcGet _ _ | .bcEq _ _ => true
  | .encHdr | .encRun | .decHdr | .decBit | .decSym | .decBody | .decRun | .rst => true
  | i => isRecord i

end Sys2Proof.Machine
end

