-- ==== Sys2Proof/Certificates/Slice0/Obligations.lean ====
section
/-! DEFINITION. The statements for the provers. Each formalises the rule of spec/ its docstring names; the terms they use are
those of the model and of Sys2Proof/Safety.lean. -/

open Sys2Proof Sys2Proof.Machine

/-! ### System commands, reset, the step -/

/-- R220, R221, R222: what `NOP`, `RST` and `REW` do, and their words. -/
def Obligations.NopRstRewEffects : Prop :=
  ∀ s : State,
    (encode .nop = .command 0x00000000#32 ∧ exec .nop s = .next { s with err := .ok }) ∧
    (encode .rst = .command 0x01000000#32 ∧
      ∃ t, exec .rst s = .next t ∧ AtReset t ∧ t.srcLen = s.srcLen ∧
        t.snk = s.snk ∧ t.src = s.src ∧ t.host = s.host) ∧
    (∀ src snk, encode (.rew src snk) = .command (0x02#8 ++ 0#22 ++ BitVec.ofBool snk ++ BitVec.ofBool src) ∧
      exec (.rew src snk) s = .next { s with
        srcPos := if src then 0 else s.srcPos
        snkPos := if snk then 0 else s.snkPos
        err := .ok })

/-- R39, R260: every register has its reset value after hardware reset, `SRC_LEN` included, and after `RST`, which
keeps `SRC_LEN`; the produced output is empty. -/
def Obligations.ResetLeavesTheResetValues : Prop :=
  AtReset State.reset ∧ State.reset.srcLen = 0 ∧ State.reset.output = [] ∧
  ∀ s : State, ∃ t, exec .rst s = .next t ∧ AtReset t ∧ t.srcLen = s.srcLen ∧ t.output = []

/-- A step runs the command the host wrote: the word at the head of the host's moves, decoded, is executed on the state
without that move. With no move the core is idle (R261), and a move that writes no command word is that move's own
effect; hardware reset leaves the reset values of R39 and keeps the moves still to come. That the host's moves stand in the
state as a list, hardware reset among them, is the model's choice (log entries 7, 12 and 16). -/
def Obligations.StepRunsTheDecodedCommand : Prop :=
  (∀ (s : State) (w : Word32) (i : Instr) (rest : List HostMove),
    s.host = writeCommand w :: rest → decodeCommand w = .ok i → step s = exec i { s with host := rest }) ∧
  (∀ (s : State) (w : Word32) (i : Instr), decodeCommand w = .ok i →
    step (s.withFetchWord 32 w.toNat) = exec i s) ∧
  (∀ (s : State) (h : Nat), step (s.withFetchWord 24 h) =
    exec .decRun { s with src := tableRecordBytes h, srcLen := 1031 }) ∧
  (∀ s : State, s.host = [] → step s = .next s) ∧
  (∀ (s : State) (m : HostMove) (rest : List HostMove), s.host = m :: rest → m.commandWord? = none →
    step s = .next (hostMove m { s with host := rest })) ∧
  (∀ (s : State) (offset width : Nat) (value : Word64) (rest : List HostMove),
    s.host = .write offset width value :: rest → ¬ (offset = 0 ∧ width = 32) →
    step s = .next (mapWrite offset width value { s with host := rest })) ∧
  (∀ (s : State) (rest : List HostMove), s.host = .hardwareReset :: rest →
    ∃ t, step s = .next t ∧ AtReset t ∧ t.srcLen = 0 ∧ t.output = [] ∧ t.host = rest)

/-- R93: a word that is no legal command raises `IllegalCommand(word)` and changes nothing but `STATUS.ERR`, `FAULTED`
and `ERRINFO`; a word is legal exactly when it is the encoding of an instruction. The word comes as the head of the host's
moves, the model's choice (log entry 7). -/
def Obligations.IllegalWordsOnlyReport : Prop :=
  ∀ (s : State) (w : Word32) (rest : List HostMove), s.host = writeCommand w :: rest →
    (∀ i, encode i ≠ .command w) →
    step s = .next { s with
      host := rest
      err := .illegalCommand
      faulted := true
      errInfo := w.setWidth 64 }

/-! ### Frequency table -/

/-- R120 to R123: `FT.CLR`, `FT.INC`, `FT.SET`, `FT.CNT`, with their words and their errors. -/
def Obligations.FrequencyCommandEffects : Prop :=
  ∀ s : State,
    (encode .ftClr = .command 0x10000000#32 ∧
      ∃ t, exec .ftClr s = .next t ∧ (∀ v, t.count v = 0#32) ∧ t = { s with ft := t.ft, err := .ok }) ∧
    (∀ v : Byte, encode (.ftInc v) = .command (0x11#8 ++ 0#16 ++ v) ∧
      (s.count v = 0xFFFFFFFF#32 → exec (.ftInc v) s = .next (s.raise .countOverflow (v.setWidth 64))) ∧
      (s.count v ≠ 0xFFFFFFFF#32 → ∃ t, exec (.ftInc v) s = .next t ∧
        (t.count v).toNat = (s.count v).toNat + 1 ∧ (∀ u, u ≠ v → t.count u = s.count u) ∧
        t = { s with ft := t.ft, err := .ok })) ∧
    (∀ v : Byte, encode (.ftSet v) = .command (0x12#8 ++ 0#16 ++ v) ∧
      (2 ^ 32 ≤ s.arg0.toNat → exec (.ftSet v) s = .next (s.raise .operandRange s.arg0)) ∧
      (s.arg0.toNat < 2 ^ 32 → ∃ t, exec (.ftSet v) s = .next t ∧
        (t.count v).toNat = s.arg0.toNat ∧ (∀ u, u ≠ v → t.count u = s.count u) ∧
        t = { s with ft := t.ft, err := .ok })) ∧
    (∀ v : Byte, encode (.ftCnt v) = .command (0x13#8 ++ 0#16 ++ v) ∧
      exec (.ftCnt v) s = .next { s with res0 := (s.count v).setWidth 64, err := .ok })

/-- R124: `FT.OCC` sets bit `v` of `OCC` exactly for the occupied values and counts them in `RES0`. -/
def Obligations.OccupiedMapIsExact : Prop :=
  encode .ftOcc = .command 0x14000000#32 ∧
  ∀ s : State, ∃ t, exec .ftOcc s = .next t ∧
    (∀ v : Byte, t.occ.getLsbD v.toNat = (s.count v != 0#32)) ∧
    t.res0.toNat = (List.range 256).countP (fun v => s.count (BitVec.ofNat 8 v) != 0#32) ∧
    t = { s with occ := t.occ, res0 := t.res0, err := .ok }

/-- R125: `FT.SCAN` counts the bytes from `SRC_POS` to the end; a full counter stops it before the byte that does not
fit, with the bytes before it counted. -/
def Obligations.ScanCountsTheUnreadSource : Prop :=
  encode .ftScan = .command 0x15000000#32 ∧
  ∀ s : State, SourceThere s →
    ((∀ v, (s.count v).toNat + s.unread.count v < 2 ^ 32) →
      ∃ t, exec .ftScan s = .next t ∧
        (∀ v, (t.count v).toNat = (s.count v).toNat + s.unread.count v) ∧
        t.srcPos = s.srcPos + s.unread.length ∧ t.res0.toNat = s.unread.length ∧
        (s.srcPos ≤ s.srcLen.toNat → t.srcPos = s.srcLen.toNat) ∧
        t = { s with ft := t.ft, srcPos := t.srcPos, res0 := t.res0, err := .ok }) ∧
    (∀ (pre post : List Byte) (v : Byte), s.unread = pre ++ v :: post →
      (∀ u, (s.count u).toNat + pre.count u < 2 ^ 32) → (s.count v).toNat + pre.count v = 2 ^ 32 - 1 →
      ∃ t, exec .ftScan s = .next t ∧ t.err = .countOverflow ∧ t.errInfo = v.setWidth 64 ∧
        (∀ u, (t.count u).toNat = (s.count u).toNat + pre.count u) ∧ t.srcPos = s.srcPos + pre.length ∧
        t = { s with ft := t.ft, srcPos := t.srcPos, err := t.err, faulted := true, errInfo := t.errInfo })

/-- R126: after `FT.CLR` and one `FT.SCAN` over a whole source that succeeds, the counts add up to the source's length
and an unseen byte has count 0. -/
def Obligations.ScannedCountsSumToTheLength : Prop :=
  ∀ s t u : State, s.srcPos = 0 → exec .ftClr s = .next t → exec .ftScan t = .next u → u.err = .ok →
    ((List.range 256).map fun v => (u.count (BitVec.ofNat 8 v)).toNat).sum = s.srcLen.toNat ∧
    ∀ v, v ∉ s.src.take s.srcLen.toNat → u.count v = 0#32

/-! ### Priority queue -/

/-- R131: `PQ.ENQ` puts the item before the first entry of strictly greater weight, at the end when there is none; the
errors `BadNode` and `QueueFull` in this order. The entries of the queue name nodes, as they do in every state a run
reaches (`QueueInv`). -/
def Obligations.EnqueueInsertsStably : Prop :=
  ∀ (s : State) (n : NodeIx),
    encode (.pqEnq n) = .command (0x21#8 ++ 0#15 ++ n) ∧
    (¬ (n.toNat ≤ 510 ∧ n.toNat < s.nmNext) → exec (.pqEnq n) s = .next (s.raise .badNode (n.setWidth 64))) ∧
    (n.toNat ≤ 510 ∧ n.toNat < s.nmNext → 256 ≤ s.pq.length →
      exec (.pqEnq n) s = .next (s.raise .queueFull (n.setWidth 64))) ∧
    (n.toNat ≤ 510 ∧ n.toNat < s.nmNext → s.pq.length < 256 → (∀ q ∈ s.pq, (s.node? q).isSome = true) →
      ∃ pre post, s.pq = pre ++ post ∧
        exec (.pqEnq n) s = .next { s with pq := pre ++ n :: post, err := .ok } ∧
        (∀ q ∈ pre, s.weightOf q ≤ s.weightOf n) ∧ (∀ q ∈ post.head?, s.weightOf n < s.weightOf q))

/-- R130, R132, R133, R134: `PQ.CLR`, `PQ.DEQ`, `PQ.PEEK`, `PQ.LEN`. The queue's length fits `PQ_LEN` (R30). -/
def Obligations.QueueCommandEffects : Prop :=
  encode .pqClr = .command 0x20000000#32 ∧ encode .pqDeq = .command 0x22000000#32 ∧
  encode .pqPeek = .command 0x23000000#32 ∧ encode .pqLen = .command 0x24000000#32 ∧
  ∀ s : State,
    exec .pqClr s = .next { s with pq := [], err := .ok } ∧
    (s.pq = [] → exec .pqDeq s = .next (s.raise .emptyQueue 0) ∧ exec .pqPeek s = .next (s.raise .emptyQueue 0)) ∧
    (∀ q qs, s.pq = q :: qs →
      exec .pqDeq s = .next { s with res0 := q.setWidth 64, pq := qs, err := .ok } ∧
      exec .pqPeek s = .next { s with res0 := q.setWidth 64, err := .ok }) ∧
    (s.pq.length ≤ 256 → ∃ t, exec .pqLen s = .next t ∧ t.res0.toNat = s.pq.length ∧
      t = { s with res0 := t.res0, err := .ok })

/-- R135: valid nodes enqueued into an empty queue come to stand in it sorted by weight, and those of equal weight in
the order they were enqueued. -/
def Obligations.EnqueuesSortStably : Prop :=
  ∀ (s : State) (ns : List NodeIx), s.pq = [] → ns.length ≤ 256 → (∀ n ∈ ns, (s.node? n).isSome = true) →
    ∃ t, runCommands (ns.map Instr.pqEnq) s = .next t ∧ t.pq.Perm ns ∧
      t.pq.Pairwise (fun m n => s.weightOf m ≤ s.weightOf n) ∧
      (∀ w, t.pq.filter (fun n => s.weightOf n == w) = ns.filter (fun n => s.weightOf n == w)) ∧
      t = { s with pq := t.pq, err := t.err }

/-! ### Trees -/

/-- R140, R141, R142: discarding the tree, making a leaf, merging two nodes, with the errors in the order of their
checks. -/
def Obligations.NodeMakingEffects : Prop :=
  ∀ s : State,
    (encode .trClr = .command 0x30000000#32 ∧
      exec .trClr s = .next { s with nm := [], rootValid := false, curValid := false, pq := [], err := .ok }) ∧
    (∀ v : Byte, encode (.trLeaf v) = .command (0x31#8 ++ 0#16 ++ v) ∧
      (511 ≤ s.nmNext → exec (.trLeaf v) s = .next (s.raise .arenaFull 511)) ∧
      (s.nmNext < 511 → exec (.trLeaf v) s = .next { s with
        nm := s.nm ++ [⟨false, .leaf v s.arg0⟩]
        res0 := BitVec.ofNat 64 s.nmNext
        err := .ok })) ∧
    (∀ n1 n2 : NodeIx, encode (.trMerge n1 n2) = .command (0x32#8 ++ 0#3 ++ n2 ++ 0#3 ++ n1) ∧
      (s.node? n1 = none → exec (.trMerge n1 n2) s = .next (s.raise .badNode (n1.setWidth 64))) ∧
      (∀ a, s.node? n1 = some a →
        (s.node? n2 = none → exec (.trMerge n1 n2) s = .next (s.raise .badNode (n2.setWidth 64))) ∧
        (∀ b, s.node? n2 = some b →
          (n1 = n2 → exec (.trMerge n1 n2) s = .next (s.raise .selfMerge (n1.setWidth 64))) ∧
          (n1 ≠ n2 → a.owned = true → exec (.trMerge n1 n2) s = .next (s.raise .badNode (n1.setWidth 64))) ∧
          (n1 ≠ n2 → a.owned = false → b.owned = true →
            exec (.trMerge n1 n2) s = .next (s.raise .badNode (n2.setWidth 64))) ∧
          (n1 ≠ n2 → a.owned = false → b.owned = false → 2 ^ 64 ≤ s.weightOf n1 + s.weightOf n2 →
            exec (.trMerge n1 n2) s = .next (s.raise .weightOverflow (n1.setWidth 64))) ∧
          (n1 ≠ n2 → a.owned = false → b.owned = false → s.weightOf n1 + s.weightOf n2 < 2 ^ 64 →
            511 ≤ s.nmNext → exec (.trMerge n1 n2) s = .next (s.raise .arenaFull 511)) ∧
          (n1 ≠ n2 → a.owned = false → b.owned = false → s.weightOf n1 + s.weightOf n2 < 2 ^ 64 →
            s.nmNext < 511 →
            ∃ t w, exec (.trMerge n1 n2) s = .next t ∧ t.nmNext = s.nmNext + 1 ∧
              t.nm[s.nmNext]? = some ⟨false, .internal n1 n2 w⟩ ∧ w.toNat = s.weightOf n1 + s.weightOf n2 ∧
              (∀ m, m < s.nmNext → t.nm[m]? =
                (s.nm[m]?).map fun nd => if m = n1.toNat ∨ m = n2.toNat then { nd with owned := true } else nd) ∧
              t = { s with nm := t.nm, res0 := BitVec.ofNat 64 s.nmNext, err := .ok }))))

/-- R143, R144: reading and setting the root. -/
def Obligations.RootCommandEffects : Prop :=
  ∀ s : State,
    (encode .trRoot = .command 0x34000000#32 ∧
      (s.rootValid = false → exec .trRoot s = .next (s.raise .noTree 0)) ∧
      (s.rootValid = true → exec .trRoot s = .next { s with res0 := s.root.setWidth 64, err := .ok })) ∧
    (∀ n : NodeIx, encode (.trSetroot n) = .command (0x35#8 ++ 0#15 ++ n) ∧
      (s.node? n = none → exec (.trSetroot n) s = .next (s.raise .badNode (n.setWidth 64))) ∧
      (s.node? n ≠ none →
        exec (.trSetroot n) s = .next { s with root := n, rootValid := true, curValid := false, err := .ok }))

/-- R147 to R151: the accessors, by the kind of node the index names; an index names a node exactly when it is at most
510 and below `NM_NEXT`. -/
def Obligations.AccessorEffects : Prop :=
  ∀ (s : State) (n : NodeIx),
    (encode (.trIsleaf n) = .command (0x36#8 ++ 0#15 ++ n) ∧ encode (.trValue n) = .command (0x37#8 ++ 0#15 ++ n) ∧
      encode (.trLeft n) = .command (0x38#8 ++ 0#15 ++ n) ∧ encode (.trRight n) = .command (0x39#8 ++ 0#15 ++ n) ∧
      encode (.trWeight n) = .command (0x3A#8 ++ 0#15 ++ n)) ∧
    (s.node? n = none ↔ ¬ (n.toNat ≤ 510 ∧ n.toNat < s.nmNext)) ∧
    (s.node? n = none →
      ∀ i ∈ [Instr.trIsleaf n, .trValue n, .trLeft n, .trRight n, .trWeight n],
        exec i s = .next (s.raise .badNode (n.setWidth 64))) ∧
    (∀ o v w, s.node? n = some ⟨o, .leaf v w⟩ →
      exec (.trIsleaf n) s = .next { s with res0 := 1, err := .ok } ∧
      exec (.trValue n) s = .next { s with res0 := v.setWidth 64, err := .ok } ∧
      exec (.trLeft n) s = .next (s.raise .isALeaf (n.setWidth 64)) ∧
      exec (.trRight n) s = .next (s.raise .isALeaf (n.setWidth 64)) ∧
      exec (.trWeight n) s = .next { s with res0 := w, err := .ok }) ∧
    (∀ o l r w, s.node? n = some ⟨o, .internal l r w⟩ →
      exec (.trIsleaf n) s = .next { s with res0 := 0, err := .ok } ∧
      exec (.trValue n) s = .next (s.raise .notALeaf (n.setWidth 64)) ∧
      exec (.trLeft n) s = .next { s with res0 := l.setWidth 64, err := .ok } ∧
      exec (.trRight n) s = .next { s with res0 := r.setWidth 64, err := .ok } ∧
      exec (.trWeight n) s = .next { s with res0 := w, err := .ok })

/-- R152: `TR.HEIGHT` gives the height, 0 to 255, in every store that meets the invariants of R145. -/
def Obligations.HeightIsAtMost255 : Prop :=
  ∀ (s : State) (n : NodeIx),
    encode (.trHeight n) = .command (0x3B#8 ++ 0#15 ++ n) ∧
    (s.node? n = none → exec (.trHeight n) s = .next (s.raise .badNode (n.setWidth 64))) ∧
    (StoreInv s → s.node? n ≠ none →
      ∃ h, HeightIs s n h ∧ h ≤ 255 ∧ exec (.trHeight n) s = .next { s with res0 := BitVec.ofNat 64 h, err := .ok })

/-- R153: `TR.EQ` tells whether two nodes are the same tree value, in every store that meets the invariants of R145. -/
def Obligations.EqualityIsOfTreeValues : Prop :=
  ∀ (s : State) (n1 n2 : NodeIx),
    encode (.trEq n1 n2) = .command (0x3C#8 ++ 0#3 ++ n2 ++ 0#3 ++ n1) ∧
    (s.node? n1 = none → exec (.trEq n1 n2) s = .next (s.raise .badNode (n1.setWidth 64))) ∧
    (s.node? n1 ≠ none → s.node? n2 = none → exec (.trEq n1 n2) s = .next (s.raise .badNode (n2.setWidth 64))) ∧
    (StoreInv s → s.node? n1 ≠ none → s.node? n2 ≠ none →
      ∃ a b, TreeIs s n1 a ∧ TreeIs s n2 b ∧
        exec (.trEq n1 n2) s = .next { s with res0 := if a = b then 1 else 0, err := .ok })

/-- The shape of what `TR.BUILD` makes (R146, "Shape of the result"): with `N ≥ 1` occupied values it always succeeds;
the leaves are `NM[0..N)` in ascending byte-value order with the counts as weights, there are `2N − 1` nodes, the root
is the last of them, the queue is empty, and every node but the root is owned. With no occupied value it clears the old
tree and raises `EmptyQueue(0)` (R146 step 2). -/
def Obligations.BuildMakesTheWholeTree : Prop :=
  encode .trBuild = .command 0x33000000#32 ∧
  (∀ s : State, (∀ v, s.count v = 0#32) →
    exec .trBuild s = .next { s with
      nm := []
      rootValid := false
      curValid := false
      pq := []
      err := .emptyQueue
      faulted := true
      errInfo := 0 }) ∧
  ∀ (s : State) (values : List Byte), values = allBytes.filter (fun v => s.count v != 0#32) → values ≠ [] →
    ∃ t : State, exec .trBuild s = .next t ∧
      t.nmNext = 2 * values.length - 1 ∧ t.root.toNat = 2 * values.length - 2 ∧ t.rootValid = true ∧
      t.pq = [] ∧ t.curValid = false ∧ t.res0 = t.root.setWidth 64 ∧
      (∀ (k : Nat) (v : Byte), values[k]? = some v →
        ∃ o : Bool, t.nm[k]? = some ⟨o, .leaf v ((s.count v).setWidth 64)⟩) ∧
      (∀ k : Nat, values.length ≤ k → k < t.nmNext →
        ∃ (o : Bool) (l r : NodeIx) (w : Word64), t.nm[k]? = some ⟨o, .internal l r w⟩) ∧
      (∀ (k : Nat) (nd : Node), t.nm[k]? = some nd → (nd.owned = true ↔ k ≠ t.root.toNat)) ∧
      t = { s with
        nm := t.nm, root := t.root, rootValid := true, curValid := false, pq := [], res0 := t.res0, err := .ok }

/-- R146: the tree `TR.BUILD` makes in the arena is the stable merge of the weighted leaves, told on tree values without
an arena. -/
def Obligations.BuildIsTheStableMerge : Prop :=
  ∀ s t : State, exec .trBuild s = .next t → t.err = .ok →
    ∃ T, mergeTrees 256 (leafQueue s.ft) = some T ∧ TreeIs t t.root T

/-- R154: two runs of `TR.BUILD` on equal `FT` give identical `NM[0..NM_NEXT)`, `ROOT` and `NM_NEXT`, whatever else the
two states hold. -/
def Obligations.BuildReadsNothingButTheCounts : Prop :=
  ∀ s s' t t' : State, s.ft = s'.ft → exec .trBuild s = .next t → exec .trBuild s' = .next t' →
    t.nm = t'.nm ∧ t.nmNext = t'.nmNext ∧ t.rootValid = t'.rootValid ∧ (t.rootValid = true → t.root = t'.root) ∧
    t.pq = t'.pq ∧ t.err = t'.err

/-- The weight of the built root is the sum of all counts, below 2^40 (R155). -/
def Obligations.BuiltRootWeighsTheSum : Prop :=
  ∀ s t : State, exec .trBuild s = .next t → t.err = .ok →
    t.weightOf t.root = ((List.range 256).map fun v => (s.count (BitVec.ofNat 8 v)).toNat).sum ∧
    t.weightOf t.root < 2 ^ 40 ∧ t.nmNext ≤ 511

/-! ### Binary codes and the code table -/

/-- R160 to R163, R170: making, growing and reading a code. -/
def Obligations.CodeReadingEffects : Prop :=
  ∀ s : State,
    (∀ cd bit, encode (.bcNew cd bit) = .command (0x40#8 ++ 0#17 ++ BitVec.ofBool bit ++ 0#4 ++ cd) ∧
      exec (.bcNew cd bit) s = .next { s with codes := s.codes.set cd.toNat (some [bit]) cd.isLt, err := .ok }) ∧
    (∀ cd bit, encode (.bcPush cd bit) = .command (0x41#8 ++ 0#17 ++ BitVec.ofBool bit ++ 0#4 ++ cd) ∧
      (s.codeAt cd = none → exec (.bcPush cd bit) s = .next (s.raise .noCode (cd.setWidth 64))) ∧
      (∀ c, s.codeAt cd = some c →
        (255 ≤ c.length → exec (.bcPush cd bit) s = .next (s.raise .codeOverflow (cd.setWidth 64))) ∧
        (c.length < 255 → exec (.bcPush cd bit) s =
          .next { s with codes := s.codes.set cd.toNat (some (c ++ [bit])) cd.isLt, err := .ok }))) ∧
    (∀ cs, encode (.bcLen cs) = .command (0x42#8 ++ 0#20 ++ cs ++ 0#2) ∧
      (s.codeAt cs = none → exec (.bcLen cs) s = .next (s.raise .noCode (cs.setWidth 64))) ∧
      (∀ c, s.codeAt cs = some c →
        exec (.bcLen cs) s = .next { s with res0 := BitVec.ofNat 64 c.length, err := .ok })) ∧
    (∀ cs i, encode (.bcGet cs i) = .command (0x43#8 ++ 0#8 ++ i ++ 0#4 ++ cs ++ 0#2) ∧
      (s.codeAt cs = none → exec (.bcGet cs i) s = .next (s.raise .noCode (cs.setWidth 64))) ∧
      (∀ code, s.codeAt cs = some code →
        (code.length ≤ i.toNat → exec (.bcGet cs i) s =
          .next (s.raise .operandRange ((0x43#8 ++ 0#8 ++ i ++ 0#4 ++ cs ++ 0#2 : Word32).setWidth 64))) ∧
        (∀ b, code[i.toNat]? = some b →
          exec (.bcGet cs i) s = .next { s with res0 := if b then 1 else 0, err := .ok }))) ∧
    (∀ cs ct, encode (.bcEq cs ct) = .command (0x4A#8 ++ 0#18 ++ ct ++ cs ++ 0#2) ∧
      (s.codeAt cs = none → exec (.bcEq cs ct) s = .next (s.raise .noCode (cs.setWidth 64))) ∧
      (∀ c, s.codeAt cs = some c → s.codeAt ct = none →
        exec (.bcEq cs ct) s = .next (s.raise .noCode (ct.setWidth 64))) ∧
      (∀ c d, s.codeAt cs = some c → s.codeAt ct = some d →
        exec (.bcEq cs ct) s = .next { s with res0 := if c = d then 1 else 0, err := .ok }))

/-- R164 to R166: slice read, index write, slice write, with the errors in the order of their checks. -/
def Obligations.SliceSetSpliceEffects : Prop :=
  ∀ (s : State) (cd cs : CodeReg) (a b : Byte) (bit : Bool),
    (encode (.bcSlice cd cs a b) = .command (0x44#8 ++ b ++ a ++ 0#4 ++ cs ++ cd) ∧
      (s.codeAt cs = none → exec (.bcSlice cd cs a b) s = .next (s.raise .noCode (cs.setWidth 64))) ∧
      (∀ code, s.codeAt cs = some code →
        (¬ (a.toNat ≤ b.toNat ∧ b.toNat ≤ code.length) → exec (.bcSlice cd cs a b) s =
          .next (s.raise .operandRange ((0x44#8 ++ b ++ a ++ 0#4 ++ cs ++ cd : Word32).setWidth 64))) ∧
        (a = b → b.toNat ≤ code.length →
          exec (.bcSlice cd cs a b) s = .next (s.raise .emptyCode (cd.setWidth 64))) ∧
        (a.toNat < b.toNat → b.toNat ≤ code.length →
          ∃ x, x.length = b.toNat - a.toNat ∧ (∀ k, k < x.length → x[k]? = code[a.toNat + k]?) ∧
            exec (.bcSlice cd cs a b) s =
              .next { s with codes := s.codes.set cd.toNat (some x) cd.isLt, err := .ok }))) ∧
    (encode (.bcSet cd a bit) = .command (0x45#8 ++ 0#8 ++ a ++ 0#1 ++ BitVec.ofBool bit ++ 0#4 ++ cd) ∧
      (s.codeAt cd = none → exec (.bcSet cd a bit) s = .next (s.raise .noCode (cd.setWidth 64))) ∧
      (∀ c, s.codeAt cd = some c →
        (c.length ≤ a.toNat → exec (.bcSet cd a bit) s =
          .next (s.raise .operandRange
            ((0x45#8 ++ 0#8 ++ a ++ 0#1 ++ BitVec.ofBool bit ++ 0#4 ++ cd : Word32).setWidth 64))) ∧
        (a.toNat < c.length → exec (.bcSet cd a bit) s =
          .next { s with codes := s.codes.set cd.toNat (some (c.set a.toNat bit)) cd.isLt, err := .ok }))) ∧
    (encode (.bcSplice cd cs a b) = .command (0x46#8 ++ b ++ a ++ 0#4 ++ cs ++ cd) ∧
      (s.codeAt cd = none → exec (.bcSplice cd cs a b) s = .next (s.raise .noCode (cd.setWidth 64))) ∧
      (∀ d, s.codeAt cd = some d →
        (s.codeAt cs = none → exec (.bcSplice cd cs a b) s = .next (s.raise .noCode (cs.setWidth 64))) ∧
        (∀ c, s.codeAt cs = some c →
          (¬ (a.toNat ≤ b.toNat ∧ b.toNat ≤ d.length) → exec (.bcSplice cd cs a b) s =
            .next (s.raise .operandRange ((0x46#8 ++ b ++ a ++ 0#4 ++ cs ++ cd : Word32).setWidth 64))) ∧
          (∀ x y z, d = x ++ y ++ z → x.length = a.toNat → x.length + y.length = b.toNat →
            (255 < x.length + c.length + z.length →
              exec (.bcSplice cd cs a b) s = .next (s.raise .codeOverflow (cd.setWidth 64))) ∧
            (x.length + c.length + z.length ≤ 255 → exec (.bcSplice cd cs a b) s =
              .next { s with codes := s.codes.set cd.toNat (some (x ++ c ++ z)) cd.isLt, err := .ok })))))

/-- R167 to R169: insertion, deletion, concatenation, with the errors in the order of their checks. -/
def Obligations.InsertDeleteConcatEffects : Prop :=
  ∀ (s : State) (cd cs ct : CodeReg) (a b : Byte) (bit : Bool),
    (encode (.bcIns cd a bit) = .command (0x47#8 ++ 0#8 ++ a ++ 0#1 ++ BitVec.ofBool bit ++ 0#4 ++ cd) ∧
      (s.codeAt cd = none → exec (.bcIns cd a bit) s = .next (s.raise .noCode (cd.setWidth 64))) ∧
      (∀ c, s.codeAt cd = some c →
        (c.length < a.toNat → exec (.bcIns cd a bit) s =
          .next (s.raise .operandRange
            ((0x47#8 ++ 0#8 ++ a ++ 0#1 ++ BitVec.ofBool bit ++ 0#4 ++ cd : Word32).setWidth 64))) ∧
        (a.toNat ≤ c.length → 255 ≤ c.length →
          exec (.bcIns cd a bit) s = .next (s.raise .codeOverflow (cd.setWidth 64))) ∧
        (∀ x z, c = x ++ z → x.length = a.toNat → c.length < 255 → exec (.bcIns cd a bit) s =
          .next { s with codes := s.codes.set cd.toNat (some (x ++ bit :: z)) cd.isLt, err := .ok }))) ∧
    (encode (.bcDel cd a b) = .command (0x48#8 ++ b ++ a ++ 0#6 ++ cd) ∧
      (s.codeAt cd = none → exec (.bcDel cd a b) s = .next (s.raise .noCode (cd.setWidth 64))) ∧
      (∀ c, s.codeAt cd = some c →
        (¬ (a.toNat ≤ b.toNat ∧ b.toNat ≤ c.length) → exec (.bcDel cd a b) s =
          .next (s.raise .operandRange ((0x48#8 ++ b ++ a ++ 0#6 ++ cd : Word32).setWidth 64))) ∧
        (∀ x y z, c = x ++ y ++ z → x.length = a.toNat → x.length + y.length = b.toNat →
          (x ++ z = [] → exec (.bcDel cd a b) s = .next (s.raise .emptyCode (cd.setWidth 64))) ∧
          (x ++ z ≠ [] → exec (.bcDel cd a b) s =
            .next { s with codes := s.codes.set cd.toNat (some (x ++ z)) cd.isLt, err := .ok })))) ∧
    (encode (.bcCat cd cs ct) = .command (0x49#8 ++ 0#18 ++ ct ++ cs ++ cd) ∧
      (s.codeAt cs = none → exec (.bcCat cd cs ct) s = .next (s.raise .noCode (cs.setWidth 64))) ∧
      (∀ c, s.codeAt cs = some c →
        (s.codeAt ct = none → exec (.bcCat cd cs ct) s = .next (s.raise .noCode (ct.setWidth 64))) ∧
        (∀ d, s.codeAt ct = some d →
          (255 < c.length + d.length →
            exec (.bcCat cd cs ct) s = .next (s.raise .codeOverflow (cd.setWidth 64))) ∧
          (c.length + d.length ≤ 255 → exec (.bcCat cd cs ct) s =
            .next { s with codes := s.codes.set cd.toNat (some (c ++ d)) cd.isLt, err := .ok }))))

/-- R174(c): a slice read into another register and written back over the same span leaves the code as it was. -/
def Obligations.SliceWrittenBackRestoresTheCode : Prop :=
  ∀ (s : State) (k j : CodeReg) (c : BinaryCode) (a b : Byte), k ≠ j → s.codeAt k = some c → c.length ≤ 255 →
    a.toNat < b.toNat → b.toNat ≤ c.length →
    ∃ t, runCommands [.bcSlice j k a b, .bcSplice k j a b] s = .next t ∧ t.err = .ok ∧ t.codeAt k = some c

/-- R171, R172, R173: the code table. -/
def Obligations.CodeTableEffects : Prop :=
  ∀ (s : State) (v : Byte) (k : CodeReg),
    (encode .ctClr = .command 0x4C000000#32 ∧
      ∃ t, exec .ctClr s = .next t ∧ (∀ u, t.ctValid u = false) ∧ t = { s with ct := t.ct, err := .ok }) ∧
    (encode (.ctSt v k) = .command (0x4D#8 ++ 0#8 ++ v ++ 0#4 ++ k ++ 0#2) ∧
      (s.codeAt k = none → exec (.ctSt v k) s = .next (s.raise .noCode (k.setWidth 64))) ∧
      (∀ c, s.codeAt k = some c → ∃ t, exec (.ctSt v k) s = .next t ∧ tableGet t.ct v = some c ∧
        (∀ u, u ≠ v → tableGet t.ct u = tableGet s.ct u) ∧ t = { s with ct := t.ct, err := .ok })) ∧
    (encode (.ctLd k v) = .command (0x4E#8 ++ 0#8 ++ v ++ 0#6 ++ k) ∧
      (tableGet s.ct v = none →
        exec (.ctLd k v) s = .next (s.raise .noCode (BitVec.ofNat 64 (256 + v.toNat)))) ∧
      (∀ c, tableGet s.ct v = some c → exec (.ctLd k v) s =
        .next { s with codes := s.codes.set k.toNat (some c) k.isLt, err := .ok }))

/-! ### Code generator -/

/-- R180, R181: `CG.RUN` gives each byte value the path from the root to its leaf, of several leaves of one value the
one visited last; its two errors leave the table as it was. -/
def Obligations.CodesAreTheRootPaths : Prop :=
  encode .cgRun = .command 0x50000000#32 ∧
  ∀ s : State,
    (s.rootValid = false → exec .cgRun s = .next (s.raise .noTree 0)) ∧
    (s.rootValid = true → ∀ o v w, s.node? s.root = some ⟨o, .leaf v w⟩ →
      exec .cgRun s = .next (s.raise .emptyCode (s.root.setWidth 64))) ∧
    (StoreInv s → s.rootValid = true → ∀ o l r w, s.node? s.root = some ⟨o, .internal l r w⟩ →
      ∃ t, exec .cgRun s = .next t ∧
        (∀ v c, tableGet t.ct v = some c ↔
          LeadsTo s s.root c v ∧ ∀ c', LeadsTo s s.root c' v → c' ≠ c → VisitedAfter c c') ∧
        t = { s with ct := t.ct, err := .ok })

/-- After a successful `CG.RUN` on a tree whose leaf values are distinct no code is a prefix of another (R182). -/
def Obligations.CodesArePrefixFree : Prop :=
  ∀ s t : State, StoreInv s → DistinctLeaves s s.root → exec .cgRun s = .next t → t.err = .ok →
    ∀ u v c d, tableGet t.ct u = some c → tableGet t.ct v = some d → u ≠ v → ¬ c <+: d

/-! ### Encoder -/

/-- R191: `ENC.HDR` writes the header of the table's class at `SNK_POS`; `LengthOverflow` is checked before anything
is written. For two occupied values the stored one is one of the two, whichever DEGEN_PICK takes. -/
def Obligations.HeaderWriterEffects : Prop :=
  encode .encHdr = .command 0x60000000#32 ∧
  ∀ (s : State) (k T : Nat), k = (List.range 256).countP (fun v => s.count (BitVec.ofNat 8 v) != 0#32) →
    T = ((List.range 256).map fun v => (s.count (BitVec.ofNat 8 v)).toNat).sum →
    (3 ≤ k → 2 ^ 32 ≤ T → exec .encHdr s = .next (s.raise .lengthOverflow (BitVec.ofNat 64 T))) ∧
    (k < 3 ∨ T < 2 ^ 32 → ∃ t bytes, exec .encHdr s = .next t ∧ Appended s t bytes ∧
      (k = 0 → bytes = [0x34#8, 0x32#8, 0x00#8] ∧ t.fileType = 0 ∧ t.totalLen = 0 ∧ t.dgCount = 0 ∧ t.dgValue = 0) ∧
      (k = 1 ∨ k = 2 → ∃ p, s.count p ≠ 0#32 ∧ (k = 2 → p = degenPick s.ft) ∧
        bytes = [0x34#8, 0x32#8, 0x01#8] ++ be32 (s.count p) ++ [p] ∧
        t.fileType = 1 ∧ t.dgCount = s.count p ∧ t.dgValue = p ∧ t.totalLen = 0) ∧
      (3 ≤ k → bytes = [0x34#8, 0x32#8, 0x02#8] ++ be32 (BitVec.ofNat 32 T) ++
          (List.range 256).flatMap (fun v => be32 (s.count (BitVec.ofNat 8 v))) ∧
        t.fileType = 2 ∧ t.totalLen.toNat = T ∧ t.dgCount = 0 ∧ t.dgValue = 0) ∧
      t = { s with
        snk := t.snk, snkPos := t.snkPos, bbBits := 0, bbCnt := 0, hdrValid := true, fileType := t.fileType,
        totalLen := t.totalLen, dgCount := t.dgCount, dgValue := t.dgValue, res0 := t.fileType.setWidth 64, err := .ok })

/-- R192, R193: `ENC.PUT` appends the code's bits to the pending bits and writes each full byte, the first bit lowest;
`ENC.FLUSH` writes a final partial byte only if any bits remain. -/
def Obligations.PutAndFlushPackBits : Prop :=
  encode .encFlush = .command 0x62000000#32 ∧
  (∀ v : Byte, encode (.encPut v) = .command (0x61#8 ++ 0#16 ++ v)) ∧
  ∀ (s : State) (v : Byte),
    (tableGet s.ct v = none →
      exec (.encPut v) s = .next (s.raise .noCode (BitVec.ofNat 64 (256 + v.toNat)))) ∧
    (∀ c, tableGet s.ct v = some c → BufferInv s →
      ∃ t bytes, exec (.encPut v) s = .next t ∧ Appended s t bytes ∧
        bytes.length = (s.pendingBits ++ c).length / 8 ∧ (c.length ≤ 255 → bytes.length ≤ 32) ∧
        (∀ j b, bytes[j / 8]? = some b → (s.pendingBits ++ c)[j]? = some (b.getLsbD (j % 8))) ∧
        t.pendingBits = (s.pendingBits ++ c).drop (8 * bytes.length) ∧ BufferInv t ∧
        t = { s with snk := t.snk, snkPos := t.snkPos, bbBits := t.bbBits, bbCnt := t.bbCnt, err := .ok }) ∧
    (s.bbCnt = 0 → exec .encFlush s = .next { s with err := .ok }) ∧
    (s.bbCnt ≠ 0 → ∃ t, exec .encFlush s = .next t ∧ Appended s t [s.bbBits] ∧
      t = { s with snk := t.snk, snkPos := t.snkPos, bbBits := 0, bbCnt := 0, err := .ok })

/-- R196, and the law of R194 that follows from it: `ENC.BODY` writes the codes of the unread source bytes, packed after the pending bits, and flushes; a
byte with no code stops it before that byte is consumed. -/
def Obligations.BodyPacksTheCodes : Prop :=
  encode .encBody = .command 0x63000000#32 ∧
  ∀ s : State, SourceThere s → BufferInv s →
    ((∀ v ∈ s.unread, tableGet s.ct v ≠ none) →
      ∃ t bytes, exec .encBody s = .next t ∧ Appended s t bytes ∧
        Packs bytes (s.pendingBits ++ s.unread.flatMap (fun v => (tableGet s.ct v).getD [])) ∧
        t.srcPos = s.srcPos + s.unread.length ∧
        t = { s with
          snk := t.snk, snkPos := t.snkPos, bbBits := 0, bbCnt := 0, srcPos := t.srcPos, err := .ok }) ∧
    (∀ (pre post : List Byte) (v : Byte), s.unread = pre ++ v :: post →
      (∀ u ∈ pre, tableGet s.ct u ≠ none) → tableGet s.ct v = none →
      ∃ t bytes, exec .encBody s = .next t ∧ Appended s t bytes ∧
        t.err = .noCode ∧ t.errInfo = BitVec.ofNat 64 (256 + v.toNat) ∧ t.srcPos = s.srcPos + pre.length ∧
        (∀ bits, bits = s.pendingBits ++ pre.flatMap (fun u => (tableGet s.ct u).getD []) →
          bytes.length = bits.length / 8 ∧
          (∀ j b, bytes[j / 8]? = some b → bits[j]? = some (b.getLsbD (j % 8))) ∧
          t.pendingBits = bits.drop (8 * bytes.length)) ∧
        t = { s with
          snk := t.snk, snkPos := t.snkPos, bbBits := t.bbBits, bbCnt := t.bbCnt, srcPos := t.srcPos,
          err := .noCode, faulted := true, errInfo := t.errInfo })

/-- R197: `ENC.RUN` is its steps, issued as commands: it stops at the first that fails, with that command's error, and
else leaves the number of bytes produced in `RES0`. -/
def Obligations.CompressIsItsSteps : Prop :=
  encode .encRun = .command 0x64000000#32 ∧
  ∀ s : State, exec .encRun s =
    thenOk (runSteps [.rew true true, .ftClr, .ftScan, .encHdr] s) fun a =>
    thenOk (if a.fileType = 2 then runSteps [.trBuild, .cgRun, .rew true false, .encBody] a else .next a) fun b =>
      .next { b with res0 := BitVec.ofNat 64 b.snkPos }

/-- `ENC.RUN` succeeds on every source of fewer than 2^32 bytes that is really there, and writes a stream of the size of
its class (R195, R197). -/
def Obligations.CompressSucceeds : Prop :=
  ∀ (s : State) (S : List Byte), SourceThere s → S = s.src.take s.srcLen.toNat → S.length < 2 ^ 32 →
    ∃ t, exec .encRun s = .next t ∧ t.err = .ok ∧ t.faulted = s.faulted ∧ t.srcPos = S.length ∧
      t.res0 = BitVec.ofNat 64 t.snkPos ∧ (∀ v, (t.count v).toNat = S.count v) ∧
      (S.dedup.length = 0 → t.snkPos = 3) ∧
      (S.dedup.length = 1 ∨ S.dedup.length = 2 → t.snkPos = 8) ∧
      (3 ≤ S.dedup.length →
        t.snkPos = 1031 + ((S.map fun v => ((tableGet t.ct v).getD []).length).sum + 7) / 8)

/-! ### Decoder -/

/-- `DEC.HDR` on a source that holds a whole record at `SRC_POS` loads that record's operands and consumes its bytes
(R95, R205); for an empty or degenerate record `FT` is not touched. -/
def Obligations.HeaderReaderDecodesTheRecord : Prop :=
  encode .decHdr = .command 0x70000000#32 ∧
  ∀ (s : State) (i : Instr) (rest : List Byte), SourceThere s → decodeRecord s.unread = .ok (i, rest) →
    ∃ t, exec .decHdr s = .next t ∧ t.unread = rest ∧ t.srcPos + rest.length = s.srcPos + s.unread.length ∧
      t.res0 = t.fileType.setWidth 64 ∧
      (i = .streamEmpty ∧ t.fileType = 0 ∧ t.totalLen = 0 ∧ t.dgCount = 0 ∧ t.dgValue = 0 ∧ t.ft = s.ft ∨
       (∃ c p, i = .streamDegen c p ∧ t.fileType = 1 ∧ t.totalLen = 0 ∧ t.dgCount = c ∧ t.dgValue = p ∧ t.ft = s.ft) ∨
       (∃ T counts, i = .streamGeneral T counts ∧ t.fileType = 2 ∧ t.totalLen = T ∧ t.dgCount = 0 ∧ t.dgValue = 0 ∧
         t.ft.toList = counts)) ∧
      t = { s with
        srcPos := t.srcPos, ft := t.ft, fileType := t.fileType, totalLen := t.totalLen, dgCount := t.dgCount,
        dgValue := t.dgValue, hdrValid := true, bitPos := 0, curValid := false, emitted := 0, res0 := t.res0, err := .ok }

/-- `DEC.HDR` on a source that begins with no whole record (R205, R241): a magic or file_type that is bad or missing, and a
record cut off in its fields. The errors, their information words and how much is consumed; of a general record cut off
in its counts, the counters before the missing one are written. Where `SRC_POS` stands beyond `SRC_LEN` the unread source is
empty, and that `DEC.HDR` then answers as at the source's end is the model's choice (log entry 9). -/
def Obligations.HeaderReaderRejectsBadStarts : Prop :=
  ∀ s : State, SourceThere s →
    ∀ base : State, base = { s with hdrValid := false, bitPos := 0, curValid := false, emitted := 0 } →
    (∀ m : List Byte, s.unread.take 2 = m → m ≠ [0x34#8, 0x32#8] →
      exec .decHdr s = .next (base.raise .badMagic
        (BitVec.ofNat 64 (m.length * 65536 + (m.getD 0 0).toNat * 256 + (m.getD 1 0).toNat)))) ∧
    (s.unread = [0x34#8, 0x32#8] →
      exec .decHdr s = .next (State.raise .streamUnderrun (BitVec.ofNat 64 (s.srcPos + 2))
        { base with srcPos := s.srcPos + 2 })) ∧
    (∀ (t : Byte) (rest : List Byte), s.unread = 0x34#8 :: 0x32#8 :: t :: rest → 2 < t.toNat →
      exec .decHdr s = .next (State.raise .badFileType (t.setWidth 64) { base with srcPos := s.srcPos + 3 })) ∧
    (∀ (t : Byte) (rest : List Byte) (p : Nat), s.unread = 0x34#8 :: 0x32#8 :: t :: rest →
      (t = 1 ∨ t = 2) ∧ rest.length < 4 ∧ p = s.srcPos + 3 ∨ t = 1 ∧ rest.length = 4 ∧ p = s.srcPos + 7 →
      exec .decHdr s = .next (State.raise .streamUnderrun (BitVec.ofNat 64 p) { base with srcPos := p })) ∧
    (∀ (T : Word32) (counts : List Word32) (tail : List Byte),
      s.unread = 0x34#8 :: 0x32#8 :: 2#8 :: (be32 T ++ counts.flatMap be32 ++ tail) →
      counts.length < 256 → tail.length < 4 →
      ∃ t, exec .decHdr s = .next t ∧ t.ft.toList = counts ++ s.ft.toList.drop counts.length ∧
        t.srcPos = s.srcPos + 7 + 4 * counts.length ∧
        t = State.raise .streamUnderrun (BitVec.ofNat 64 t.srcPos) { base with ft := t.ft, srcPos := t.srcPos })

/-- R208: one step of the descent, from where it stands, by the next bit, with its errors in their order. -/
def Obligations.DescentStepEffects : Prop :=
  encode .decBit = .command 0x71000000#32 ∧
  ∀ s : State, SourceThere s →
    (s.rootValid = false → exec .decBit s = .next (s.raise .noTree 0)) ∧
    (s.rootValid = true → ∀ o v w, s.node? s.standsAt = some ⟨o, .leaf v w⟩ →
      exec .decBit s = .next (s.raise .isALeaf (s.standsAt.setWidth 64))) ∧
    (s.rootValid = true → ∀ o l r w, s.node? s.standsAt = some ⟨o, .internal l r w⟩ →
      (s.bitPos = 0 → s.srcLen.toNat ≤ s.srcPos →
        exec .decBit s = .next (s.raise .streamUnderrun (BitVec.ofNat 64 s.srcPos))) ∧
      (∀ x : Byte, (s.bitPos ≠ 0 ∧ x = s.dbyte ∨ s.bitPos = 0 ∧ s.srcPos < s.srcLen.toNat ∧ s.src[s.srcPos]? = some x) →
        ∀ c : NodeIx, c = (if x.getLsbD s.bitPos.toNat then r else l) →
        ∀ u : State, u = { s with
          dbyte := x, bitPos := s.bitPos + 1, srcPos := if s.bitPos = 0 then s.srcPos + 1 else s.srcPos, err := .ok } →
        (∀ oc vc wc, s.node? c = some ⟨oc, .leaf vc wc⟩ → ∃ t, exec .decBit s = .next t ∧ Appended s t [vc] ∧
          t = { u with snk := t.snk, snkPos := t.snkPos, curValid := false, emitted := s.emitted + 1, res0 := 1 }) ∧
        (∀ oc lc rc wc, s.node? c = some ⟨oc, .internal lc rc wc⟩ →
          exec .decBit s = .next { u with cur := c, curValid := true, res0 := 0 })))

/-- R209: `DEC.SYM` takes from the bits ahead the code that leads from where the descent stands to a leaf, and emits that
leaf's byte; the bits after the code stay ahead. When the bits end before a leaf is reached it raises `StreamUnderrun` and
the descent stands where they led; where the first step fails, its error is that step's. -/
def Obligations.SymbolDecodesOneCode : Prop :=
  encode .decSym = .command 0x72000000#32 ∧
  ∀ s : State, SourceThere s →
    (∀ t, exec .decBit s = .next t → t.err ≠ .ok → exec .decSym s = .next t) ∧
    (s.rootValid = true → ∀ (c rest : List Bool) (v : Byte), c ≠ [] → LeadsTo s s.standsAt c v →
      s.bitsAhead = c ++ rest →
      ∃ t, exec .decSym s = .next t ∧ Appended s t [v] ∧ t.bitsAhead = rest ∧
        t = { s with
          snk := t.snk, snkPos := t.snkPos, dbyte := t.dbyte, bitPos := t.bitPos, srcPos := t.srcPos, cur := t.cur,
          curValid := false, emitted := s.emitted + 1, res0 := 1, err := .ok }) ∧
    (s.rootValid = true → ∀ (m : NodeIx) (o : Bool) (l r : NodeIx) (w : Word64), Path s s.standsAt s.bitsAhead m →
      s.node? m = some ⟨o, .internal l r w⟩ →
      ∃ t, exec .decSym s = .next t ∧ t.bitsAhead = [] ∧ t.standsAt = m ∧
        t = { s with
          dbyte := t.dbyte, bitPos := t.bitPos, srcPos := t.srcPos, cur := t.cur, curValid := t.curValid,
          res0 := t.res0, err := .streamUnderrun, faulted := true, errInfo := BitVec.ofNat 64 t.srcPos })

/-- R206, R207: the bodies of an empty and a degenerate file, and the preconditions of `DEC.BODY` (R211). -/
def Obligations.EmptyAndDegenerateBodies : Prop :=
  encode .decBody = .command 0x73000000#32 ∧
  ∀ s : State,
    (s.hdrValid = false → exec .decBody s = .next (s.raise .noHeader 0)) ∧
    (s.hdrValid = true → s.fileType = 0 → exec .decBody s = .next { s with err := .ok }) ∧
    (s.hdrValid = true → s.fileType = 1 → ∃ t, exec .decBody s = .next t ∧
      Appended s t (List.replicate s.dgCount.toNat s.dgValue ++ [0x0A#8]) ∧
      t = { s with snk := t.snk, snkPos := t.snkPos, err := .ok }) ∧
    (s.hdrValid = true → s.fileType = 2 → s.rootValid = false → exec .decBody s = .next (s.raise .noTree 0))

/-- The general body (R211): `DEC.BODY` takes codes off the bits ahead until as many bytes are emitted as the header says,
writes those bytes and leaves the bits after them; the first code may continue a descent under way. With nothing left to
emit it does nothing. When the bits end before that it raises `StreamUnderrun`, the bytes before written and the descent
standing where the bits led; from a leaf it raises `IsALeaf`. -/
def Obligations.GeneralBodyDecodesTheCodes : Prop :=
  ∀ s : State, SourceThere s → s.hdrValid = true → s.fileType = 2 → s.rootValid = true →
    (s.totalLen.toNat ≤ s.emitted.toNat → exec .decBody s = .next { s with err := .ok }) ∧
    (s.emitted.toNat < s.totalLen.toNat → ∀ o v w, s.node? s.standsAt = some ⟨o, .leaf v w⟩ →
      exec .decBody s = .next (s.raise .isALeaf (s.standsAt.setWidth 64))) ∧
    ∀ (cs : List (BinaryCode × Byte)) (rest : List Bool),
      (∀ k c v, cs[k]? = some (c, v) → c ≠ [] ∧ LeadsTo s (if k = 0 then s.standsAt else s.root) c v) →
      s.bitsAhead = (cs.map Prod.fst).flatten ++ rest →
      (s.emitted.toNat + cs.length = s.totalLen.toNat →
        ∃ t, exec .decBody s = .next t ∧ Appended s t (cs.map Prod.snd) ∧ t.bitsAhead = rest ∧ t.emitted = s.totalLen ∧
          t = { s with
            snk := t.snk, snkPos := t.snkPos, dbyte := t.dbyte, bitPos := t.bitPos, srcPos := t.srcPos, cur := t.cur,
            curValid := t.curValid, emitted := t.emitted, res0 := t.res0, err := .ok }) ∧
      (s.emitted.toNat + cs.length < s.totalLen.toNat →
        ∀ (m : NodeIx) (o : Bool) (l r : NodeIx) (w : Word64),
        Path s (if cs = [] then s.standsAt else s.root) rest m → s.node? m = some ⟨o, .internal l r w⟩ →
        ∃ t, exec .decBody s = .next t ∧ Appended s t (cs.map Prod.snd) ∧ t.bitsAhead = [] ∧ t.standsAt = m ∧
          t.emitted.toNat = s.emitted.toNat + cs.length ∧
          t = { s with
            snk := t.snk, snkPos := t.snkPos, dbyte := t.dbyte, bitPos := t.bitPos, srcPos := t.srcPos, cur := t.cur,
            curValid := t.curValid, emitted := t.emitted, res0 := t.res0, err := .streamUnderrun, faulted := true,
            errInfo := BitVec.ofNat 64 t.srcPos })

/-- R212: `DEC.RUN` is its steps, issued as commands: it stops at the first that fails, with that command's error, and
else leaves the number of bytes produced in `RES0`. -/
def Obligations.DecompressIsItsSteps : Prop :=
  encode .decRun = .command 0x74000000#32 ∧
  ∀ s : State, exec .decRun s =
    thenOk (runSteps [.rew true true, .decHdr] s) fun a =>
    thenOk (if a.fileType = 2 then exec .trBuild a else .next a) fun b =>
    thenOk (exec .decBody b) fun t =>
      .next { t with res0 := BitVec.ofNat 64 t.snkPos }

/-- `DEC.RUN` runs the record that stands at the start of the source: it is the rewind, that record's meaning, and
`RES0 <- SNK_POS` (R95, R212). That a record has a meaning of its own is the model's choice (log entry 11); this says
how a step comes to run it. -/
def Obligations.DecompressRunsTheRecord : Prop :=
  ∀ (s : State) (i : Instr) (rest : List Byte), SourceThere s →
    decodeRecord (s.src.take s.srcLen.toNat) = .ok (i, rest) →
    exec .decRun s =
      match exec i { s with srcPos := 0, snkPos := 0 } with
      | .next t => if t.err = .ok then .next { t with res0 := BitVec.ofNat 64 t.snkPos } else .next t
      | .fault f => .fault f
      | .refused r => .refused r

/-- The empty and the degenerate record complete on every state, and `DEC.RUN` on a source that begins with one of them
produces nothing, or the run and the extra 0x0A byte (R206, R207, R212). That a record has a meaning of its own is the
model's choice (log entry 11). -/
def Obligations.SmallRecordsComplete : Prop :=
  (∀ s : State, ∃ t, exec .streamEmpty s = .next t ∧ t = { s with
      srcPos := s.srcPos + 3, fileType := 0, totalLen := 0, dgCount := 0, dgValue := 0, hdrValid := true,
      bitPos := 0, curValid := false, emitted := 0, res0 := 0, err := .ok }) ∧
  (∀ (s : State) (n : Word32) (p : Byte), ∃ t, exec (.streamDegen n p) s = .next t ∧
    Appended s t (List.replicate n.toNat p ++ [0x0A#8]) ∧ t = { s with
      srcPos := s.srcPos + 8, snk := t.snk, snkPos := t.snkPos, fileType := 1, totalLen := 0, dgCount := n,
      dgValue := p, hdrValid := true, bitPos := 0, curValid := false, emitted := 0, res0 := 1, err := .ok }) ∧
  (∀ (s : State) (i : Instr) (rest : List Byte), SourceThere s →
    decodeRecord (s.src.take s.srcLen.toNat) = .ok (i, rest) →
    (i = .streamEmpty → ∃ t, exec .decRun s = .next t ∧ t.err = .ok ∧ Produced t [] ∧ t.res0 = 0) ∧
    (∀ n p, i = .streamDegen n p → ∃ t, exec .decRun s = .next t ∧ t.err = .ok ∧
      Produced t (List.replicate n.toNat p ++ [0x0A#8]) ∧ t.res0.toNat = n.toNat + 1))

/-- A general record is its header's registers, then `TR.BUILD` and `DEC.BODY`, up to the first that fails. It completes
when the bits after it are the codes, in the tree of its counts, of `total_length` bytes: it writes those bytes, and
`DEC.RUN` on a source that begins with it produces them (R205, R211, R212, R214). The second clause says so on the record's
operands and the unread source alone, in the tree value R146 makes of the counts: that there is a tree, and that the bits
are codes of it, is what R212 and R242 ask of a general record that decodes without an error. That a record has a meaning of
its own is the model's choice (log entry 11). -/
def Obligations.GeneralRecordDecodesItsBits : Prop :=
  ∀ (s : State) (T : Word32) (counts : List Word32), counts.length = 256 →
    (∀ h : State, h.ft.toList = counts → h = { s with
        ft := h.ft, srcPos := s.srcPos + 1031, fileType := 2, totalLen := T, dgCount := 0, dgValue := 0,
        hdrValid := true, bitPos := 0, curValid := false, emitted := 0, res0 := 2, err := .ok } →
      exec (.streamGeneral T counts) s = thenOk (exec .trBuild h) (exec .decBody)) ∧
    (∀ (ft : FreqTable) (tree : TreeVal) (cs : List (BinaryCode × Byte)) (rest : List Bool),
      SourceThere s → ft.toList = counts → mergeTrees 256 (leafQueue ft) = some tree → cs.length = T.toNat →
      (∀ c v, (c, v) ∈ cs → c ≠ [] ∧ tree.follow c = some v) →
      ({ s with srcPos := s.srcPos + 1031 } : State).unread.flatMap byteBits = (cs.map Prod.fst).flatten ++ rest →
      ∃ t, exec (.streamGeneral T counts) s = .next t ∧ Appended s t (cs.map Prod.snd) ∧ t.bitsAhead = rest ∧
        TreeIs t t.root tree ∧
        t = { s with
          ft := ft, fileType := 2, totalLen := T, dgCount := 0, dgValue := 0, hdrValid := true, nm := t.nm,
          root := t.root, rootValid := true, pq := [], dbyte := t.dbyte, bitPos := t.bitPos, cur := t.cur,
          curValid := false, emitted := T, srcPos := t.srcPos, snk := t.snk, snkPos := t.snkPos, res0 := t.res0,
          err := .ok }) ∧
    ∀ (u₀ u : State) (cs : List (BinaryCode × Byte)) (rest : List Bool), SourceThere s → cs.length = T.toNat →
      u₀.ft.toList = counts → exec .trBuild u₀ = .next u → u.err = .ok →
      (∀ c v, (c, v) ∈ cs → c ≠ [] ∧ LeadsTo u u.root c v) →
      ((({ s with srcPos := s.srcPos + 1031 } : State).unread.flatMap byteBits = (cs.map Prod.fst).flatten ++ rest) →
        ∃ t, exec (.streamGeneral T counts) s = .next t ∧ t.err = .ok ∧ t.faulted = s.faulted ∧
          Appended s t (cs.map Prod.snd) ∧ t.bitsAhead = rest ∧ t.emitted = T ∧ t.ft.toList = counts) ∧
      (∀ bits : List Byte, decodeRecord (s.src.take s.srcLen.toNat) = .ok (.streamGeneral T counts, bits) →
        bits.flatMap byteBits = (cs.map Prod.fst).flatten ++ rest →
        ∃ t, exec .decRun s = .next t ∧ t.err = .ok ∧ Produced t (cs.map Prod.snd) ∧ t.res0.toNat = T.toNat)

/-! ### The two passes together (R213) -/

/-- R213 for fewer than three distinct byte values: the empty source comes back empty, `n` copies of `p` come back with one
0x0A byte more, and of two distinct values one comes back, as often as it stood in the source, with the 0x0A byte after
it; which one is DEGEN_PICK's choice, and this holds whatever it is. -/
def Obligations.RoundTripOfSmallAlphabets : Prop :=
  ∀ (s s' : State) (S : List Byte), s.src = S → s.srcLen = BitVec.ofNat 64 S.length → S.length < 2 ^ 32 →
    S.dedup.length ≤ 2 →
    ∃ t bytes, exec .encRun s = .next t ∧ t.err = .ok ∧ Produced t bytes ∧
      (s'.src = bytes → s'.srcLen = BitVec.ofNat 64 bytes.length →
        ∃ t', exec .decRun s' = .next t' ∧ t'.err = .ok ∧
          (S = [] → Produced t' []) ∧
          (S ≠ [] → ∃ p ∈ S, Produced t' (List.replicate (S.count p) p ++ [0x0A#8])))

/-- R213 for three or more distinct byte values: what `DEC.RUN` makes of what `ENC.RUN` makes of a source is the source,
and every byte of the stream is read. -/
def Obligations.RoundTripOfGeneralSources : Prop :=
  ∀ (s s' : State) (S : List Byte), s.src = S → s.srcLen = BitVec.ofNat 64 S.length → S.length < 2 ^ 32 →
    3 ≤ S.dedup.length →
    ∃ t bytes, exec .encRun s = .next t ∧ t.err = .ok ∧ Produced t bytes ∧
      (s'.src = bytes → s'.srcLen = BitVec.ofNat 64 bytes.length →
        ∃ t', exec .decRun s' = .next t' ∧ t'.err = .ok ∧ Produced t' S ∧ t'.srcPos = bytes.length)

/-! ### Encodings -/

/-- Decoding what the encoder gives returns the instruction, for every well-formed instruction of both kinds; what
follows a record is left over. -/
def Obligations.DecodeInvertsEncode : Prop :=
  (∀ i : Instr, i.wf = true → decode (encode i) = .ok i) ∧
  (∀ (i : Instr) (bytes rest : List Byte), i.wf = true → encode i = .record bytes →
    decodeRecord (bytes ++ rest) = .ok (i, rest))

/-- Each legal command word has one meaning and is the encoding of it (R93), and each record a decoder accepts is the
encoding of what it decodes to. -/
def Obligations.EncodeInvertsDecode : Prop :=
  (∀ (w : Word32) (i : Instr), decodeCommand w = .ok i → encode i = .command w) ∧
  (∀ (bytes rest : List Byte) (i : Instr), decodeRecord bytes = .ok (i, rest) →
    ∃ front, encode i = .record front ∧ bytes = front ++ rest ∧ i.wf = true)

/-- Words of 30_encoding.md rule R98 and 95_test_vectors.md decode to the commands they are written for, and records of
R95 to theirs. -/
def Obligations.SampleWordsDecodeAsWritten : Prop :=
  decodeCommand 0x12000061#32 = .ok (.ftSet 0x61) ∧
  decodeCommand 0x32001002#32 = .ok (.trMerge 2 1) ∧
  decodeCommand 0x46030101#32 = .ok (.bcSplice 1 0 1 3) ∧
  decodeCommand 0x41000042#32 = .ok (.bcPush 2 true) ∧
  decodeCommand 0x02000001#32 = .ok (.rew true false) ∧
  decodeCommand 0x4D00630C#32 = .ok (.ctSt 0x63 3) ∧
  decodeCommand 0x210001FF#32 = .ok (.pqEnq 511) ∧
  (decodeRecord [0x34#8, 0x32#8, 0x01#8, 0#8, 0#8, 0#8, 5#8, 7#8]).toOption = some (.streamDegen 5 7, [])

/-- R66: the byte order of a 4-byte field. -/
def Obligations.FieldsAreBigEndian : Prop :=
  ∀ (x : Word32) (b0 b1 b2 b3 : Byte),
    be32 x = [x.extractLsb' 24 8, x.extractLsb' 16 8, x.extractLsb' 8 8, x.extractLsb' 0 8] ∧
    (unbe32 b0 b1 b2 b3).toNat = b0.toNat * 2 ^ 24 + b1.toNat * 2 ^ 16 + b2.toNat * 2 ^ 8 + b3.toNat ∧
    (be32 x = [b0, b1, b2, b3] ↔ unbe32 b0 b1 b2 b3 = x)

/-! ### The host's view -/

/-- R24, R230: the fields of `STATUS`, its reserved bits, and the numbers of the error kinds. -/
def Obligations.StatusFieldsAreCopies : Prop :=
  (∀ s : State,
    s.status.extractLsb' 0 8 = s.err.code ∧ s.status.getLsbD 8 = s.faulted ∧ s.status.getLsbD 9 = s.rootValid ∧
    s.status.getLsbD 10 = s.hdrValid ∧ s.status.getLsbD 11 = s.curValid ∧
    (s.bbCnt.toNat ≤ 7 → (s.status.extractLsb' 12 3).toNat = s.bbCnt.toNat) ∧ s.status.getLsbD 15 = false ∧
    s.status.extractLsb' 16 3 = s.bitPos ∧ s.status.extractLsb' 19 13 = 0) ∧
  [Err.ok, .nonComparable, .emptyQueue, .notALeaf, .isALeaf, .emptyCode, .badMagic, .illegalCommand, .operandRange,
    .codeOverflow, .countOverflow, .lengthOverflow, .streamUnderrun, .badFileType, .noTree, .badNode, .noCode,
    .queueFull, .arenaFull, .selfMerge, .weightOverflow, .noHeader].map Err.code =
    (List.range 22).map (BitVec.ofNat 8)

/-- R38: what the host reads at each offset of the register map, and which of its writes change a register. A write to
`CMD` runs a command, which StepRunsTheDecodedCommand says. -/
def Obligations.RegisterMapAccesses : Prop :=
  ∀ s : State,
    (mapRead s 0x008 64 = s.arg0 ∧ mapRead s 0x010 64 = s.res0 ∧ mapRead s 0x018 32 = s.status.setWidth 64 ∧
      mapRead s 0x020 64 = s.errInfo ∧ (s.srcPos < 2 ^ 64 → (mapRead s 0x028 64).toNat = s.srcPos) ∧
      mapRead s 0x030 64 = s.srcLen ∧ (s.snkPos < 2 ^ 64 → (mapRead s 0x038 64).toNat = s.snkPos) ∧
      mapRead s 0x040 32 = s.fileType.setWidth 64 ∧ mapRead s 0x044 32 = s.totalLen.setWidth 64 ∧
      mapRead s 0x048 32 = s.dgCount.setWidth 64 ∧ mapRead s 0x04C 32 = s.dgValue.setWidth 64 ∧
      mapRead s 0x050 32 = s.emitted.setWidth 64 ∧ (s.nmNext < 1024 → (mapRead s 0x054 32).toNat = s.nmNext) ∧
      (s.pq.length < 512 → (mapRead s 0x058 32).toNat = s.pq.length)) ∧
    (∀ k j, k < 4 → j < 64 → (mapRead s (0x060 + 8 * k) 64).getLsbD j = s.occ.getLsbD (64 * k + j)) ∧
    (∀ offset width, (offset, width) ∉ [(0x008, 64), (0x010, 64), (0x018, 32), (0x020, 64), (0x028, 64), (0x030, 64),
        (0x038, 64), (0x040, 32), (0x044, 32), (0x048, 32), (0x04C, 32), (0x050, 32), (0x054, 32), (0x058, 32),
        (0x060, 64), (0x068, 64), (0x070, 64), (0x078, 64)] → mapRead s offset width = 0) ∧
    (∀ offset width value, mapWrite offset width value s = { s with
        arg0 := if offset = 0x008 ∧ width = 64 then value else s.arg0
        srcLen := if offset = 0x030 ∧ width = 64 then value else s.srcLen })

/-! ### Errors (60_exceptions.md) -/

/-- R233: a command that reaches its end clears `STATUS.ERR` and leaves `FAULTED` and `ERRINFO` alone; one that raises
sets `FAULTED`, and never raises `NonComparable` (R240). `RST` alone sets them to their reset values. -/
def Obligations.EveryCommandReports : Prop :=
  ∀ (i : Instr) (s t : State), exec i s = .next t → i ≠ .rst →
    (t.err = .ok ∧ t.faulted = s.faulted ∧ t.errInfo = s.errInfo) ∨ (t.err ≠ .ok ∧ t.err ≠ .nonComparable ∧ t.faulted = true)

/-- R234: a failing atomic command changes nothing but `STATUS.ERR`, `FAULTED` and `ERRINFO`. -/
def Obligations.FailingAtomicCommandsChangeNothing : Prop :=
  ∀ (i : Instr) (s t : State), isSequenced i = false → exec i s = .next t → t.err ≠ .ok →
    t = { s with err := t.err, faulted := true, errInfo := t.errInfo }

/-- R231: a command raises only the kinds of its row. -/
def Obligations.CommandsRaiseOnlyTheirKinds : Prop :=
  ∀ (i : Instr) (s t : State), Inv s → exec i s = .next t → t.err = .ok ∨ t.err ∈ kindsOf i

/-- `FAULTED` is sticky: a step clears it only by `RST` or hardware reset (R24, R237). Hardware reset as a move of the
host is the model's choice (log entries 7 and 16). -/
def Obligations.OnlyResetClearsFaulted : Prop :=
  ∀ s t : State, step s = .next t → s.faulted = true → t.faulted = false →
    s.host.head? = some .hardwareReset ∨ ∃ m, s.host.head? = some m ∧ m.commandWord? = some 0x01000000#32

/-! ### What instructions leave alone -/

/-- No instruction writes the source, `SRC_LEN`, or the host's moves, and none but `RST` writes `ARG0` (R11, R21, R36). -/
def Obligations.HostOwnedStateIsNeverWritten : Prop :=
  ∀ (i : Instr) (s t : State), exec i s = .next t →
    t.src = s.src ∧ t.srcLen = s.srcLen ∧ t.host = s.host ∧ (i ≠ .rst → t.arg0 = s.arg0)

/-- Each part of the state is written only by the instructions whose rules write it (10_state.md R26 to R36). -/
def Obligations.TablesAreWrittenOnlyByTheirCommands : Prop :=
  ∀ (i : Instr) (s t : State), exec i s = .next t →
    (writesFt i = false → t.ft = s.ft) ∧
    (writesNm i = false → t.nm = s.nm) ∧
    (writesPq i = false → t.pq = s.pq) ∧
    (writesRoot i = false → t.root = s.root ∧ t.rootValid = s.rootValid) ∧
    (writesCodes i = false → t.codes = s.codes) ∧
    (writesCt i = false → t.ct = s.ct) ∧
    (writesOcc i = false → t.occ = s.occ) ∧
    (writesHeader i = false → t.fileType = s.fileType ∧ t.totalLen = s.totalLen ∧ t.dgCount = s.dgCount ∧
      t.dgValue = s.dgValue ∧ t.hdrValid = s.hdrValid) ∧
    (writesBuffer i = false → t.bbBits = s.bbBits ∧ t.bbCnt = s.bbCnt) ∧
    (writesDecoder i = false → t.dbyte = s.dbyte ∧ t.bitPos = s.bitPos ∧ t.emitted = s.emitted) ∧
    (writesCur i = false → t.cur = s.cur ∧ t.curValid = s.curValid) ∧
    (writesSrcPos i = false → t.srcPos = s.srcPos) ∧
    (writesSnkPos i = false → t.snkPos = s.snkPos) ∧
    (writesRes0 i = false → t.res0 = s.res0)

/-- Every byte of the sink outside what an instruction wrote reads as before: the bytes written stand from `SNK_POS`
(for the whole passes, which rewind, from 0) up to the new `SNK_POS`, and an instruction that writes none leaves the
storage as it was (R63, R64, R74). -/
def Obligations.SinkIsWrittenOnlyAtItsPosition : Prop :=
  ∀ (i : Instr) (s t : State), exec i s = .next t →
    (writesSink i = false → t.snk = s.snk) ∧
    (writesSink i = true → i ≠ .encRun → i ≠ .decRun →
      s.snkPos ≤ t.snkPos ∧ ∀ a, a < s.snkPos ∨ t.snkPos ≤ a → t.snk.read a = s.snk.read a) ∧
    (i = .encRun ∨ i = .decRun → ∀ a, t.snkPos ≤ a → t.snk.read a = s.snk.read a)

/-! ### Invariants -/

/-- The state after reset meets the invariants. -/
def Obligations.ResetMeetsTheInvariants : Prop := Inv State.reset

/-- R28, R30, R145, R174(a), R190: every step, whatever the host does, keeps the invariants of the node store, the queue,
the pointers, the codes, the bit buffer and the sink. -/
def Obligations.EveryStepKeepsTheInvariants : Prop :=
  ∀ s t : State, Inv s → step s = .next t → Inv t

/-- R276: every command ends, and the machine never stops, when the invariants hold and the source is there. -/
def Obligations.EveryCommandEnds : Prop :=
  ∀ (i : Instr) (s : State), Inv s → SourceThere s → ∃ t, exec i s = .next t
end

