-- ==== Sys2Proof/Laws/Decode.lean ====
section
/-! SUPPORT. What the decoder reads from what the encoder writes: the fields of each format, the
rows of R92, and the 4-byte fields of a record. -/

namespace Sys2Proof

/-! ### The fields of each format (R91) -/

@[simp] theorem opcodeOf_wordZ (op : Byte) : opcodeOf (wordZ op) = op := by
  apply BitVec.eq_of_getLsbD_eq
  intro i hi
  simp only [opcodeOf, wordZ, BitVec.getLsbD_extractLsb', BitVec.getLsbD_append]
  interval_cases i <;> simp
@[simp] theorem opcodeOf_wordB (op v : Byte) : opcodeOf (wordB op v) = op := by
  apply BitVec.eq_of_getLsbD_eq
  intro i hi
  simp only [opcodeOf, wordB, BitVec.getLsbD_extractLsb', BitVec.getLsbD_append]
  interval_cases i <;> simp
@[simp] theorem fieldV_wordB (op v : Byte) : fieldV (wordB op v) = v := by
  apply BitVec.eq_of_getLsbD_eq
  intro i hi
  simp only [fieldV, wordB, BitVec.getLsbD_extractLsb', BitVec.getLsbD_append]
  interval_cases i <;> simp
@[simp] theorem opcodeOf_wordN (op : Byte) (n : NodeIx) : opcodeOf (wordN op n) = op := by
  apply BitVec.eq_of_getLsbD_eq
  intro i hi
  simp only [opcodeOf, wordN, BitVec.getLsbD_extractLsb', BitVec.getLsbD_append]
  interval_cases i <;> simp
@[simp] theorem fieldN1_wordN (op : Byte) (n : NodeIx) : fieldN1 (wordN op n) = n := by
  apply BitVec.eq_of_getLsbD_eq
  intro i hi
  simp only [fieldN1, wordN, BitVec.getLsbD_extractLsb', BitVec.getLsbD_append]
  interval_cases i <;> simp
@[simp] theorem opcodeOf_wordNN (op : Byte) (n1 n2 : NodeIx) : opcodeOf (wordNN op n1 n2) = op := by
  apply BitVec.eq_of_getLsbD_eq
  intro i hi
  simp only [opcodeOf, wordNN, BitVec.getLsbD_extractLsb', BitVec.getLsbD_append]
  interval_cases i <;> simp
@[simp] theorem fieldN1_wordNN (op : Byte) (n1 n2 : NodeIx) : fieldN1 (wordNN op n1 n2) = n1 := by
  apply BitVec.eq_of_getLsbD_eq
  intro i hi
  simp only [fieldN1, wordNN, BitVec.getLsbD_extractLsb', BitVec.getLsbD_append]
  interval_cases i <;> simp
@[simp] theorem fieldN2_wordNN (op : Byte) (n1 n2 : NodeIx) : fieldN2 (wordNN op n1 n2) = n2 := by
  apply BitVec.eq_of_getLsbD_eq
  intro i hi
  simp only [fieldN2, wordNN, BitVec.getLsbD_extractLsb', BitVec.getLsbD_append]
  interval_cases i <;> simp
@[simp] theorem opcodeOf_wordC (op : Byte) (cd cs ct : CodeReg) (bit : Bool) (a b : Byte) : opcodeOf (wordC op cd cs ct bit a b) = op := by
  apply BitVec.eq_of_getLsbD_eq
  intro i hi
  simp only [opcodeOf, wordC, BitVec.getLsbD_extractLsb', BitVec.getLsbD_append]
  interval_cases i <;> simp
@[simp] theorem fieldCd_wordC (op : Byte) (cd cs ct : CodeReg) (bit : Bool) (a b : Byte) : fieldCd (wordC op cd cs ct bit a b) = cd := by
  apply BitVec.eq_of_getLsbD_eq
  intro i hi
  simp only [fieldCd, wordC, BitVec.getLsbD_extractLsb', BitVec.getLsbD_append]
  interval_cases i <;> simp
@[simp] theorem fieldCs_wordC (op : Byte) (cd cs ct : CodeReg) (bit : Bool) (a b : Byte) : fieldCs (wordC op cd cs ct bit a b) = cs := by
  apply BitVec.eq_of_getLsbD_eq
  intro i hi
  simp only [fieldCs, wordC, BitVec.getLsbD_extractLsb', BitVec.getLsbD_append]
  interval_cases i <;> simp
@[simp] theorem fieldCt_wordC (op : Byte) (cd cs ct : CodeReg) (bit : Bool) (a b : Byte) : fieldCt (wordC op cd cs ct bit a b) = ct := by
  apply BitVec.eq_of_getLsbD_eq
  intro i hi
  simp only [fieldCt, wordC, BitVec.getLsbD_extractLsb', BitVec.getLsbD_append]
  interval_cases i <;> simp
@[simp] theorem fieldBit_wordC (op : Byte) (cd cs ct : CodeReg) (bit : Bool) (a b : Byte) : fieldBit (wordC op cd cs ct bit a b) = bit := by
  simp only [fieldBit, wordC, BitVec.getLsbD_append]
  simp
@[simp] theorem fieldA_wordC (op : Byte) (cd cs ct : CodeReg) (bit : Bool) (a b : Byte) : fieldA (wordC op cd cs ct bit a b) = a := by
  apply BitVec.eq_of_getLsbD_eq
  intro i hi
  simp only [fieldA, wordC, BitVec.getLsbD_extractLsb', BitVec.getLsbD_append]
  interval_cases i <;> simp
@[simp] theorem fieldB_wordC (op : Byte) (cd cs ct : CodeReg) (bit : Bool) (a b : Byte) : fieldB (wordC op cd cs ct bit a b) = b := by
  apply BitVec.eq_of_getLsbD_eq
  intro i hi
  simp only [fieldB, wordC, BitVec.getLsbD_extractLsb', BitVec.getLsbD_append]
  interval_cases i <;> simp
@[simp] theorem opcodeOf_wordM (op : Byte) (src snk : Bool) : opcodeOf (wordM op src snk) = op := by
  apply BitVec.eq_of_getLsbD_eq
  intro i hi
  simp only [opcodeOf, wordM, BitVec.getLsbD_extractLsb', BitVec.getLsbD_append]
  interval_cases i <;> simp
@[simp] theorem fieldSrc_wordM (op : Byte) (src snk : Bool) : fieldSrc (wordM op src snk) = src := by
  simp only [fieldSrc, wordM, BitVec.getLsbD_append]
  simp
@[simp] theorem fieldSnk_wordM (op : Byte) (src snk : Bool) : fieldSnk (wordM op src snk) = snk := by
  simp only [fieldSnk, wordM, BitVec.getLsbD_append]
  simp

/-! ### Fields of a record (R66) -/

theorem unbe32_be32 (x : Word32) :
    unbe32 (x.extractLsb' 24 8) (x.extractLsb' 16 8) (x.extractLsb' 8 8) (x.extractLsb' 0 8) = x := by
  apply BitVec.eq_of_getLsbD_eq
  intro i hi
  simp only [unbe32, BitVec.getLsbD_append, BitVec.getLsbD_extractLsb']
  interval_cases i <;> simp

theorem be32_unbe32 (b0 b1 b2 b3 : Byte) : be32 (unbe32 b0 b1 b2 b3) = [b0, b1, b2, b3] := by
  simp only [be32, List.cons.injEq, and_true]
  refine ⟨?_, ?_, ?_, ?_⟩ <;>
  · apply BitVec.eq_of_getLsbD_eq
    intro i hi
    simp only [unbe32, BitVec.getLsbD_extractLsb', BitVec.getLsbD_append]
    interval_cases i <;> simp

/-- The counts of a record read back as they were written, and what follows them is left over. -/
theorem takeCounts_flatMap (counts : List Word32) (rest : List Byte) :
    takeCounts counts.length (counts.flatMap be32 ++ rest) = some (counts, rest) := by
  induction counts with
  | nil => rfl
  | cons n counts ih =>
    simp only [List.length_cons, List.flatMap_cons, be32, List.cons_append, List.nil_append, takeCounts, ih,
      unbe32_be32]

/-! ### The rows of R92 -/

/-- No two rows of R92 have one opcode. -/
theorem commandRows_ops_nodup : (commandRows.map CommandRow.op).Nodup := by decide

/-- An opcode has a row exactly when it is one of the 52 (R92, R93). -/
theorem rowOf_isSome (op : Byte) : (rowOf op).isSome = true ↔ op ∈ commandRows.map CommandRow.op := by
  simp [rowOf, List.find?_isSome]

/-- A word is decoded by the row of its opcode, and only when every bit the row leaves unused is 0 (R93). -/
theorem decodeCommand_eq_ok {w : Word32} {i : Instr} :
    decodeCommand w = .ok i ↔ ∃ r, rowOf (opcodeOf w) = some r ∧ w &&& r.mask = r.pattern ∧ r.build w = i := by
  unfold decodeCommand
  split
  · simp_all
  · rename_i r hr
    by_cases h : w &&& r.mask = r.pattern <;> simp [h, hr]

end Sys2Proof
end

