-- ==== Sys2Proof/Laws/Memory.lean ====
section
/-! SUPPORT. The laws of the sink's memory: read after write, and the canonical form. -/

namespace Sys2Proof.Machine

@[simp] theorem Memory.read_nil (a : Nat) : Memory.read [] a = none := rfl

theorem Memory.read_cons (p : Nat) (b : Byte) (m : Memory) (a : Nat) :
    Memory.read ((p, b) :: m) a = if p = a then some b else Memory.read m a := rfl

/-- A read after a write gives the value written at the position, and what it gave before everywhere else. -/
theorem Memory.read_write (m : Memory) (a x : Nat) (v : Byte) :
    (Memory.write m a v).read x = if x = a then some v else m.read x := by
  induction m with
  | nil => simp [Memory.write, Memory.read_cons, eq_comm]
  | cons c m ih =>
    obtain ⟨p, b⟩ := c
    simp only [Memory.write]
    split
    · by_cases hx : x = a
      · simp [Memory.read_cons, hx]
      · simp [Memory.read_cons, hx, Ne.symm hx]
    · split
      · rename_i h
        by_cases hx : x = a
        · simp [Memory.read_cons, hx]
        · simp [Memory.read_cons, hx, Ne.symm hx, ← h]
      · simp only [Memory.read_cons, ih]
        by_cases hx : x = a
        · have : ¬ p = x := by omega
          simp [hx]; omega
        · simp [hx]

@[simp] theorem Memory.read_write_same (m : Memory) (a : Nat) (v : Byte) : (Memory.write m a v).read a = some v := by
  simp [Memory.read_write]

theorem Memory.read_write_other (m : Memory) {a x : Nat} (v : Byte) (h : x ≠ a) :
    (Memory.write m a v).read x = m.read x := by
  simp [Memory.read_write, h]

/-- The canonical form in one line: the positions rise strictly. -/
theorem Memory.wf_iff (m : Memory) : m.wf = true ↔ (m.map Prod.fst).IsChain (· < ·) := by
  induction m with
  | nil => simp [Memory.wf]
  | cons a m ih =>
    cases m with
    | nil => simp [Memory.wf]
    | cons b m => simp [Memory.wf, ih]

theorem Memory.wf_cons (c : Host.Cell) (m : Memory) :
    Memory.wf (c :: m) = true ↔ (∀ d ∈ m.head?, c.1 < d.1) ∧ Memory.wf m = true := by
  cases m <;> simp [Memory.wf]

/-- The first entry after a write is the one written or the one that was first. -/
theorem Memory.head_write {m : Memory} {a : Nat} {v : Byte} {d : Host.Cell}
    (h : d ∈ (Memory.write m a v).head?) : d.1 = a ∨ d ∈ m.head? := by
  cases m with
  | nil => left; simp [Memory.write] at h; simp [← h]
  | cons c m =>
    obtain ⟨p, b⟩ := c
    simp only [Memory.write] at h
    split at h
    · left; simp at h; simp [← h]
    · split at h
      · left; simp at h; simp [← h]
      · right; simpa using h

/-- Every write keeps the canonical form. -/
theorem Memory.wf_write (m : Memory) (a : Nat) (v : Byte) (h : m.wf = true) : (Memory.write m a v).wf = true := by
  induction m with
  | nil => rfl
  | cons c m ih =>
    obtain ⟨p, b⟩ := c
    obtain ⟨hhead, htail⟩ := (Memory.wf_cons _ _).1 h
    simp only [Memory.write]
    split
    · rename_i hap
      exact (Memory.wf_cons _ _).2 ⟨by simpa using hap, h⟩
    · split
      · rename_i hap
        subst hap
        exact (Memory.wf_cons _ _).2 ⟨hhead, htail⟩
      · refine (Memory.wf_cons _ _).2 ⟨fun d hd => ?_, ih htail⟩
        rcases Memory.head_write hd with hd | hd
        · simp only [hd]; omega
        · exact hhead d hd

/-- Consecutive bytes are in canonical form. -/
theorem Memory.wf_ofBytes (pos : Nat) (bs : List Byte) : (Memory.ofBytes pos bs).wf = true := by
  induction bs generalizing pos with
  | nil => rfl
  | cons b bs ih =>
    cases bs with
    | nil => rfl
    | cons b' bs =>
      have := ih (pos + 1)
      simp only [Memory.ofBytes] at this ⊢
      simp [Memory.wf, this]

/-- What consecutive bytes read as. -/
theorem Memory.read_ofBytes (pos : Nat) (bs : List Byte) (a : Nat) :
    (Memory.ofBytes pos bs).read a = if pos ≤ a then bs[a - pos]? else none := by
  induction bs generalizing pos with
  | nil => simp [Memory.ofBytes]
  | cons b bs ih =>
    simp only [Memory.ofBytes, Memory.read_cons, ih]
    by_cases h : pos = a
    · simp [h]
    · by_cases hle : pos ≤ a
      · have h1 : pos + 1 ≤ a := by omega
        have h2 : a - pos = a - (pos + 1) + 1 := by omega
        simp [h, hle, h1, h2]
      · have h1 : ¬ pos + 1 ≤ a := by omega
        simp [h, hle, h1]

end Sys2Proof.Machine
end

