-- ==== Sys2Proof/Laws/State.lean ====
section
/-! SUPPORT. What each named update does to each field of the state: one lemma for each field and update, so that no later
proof unfolds a record update. -/

namespace Sys2Proof.Machine

variable (s : State)

/-! `State.raise` -/

@[simp] theorem State.raise_arg0 (k : Err) (info : Word64) : (s.raise k info).arg0 = s.arg0 := rfl
@[simp] theorem State.raise_res0 (k : Err) (info : Word64) : (s.raise k info).res0 = s.res0 := rfl
@[simp] theorem State.raise_occ (k : Err) (info : Word64) : (s.raise k info).occ = s.occ := rfl
@[simp] theorem State.raise_err (k : Err) (info : Word64) : (s.raise k info).err = k := rfl
@[simp] theorem State.raise_faulted (k : Err) (info : Word64) : (s.raise k info).faulted = true := rfl
@[simp] theorem State.raise_errInfo (k : Err) (info : Word64) : (s.raise k info).errInfo = info := rfl
@[simp] theorem State.raise_fileType (k : Err) (info : Word64) : (s.raise k info).fileType = s.fileType := rfl
@[simp] theorem State.raise_totalLen (k : Err) (info : Word64) : (s.raise k info).totalLen = s.totalLen := rfl
@[simp] theorem State.raise_dgCount (k : Err) (info : Word64) : (s.raise k info).dgCount = s.dgCount := rfl
@[simp] theorem State.raise_dgValue (k : Err) (info : Word64) : (s.raise k info).dgValue = s.dgValue := rfl
@[simp] theorem State.raise_hdrValid (k : Err) (info : Word64) : (s.raise k info).hdrValid = s.hdrValid := rfl
@[simp] theorem State.raise_ft (k : Err) (info : Word64) : (s.raise k info).ft = s.ft := rfl
@[simp] theorem State.raise_nm (k : Err) (info : Word64) : (s.raise k info).nm = s.nm := rfl
@[simp] theorem State.raise_root (k : Err) (info : Word64) : (s.raise k info).root = s.root := rfl
@[simp] theorem State.raise_rootValid (k : Err) (info : Word64) : (s.raise k info).rootValid = s.rootValid := rfl
@[simp] theorem State.raise_pq (k : Err) (info : Word64) : (s.raise k info).pq = s.pq := rfl
@[simp] theorem State.raise_codes (k : Err) (info : Word64) : (s.raise k info).codes = s.codes := rfl
@[simp] theorem State.raise_ct (k : Err) (info : Word64) : (s.raise k info).ct = s.ct := rfl
@[simp] theorem State.raise_bbBits (k : Err) (info : Word64) : (s.raise k info).bbBits = s.bbBits := rfl
@[simp] theorem State.raise_bbCnt (k : Err) (info : Word64) : (s.raise k info).bbCnt = s.bbCnt := rfl
@[simp] theorem State.raise_dbyte (k : Err) (info : Word64) : (s.raise k info).dbyte = s.dbyte := rfl
@[simp] theorem State.raise_bitPos (k : Err) (info : Word64) : (s.raise k info).bitPos = s.bitPos := rfl
@[simp] theorem State.raise_cur (k : Err) (info : Word64) : (s.raise k info).cur = s.cur := rfl
@[simp] theorem State.raise_curValid (k : Err) (info : Word64) : (s.raise k info).curValid = s.curValid := rfl
@[simp] theorem State.raise_emitted (k : Err) (info : Word64) : (s.raise k info).emitted = s.emitted := rfl
@[simp] theorem State.raise_srcPos (k : Err) (info : Word64) : (s.raise k info).srcPos = s.srcPos := rfl
@[simp] theorem State.raise_srcLen (k : Err) (info : Word64) : (s.raise k info).srcLen = s.srcLen := rfl
@[simp] theorem State.raise_snkPos (k : Err) (info : Word64) : (s.raise k info).snkPos = s.snkPos := rfl
@[simp] theorem State.raise_snk (k : Err) (info : Word64) : (s.raise k info).snk = s.snk := rfl
@[simp] theorem State.raise_src (k : Err) (info : Word64) : (s.raise k info).src = s.src := rfl
@[simp] theorem State.raise_host (k : Err) (info : Word64) : (s.raise k info).host = s.host := rfl

/-! `State.complete` -/

@[simp] theorem State.complete_arg0 : (s.complete).arg0 = s.arg0 := rfl
@[simp] theorem State.complete_res0 : (s.complete).res0 = s.res0 := rfl
@[simp] theorem State.complete_occ : (s.complete).occ = s.occ := rfl
@[simp] theorem State.complete_err : (s.complete).err = .ok := rfl
@[simp] theorem State.complete_faulted : (s.complete).faulted = s.faulted := rfl
@[simp] theorem State.complete_errInfo : (s.complete).errInfo = s.errInfo := rfl
@[simp] theorem State.complete_fileType : (s.complete).fileType = s.fileType := rfl
@[simp] theorem State.complete_totalLen : (s.complete).totalLen = s.totalLen := rfl
@[simp] theorem State.complete_dgCount : (s.complete).dgCount = s.dgCount := rfl
@[simp] theorem State.complete_dgValue : (s.complete).dgValue = s.dgValue := rfl
@[simp] theorem State.complete_hdrValid : (s.complete).hdrValid = s.hdrValid := rfl
@[simp] theorem State.complete_ft : (s.complete).ft = s.ft := rfl
@[simp] theorem State.complete_nm : (s.complete).nm = s.nm := rfl
@[simp] theorem State.complete_root : (s.complete).root = s.root := rfl
@[simp] theorem State.complete_rootValid : (s.complete).rootValid = s.rootValid := rfl
@[simp] theorem State.complete_pq : (s.complete).pq = s.pq := rfl
@[simp] theorem State.complete_codes : (s.complete).codes = s.codes := rfl
@[simp] theorem State.complete_ct : (s.complete).ct = s.ct := rfl
@[simp] theorem State.complete_bbBits : (s.complete).bbBits = s.bbBits := rfl
@[simp] theorem State.complete_bbCnt : (s.complete).bbCnt = s.bbCnt := rfl
@[simp] theorem State.complete_dbyte : (s.complete).dbyte = s.dbyte := rfl
@[simp] theorem State.complete_bitPos : (s.complete).bitPos = s.bitPos := rfl
@[simp] theorem State.complete_cur : (s.complete).cur = s.cur := rfl
@[simp] theorem State.complete_curValid : (s.complete).curValid = s.curValid := rfl
@[simp] theorem State.complete_emitted : (s.complete).emitted = s.emitted := rfl
@[simp] theorem State.complete_srcPos : (s.complete).srcPos = s.srcPos := rfl
@[simp] theorem State.complete_srcLen : (s.complete).srcLen = s.srcLen := rfl
@[simp] theorem State.complete_snkPos : (s.complete).snkPos = s.snkPos := rfl
@[simp] theorem State.complete_snk : (s.complete).snk = s.snk := rfl
@[simp] theorem State.complete_src : (s.complete).src = s.src := rfl
@[simp] theorem State.complete_host : (s.complete).host = s.host := rfl

/-! `State.sinkWrite` -/

@[simp] theorem State.sinkWrite_arg0 (b : Byte) : (s.sinkWrite b).arg0 = s.arg0 := rfl
@[simp] theorem State.sinkWrite_res0 (b : Byte) : (s.sinkWrite b).res0 = s.res0 := rfl
@[simp] theorem State.sinkWrite_occ (b : Byte) : (s.sinkWrite b).occ = s.occ := rfl
@[simp] theorem State.sinkWrite_err (b : Byte) : (s.sinkWrite b).err = s.err := rfl
@[simp] theorem State.sinkWrite_faulted (b : Byte) : (s.sinkWrite b).faulted = s.faulted := rfl
@[simp] theorem State.sinkWrite_errInfo (b : Byte) : (s.sinkWrite b).errInfo = s.errInfo := rfl
@[simp] theorem State.sinkWrite_fileType (b : Byte) : (s.sinkWrite b).fileType = s.fileType := rfl
@[simp] theorem State.sinkWrite_totalLen (b : Byte) : (s.sinkWrite b).totalLen = s.totalLen := rfl
@[simp] theorem State.sinkWrite_dgCount (b : Byte) : (s.sinkWrite b).dgCount = s.dgCount := rfl
@[simp] theorem State.sinkWrite_dgValue (b : Byte) : (s.sinkWrite b).dgValue = s.dgValue := rfl
@[simp] theorem State.sinkWrite_hdrValid (b : Byte) : (s.sinkWrite b).hdrValid = s.hdrValid := rfl
@[simp] theorem State.sinkWrite_ft (b : Byte) : (s.sinkWrite b).ft = s.ft := rfl
@[simp] theorem State.sinkWrite_nm (b : Byte) : (s.sinkWrite b).nm = s.nm := rfl
@[simp] theorem State.sinkWrite_root (b : Byte) : (s.sinkWrite b).root = s.root := rfl
@[simp] theorem State.sinkWrite_rootValid (b : Byte) : (s.sinkWrite b).rootValid = s.rootValid := rfl
@[simp] theorem State.sinkWrite_pq (b : Byte) : (s.sinkWrite b).pq = s.pq := rfl
@[simp] theorem State.sinkWrite_codes (b : Byte) : (s.sinkWrite b).codes = s.codes := rfl
@[simp] theorem State.sinkWrite_ct (b : Byte) : (s.sinkWrite b).ct = s.ct := rfl
@[simp] theorem State.sinkWrite_bbBits (b : Byte) : (s.sinkWrite b).bbBits = s.bbBits := rfl
@[simp] theorem State.sinkWrite_bbCnt (b : Byte) : (s.sinkWrite b).bbCnt = s.bbCnt := rfl
@[simp] theorem State.sinkWrite_dbyte (b : Byte) : (s.sinkWrite b).dbyte = s.dbyte := rfl
@[simp] theorem State.sinkWrite_bitPos (b : Byte) : (s.sinkWrite b).bitPos = s.bitPos := rfl
@[simp] theorem State.sinkWrite_cur (b : Byte) : (s.sinkWrite b).cur = s.cur := rfl
@[simp] theorem State.sinkWrite_curValid (b : Byte) : (s.sinkWrite b).curValid = s.curValid := rfl
@[simp] theorem State.sinkWrite_emitted (b : Byte) : (s.sinkWrite b).emitted = s.emitted := rfl
@[simp] theorem State.sinkWrite_srcPos (b : Byte) : (s.sinkWrite b).srcPos = s.srcPos := rfl
@[simp] theorem State.sinkWrite_srcLen (b : Byte) : (s.sinkWrite b).srcLen = s.srcLen := rfl
@[simp] theorem State.sinkWrite_snkPos (b : Byte) : (s.sinkWrite b).snkPos = s.snkPos + 1 := rfl
@[simp] theorem State.sinkWrite_snk (b : Byte) : (s.sinkWrite b).snk = s.snk.write s.snkPos b := rfl
@[simp] theorem State.sinkWrite_src (b : Byte) : (s.sinkWrite b).src = s.src := rfl
@[simp] theorem State.sinkWrite_host (b : Byte) : (s.sinkWrite b).host = s.host := rfl

/-! `State.rewindSrc` -/

@[simp] theorem State.rewindSrc_arg0 : (s.rewindSrc).arg0 = s.arg0 := rfl
@[simp] theorem State.rewindSrc_res0 : (s.rewindSrc).res0 = s.res0 := rfl
@[simp] theorem State.rewindSrc_occ : (s.rewindSrc).occ = s.occ := rfl
@[simp] theorem State.rewindSrc_err : (s.rewindSrc).err = s.err := rfl
@[simp] theorem State.rewindSrc_faulted : (s.rewindSrc).faulted = s.faulted := rfl
@[simp] theorem State.rewindSrc_errInfo : (s.rewindSrc).errInfo = s.errInfo := rfl
@[simp] theorem State.rewindSrc_fileType : (s.rewindSrc).fileType = s.fileType := rfl
@[simp] theorem State.rewindSrc_totalLen : (s.rewindSrc).totalLen = s.totalLen := rfl
@[simp] theorem State.rewindSrc_dgCount : (s.rewindSrc).dgCount = s.dgCount := rfl
@[simp] theorem State.rewindSrc_dgValue : (s.rewindSrc).dgValue = s.dgValue := rfl
@[simp] theorem State.rewindSrc_hdrValid : (s.rewindSrc).hdrValid = s.hdrValid := rfl
@[simp] theorem State.rewindSrc_ft : (s.rewindSrc).ft = s.ft := rfl
@[simp] theorem State.rewindSrc_nm : (s.rewindSrc).nm = s.nm := rfl
@[simp] theorem State.rewindSrc_root : (s.rewindSrc).root = s.root := rfl
@[simp] theorem State.rewindSrc_rootValid : (s.rewindSrc).rootValid = s.rootValid := rfl
@[simp] theorem State.rewindSrc_pq : (s.rewindSrc).pq = s.pq := rfl
@[simp] theorem State.rewindSrc_codes : (s.rewindSrc).codes = s.codes := rfl
@[simp] theorem State.rewindSrc_ct : (s.rewindSrc).ct = s.ct := rfl
@[simp] theorem State.rewindSrc_bbBits : (s.rewindSrc).bbBits = s.bbBits := rfl
@[simp] theorem State.rewindSrc_bbCnt : (s.rewindSrc).bbCnt = s.bbCnt := rfl
@[simp] theorem State.rewindSrc_dbyte : (s.rewindSrc).dbyte = s.dbyte := rfl
@[simp] theorem State.rewindSrc_bitPos : (s.rewindSrc).bitPos = s.bitPos := rfl
@[simp] theorem State.rewindSrc_cur : (s.rewindSrc).cur = s.cur := rfl
@[simp] theorem State.rewindSrc_curValid : (s.rewindSrc).curValid = s.curValid := rfl
@[simp] theorem State.rewindSrc_emitted : (s.rewindSrc).emitted = s.emitted := rfl
@[simp] theorem State.rewindSrc_srcPos : (s.rewindSrc).srcPos = 0 := rfl
@[simp] theorem State.rewindSrc_srcLen : (s.rewindSrc).srcLen = s.srcLen := rfl
@[simp] theorem State.rewindSrc_snkPos : (s.rewindSrc).snkPos = s.snkPos := rfl
@[simp] theorem State.rewindSrc_snk : (s.rewindSrc).snk = s.snk := rfl
@[simp] theorem State.rewindSrc_src : (s.rewindSrc).src = s.src := rfl
@[simp] theorem State.rewindSrc_host : (s.rewindSrc).host = s.host := rfl

/-! `State.rewindSnk` -/

@[simp] theorem State.rewindSnk_arg0 : (s.rewindSnk).arg0 = s.arg0 := rfl
@[simp] theorem State.rewindSnk_res0 : (s.rewindSnk).res0 = s.res0 := rfl
@[simp] theorem State.rewindSnk_occ : (s.rewindSnk).occ = s.occ := rfl
@[simp] theorem State.rewindSnk_err : (s.rewindSnk).err = s.err := rfl
@[simp] theorem State.rewindSnk_faulted : (s.rewindSnk).faulted = s.faulted := rfl
@[simp] theorem State.rewindSnk_errInfo : (s.rewindSnk).errInfo = s.errInfo := rfl
@[simp] theorem State.rewindSnk_fileType : (s.rewindSnk).fileType = s.fileType := rfl
@[simp] theorem State.rewindSnk_totalLen : (s.rewindSnk).totalLen = s.totalLen := rfl
@[simp] theorem State.rewindSnk_dgCount : (s.rewindSnk).dgCount = s.dgCount := rfl
@[simp] theorem State.rewindSnk_dgValue : (s.rewindSnk).dgValue = s.dgValue := rfl
@[simp] theorem State.rewindSnk_hdrValid : (s.rewindSnk).hdrValid = s.hdrValid := rfl
@[simp] theorem State.rewindSnk_ft : (s.rewindSnk).ft = s.ft := rfl
@[simp] theorem State.rewindSnk_nm : (s.rewindSnk).nm = s.nm := rfl
@[simp] theorem State.rewindSnk_root : (s.rewindSnk).root = s.root := rfl
@[simp] theorem State.rewindSnk_rootValid : (s.rewindSnk).rootValid = s.rootValid := rfl
@[simp] theorem State.rewindSnk_pq : (s.rewindSnk).pq = s.pq := rfl
@[simp] theorem State.rewindSnk_codes : (s.rewindSnk).codes = s.codes := rfl
@[simp] theorem State.rewindSnk_ct : (s.rewindSnk).ct = s.ct := rfl
@[simp] theorem State.rewindSnk_bbBits : (s.rewindSnk).bbBits = s.bbBits := rfl
@[simp] theorem State.rewindSnk_bbCnt : (s.rewindSnk).bbCnt = s.bbCnt := rfl
@[simp] theorem State.rewindSnk_dbyte : (s.rewindSnk).dbyte = s.dbyte := rfl
@[simp] theorem State.rewindSnk_bitPos : (s.rewindSnk).bitPos = s.bitPos := rfl
@[simp] theorem State.rewindSnk_cur : (s.rewindSnk).cur = s.cur := rfl
@[simp] theorem State.rewindSnk_curValid : (s.rewindSnk).curValid = s.curValid := rfl
@[simp] theorem State.rewindSnk_emitted : (s.rewindSnk).emitted = s.emitted := rfl
@[simp] theorem State.rewindSnk_srcPos : (s.rewindSnk).srcPos = s.srcPos := rfl
@[simp] theorem State.rewindSnk_srcLen : (s.rewindSnk).srcLen = s.srcLen := rfl
@[simp] theorem State.rewindSnk_snkPos : (s.rewindSnk).snkPos = 0 := rfl
@[simp] theorem State.rewindSnk_snk : (s.rewindSnk).snk = s.snk := rfl
@[simp] theorem State.rewindSnk_src : (s.rewindSnk).src = s.src := rfl
@[simp] theorem State.rewindSnk_host : (s.rewindSnk).host = s.host := rfl

/-! `State.setCount` -/

@[simp] theorem State.setCount_arg0 (v : Byte) (n : Word32) : (s.setCount v n).arg0 = s.arg0 := rfl
@[simp] theorem State.setCount_res0 (v : Byte) (n : Word32) : (s.setCount v n).res0 = s.res0 := rfl
@[simp] theorem State.setCount_occ (v : Byte) (n : Word32) : (s.setCount v n).occ = s.occ := rfl
@[simp] theorem State.setCount_err (v : Byte) (n : Word32) : (s.setCount v n).err = s.err := rfl
@[simp] theorem State.setCount_faulted (v : Byte) (n : Word32) : (s.setCount v n).faulted = s.faulted := rfl
@[simp] theorem State.setCount_errInfo (v : Byte) (n : Word32) : (s.setCount v n).errInfo = s.errInfo := rfl
@[simp] theorem State.setCount_fileType (v : Byte) (n : Word32) : (s.setCount v n).fileType = s.fileType := rfl
@[simp] theorem State.setCount_totalLen (v : Byte) (n : Word32) : (s.setCount v n).totalLen = s.totalLen := rfl
@[simp] theorem State.setCount_dgCount (v : Byte) (n : Word32) : (s.setCount v n).dgCount = s.dgCount := rfl
@[simp] theorem State.setCount_dgValue (v : Byte) (n : Word32) : (s.setCount v n).dgValue = s.dgValue := rfl
@[simp] theorem State.setCount_hdrValid (v : Byte) (n : Word32) : (s.setCount v n).hdrValid = s.hdrValid := rfl
@[simp] theorem State.setCount_ft (v : Byte) (n : Word32) : (s.setCount v n).ft = tableSet s.ft v n := rfl
@[simp] theorem State.setCount_nm (v : Byte) (n : Word32) : (s.setCount v n).nm = s.nm := rfl
@[simp] theorem State.setCount_root (v : Byte) (n : Word32) : (s.setCount v n).root = s.root := rfl
@[simp] theorem State.setCount_rootValid (v : Byte) (n : Word32) : (s.setCount v n).rootValid = s.rootValid := rfl
@[simp] theorem State.setCount_pq (v : Byte) (n : Word32) : (s.setCount v n).pq = s.pq := rfl
@[simp] theorem State.setCount_codes (v : Byte) (n : Word32) : (s.setCount v n).codes = s.codes := rfl
@[simp] theorem State.setCount_ct (v : Byte) (n : Word32) : (s.setCount v n).ct = s.ct := rfl
@[simp] theorem State.setCount_bbBits (v : Byte) (n : Word32) : (s.setCount v n).bbBits = s.bbBits := rfl
@[simp] theorem State.setCount_bbCnt (v : Byte) (n : Word32) : (s.setCount v n).bbCnt = s.bbCnt := rfl
@[simp] theorem State.setCount_dbyte (v : Byte) (n : Word32) : (s.setCount v n).dbyte = s.dbyte := rfl
@[simp] theorem State.setCount_bitPos (v : Byte) (n : Word32) : (s.setCount v n).bitPos = s.bitPos := rfl
@[simp] theorem State.setCount_cur (v : Byte) (n : Word32) : (s.setCount v n).cur = s.cur := rfl
@[simp] theorem State.setCount_curValid (v : Byte) (n : Word32) : (s.setCount v n).curValid = s.curValid := rfl
@[simp] theorem State.setCount_emitted (v : Byte) (n : Word32) : (s.setCount v n).emitted = s.emitted := rfl
@[simp] theorem State.setCount_srcPos (v : Byte) (n : Word32) : (s.setCount v n).srcPos = s.srcPos := rfl
@[simp] theorem State.setCount_srcLen (v : Byte) (n : Word32) : (s.setCount v n).srcLen = s.srcLen := rfl
@[simp] theorem State.setCount_snkPos (v : Byte) (n : Word32) : (s.setCount v n).snkPos = s.snkPos := rfl
@[simp] theorem State.setCount_snk (v : Byte) (n : Word32) : (s.setCount v n).snk = s.snk := rfl
@[simp] theorem State.setCount_src (v : Byte) (n : Word32) : (s.setCount v n).src = s.src := rfl
@[simp] theorem State.setCount_host (v : Byte) (n : Word32) : (s.setCount v n).host = s.host := rfl

/-! `State.pushNode` -/

@[simp] theorem State.pushNode_arg0 (b : NodeBody) : (s.pushNode b).arg0 = s.arg0 := rfl
@[simp] theorem State.pushNode_res0 (b : NodeBody) : (s.pushNode b).res0 = s.res0 := rfl
@[simp] theorem State.pushNode_occ (b : NodeBody) : (s.pushNode b).occ = s.occ := rfl
@[simp] theorem State.pushNode_err (b : NodeBody) : (s.pushNode b).err = s.err := rfl
@[simp] theorem State.pushNode_faulted (b : NodeBody) : (s.pushNode b).faulted = s.faulted := rfl
@[simp] theorem State.pushNode_errInfo (b : NodeBody) : (s.pushNode b).errInfo = s.errInfo := rfl
@[simp] theorem State.pushNode_fileType (b : NodeBody) : (s.pushNode b).fileType = s.fileType := rfl
@[simp] theorem State.pushNode_totalLen (b : NodeBody) : (s.pushNode b).totalLen = s.totalLen := rfl
@[simp] theorem State.pushNode_dgCount (b : NodeBody) : (s.pushNode b).dgCount = s.dgCount := rfl
@[simp] theorem State.pushNode_dgValue (b : NodeBody) : (s.pushNode b).dgValue = s.dgValue := rfl
@[simp] theorem State.pushNode_hdrValid (b : NodeBody) : (s.pushNode b).hdrValid = s.hdrValid := rfl
@[simp] theorem State.pushNode_ft (b : NodeBody) : (s.pushNode b).ft = s.ft := rfl
@[simp] theorem State.pushNode_nm (b : NodeBody) : (s.pushNode b).nm = s.nm ++ [⟨false, b⟩] := rfl
@[simp] theorem State.pushNode_root (b : NodeBody) : (s.pushNode b).root = s.root := rfl
@[simp] theorem State.pushNode_rootValid (b : NodeBody) : (s.pushNode b).rootValid = s.rootValid := rfl
@[simp] theorem State.pushNode_pq (b : NodeBody) : (s.pushNode b).pq = s.pq := rfl
@[simp] theorem State.pushNode_codes (b : NodeBody) : (s.pushNode b).codes = s.codes := rfl
@[simp] theorem State.pushNode_ct (b : NodeBody) : (s.pushNode b).ct = s.ct := rfl
@[simp] theorem State.pushNode_bbBits (b : NodeBody) : (s.pushNode b).bbBits = s.bbBits := rfl
@[simp] theorem State.pushNode_bbCnt (b : NodeBody) : (s.pushNode b).bbCnt = s.bbCnt := rfl
@[simp] theorem State.pushNode_dbyte (b : NodeBody) : (s.pushNode b).dbyte = s.dbyte := rfl
@[simp] theorem State.pushNode_bitPos (b : NodeBody) : (s.pushNode b).bitPos = s.bitPos := rfl
@[simp] theorem State.pushNode_cur (b : NodeBody) : (s.pushNode b).cur = s.cur := rfl
@[simp] theorem State.pushNode_curValid (b : NodeBody) : (s.pushNode b).curValid = s.curValid := rfl
@[simp] theorem State.pushNode_emitted (b : NodeBody) : (s.pushNode b).emitted = s.emitted := rfl
@[simp] theorem State.pushNode_srcPos (b : NodeBody) : (s.pushNode b).srcPos = s.srcPos := rfl
@[simp] theorem State.pushNode_srcLen (b : NodeBody) : (s.pushNode b).srcLen = s.srcLen := rfl
@[simp] theorem State.pushNode_snkPos (b : NodeBody) : (s.pushNode b).snkPos = s.snkPos := rfl
@[simp] theorem State.pushNode_snk (b : NodeBody) : (s.pushNode b).snk = s.snk := rfl
@[simp] theorem State.pushNode_src (b : NodeBody) : (s.pushNode b).src = s.src := rfl
@[simp] theorem State.pushNode_host (b : NodeBody) : (s.pushNode b).host = s.host := rfl

/-! `State.clearTree` -/

@[simp] theorem State.clearTree_arg0 : (s.clearTree).arg0 = s.arg0 := rfl
@[simp] theorem State.clearTree_res0 : (s.clearTree).res0 = s.res0 := rfl
@[simp] theorem State.clearTree_occ : (s.clearTree).occ = s.occ := rfl
@[simp] theorem State.clearTree_err : (s.clearTree).err = s.err := rfl
@[simp] theorem State.clearTree_faulted : (s.clearTree).faulted = s.faulted := rfl
@[simp] theorem State.clearTree_errInfo : (s.clearTree).errInfo = s.errInfo := rfl
@[simp] theorem State.clearTree_fileType : (s.clearTree).fileType = s.fileType := rfl
@[simp] theorem State.clearTree_totalLen : (s.clearTree).totalLen = s.totalLen := rfl
@[simp] theorem State.clearTree_dgCount : (s.clearTree).dgCount = s.dgCount := rfl
@[simp] theorem State.clearTree_dgValue : (s.clearTree).dgValue = s.dgValue := rfl
@[simp] theorem State.clearTree_hdrValid : (s.clearTree).hdrValid = s.hdrValid := rfl
@[simp] theorem State.clearTree_ft : (s.clearTree).ft = s.ft := rfl
@[simp] theorem State.clearTree_nm : (s.clearTree).nm = [] := rfl
@[simp] theorem State.clearTree_root : (s.clearTree).root = s.root := rfl
@[simp] theorem State.clearTree_rootValid : (s.clearTree).rootValid = false := rfl
@[simp] theorem State.clearTree_pq : (s.clearTree).pq = [] := rfl
@[simp] theorem State.clearTree_codes : (s.clearTree).codes = s.codes := rfl
@[simp] theorem State.clearTree_ct : (s.clearTree).ct = s.ct := rfl
@[simp] theorem State.clearTree_bbBits : (s.clearTree).bbBits = s.bbBits := rfl
@[simp] theorem State.clearTree_bbCnt : (s.clearTree).bbCnt = s.bbCnt := rfl
@[simp] theorem State.clearTree_dbyte : (s.clearTree).dbyte = s.dbyte := rfl
@[simp] theorem State.clearTree_bitPos : (s.clearTree).bitPos = s.bitPos := rfl
@[simp] theorem State.clearTree_cur : (s.clearTree).cur = s.cur := rfl
@[simp] theorem State.clearTree_curValid : (s.clearTree).curValid = false := rfl
@[simp] theorem State.clearTree_emitted : (s.clearTree).emitted = s.emitted := rfl
@[simp] theorem State.clearTree_srcPos : (s.clearTree).srcPos = s.srcPos := rfl
@[simp] theorem State.clearTree_srcLen : (s.clearTree).srcLen = s.srcLen := rfl
@[simp] theorem State.clearTree_snkPos : (s.clearTree).snkPos = s.snkPos := rfl
@[simp] theorem State.clearTree_snk : (s.clearTree).snk = s.snk := rfl
@[simp] theorem State.clearTree_src : (s.clearTree).src = s.src := rfl
@[simp] theorem State.clearTree_host : (s.clearTree).host = s.host := rfl

/-! `State.setCode` -/

@[simp] theorem State.setCode_arg0 (k : CodeReg) (c : BinaryCode) : (s.setCode k c).arg0 = s.arg0 := rfl
@[simp] theorem State.setCode_res0 (k : CodeReg) (c : BinaryCode) : (s.setCode k c).res0 = s.res0 := rfl
@[simp] theorem State.setCode_occ (k : CodeReg) (c : BinaryCode) : (s.setCode k c).occ = s.occ := rfl
@[simp] theorem State.setCode_err (k : CodeReg) (c : BinaryCode) : (s.setCode k c).err = s.err := rfl
@[simp] theorem State.setCode_faulted (k : CodeReg) (c : BinaryCode) : (s.setCode k c).faulted = s.faulted := rfl
@[simp] theorem State.setCode_errInfo (k : CodeReg) (c : BinaryCode) : (s.setCode k c).errInfo = s.errInfo := rfl
@[simp] theorem State.setCode_fileType (k : CodeReg) (c : BinaryCode) : (s.setCode k c).fileType = s.fileType := rfl
@[simp] theorem State.setCode_totalLen (k : CodeReg) (c : BinaryCode) : (s.setCode k c).totalLen = s.totalLen := rfl
@[simp] theorem State.setCode_dgCount (k : CodeReg) (c : BinaryCode) : (s.setCode k c).dgCount = s.dgCount := rfl
@[simp] theorem State.setCode_dgValue (k : CodeReg) (c : BinaryCode) : (s.setCode k c).dgValue = s.dgValue := rfl
@[simp] theorem State.setCode_hdrValid (k : CodeReg) (c : BinaryCode) : (s.setCode k c).hdrValid = s.hdrValid := rfl
@[simp] theorem State.setCode_ft (k : CodeReg) (c : BinaryCode) : (s.setCode k c).ft = s.ft := rfl
@[simp] theorem State.setCode_nm (k : CodeReg) (c : BinaryCode) : (s.setCode k c).nm = s.nm := rfl
@[simp] theorem State.setCode_root (k : CodeReg) (c : BinaryCode) : (s.setCode k c).root = s.root := rfl
@[simp] theorem State.setCode_rootValid (k : CodeReg) (c : BinaryCode) : (s.setCode k c).rootValid = s.rootValid := rfl
@[simp] theorem State.setCode_pq (k : CodeReg) (c : BinaryCode) : (s.setCode k c).pq = s.pq := rfl
@[simp] theorem State.setCode_codes (k : CodeReg) (c : BinaryCode) : (s.setCode k c).codes = s.codes.set k.toNat (some c) k.isLt := rfl
@[simp] theorem State.setCode_ct (k : CodeReg) (c : BinaryCode) : (s.setCode k c).ct = s.ct := rfl
@[simp] theorem State.setCode_bbBits (k : CodeReg) (c : BinaryCode) : (s.setCode k c).bbBits = s.bbBits := rfl
@[simp] theorem State.setCode_bbCnt (k : CodeReg) (c : BinaryCode) : (s.setCode k c).bbCnt = s.bbCnt := rfl
@[simp] theorem State.setCode_dbyte (k : CodeReg) (c : BinaryCode) : (s.setCode k c).dbyte = s.dbyte := rfl
@[simp] theorem State.setCode_bitPos (k : CodeReg) (c : BinaryCode) : (s.setCode k c).bitPos = s.bitPos := rfl
@[simp] theorem State.setCode_cur (k : CodeReg) (c : BinaryCode) : (s.setCode k c).cur = s.cur := rfl
@[simp] theorem State.setCode_curValid (k : CodeReg) (c : BinaryCode) : (s.setCode k c).curValid = s.curValid := rfl
@[simp] theorem State.setCode_emitted (k : CodeReg) (c : BinaryCode) : (s.setCode k c).emitted = s.emitted := rfl
@[simp] theorem State.setCode_srcPos (k : CodeReg) (c : BinaryCode) : (s.setCode k c).srcPos = s.srcPos := rfl
@[simp] theorem State.setCode_srcLen (k : CodeReg) (c : BinaryCode) : (s.setCode k c).srcLen = s.srcLen := rfl
@[simp] theorem State.setCode_snkPos (k : CodeReg) (c : BinaryCode) : (s.setCode k c).snkPos = s.snkPos := rfl
@[simp] theorem State.setCode_snk (k : CodeReg) (c : BinaryCode) : (s.setCode k c).snk = s.snk := rfl
@[simp] theorem State.setCode_src (k : CodeReg) (c : BinaryCode) : (s.setCode k c).src = s.src := rfl
@[simp] theorem State.setCode_host (k : CodeReg) (c : BinaryCode) : (s.setCode k c).host = s.host := rfl

/-! `setHeader` -/

@[simp] theorem setHeader_arg0 (t : Byte) (total dgc : Word32) (dgv : Byte) : (setHeader t total dgc dgv s).arg0 = s.arg0 := rfl
@[simp] theorem setHeader_res0 (t : Byte) (total dgc : Word32) (dgv : Byte) : (setHeader t total dgc dgv s).res0 = t.setWidth 64 := rfl
@[simp] theorem setHeader_occ (t : Byte) (total dgc : Word32) (dgv : Byte) : (setHeader t total dgc dgv s).occ = s.occ := rfl
@[simp] theorem setHeader_err (t : Byte) (total dgc : Word32) (dgv : Byte) : (setHeader t total dgc dgv s).err = s.err := rfl
@[simp] theorem setHeader_faulted (t : Byte) (total dgc : Word32) (dgv : Byte) : (setHeader t total dgc dgv s).faulted = s.faulted := rfl
@[simp] theorem setHeader_errInfo (t : Byte) (total dgc : Word32) (dgv : Byte) : (setHeader t total dgc dgv s).errInfo = s.errInfo := rfl
@[simp] theorem setHeader_fileType (t : Byte) (total dgc : Word32) (dgv : Byte) : (setHeader t total dgc dgv s).fileType = t := rfl
@[simp] theorem setHeader_totalLen (t : Byte) (total dgc : Word32) (dgv : Byte) : (setHeader t total dgc dgv s).totalLen = total := rfl
@[simp] theorem setHeader_dgCount (t : Byte) (total dgc : Word32) (dgv : Byte) : (setHeader t total dgc dgv s).dgCount = dgc := rfl
@[simp] theorem setHeader_dgValue (t : Byte) (total dgc : Word32) (dgv : Byte) : (setHeader t total dgc dgv s).dgValue = dgv := rfl
@[simp] theorem setHeader_hdrValid (t : Byte) (total dgc : Word32) (dgv : Byte) : (setHeader t total dgc dgv s).hdrValid = true := rfl
@[simp] theorem setHeader_ft (t : Byte) (total dgc : Word32) (dgv : Byte) : (setHeader t total dgc dgv s).ft = s.ft := rfl
@[simp] theorem setHeader_nm (t : Byte) (total dgc : Word32) (dgv : Byte) : (setHeader t total dgc dgv s).nm = s.nm := rfl
@[simp] theorem setHeader_root (t : Byte) (total dgc : Word32) (dgv : Byte) : (setHeader t total dgc dgv s).root = s.root := rfl
@[simp] theorem setHeader_rootValid (t : Byte) (total dgc : Word32) (dgv : Byte) : (setHeader t total dgc dgv s).rootValid = s.rootValid := rfl
@[simp] theorem setHeader_pq (t : Byte) (total dgc : Word32) (dgv : Byte) : (setHeader t total dgc dgv s).pq = s.pq := rfl
@[simp] theorem setHeader_codes (t : Byte) (total dgc : Word32) (dgv : Byte) : (setHeader t total dgc dgv s).codes = s.codes := rfl
@[simp] theorem setHeader_ct (t : Byte) (total dgc : Word32) (dgv : Byte) : (setHeader t total dgc dgv s).ct = s.ct := rfl
@[simp] theorem setHeader_bbBits (t : Byte) (total dgc : Word32) (dgv : Byte) : (setHeader t total dgc dgv s).bbBits = s.bbBits := rfl
@[simp] theorem setHeader_bbCnt (t : Byte) (total dgc : Word32) (dgv : Byte) : (setHeader t total dgc dgv s).bbCnt = s.bbCnt := rfl
@[simp] theorem setHeader_dbyte (t : Byte) (total dgc : Word32) (dgv : Byte) : (setHeader t total dgc dgv s).dbyte = s.dbyte := rfl
@[simp] theorem setHeader_bitPos (t : Byte) (total dgc : Word32) (dgv : Byte) : (setHeader t total dgc dgv s).bitPos = s.bitPos := rfl
@[simp] theorem setHeader_cur (t : Byte) (total dgc : Word32) (dgv : Byte) : (setHeader t total dgc dgv s).cur = s.cur := rfl
@[simp] theorem setHeader_curValid (t : Byte) (total dgc : Word32) (dgv : Byte) : (setHeader t total dgc dgv s).curValid = s.curValid := rfl
@[simp] theorem setHeader_emitted (t : Byte) (total dgc : Word32) (dgv : Byte) : (setHeader t total dgc dgv s).emitted = s.emitted := rfl
@[simp] theorem setHeader_srcPos (t : Byte) (total dgc : Word32) (dgv : Byte) : (setHeader t total dgc dgv s).srcPos = s.srcPos := rfl
@[simp] theorem setHeader_srcLen (t : Byte) (total dgc : Word32) (dgv : Byte) : (setHeader t total dgc dgv s).srcLen = s.srcLen := rfl
@[simp] theorem setHeader_snkPos (t : Byte) (total dgc : Word32) (dgv : Byte) : (setHeader t total dgc dgv s).snkPos = s.snkPos := rfl
@[simp] theorem setHeader_snk (t : Byte) (total dgc : Word32) (dgv : Byte) : (setHeader t total dgc dgv s).snk = s.snk := rfl
@[simp] theorem setHeader_src (t : Byte) (total dgc : Word32) (dgv : Byte) : (setHeader t total dgc dgv s).src = s.src := rfl
@[simp] theorem setHeader_host (t : Byte) (total dgc : Word32) (dgv : Byte) : (setHeader t total dgc dgv s).host = s.host := rfl

/-! `beginDecode` -/

@[simp] theorem beginDecode_arg0 : (beginDecode s).arg0 = s.arg0 := rfl
@[simp] theorem beginDecode_res0 : (beginDecode s).res0 = s.res0 := rfl
@[simp] theorem beginDecode_occ : (beginDecode s).occ = s.occ := rfl
@[simp] theorem beginDecode_err : (beginDecode s).err = s.err := rfl
@[simp] theorem beginDecode_faulted : (beginDecode s).faulted = s.faulted := rfl
@[simp] theorem beginDecode_errInfo : (beginDecode s).errInfo = s.errInfo := rfl
@[simp] theorem beginDecode_fileType : (beginDecode s).fileType = s.fileType := rfl
@[simp] theorem beginDecode_totalLen : (beginDecode s).totalLen = s.totalLen := rfl
@[simp] theorem beginDecode_dgCount : (beginDecode s).dgCount = s.dgCount := rfl
@[simp] theorem beginDecode_dgValue : (beginDecode s).dgValue = s.dgValue := rfl
@[simp] theorem beginDecode_hdrValid : (beginDecode s).hdrValid = false := rfl
@[simp] theorem beginDecode_ft : (beginDecode s).ft = s.ft := rfl
@[simp] theorem beginDecode_nm : (beginDecode s).nm = s.nm := rfl
@[simp] theorem beginDecode_root : (beginDecode s).root = s.root := rfl
@[simp] theorem beginDecode_rootValid : (beginDecode s).rootValid = s.rootValid := rfl
@[simp] theorem beginDecode_pq : (beginDecode s).pq = s.pq := rfl
@[simp] theorem beginDecode_codes : (beginDecode s).codes = s.codes := rfl
@[simp] theorem beginDecode_ct : (beginDecode s).ct = s.ct := rfl
@[simp] theorem beginDecode_bbBits : (beginDecode s).bbBits = s.bbBits := rfl
@[simp] theorem beginDecode_bbCnt : (beginDecode s).bbCnt = s.bbCnt := rfl
@[simp] theorem beginDecode_dbyte : (beginDecode s).dbyte = s.dbyte := rfl
@[simp] theorem beginDecode_bitPos : (beginDecode s).bitPos = 0#3 := rfl
@[simp] theorem beginDecode_cur : (beginDecode s).cur = s.cur := rfl
@[simp] theorem beginDecode_curValid : (beginDecode s).curValid = false := rfl
@[simp] theorem beginDecode_emitted : (beginDecode s).emitted = 0#32 := rfl
@[simp] theorem beginDecode_srcPos : (beginDecode s).srcPos = s.srcPos := rfl
@[simp] theorem beginDecode_srcLen : (beginDecode s).srcLen = s.srcLen := rfl
@[simp] theorem beginDecode_snkPos : (beginDecode s).snkPos = s.snkPos := rfl
@[simp] theorem beginDecode_snk : (beginDecode s).snk = s.snk := rfl
@[simp] theorem beginDecode_src : (beginDecode s).src = s.src := rfl
@[simp] theorem beginDecode_host : (beginDecode s).host = s.host := rfl

end Sys2Proof.Machine
end

