-- ==== Sys2Proof/Laws/Ops.lean ====
section
/-! SUPPORT. What the shared operations can do, said once for each, so that later proofs cite these and unfold none of them. -/

namespace Sys2Proof.Machine

/-! ### The end of a command -/

@[simp] theorem Res.finish_done (s : State) : (Res.done s).finish = .next s.complete := rfl
@[simp] theorem Res.finish_raised (k : Err) (info : Word64) (s : State) :
    (Res.raised k info s).finish = .next (s.raise k info) := rfl
@[simp] theorem Res.finish_stopped (f : Fault) : (Res.stopped f).finish = .fault f := rfl
@[simp] theorem Res.andThen_done (s : State) (f : State → Res) : (Res.done s).andThen f = f s := rfl
@[simp] theorem Res.andThen_raised (k : Err) (info : Word64) (s : State) (f : State → Res) :
    (Res.raised k info s).andThen f = .raised k info s := rfl
@[simp] theorem Res.andThen_stopped (g : Fault) (f : State → Res) : (Res.stopped g).andThen f = .stopped g := rfl
@[simp] theorem Res.thenCommand_done (s : State) (f : State → Res) : (Res.done s).thenCommand f = f s.complete := rfl
@[simp] theorem Res.thenCommand_raised (k : Err) (info : Word64) (s : State) (f : State → Res) :
    (Res.raised k info s).thenCommand f = .raised k info s := rfl
@[simp] theorem Res.thenCommand_stopped (g : Fault) (f : State → Res) :
    (Res.stopped g).thenCommand f = .stopped g := rfl

/-- A command ends in a next state in two ways: its body reached its end, or it raised (R233). -/
theorem Res.finish_eq_next {r : Res} {t : State} :
    r.finish = .next t ↔ (∃ s, r = .done s ∧ t = s.complete) ∨ ∃ k info s, r = .raised k info s ∧ t = s.raise k info := by
  cases r <;> simp [eq_comm]

theorem Res.andThen_eq_done {r : Res} {f : State → Res} {t : State} :
    r.andThen f = .done t ↔ ∃ s, r = .done s ∧ f s = .done t := by
  cases r <;> simp

theorem Res.andThen_eq_raised {r : Res} {f : State → Res} {k : Err} {info : Word64} {t : State} :
    r.andThen f = .raised k info t ↔ r = .raised k info t ∨ ∃ s, r = .done s ∧ f s = .raised k info t := by
  cases r <;> simp

theorem Res.andThen_eq_stopped {r : Res} {f : State → Res} {g : Fault} :
    r.andThen f = .stopped g ↔ r = .stopped g ∨ ∃ s, r = .done s ∧ f s = .stopped g := by
  cases r <;> simp

theorem Res.andThen_assoc (r : Res) (f g : State → Res) :
    (r.andThen f).andThen g = r.andThen fun s => (f s).andThen g := by
  cases r <;> rfl

/-! ### Operand forms -/

theorem raise_eq (k : Err) (info : Word64) (s : State) : Sys2Proof.Machine.raise k info s = .raised k info s := rfl
theorem result_eq (x : Word64) (s : State) : result x s = .done { s with res0 := x } := rfl
@[simp] theorem boolWord_true : boolWord true = 1#64 := rfl
@[simp] theorem boolWord_false : boolWord false = 0#64 := rfl

theorem withNode_none {n : NodeIx} {s : State} (h : s.node? n = none) (k : Node → Res) :
    withNode n s k = .raised .badNode (n.setWidth 64) s := by
  simp [withNode, h, raise]

theorem withNode_some {n : NodeIx} {s : State} {nd : Node} (h : s.node? n = some nd) (k : Node → Res) :
    withNode n s k = k nd := by
  simp [withNode, h]

theorem withCode_none {k : CodeReg} {s : State} (h : s.codeAt k = none) (f : BinaryCode → Res) :
    withCode k s f = .raised .noCode (k.setWidth 64) s := by
  simp [withCode, h, raise]

theorem withCode_some {k : CodeReg} {s : State} {code : BinaryCode} (h : s.codeAt k = some code)
    (f : BinaryCode → Res) : withCode k s f = f code := by
  simp [withCode, h]

theorem withCtEntry_none {v : Byte} {s : State} (h : tableGet s.ct v = none) (f : BinaryCode → Res) :
    withCtEntry v s f = .raised .noCode (0x100#64 + v.setWidth 64) s := by
  simp [withCtEntry, h, raise]

theorem withCtEntry_some {v : Byte} {s : State} {code : BinaryCode} (h : tableGet s.ct v = some code)
    (f : BinaryCode → Res) : withCtEntry v s f = f code := by
  simp [withCtEntry, h]

theorem indexOk_iff {i : Byte} {code : BinaryCode} : indexOk i code = true ↔ i.toNat < code.length := by
  simp [indexOk]

theorem spanOk_iff {a b : Byte} {code : BinaryCode} :
    spanOk a b code = true ↔ a.toNat ≤ b.toNat ∧ b.toNat ≤ code.length := by
  simp [spanOk]

/-- A slice in range is the middle of the code it is taken from (R7). -/
theorem codeSlice_eq_iff {x y z : List Bool} {a b : Nat} (ha : x.length = a) (hb : x.length + y.length = b) :
    codeSlice (x ++ y ++ z) a b = y := by
  subst ha hb
  rw [codeSlice, List.take_left' (by simp), List.drop_left' rfl]

/-- Replacing the middle of a code (R166 to R168). -/
theorem codeReplace_eq {x y z bits : List Bool} {a b : Nat} (ha : x.length = a) (hb : x.length + y.length = b) :
    codeReplace (x ++ y ++ z) a b bits = x ++ bits ++ z := by
  subst ha hb
  rw [codeReplace, List.drop_left' (by simp), List.append_assoc x y z, List.take_left' rfl]

/-! ### Tables and registers -/

@[simp] theorem tableGet_tableSet_same {α : Type} (t : Vector α 256) (v : Byte) (x : α) :
    tableGet (tableSet t v x) v = x := by
  simp [tableGet, tableSet]

theorem tableGet_tableSet_other {α : Type} (t : Vector α 256) {v u : Byte} (x : α) (h : u ≠ v) :
    tableGet (tableSet t v x) u = tableGet t u := by
  have : v.toNat ≠ u.toNat := fun e => h (BitVec.eq_of_toNat_eq e.symm)
  simp [tableGet, tableSet, this]

@[simp] theorem tableGet_replicate {α : Type} (x : α) (v : Byte) : tableGet (Vector.replicate 256 x) v = x := by
  simp [tableGet]

theorem table_ext {α : Type} {t u : Vector α 256} (h : ∀ v, tableGet t v = tableGet u v) : t = u := by
  ext i hi
  have := h (BitVec.ofNat 8 i)
  simpa [tableGet, Nat.mod_eq_of_lt hi] using this

@[simp] theorem State.codeAt_setCode_same (s : State) (k : CodeReg) (code : BinaryCode) :
    (s.setCode k code).codeAt k = some code := by
  simp [State.codeAt, State.setCode]

theorem State.codeAt_setCode_other (s : State) {k j : CodeReg} (code : BinaryCode) (h : j ≠ k) :
    (s.setCode k code).codeAt j = s.codeAt j := by
  have : k.toNat ≠ j.toNat := fun e => h (BitVec.eq_of_toNat_eq e.symm)
  simp [State.codeAt, State.setCode, this]

@[simp] theorem State.count_setCount_same (s : State) (v : Byte) (n : Word32) : (s.setCount v n).count v = n := by
  simp [State.count, State.setCount]

theorem State.count_setCount_other (s : State) {v u : Byte} (n : Word32) (h : u ≠ v) :
    (s.setCount v n).count u = s.count u := by
  simp [State.count, State.setCount, tableGet_tableSet_other _ _ h]

theorem mem_allBytes (v : Byte) : v ∈ allBytes := by
  simp only [allBytes, List.mem_map, List.mem_range]
  exact ⟨v.toNat, v.isLt, by simp⟩

theorem mem_occupied {ft : FreqTable} {v : Byte} : v ∈ occupied ft ↔ tableGet ft v ≠ 0#32 := by
  simp [occupied, mem_allBytes]

/-- Whatever DEGEN_PICK chooses, it is an occupied value (R191, D12). -/
theorem degenPick_occupied {ft : FreqTable} (h : occupied ft ≠ []) : tableGet ft (degenPick ft) ≠ 0#32 := by
  rw [← mem_occupied]
  unfold degenPick
  split
  · exact absurd ‹_› h
  · rename_i h'; simp [h']
  · rename_i h'
    split <;> simp [h']

/-! ### The node store -/

theorem State.node?_eq_some_iff {s : State} {n : NodeIx} {nd : Node} :
    s.node? n = some nd ↔ n.toNat < 511 ∧ s.nm[n.toNat]? = some nd := by
  by_cases h : n.toNat < 511 <;> simp [State.node?, nodeMax, h]

theorem State.node?_eq_none_iff {s : State} {n : NodeIx} :
    s.node? n = none ↔ ¬ (n.toNat ≤ 510 ∧ n.toNat < s.nmNext) := by
  by_cases h : n.toNat < 511
  · simp [State.node?, nodeMax, State.nmNext, h]
    omega
  · simp [State.node?, nodeMax, h]
    omega

/-- Making a node leaves every node as it was. -/
theorem State.node?_pushNode_old {s : State} {b : NodeBody} {n : NodeIx} {nd : Node} (h : s.node? n = some nd) :
    (s.pushNode b).node? n = some nd := by
  rw [State.node?_eq_some_iff] at h ⊢
  refine ⟨h.1, ?_⟩
  obtain ⟨hlt, -⟩ := List.getElem?_eq_some_iff.1 h.2
  simp only [State.pushNode]
  rw [List.getElem?_append_left hlt]
  exact h.2

/-- The node made is the one at the old `NM_NEXT`, not owned. -/
theorem State.node?_pushNode_new {s : State} {b : NodeBody} (h : s.nmNext < 511) :
    (s.pushNode b).node? s.nextIx = some ⟨false, b⟩ := by
  simp only [State.nmNext] at h
  rw [State.node?_eq_some_iff]
  have : (BitVec.ofNat 9 s.nm.length).toNat = s.nm.length := by simp; omega
  simp only [State.pushNode, State.nextIx, this]
  exact ⟨h, by simp⟩

/-- Owning a node changes its `owned` bit and nothing else of the store. -/
theorem getElem?_setOwned (nm : List Node) (n : NodeIx) (m : Nat) :
    (setOwned nm n)[m]? = (nm[m]?).map fun nd => if m = n.toNat then { nd with owned := true } else nd := by
  simp only [setOwned, List.getElem?_modify]
  by_cases h : n.toNat = m
  · simp [h]
  · have : ¬ m = n.toNat := fun e => h e.symm
    simp [h, this]

@[simp] theorem length_setOwned (nm : List Node) (n : NodeIx) : (setOwned nm n).length = nm.length := by
  simp [setOwned]

/-! ### The queue -/

/-- Where R131 puts an item: behind entries of no greater weight, before one of greater weight. -/
theorem insertByWeight_spec {s : State} {w : Word64} {n : NodeIx} {q : List NodeIx}
    (h : ∀ m ∈ q, (s.node? m).isSome = true) :
    ∃ before after, q = before ++ after ∧ insertByWeight s w n q = .ok (before ++ n :: after) ∧
      (∀ m ∈ before, s.weightOf m ≤ w.toNat) ∧ ∀ m ∈ after.head?, w.toNat < s.weightOf m := by
  induction q with
  | nil => exact ⟨[], [], by simp [insertByWeight]⟩
  | cons m q ih =>
    obtain ⟨nd, hnd⟩ := Option.isSome_iff_exists.1 (h m (by simp))
    have hw : s.weightOf m = nd.body.weight.toNat := by simp [State.weightOf, hnd]
    simp only [insertByWeight, hnd]
    by_cases hgt : nd.body.weight > w
    · exact ⟨[], m :: q, rfl, by simp [hgt], by simp, by simpa [hw] using BitVec.lt_def.1 hgt⟩
    · obtain ⟨before, after, rfl, hins, hb, ha⟩ := ih fun x hx => h x (by simp [hx])
      refine ⟨m :: before, after, rfl, by simp [hgt, hins], ?_, ha⟩
      intro x hx
      rcases List.mem_cons.1 hx with rfl | hx
      · rw [hw]
        have : ¬ w.toNat < nd.body.weight.toNat := hgt
        omega
      · exact hb x hx

/-- Everything `enqueue` can do when the queue's entries name nodes (R131). -/
theorem enqueue_cases {s : State} {n : NodeIx} (h : ∀ m ∈ s.pq, (s.node? m).isSome = true) :
    (s.node? n = none ∧ enqueue n s = .raised .badNode (n.setWidth 64) s) ∨
    (s.node? n ≠ none ∧ 256 ≤ s.pq.length ∧ enqueue n s = .raised .queueFull (n.setWidth 64) s) ∨
    (s.node? n ≠ none ∧ s.pq.length < 256 ∧ ∃ before after, s.pq = before ++ after ∧
      enqueue n s = .done { s with pq := before ++ n :: after } ∧
      (∀ m ∈ before, s.weightOf m ≤ s.weightOf n) ∧ ∀ m ∈ after.head?, s.weightOf n < s.weightOf m) := by
  unfold enqueue
  cases hn : s.node? n with
  | none => simp
  | some nd =>
    by_cases hfull : 256 ≤ s.pq.length
    · simp [pqCap, hfull]
    · obtain ⟨before, after, hq, hins, hb, ha⟩ := insertByWeight_spec (w := nd.body.weight) (n := n) h
      have hw : s.weightOf n = nd.body.weight.toNat := by simp [State.weightOf, hn]
      refine .inr (.inr ⟨by simp, by omega, before, after, hq, ?_, ?_, ?_⟩)
      · simp [pqCap, hfull, hins]
      · simpa [hw] using hb
      · simpa [hw] using ha

theorem dequeue_nil {s : State} (h : s.pq = []) (k : NodeIx → State → Res) :
    dequeue s k = .raised .emptyQueue 0#64 s := by
  simp [dequeue, h]

theorem dequeue_cons {s : State} {q : NodeIx} {qs : List NodeIx} (h : s.pq = q :: qs) (k : NodeIx → State → Res) :
    dequeue s k = k q { s with pq := qs } := by
  simp [dequeue, h]

/-! ### Streams -/

/-- Everything `withBytes` can do when the source is there: the field is not wholly there and nothing is consumed, or
its bytes are the next unread ones (R62, R205). -/
theorem withBytes_cases {s : State} (n : Nat) (h : SourceThere s) (k : List Byte → State → Res) :
    (s.srcLeft < n ∧ withBytes n s k = .raised .streamUnderrun (BitVec.ofNat 64 s.srcPos) s) ∨
    (n ≤ s.srcLeft ∧ withBytes n s k = k (s.unread.take n) { s with srcPos := s.srcPos + n }) := by
  by_cases hn : s.srcLeft < n
  · exact .inl ⟨hn, by simp [withBytes, hn]⟩
  · refine .inr ⟨by omega, ?_⟩
    have hlen : ((s.src.drop s.srcPos).take n).length = n := by
      simp only [List.length_take, List.length_drop]
      simp only [State.srcLeft] at hn
      have := h
      simp only [SourceThere] at this
      omega
    have htake : s.unread.take n = (s.src.drop s.srcPos).take n := by
      simp [State.unread, List.take_take, Nat.min_eq_left (by omega : n ≤ s.srcLeft)]
    simp [withBytes, hn, State.srcRun, hlen, htake]

theorem State.unread_length {s : State} (h : SourceThere s) : s.unread.length = s.srcLeft := by
  simp only [State.unread, List.length_take, List.length_drop, State.srcLeft]
  have := h
  simp only [SourceThere] at this
  omega

/-- The next byte is the first unread one. -/
theorem State.srcPeek_eq {s : State} {b : Byte} {bs : List Byte} (h : s.unread = b :: bs) : s.srcPeek = some b := by
  have h0 : s.unread[0]? = some b := by simp [h]
  simp only [State.unread, List.getElem?_take, List.getElem?_drop] at h0
  split at h0
  · simpa [State.srcPeek] using h0
  · exact absurd h0 (by simp)

theorem State.sinkWrites_nil (s : State) : s.sinkWrites [] = s := rfl
theorem State.sinkWrites_cons (s : State) (b : Byte) (bs : List Byte) :
    s.sinkWrites (b :: bs) = (s.sinkWrite b).sinkWrites bs := rfl

/-- `SinkWrite` of some bytes changes the sink and its position, nothing else. -/
theorem State.sinkWrites_frame (s : State) (bs : List Byte) :
    s.sinkWrites bs = { s with snk := (s.sinkWrites bs).snk, snkPos := s.snkPos + bs.length } := by
  induction bs generalizing s with
  | nil => rfl
  | cons b bs ih =>
    rw [State.sinkWrites_cons, ih]
    simp [State.sinkWrite]
    omega

/-- `SinkWrite` of some bytes appends them (R63). -/
theorem State.sinkWrites_appended (s : State) (bs : List Byte) : Appended s (s.sinkWrites bs) bs := by
  induction bs generalizing s with
  | nil => exact ⟨rfl, by simp, by simp [State.sinkWrites_nil]⟩
  | cons b bs ih =>
    obtain ⟨hpos, hin, hout⟩ := ih (s.sinkWrite b)
    rw [State.sinkWrites_cons]
    have hp : (s.sinkWrite b).snkPos = s.snkPos + 1 := rfl
    refine ⟨by rw [hpos, hp]; simp; omega, ?_, ?_⟩
    · intro i x hx
      cases i with
      | zero =>
        rw [hout _ (.inl (by rw [hp]; omega))]
        simpa [State.sinkWrite] using hx
      | succ i =>
        have := hin i x (by simpa using hx)
        rw [hp] at this
        rw [← this]
        congr 1
        omega
    · intro a ha
      rw [hout a (by rw [hp]; simp at ha; omega)]
      have : a ≠ s.snkPos := by simp at ha; omega
      simp [State.sinkWrite, Memory.read_write_other _ _ this]

/-- `SinkWrite` keeps the sink's canonical form. -/
theorem State.sinkWrites_wf (s : State) (bs : List Byte) (h : s.snk.wf = true) : (s.sinkWrites bs).snk.wf = true := by
  induction bs generalizing s with
  | nil => exact h
  | cons b bs ih => exact ih _ (Memory.wf_write _ _ _ h)

/-! ### The bit buffer -/

/-- What `bb_append` does: the bit joins the pending ones, or the full byte goes to the sink (R190). -/
theorem bbAppend_cases (s : State) (bit : Bool) :
    (s.bbCnt ≠ 7#4 ∧ bbAppend s bit =
      { s with bbBits := setBit s.bbBits s.bbCnt.toNat bit, bbCnt := s.bbCnt + 1#4 }) ∨
    (s.bbCnt = 7#4 ∧ bbAppend s bit =
      { (s.sinkWrite (setBit s.bbBits 7 bit)) with bbBits := 0#8, bbCnt := 0#4 }) := by
  by_cases h : s.bbCnt = 7#4
  · right
    refine ⟨h, ?_⟩
    simp [bbAppend, h, State.sinkWrite]
  · left
    refine ⟨h, ?_⟩
    have : ¬ s.bbCnt + 1#4 = 8#4 := fun e => h (by
      have := congrArg (· - 1#4) e
      simpa using this)
    simp only [bbAppend]
    rw [if_neg (by simpa using this)]
    rfl

theorem bbAppends_nil (s : State) : bbAppends s [] = s := rfl
theorem bbAppends_cons (s : State) (b : Bool) (bs : List Bool) : bbAppends s (b :: bs) = bbAppends (bbAppend s b) bs :=
  rfl
theorem bbAppends_append (s : State) (bs cs : List Bool) : bbAppends s (bs ++ cs) = bbAppends (bbAppends s bs) cs := by
  simp [bbAppends]

/-- `ENC.FLUSH`'s effect: nothing, or the pending byte goes to the sink (R193). -/
theorem bbFlush_cases (s : State) :
    (s.bbCnt = 0#4 ∧ bbFlush s = s) ∨
    (s.bbCnt ≠ 0#4 ∧ bbFlush s = { (s.sinkWrite s.bbBits) with bbBits := 0#8, bbCnt := 0#4 }) := by
  by_cases h : s.bbCnt = 0#4
  · exact .inl ⟨h, by simp [bbFlush, h]⟩
  · exact .inr ⟨h, by simp [bbFlush, h]⟩

/-! ### Shared parts of several commands -/

/-- Everything an increment can do (R121, R125). -/
theorem incCount_cases (v : Byte) (s : State) :
    (s.count v = 0xFFFFFFFF#32 ∧ incCount v s = .raised .countOverflow (v.setWidth 64) s) ∨
    (s.count v ≠ 0xFFFFFFFF#32 ∧ incCount v s = .done (s.setCount v (s.count v + 1))) := by
  by_cases h : s.count v = 0xFFFFFFFF#32
  · exact .inl ⟨h, by simp [incCount, countMax, h, raise]⟩
  · exact .inr ⟨h, by simp [incCount, countMax, h]⟩

/-- Everything the end of a command that makes a code can do (R175(f)). -/
theorem storeCode_cases (cd : CodeReg) (code : BinaryCode) (s : State) :
    (255 < code.length ∧ storeCode cd code s = .raised .codeOverflow (cd.setWidth 64) s) ∨
    (code.length ≤ 255 ∧ storeCode cd code s = .done (s.setCode cd code)) := by
  by_cases h : 255 < code.length
  · exact .inl ⟨h, if_pos (show codeMax < code.length from h)⟩
  · exact .inr ⟨by omega, if_neg (show ¬ codeMax < code.length from h)⟩

/-- Everything `ENC.PUT` can do (R192). -/
theorem putBody_cases (v : Byte) (s : State) :
    (tableGet s.ct v = none ∧ putBody v s = .raised .noCode (0x100#64 + v.setWidth 64) s) ∨
    ∃ code, tableGet s.ct v = some code ∧ putBody v s = .done (bbAppends s code) := by
  cases h : tableGet s.ct v with
  | none => exact .inl ⟨rfl, withCtEntry_none h _⟩
  | some code => exact .inr ⟨code, rfl, withCtEntry_some h _⟩

/-- Everything `withByte` can do when the source is there (R62, R205). -/
theorem withByte_cases {s : State} (h : SourceThere s) (k : Byte → State → Res) :
    (s.srcLeft = 0 ∧ withByte s k = .raised .streamUnderrun (BitVec.ofNat 64 s.srcPos) s) ∨
    ∃ b bs, s.unread = b :: bs ∧ withByte s k = k b { s with srcPos := s.srcPos + 1 } := by
  have hlen := State.unread_length h
  have hb := fun k => withBytes_cases (s := s) 1 h k
  cases hu : s.unread with
  | nil =>
    rw [hu] at hlen
    left
    refine ⟨hlen.symm, ?_⟩
    exact (((hb _).resolve_right fun h' => by simp at hlen; omega)).2
  | cons b bs =>
    rw [hu] at hlen
    right
    refine ⟨b, bs, rfl, ?_⟩
    have := (((hb fun bs s => match bs with
      | [b] => k b s
      | _ => .stopped .sourceByteAbsent).resolve_left fun h' => by simp at hlen; omega)).2
    rw [hu] at this
    exact this

/-- Where a descent step takes its byte from (R208, D13): the current byte, or the next one of the source, which must be
there. -/
theorem withDescentByte_cases {s : State} (h : SourceThere s) (k : State → Res) :
    (s.bitPos ≠ 0#3 ∧ withDescentByte s k = k s) ∨
    (s.bitPos = 0#3 ∧ s.srcLeft = 0 ∧
      withDescentByte s k = .raised .streamUnderrun (BitVec.ofNat 64 s.srcPos) s) ∨
    (s.bitPos = 0#3 ∧ ∃ b bs, s.unread = b :: bs ∧
      withDescentByte s k = k { s with srcPos := s.srcPos + 1, dbyte := b }) := by
  by_cases hb : s.bitPos = 0#3
  · right
    simp only [withDescentByte, if_pos hb]
    rcases withByte_cases h (fun b s => k { s with dbyte := b }) with ⟨hl, he⟩ | ⟨b, bs, hu, he⟩
    · exact .inl ⟨hb, hl, he⟩
    · exact .inr ⟨hb, b, bs, hu, he⟩
  · exact .inl ⟨hb, by simp only [withDescentByte, if_neg hb]⟩

/-- A pass goes on from the state its last command left, whole (R197, R212). -/
theorem thenOk_next {t : State} (h : t.err = .ok) (f : State → Host.Outcome State Fault Refusal) :
    thenOk (.next t) f = f t := by
  simp [thenOk, h]

theorem thenOk_failed {t : State} (h : t.err ≠ .ok) (f : State → Host.Outcome State Fault Refusal) :
    thenOk (.next t) f = .next t := by
  simp [thenOk, h]

end Sys2Proof.Machine
end

