-- ==== Sys2Proof/Laws/PerInstr.lean ====
section
/-! SUPPORT. What holds of every instruction, one lemma for each constructor: an instruction is either a command, whose word's
opcode has a row of R92, or a stream record, which begins with the magic of R65. -/

namespace Sys2Proof.Laws

/-- The encoding of an instruction is a command word with an assigned opcode, or a record that begins with the magic
(R92, R93, R95). -/
def CommandOrRecord.Statement (i : Instr) : Prop :=
  match encode i with
  | .command w => (rowOf (opcodeOf w)).isSome = true
  | .record bytes => bytes.take 2 = [magic0, magic1]

/-- A command meets it by the row of its opcode. -/
theorem CommandOrRecord.of_command {i : Instr} {w : Word32} {op : Byte} (he : encode i = .command w)
    (ho : opcodeOf w = op) (hr : (rowOf op).isSome = true) : CommandOrRecord.Statement i := by
  simp only [CommandOrRecord.Statement, he, ho, hr]

/-- A record meets it by its first two bytes. -/
theorem CommandOrRecord.of_record {i : Instr} {bytes : List Byte} (he : encode i = .record bytes)
    (hm : bytes.take 2 = [magic0, magic1]) : CommandOrRecord.Statement i := by
  simp only [CommandOrRecord.Statement, he, hm]

theorem CommandOrRecord.nop : CommandOrRecord.Statement (.nop) :=
  CommandOrRecord.of_command rfl (opcodeOf_wordZ _) rfl
theorem CommandOrRecord.rst : CommandOrRecord.Statement (.rst) :=
  CommandOrRecord.of_command rfl (opcodeOf_wordZ _) rfl
theorem CommandOrRecord.rew (src snk : Bool) : CommandOrRecord.Statement (.rew src snk) :=
  CommandOrRecord.of_command rfl (opcodeOf_wordM _ _ _) rfl
theorem CommandOrRecord.ftClr : CommandOrRecord.Statement (.ftClr) :=
  CommandOrRecord.of_command rfl (opcodeOf_wordZ _) rfl
theorem CommandOrRecord.ftInc (v : Byte) : CommandOrRecord.Statement (.ftInc v) :=
  CommandOrRecord.of_command rfl (opcodeOf_wordB _ _) rfl
theorem CommandOrRecord.ftSet (v : Byte) : CommandOrRecord.Statement (.ftSet v) :=
  CommandOrRecord.of_command rfl (opcodeOf_wordB _ _) rfl
theorem CommandOrRecord.ftCnt (v : Byte) : CommandOrRecord.Statement (.ftCnt v) :=
  CommandOrRecord.of_command rfl (opcodeOf_wordB _ _) rfl
theorem CommandOrRecord.ftOcc : CommandOrRecord.Statement (.ftOcc) :=
  CommandOrRecord.of_command rfl (opcodeOf_wordZ _) rfl
theorem CommandOrRecord.ftScan : CommandOrRecord.Statement (.ftScan) :=
  CommandOrRecord.of_command rfl (opcodeOf_wordZ _) rfl
theorem CommandOrRecord.pqClr : CommandOrRecord.Statement (.pqClr) :=
  CommandOrRecord.of_command rfl (opcodeOf_wordZ _) rfl
theorem CommandOrRecord.pqEnq (n : NodeIx) : CommandOrRecord.Statement (.pqEnq n) :=
  CommandOrRecord.of_command rfl (opcodeOf_wordN _ _) rfl
theorem CommandOrRecord.pqDeq : CommandOrRecord.Statement (.pqDeq) :=
  CommandOrRecord.of_command rfl (opcodeOf_wordZ _) rfl
theorem CommandOrRecord.pqPeek : CommandOrRecord.Statement (.pqPeek) :=
  CommandOrRecord.of_command rfl (opcodeOf_wordZ _) rfl
theorem CommandOrRecord.pqLen : CommandOrRecord.Statement (.pqLen) :=
  CommandOrRecord.of_command rfl (opcodeOf_wordZ _) rfl
theorem CommandOrRecord.trClr : CommandOrRecord.Statement (.trClr) :=
  CommandOrRecord.of_command rfl (opcodeOf_wordZ _) rfl
theorem CommandOrRecord.trLeaf (v : Byte) : CommandOrRecord.Statement (.trLeaf v) :=
  CommandOrRecord.of_command rfl (opcodeOf_wordB _ _) rfl
theorem CommandOrRecord.trMerge (n1 n2 : NodeIx) : CommandOrRecord.Statement (.trMerge n1 n2) :=
  CommandOrRecord.of_command rfl (opcodeOf_wordNN _ _ _) rfl
theorem CommandOrRecord.trBuild : CommandOrRecord.Statement (.trBuild) :=
  CommandOrRecord.of_command rfl (opcodeOf_wordZ _) rfl
theorem CommandOrRecord.trRoot : CommandOrRecord.Statement (.trRoot) :=
  CommandOrRecord.of_command rfl (opcodeOf_wordZ _) rfl
theorem CommandOrRecord.trSetroot (n : NodeIx) : CommandOrRecord.Statement (.trSetroot n) :=
  CommandOrRecord.of_command rfl (opcodeOf_wordN _ _) rfl
theorem CommandOrRecord.trIsleaf (n : NodeIx) : CommandOrRecord.Statement (.trIsleaf n) :=
  CommandOrRecord.of_command rfl (opcodeOf_wordN _ _) rfl
theorem CommandOrRecord.trValue (n : NodeIx) : CommandOrRecord.Statement (.trValue n) :=
  CommandOrRecord.of_command rfl (opcodeOf_wordN _ _) rfl
theorem CommandOrRecord.trLeft (n : NodeIx) : CommandOrRecord.Statement (.trLeft n) :=
  CommandOrRecord.of_command rfl (opcodeOf_wordN _ _) rfl
theorem CommandOrRecord.trRight (n : NodeIx) : CommandOrRecord.Statement (.trRight n) :=
  CommandOrRecord.of_command rfl (opcodeOf_wordN _ _) rfl
theorem CommandOrRecord.trWeight (n : NodeIx) : CommandOrRecord.Statement (.trWeight n) :=
  CommandOrRecord.of_command rfl (opcodeOf_wordN _ _) rfl
theorem CommandOrRecord.trHeight (n : NodeIx) : CommandOrRecord.Statement (.trHeight n) :=
  CommandOrRecord.of_command rfl (opcodeOf_wordN _ _) rfl
theorem CommandOrRecord.trEq (n1 n2 : NodeIx) : CommandOrRecord.Statement (.trEq n1 n2) :=
  CommandOrRecord.of_command rfl (opcodeOf_wordNN _ _ _) rfl
theorem CommandOrRecord.bcNew (cd : CodeReg) (bit : Bool) : CommandOrRecord.Statement (.bcNew cd bit) :=
  CommandOrRecord.of_command rfl (opcodeOf_wordC _ _ _ _ _ _ _) rfl
theorem CommandOrRecord.bcPush (cd : CodeReg) (bit : Bool) : CommandOrRecord.Statement (.bcPush cd bit) :=
  CommandOrRecord.of_command rfl (opcodeOf_wordC _ _ _ _ _ _ _) rfl
theorem CommandOrRecord.bcLen (cs : CodeReg) : CommandOrRecord.Statement (.bcLen cs) :=
  CommandOrRecord.of_command rfl (opcodeOf_wordC _ _ _ _ _ _ _) rfl
theorem CommandOrRecord.bcGet (cs : CodeReg) (a : Byte) : CommandOrRecord.Statement (.bcGet cs a) :=
  CommandOrRecord.of_command rfl (opcodeOf_wordC _ _ _ _ _ _ _) rfl
theorem CommandOrRecord.bcSlice (cd cs : CodeReg) (a b : Byte) : CommandOrRecord.Statement (.bcSlice cd cs a b) :=
  CommandOrRecord.of_command rfl (opcodeOf_wordC _ _ _ _ _ _ _) rfl
theorem CommandOrRecord.bcSet (cd : CodeReg) (a : Byte) (bit : Bool) : CommandOrRecord.Statement (.bcSet cd a bit) :=
  CommandOrRecord.of_command rfl (opcodeOf_wordC _ _ _ _ _ _ _) rfl
theorem CommandOrRecord.bcSplice (cd cs : CodeReg) (a b : Byte) : CommandOrRecord.Statement (.bcSplice cd cs a b) :=
  CommandOrRecord.of_command rfl (opcodeOf_wordC _ _ _ _ _ _ _) rfl
theorem CommandOrRecord.bcIns (cd : CodeReg) (a : Byte) (bit : Bool) : CommandOrRecord.Statement (.bcIns cd a bit) :=
  CommandOrRecord.of_command rfl (opcodeOf_wordC _ _ _ _ _ _ _) rfl
theorem CommandOrRecord.bcDel (cd : CodeReg) (a b : Byte) : CommandOrRecord.Statement (.bcDel cd a b) :=
  CommandOrRecord.of_command rfl (opcodeOf_wordC _ _ _ _ _ _ _) rfl
theorem CommandOrRecord.bcCat (cd cs ct : CodeReg) : CommandOrRecord.Statement (.bcCat cd cs ct) :=
  CommandOrRecord.of_command rfl (opcodeOf_wordC _ _ _ _ _ _ _) rfl
theorem CommandOrRecord.bcEq (cs ct : CodeReg) : CommandOrRecord.Statement (.bcEq cs ct) :=
  CommandOrRecord.of_command rfl (opcodeOf_wordC _ _ _ _ _ _ _) rfl
theorem CommandOrRecord.ctClr : CommandOrRecord.Statement (.ctClr) :=
  CommandOrRecord.of_command rfl (opcodeOf_wordZ _) rfl
theorem CommandOrRecord.ctSt (a : Byte) (cs : CodeReg) : CommandOrRecord.Statement (.ctSt a cs) :=
  CommandOrRecord.of_command rfl (opcodeOf_wordC _ _ _ _ _ _ _) rfl
theorem CommandOrRecord.ctLd (cd : CodeReg) (a : Byte) : CommandOrRecord.Statement (.ctLd cd a) :=
  CommandOrRecord.of_command rfl (opcodeOf_wordC _ _ _ _ _ _ _) rfl
theorem CommandOrRecord.cgRun : CommandOrRecord.Statement (.cgRun) :=
  CommandOrRecord.of_command rfl (opcodeOf_wordZ _) rfl
theorem CommandOrRecord.encHdr : CommandOrRecord.Statement (.encHdr) :=
  CommandOrRecord.of_command rfl (opcodeOf_wordZ _) rfl
theorem CommandOrRecord.encPut (v : Byte) : CommandOrRecord.Statement (.encPut v) :=
  CommandOrRecord.of_command rfl (opcodeOf_wordB _ _) rfl
theorem CommandOrRecord.encFlush : CommandOrRecord.Statement (.encFlush) :=
  CommandOrRecord.of_command rfl (opcodeOf_wordZ _) rfl
theorem CommandOrRecord.encBody : CommandOrRecord.Statement (.encBody) :=
  CommandOrRecord.of_command rfl (opcodeOf_wordZ _) rfl
theorem CommandOrRecord.encRun : CommandOrRecord.Statement (.encRun) :=
  CommandOrRecord.of_command rfl (opcodeOf_wordZ _) rfl
theorem CommandOrRecord.decHdr : CommandOrRecord.Statement (.decHdr) :=
  CommandOrRecord.of_command rfl (opcodeOf_wordZ _) rfl
theorem CommandOrRecord.decBit : CommandOrRecord.Statement (.decBit) :=
  CommandOrRecord.of_command rfl (opcodeOf_wordZ _) rfl
theorem CommandOrRecord.decSym : CommandOrRecord.Statement (.decSym) :=
  CommandOrRecord.of_command rfl (opcodeOf_wordZ _) rfl
theorem CommandOrRecord.decBody : CommandOrRecord.Statement (.decBody) :=
  CommandOrRecord.of_command rfl (opcodeOf_wordZ _) rfl
theorem CommandOrRecord.decRun : CommandOrRecord.Statement (.decRun) :=
  CommandOrRecord.of_command rfl (opcodeOf_wordZ _) rfl
theorem CommandOrRecord.streamEmpty : CommandOrRecord.Statement (.streamEmpty) :=
  CommandOrRecord.of_record rfl rfl
theorem CommandOrRecord.streamDegen (count : Word32) (value : Byte) : CommandOrRecord.Statement (.streamDegen count value) :=
  CommandOrRecord.of_record rfl rfl
theorem CommandOrRecord.streamGeneral (total : Word32) (counts : List Word32) : CommandOrRecord.Statement (.streamGeneral total counts) :=
  CommandOrRecord.of_record rfl rfl

end Sys2Proof.Laws
end

