-- ==== Sys2Proof/Laws/Step.lean ====
section
/-! SUPPORT. What one step can do, by the host's next move. -/

namespace Sys2Proof.Machine

@[simp] theorem writeCommand_commandWord (w : Word32) : (writeCommand w).commandWord? = some w := by
  simp [writeCommand, HostMove.commandWord?]

/-- With no move of the host the core is idle (R261). -/
theorem step_idle {s : State} (h : s.host = []) : step s = .next s := by
  simp [step, fetch, h]

/-- A move that writes no command word is that move's own effect (R38, R262). -/
theorem step_move {s : State} {m : HostMove} {rest : List HostMove} (h : s.host = m :: rest)
    (hm : m.commandWord? = none) : step s = .next (hostMove m { s with host := rest }) := by
  simp [step, fetch, h, hm]

/-- A legal word written to `CMD` runs its instruction (R90). -/
theorem step_command {s : State} {m : HostMove} {w : Word32} {i : Instr} {rest : List HostMove}
    (h : s.host = m :: rest) (hm : m.commandWord? = some w) (hd : decodeCommand w = .ok i) :
    step s = exec i { s with host := rest } := by
  simp [step, fetch, h, hm, hd]

/-- An illegal word written to `CMD` raises `IllegalCommand` (R93). -/
theorem step_illegal {s : State} {m : HostMove} {w : Word32} {e : Reject} {rest : List HostMove}
    (h : s.host = m :: rest) (hm : m.commandWord? = some w) (hd : decodeCommand w = .error e) :
    step s = .next (illegalCommand w { s with host := rest }) := by
  simp [step, fetch, h, hm, hd]

/-- Everything a step that answers a next state can have been. -/
theorem step_cases {s t : State} (h : step s = .next t) :
    (s.host = [] ∧ t = s) ∨
    ∃ (m : HostMove) (rest : List HostMove), s.host = m :: rest ∧
      ((m.commandWord? = none ∧ t = hostMove m { s with host := rest }) ∨
       ∃ w, m.commandWord? = some w ∧
         ((∃ i, decodeCommand w = .ok i ∧ exec i { s with host := rest } = .next t) ∨
          ∃ e, decodeCommand w = .error e ∧ t = illegalCommand w { s with host := rest })) := by
  cases hs : s.host with
  | nil => left; rw [step_idle hs] at h; exact ⟨rfl, by cases h; rfl⟩
  | cons m rest =>
    refine .inr ⟨m, rest, rfl, ?_⟩
    cases hm : m.commandWord? with
    | none => left; rw [step_move hs hm] at h; exact ⟨rfl, by cases h; rfl⟩
    | some w =>
      right
      refine ⟨w, rfl, ?_⟩
      cases hd : decodeCommand w with
      | ok i => left; rw [step_command hs hm hd] at h; exact ⟨i, rfl, h⟩
      | error e => right; rw [step_illegal hs hm hd] at h; exact ⟨e, rfl, by cases h; rfl⟩

/-- `withFetchWord` makes a command word the next thing that runs. -/
theorem step_withFetchWord {s : State} {w : Word32} {i : Instr} (hd : decodeCommand w = .ok i) :
    step (s.withFetchWord 32 w.toNat) = exec i s := by
  have h : (s.withFetchWord 32 w.toNat).host = writeCommand w :: s.host := by
    simp [State.withFetchWord, placeCommand]
  rw [step_command h (writeCommand_commandWord w) hd]
  simp [State.withFetchWord, placeCommand]

end Sys2Proof.Machine
end

