-- ==== Sys2Proof/Laws/Tree.lean ====
section
/-! SUPPORT. Paths, heights and tree values in the node store, taken apart one node at a time. -/

namespace Sys2Proof.Machine

variable {s : State} {n m l r : NodeIx} {o : Bool} {v : Byte} {w : Word64} {p : BinaryCode}

/-- No path leaves a leaf. -/
theorem Path.of_leaf (hn : s.node? n = some ⟨o, .leaf v w⟩) (h : Path s n p m) : p = [] ∧ m = n := by
  cases h with
  | here => exact ⟨rfl, rfl⟩
  | left hi _ => simp [hn] at hi
  | right hi _ => simp [hn] at hi

/-- A path from an internal node is empty or begins with the bit of the child it goes on from. -/
theorem Path.of_internal (hn : s.node? n = some ⟨o, .internal l r w⟩) (h : Path s n p m) :
    (p = [] ∧ m = n) ∨ (∃ q, p = false :: q ∧ Path s l q m) ∨ ∃ q, p = true :: q ∧ Path s r q m := by
  cases h with
  | here => exact .inl ⟨rfl, rfl⟩
  | left hi hp =>
    rw [hn] at hi
    simp only [Option.some.injEq, Node.mk.injEq, NodeBody.internal.injEq] at hi
    obtain ⟨-, rfl, -, -⟩ := hi
    exact .inr (.inl ⟨_, rfl, hp⟩)
  | right hi hp =>
    rw [hn] at hi
    simp only [Option.some.injEq, Node.mk.injEq, NodeBody.internal.injEq] at hi
    obtain ⟨-, -, rfl, -⟩ := hi
    exact .inr (.inr ⟨_, rfl, hp⟩)

/-- What leads from a leaf to a leaf is the empty path, to its own value. -/
theorem LeadsTo.of_leaf {u : Byte} (hn : s.node? n = some ⟨o, .leaf v w⟩) :
    LeadsTo s n p u ↔ p = [] ∧ u = v := by
  constructor
  · rintro ⟨m, o', w', hp, hm⟩
    obtain ⟨rfl, rfl⟩ := hp.of_leaf hn
    rw [hn] at hm
    simp only [Option.some.injEq, Node.mk.injEq, NodeBody.leaf.injEq] at hm
    exact ⟨rfl, hm.2.1.symm⟩
  · rintro ⟨rfl, rfl⟩
    exact ⟨n, o, w, .here n, hn⟩

/-- What leads from an internal node to a leaf goes through one of its children. -/
theorem LeadsTo.of_internal {u : Byte} (hn : s.node? n = some ⟨o, .internal l r w⟩) :
    LeadsTo s n p u ↔ (∃ q, p = false :: q ∧ LeadsTo s l q u) ∨ ∃ q, p = true :: q ∧ LeadsTo s r q u := by
  constructor
  · rintro ⟨m, o', w', hp, hm⟩
    rcases hp.of_internal hn with ⟨-, rfl⟩ | ⟨q, rfl, hq⟩ | ⟨q, rfl, hq⟩
    · simp [hn] at hm
    · exact .inl ⟨q, rfl, m, o', w', hq, hm⟩
    · exact .inr ⟨q, rfl, m, o', w', hq, hm⟩
  · rintro (⟨q, rfl, m, o', w', hq, hm⟩ | ⟨q, rfl, m, o', w', hq, hm⟩)
    · exact ⟨m, o', w', .left hn hq, hm⟩
    · exact ⟨m, o', w', .right hn hq, hm⟩

/-- Bits lead to a leaf of a node's tree in the store exactly as they do in its tree value. -/
theorem TreeIs.follow_eq_some {T : TreeVal} (ht : TreeIs s n T) : T.follow p = some v ↔ LeadsTo s n p v := by
  induction ht generalizing p with
  | leaf hn => cases p <;> simp [TreeVal.follow, LeadsTo.of_leaf hn, eq_comm]
  | node hn _ _ ihl ihr =>
    rw [LeadsTo.of_internal hn]
    cases p with
    | nil => simp [TreeVal.follow]
    | cons b p => cases b <;> simp [TreeVal.follow, ihl, ihr]

/-- `TR.HEIGHT`'s walk computes the height (R152). -/
theorem heightFrom_sound {fuel h : Nat} (hh : heightFrom s fuel n = .ok h) : HeightIs s n h := by
  induction fuel generalizing n h with
  | zero => simp [heightFrom] at hh
  | succ fuel ih =>
    simp only [heightFrom] at hh
    split at hh
    · cases hh
    · rename_i hn
      cases hh
      exact .leaf hn
    · rename_i hn
      split at hh
      · rename_i hl hr
        cases hh
        exact .internal hn (ih hl) (ih hr)
      · cases hh
      · cases hh

end Sys2Proof.Machine
end

