-- ==== Sys2Proof/Tests/Slice0.lean ====
section
/-! SUPPORT. The model's own tests: ill-formed terms refused, words written out from the spec's encodings, single steps with
results the spec works out, and for every statement with hypotheses a concrete state that meets them. -/

-- One theorem after another: evaluated side by side they would need more threads than the check allows.
set_option Elab.async false

namespace Sys2Proof.Tests

open Sys2Proof.Machine

/-! ### Well-formedness -/

theorem test_wf_refuses_255_counts : (Instr.streamGeneral 0 (List.replicate 255 0)).wf = false := by decide +kernel
theorem test_wf_refuses_257_counts : (Instr.streamGeneral 0 (List.replicate 257 0)).wf = false := by decide +kernel
theorem test_wf_accepts_256_counts : (Instr.streamGeneral 0 (List.replicate 256 0)).wf = true := by decide +kernel
theorem test_wf_accepts_index_511 : (Instr.trMerge 0 511).wf = true := by decide

/-! ### Decoding -/

def decodesAs (rows : List (Word32 × Instr)) : Bool :=
  rows.all fun r => decide ((decodeCommand r.1).toOption = some r.2)

/-- The words of 95_test_vectors.md section 2.1 (for a command it does not list, written out from R91 and R92). -/
theorem test_decode_system : decodesAs [
    (0x00000000#32, .nop),
    (0x01000000#32, .rst),
    (0x02000003#32, .rew true true),
    (0x02000001#32, .rew true false),
    (0x02000002#32, .rew false true)] = true := by decide

/-- The words of 95_test_vectors.md section 2.1 (for a command it does not list, written out from R91 and R92). -/
theorem test_decode_frequency : decodesAs [
    (0x10000000#32, .ftClr),
    (0x11000041#32, .ftInc 0x41),
    (0x12000061#32, .ftSet 0x61),
    (0x130000FF#32, .ftCnt 0xFF),
    (0x14000000#32, .ftOcc),
    (0x15000000#32, .ftScan)] = true := by decide

/-- The words of 95_test_vectors.md section 2.1 (for a command it does not list, written out from R91 and R92). -/
theorem test_decode_queue : decodesAs [
    (0x20000000#32, .pqClr),
    (0x21000003#32, .pqEnq 3),
    (0x22000000#32, .pqDeq),
    (0x23000000#32, .pqPeek),
    (0x24000000#32, .pqLen)] = true := by decide

/-- The words of 95_test_vectors.md section 2.1 (for a command it does not list, written out from R91 and R92). -/
theorem test_decode_tree : decodesAs [
    (0x30000000#32, .trClr),
    (0x31000061#32, .trLeaf 0x61),
    (0x32001002#32, .trMerge 2 1),
    (0x321FF000#32, .trMerge 0 511),
    (0x33000000#32, .trBuild),
    (0x34000000#32, .trRoot),
    (0x350001FE#32, .trSetroot 510),
    (0x36000004#32, .trIsleaf 4),
    (0x37000003#32, .trValue 3),
    (0x38000004#32, .trLeft 4),
    (0x39000100#32, .trRight 256),
    (0x3A000003#32, .trWeight 3),
    (0x3B000004#32, .trHeight 4),
    (0x3C005002#32, .trEq 2 5)] = true := by decide

/-- The words of 95_test_vectors.md section 2.1 (for a command it does not list, written out from R91 and R92). -/
theorem test_decode_code : decodesAs [
    (0x40000040#32, .bcNew 0 true),
    (0x41000042#32, .bcPush 2 true),
    (0x4200000C#32, .bcLen 3),
    (0x43000104#32, .bcGet 1 1),
    (0x44030101#32, .bcSlice 1 0 1 3),
    (0x4500FF42#32, .bcSet 2 255 true),
    (0x46030104#32, .bcSplice 0 1 1 3),
    (0x46030101#32, .bcSplice 1 0 1 3),
    (0x47000340#32, .bcIns 0 3 true),
    (0x48020000#32, .bcDel 0 0 2),
    (0x49000013#32, .bcCat 3 0 1),
    (0x4A000024#32, .bcEq 1 2)] = true := by decide

/-- The words of 95_test_vectors.md section 2.1 (for a command it does not list, written out from R91 and R92). -/
theorem test_decode_code_table : decodesAs [
    (0x4C000000#32, .ctClr),
    (0x4D00630C#32, .ctSt 0x63 3),
    (0x4E006301#32, .ctLd 1 0x63),
    (0x50000000#32, .cgRun)] = true := by decide

/-- The words of 95_test_vectors.md section 2.1 (for a command it does not list, written out from R91 and R92). -/
theorem test_decode_codec : decodesAs [
    (0x60000000#32, .encHdr),
    (0x61000062#32, .encPut 0x62),
    (0x62000000#32, .encFlush),
    (0x63000000#32, .encBody),
    (0x64000000#32, .encRun),
    (0x70000000#32, .decHdr),
    (0x71000000#32, .decBit),
    (0x72000000#32, .decSym),
    (0x73000000#32, .decBody),
    (0x74000000#32, .decRun)] = true := by decide

/-- The mask and match of spec/opcode_table.json. -/
theorem test_rows_system : systemRows.map (fun r => (r.mask, r.pattern)) = [
    (0xFFFFFFFF#32, 0x00000000#32), (0xFFFFFFFF#32, 0x01000000#32), (0xFFFFFFFC#32, 0x02000000#32)] := by decide

/-- The mask and match of spec/opcode_table.json. -/
theorem test_rows_frequency : frequencyRows.map (fun r => (r.mask, r.pattern)) = [
    (0xFFFFFFFF#32, 0x10000000#32), (0xFFFFFF00#32, 0x11000000#32), (0xFFFFFF00#32, 0x12000000#32),
    (0xFFFFFF00#32, 0x13000000#32), (0xFFFFFFFF#32, 0x14000000#32), (0xFFFFFFFF#32, 0x15000000#32)] := by decide

/-- The mask and match of spec/opcode_table.json. -/
theorem test_rows_queue : queueRows.map (fun r => (r.mask, r.pattern)) = [
    (0xFFFFFFFF#32, 0x20000000#32), (0xFFFFFE00#32, 0x21000000#32), (0xFFFFFFFF#32, 0x22000000#32),
    (0xFFFFFFFF#32, 0x23000000#32), (0xFFFFFFFF#32, 0x24000000#32)] := by decide

/-- The mask and match of spec/opcode_table.json. -/
theorem test_rows_tree : treeRows.map (fun r => (r.mask, r.pattern)) = [
    (0xFFFFFFFF#32, 0x30000000#32), (0xFFFFFF00#32, 0x31000000#32), (0xFFE00E00#32, 0x32000000#32),
    (0xFFFFFFFF#32, 0x33000000#32), (0xFFFFFFFF#32, 0x34000000#32), (0xFFFFFE00#32, 0x35000000#32),
    (0xFFFFFE00#32, 0x36000000#32), (0xFFFFFE00#32, 0x37000000#32), (0xFFFFFE00#32, 0x38000000#32),
    (0xFFFFFE00#32, 0x39000000#32), (0xFFFFFE00#32, 0x3A000000#32), (0xFFFFFE00#32, 0x3B000000#32),
    (0xFFE00E00#32, 0x3C000000#32)] := by decide

/-- The mask and match of spec/opcode_table.json. -/
theorem test_rows_code : codeRows.map (fun r => (r.mask, r.pattern)) = [
    (0xFFFFFFBC#32, 0x40000000#32), (0xFFFFFFBC#32, 0x41000000#32), (0xFFFFFFF3#32, 0x42000000#32),
    (0xFFFF00F3#32, 0x43000000#32), (0xFF0000F0#32, 0x44000000#32), (0xFFFF00BC#32, 0x45000000#32),
    (0xFF0000F0#32, 0x46000000#32), (0xFFFF00BC#32, 0x47000000#32), (0xFF0000FC#32, 0x48000000#32),
    (0xFFFFFFC0#32, 0x49000000#32), (0xFFFFFFC3#32, 0x4A000000#32)] := by decide

/-- The mask and match of spec/opcode_table.json. -/
theorem test_rows_code_table : codeTableRows.map (fun r => (r.mask, r.pattern)) = [
    (0xFFFFFFFF#32, 0x4C000000#32), (0xFFFF00F3#32, 0x4D000000#32), (0xFFFF00FC#32, 0x4E000000#32),
    (0xFFFFFFFF#32, 0x50000000#32)] := by decide

/-- The mask and match of spec/opcode_table.json. -/
theorem test_rows_codec : codecRows.map (fun r => (r.mask, r.pattern)) = [
    (0xFFFFFFFF#32, 0x60000000#32), (0xFFFFFF00#32, 0x61000000#32), (0xFFFFFFFF#32, 0x62000000#32),
    (0xFFFFFFFF#32, 0x63000000#32), (0xFFFFFFFF#32, 0x64000000#32), (0xFFFFFFFF#32, 0x70000000#32),
    (0xFFFFFFFF#32, 0x71000000#32), (0xFFFFFFFF#32, 0x72000000#32), (0xFFFFFFFF#32, 0x73000000#32),
    (0xFFFFFFFF#32, 0x74000000#32)] := by decide

/-- V-ENC-ILL of 95_test_vectors.md: unassigned opcodes, and reserved bits that are 1. -/
theorem test_illegal_words :
    ([0x03000000#32, 0x4B000000#32, 0xFF000000#32].all fun w =>
      decide (decodeCommand w = .error .unassignedOpcode)) = true ∧
    ([0x10000001#32, 0x32200000#32, 0x40000080#32, 0x21000200#32, 0x40000004#32, 0x4D006301#32, 0x02000004#32].all
      fun w => decide (decodeCommand w = .error .reservedBits)) = true := by decide

/-- R95 and the examples of R205: records, and starts that are none. -/
theorem test_records :
    decodeRecord [0x34#8, 0x32#8, 0x00#8] = .ok (.streamEmpty, []) ∧
    decodeRecord [0x34#8, 0x32#8, 0x01#8, 0#8, 0#8, 0#8, 5#8, 7#8] = .ok (.streamDegen 5 7, []) ∧
    decodeRecord [0x50#8, 0x4B#8, 3#8, 4#8] = .error .badMagic ∧
    decodeRecord [0x34#8] = .error .badMagic ∧
    decodeRecord [0x34#8, 0x32#8] = .error .truncated ∧
    decodeRecord [0x34#8, 0x32#8, 3#8] = .error (.badFileType 3) := by decide

/-- The worked example of R66: `total_length` = 10 is the bytes 00 00 00 0A, and `counts[0x61]` = 5 stands at offsets
395 to 398. -/
theorem test_general_record :
    let counts := (List.replicate 256 (0 : Word32)).set 0x61 5
    let bytes := [0x34#8, 0x32#8, 0x02#8, 0#8, 0#8, 0#8, 0x0A#8] ++ (List.replicate 1024 0#8).set (398 - 7) 5#8
    decodeRecord (bytes ++ [0xE0#8]) = .ok (.streamGeneral 10 counts, [0xE0#8]) ∧
    encode (.streamGeneral 10 counts) = .record bytes := by decide +kernel

/-! ### Single steps -/

/-- The state a command leads to (`State.reset` if it leads to none; the tests below show that it does). -/
def after : Host.Outcome State Fault Refusal → State
  | .next t => t
  | .fault _ => State.reset
  | .refused _ => State.reset

def completes : Host.Outcome State Fault Refusal → Bool
  | .next _ => true
  | .fault _ => false
  | .refused _ => false

theorem next_after {o : Host.Outcome State Fault Refusal} (h : completes o = true) : o = .next (after o) := by
  cases o <;> simp_all [completes, after]

/-- One command completes and leads to a state with a property. -/
def leadsTo (i : Instr) (s : State) (p : State → Bool) : Bool := completes (exec i s) && p (after (exec i s))

/-- A state whose source is these bytes, all of them unread. -/
def withSource (bs : List Byte) : State := { State.reset with src := bs, srcLen := BitVec.ofNat 64 bs.length }

def outputIs (s : State) (bs : List Byte) : Bool := decide (s.output = bs.map some)

/-- The tree of scenario C (43_tree.md rule R146, example 1). -/
def treeC : State := { State.reset with
  nm := [⟨true, .leaf 0x61 5⟩, ⟨true, .leaf 0x62 3⟩, ⟨true, .leaf 0x63 2⟩, ⟨true, .internal 2 1 5⟩,
    ⟨false, .internal 0 3 10⟩]
  root := 4
  rootValid := true }

def countsC : FreqTable := tableSet (tableSet (tableSet (Vector.replicate 256 0) 0x61 5) 0x62 3) 0x63 2

/-- The codes of scenario C (45_codegen.md rule R181, example 1). -/
def codesC : CodeTable :=
  tableSet (tableSet (tableSet emptyTable 0x61 (some [false])) 0x63 (some [true, false])) 0x62 (some [true, true])

/-- V-FT-3. -/
theorem test_ft_inc_at_the_limit :
    leadsTo (.ftInc 9) (State.reset.setCount 9 0xFFFFFFFF) (fun t => t.status == 0x0000010A && t.errInfo == 9) = true := by
  decide

/-- V-FT-3: a count of 33 bits, and R122: the largest count. -/
theorem test_ft_set_limits :
    leadsTo (.ftSet 9) { State.reset with arg0 := 0x100000000 } (fun t => t.err == .operandRange && t.count 9 == 0) = true ∧
    leadsTo (.ftSet 9) { State.reset with arg0 := 0xFFFFFFFF } (fun t => t.err == .ok && t.count 9 == 0xFFFFFFFF) = true := by
  decide

/-- V-FT-2: 0x61 is bit 33 of `OCC1`. -/
theorem test_ft_occ :
    leadsTo .ftOcc (State.reset.setCount 0x61 5)
      (fun t => t.res0 == 1 && t.occWord 1 == 0x0000000200000000 && t.occWord 0 == 0) = true := by
  decide +kernel

/-- The example of R125. -/
theorem test_ft_scan :
    leadsTo .ftScan (withSource [0x61, 0x61, 0x62])
      (fun t => t.count 0x61 == 2 && t.count 0x62 == 1 && t.res0 == 3 && t.srcPos == 3) = true := by
  decide

/-- The example of R131: weights 5, 3, 5 give the queue [1, 0, 2]. -/
theorem test_pq_enq_goes_behind_equal_weights :
    leadsTo (.pqEnq 2) { State.reset with
      nm := [⟨false, .leaf 0 5⟩, ⟨false, .leaf 1 3⟩, ⟨false, .leaf 2 5⟩]
      pq := [1, 0] } (fun t => decide (t.pq = [1, 0, 2])) = true := by
  decide

/-- The example of R132. -/
theorem test_pq_deq :
    leadsTo .pqDeq { State.reset with pq := [1, 0, 2] } (fun t => t.res0 == 1 && decide (t.pq = [0, 2])) = true := by
  decide

/-- The example of R142: the first operand is the left child. -/
theorem test_tr_merge :
    leadsTo (.trMerge 2 1) { State.reset with
      nm := [⟨false, .leaf 0x61 5⟩, ⟨false, .leaf 0x62 3⟩, ⟨false, .leaf 0x63 2⟩] }
      (fun t => t.res0 == 3 && decide (t.nm = [⟨false, .leaf 0x61 5⟩, ⟨true, .leaf 0x62 3⟩, ⟨true, .leaf 0x63 2⟩,
        ⟨false, .internal 2 1 5⟩])) = true := by
  decide

/-- Example 1 of R146. -/
theorem test_tr_build :
    leadsTo .trBuild { State.reset with ft := countsC }
      (fun t => decide (t.nm = treeC.nm) && t.root == 4 && t.rootValid && decide (t.pq = []) && t.res0 == 4) = true := by
  decide +kernel

/-- The examples of R152 and R153. -/
theorem test_tr_height_and_eq :
    leadsTo (.trHeight 4) treeC (fun t => t.res0 == 2) = true ∧
    leadsTo (.trEq 4 4) treeC (fun t => t.res0 == 1) = true ∧
    leadsTo (.trEq 1 2) treeC (fun t => t.res0 == 0 && t.err == .ok) = true := by
  decide

/-- The example of R164. -/
theorem test_bc_slice :
    leadsTo (.bcSlice 1 0 1 3) (State.reset.setCode 0 [true, false, true, true])
      (fun t => decide (t.codeAt 1 = some [false, true])) = true := by
  decide

/-- The examples of R166: the code shrinks by one, and grows by one. -/
theorem test_bc_splice :
    leadsTo (.bcSplice 0 1 1 3) ((State.reset.setCode 0 [true, false, true, true]).setCode 1 [false])
      (fun t => decide (t.codeAt 0 = some [true, false, true])) = true ∧
    leadsTo (.bcSplice 0 1 1 3) ((State.reset.setCode 0 [true, false, true, true]).setCode 1 [false, false, false])
      (fun t => decide (t.codeAt 0 = some [true, false, false, false, true])) = true := by
  decide

/-- The examples of R168: a deletion, and one that would leave nothing. -/
theorem test_bc_del :
    leadsTo (.bcDel 0 2 3) (State.reset.setCode 0 [true, false, true])
      (fun t => decide (t.codeAt 0 = some [true, false])) = true ∧
    leadsTo (.bcDel 0 0 2) (State.reset.setCode 0 [true, false])
      (fun t => t.err == .emptyCode && t.errInfo == 0 && decide (t.codeAt 0 = some [true, false])) = true := by
  decide

/-- R175(d): `OperandRange` carries the command word. -/
theorem test_bc_get_out_of_range :
    leadsTo (.bcGet 0 2) (State.reset.setCode 0 [true, false])
      (fun t => t.err == .operandRange && t.errInfo == 0x43000200) = true := by
  decide

/-- Example 1 of R181. -/
theorem test_cg_run : leadsTo .cgRun treeC (fun t => decide (t.ct = codesC)) = true := by decide +kernel

/-- The examples of R191: scenarios B and A. -/
theorem test_enc_hdr :
    leadsTo .encHdr (State.reset.setCount 7 5) (fun t => outputIs t [0x34, 0x32, 1, 0, 0, 0, 5, 7] &&
      t.fileType == 1 && t.dgCount == 5 && t.dgValue == 7 && t.res0 == 1) = true ∧
    leadsTo .encHdr State.reset (fun t => outputIs t [0x34, 0x32, 0]) = true := by
  decide +kernel

/-- The example of R192. -/
theorem test_enc_put :
    leadsTo (.encPut 0x62) { State.reset with ct := codesC }
      (fun t => t.bbBits == 3 && t.bbCnt == 2 && t.snkPos == 0) = true := by
  decide

/-- The example of R196. -/
theorem test_enc_body :
    leadsTo .encBody { withSource [0x61, 0x61, 0x61, 0x61, 0x61, 0x62, 0x62, 0x62, 0x63, 0x63] with ct := codesC }
      (fun t => outputIs t [0xE0, 0x2F] && t.srcPos == 10 && t.bbCnt == 0) = true := by
  decide

/-- The examples of R205: a degenerate header, and a bad magic. -/
theorem test_dec_hdr :
    leadsTo .decHdr (withSource [0x34, 0x32, 1, 0, 0, 0, 5, 7])
      (fun t => t.res0 == 1 && t.dgCount == 5 && t.dgValue == 7 && t.srcPos == 8) = true ∧
    leadsTo .decHdr (withSource [0x50, 0x4B, 3, 4])
      (fun t => t.err == .badMagic && t.errInfo == 0x02504B && t.srcPos == 0) = true ∧
    leadsTo .decHdr (withSource [0x34]) (fun t => t.err == .badMagic && t.errInfo == 0x013400) = true := by
  decide

/-- The example of R208: the first bit, and the sixth. -/
theorem test_dec_bit :
    leadsTo .decBit { treeC with src := [0xE0, 0x2F], srcLen := 2 }
      (fun t => outputIs t [0x61] && t.res0 == 1 && t.bitPos == 1 && t.srcPos == 1 && t.emitted == 1) = true ∧
    leadsTo .decBit { treeC with src := [0xE0, 0x2F], srcLen := 2, srcPos := 1, dbyte := 0xE0, bitPos := 5 }
      (fun t => t.cur == 3 && t.curValid && t.res0 == 0 && t.snkPos == 0) = true := by
  decide

/-- The example of R209: bits 5 and 6 of 0xE0. -/
theorem test_dec_sym :
    leadsTo .decSym { treeC with src := [0xE0, 0x2F], srcLen := 2, srcPos := 1, dbyte := 0xE0, bitPos := 5 }
      (fun t => outputIs t [0x62] && t.bitPos == 7 && !t.curValid) = true := by
  decide

/-- The example of R212 for a degenerate stream. -/
theorem test_dec_run :
    leadsTo .decRun (withSource [0x34, 0x32, 1, 0, 0, 0, 5, 7])
      (fun t => outputIs t [7, 7, 7, 7, 7, 0x0A] && t.res0 == 6) = true := by
  decide

/-- The example of R220. -/
theorem test_nop_keeps_faulted :
    leadsTo .nop (State.reset.raise .badMagic 7) (fun t => t.err == .ok && t.faulted && t.errInfo == 7) = true := by
  decide

/-- The row's three records run as the first thing after reset: their header, then their body. -/
theorem test_record_rows_run :
    (match step (State.reset.withFetchWord 24 0x343200) with
      | .next t => t.fileType == 0 && t.err == .ok
      | _ => false) = true ∧
    (match step (State.reset.withFetchWord 24 0x343201) with
      | .next t => outputIs t [0x0A] && t.err == .ok
      | _ => false) = true ∧
    (match step (State.reset.withFetchWord 24 0x343202) with
      | .next t => t.err == .emptyQueue
      | _ => false) = true := by
  decide +kernel

/-! ### Witnesses: for each statement with hypotheses, a state and operands that meet them -/

/-- Five nodes, a queue, a root, a position in the tree, codes, pending bits, and a source: a state that meets every
invariant and has something in every part of it. -/
def busy : State := { treeC with
  pq := [3, 0, 4]
  cur := 3
  curValid := true
  codes := Vector.replicate 4 (some [true])
  ct := codesC
  bbBits := 5
  bbCnt := 3
  snk := [(0, 0x34), (7, 1)]
  snkPos := 1
  src := [0x61, 0x62, 0x63]
  srcLen := 3 }

/-- The nodes of scenario C, by index. -/
theorem treeC_nodes {s : State} (h : s.nm = treeC.nm) {n : Nat} {nd : Node} (hn : s.nm[n]? = some nd) :
    (n = 0 ∧ nd = ⟨true, .leaf 0x61 5⟩) ∨ (n = 1 ∧ nd = ⟨true, .leaf 0x62 3⟩) ∨ (n = 2 ∧ nd = ⟨true, .leaf 0x63 2⟩) ∨
    (n = 3 ∧ nd = ⟨true, .internal 2 1 5⟩) ∨ (n = 4 ∧ nd = ⟨false, .internal 0 3 10⟩) := by
  rw [h] at hn
  match n with
  | 0 | 1 | 2 | 3 | 4 => simp [treeC] at hn; simp [hn]
  | k + 5 => simp [treeC] at hn

theorem treeC_store {s : State} (h : s.nm = treeC.nm) : StoreInv s where
  bound := by rw [h]; decide
  children := by
    intro n o l r w hn
    rcases treeC_nodes h hn with ⟨-, he⟩ | ⟨-, he⟩ | ⟨-, he⟩ | ⟨rfl, he⟩ | ⟨rfl, he⟩
    · cases he
    · cases he
    · cases he
    · cases he
      exact ⟨by decide, by decide, by decide, ⟨true, .leaf 0x63 2⟩, ⟨true, .leaf 0x62 3⟩, by simp [State.node?, h]; decide,
        by simp [State.node?, h]; decide, rfl, rfl, rfl⟩
    · cases he
      exact ⟨by decide, by decide, by decide, ⟨true, .leaf 0x61 5⟩, ⟨true, .internal 2 1 5⟩,
        by simp [State.node?, h]; decide, by simp [State.node?, h]; decide, rfl, rfl, rfl⟩
  oneParent := by
    intro m n c ndm ndn hm hn hcm hcn
    rcases treeC_nodes h hm with ⟨rfl, rfl⟩ | ⟨rfl, rfl⟩ | ⟨rfl, rfl⟩ | ⟨rfl, rfl⟩ | ⟨rfl, rfl⟩ <;>
      rcases treeC_nodes h hn with ⟨rfl, rfl⟩ | ⟨rfl, rfl⟩ | ⟨rfl, rfl⟩ | ⟨rfl, rfl⟩ | ⟨rfl, rfl⟩ <;>
      simp only [Node.hasChild] at hcm hcn <;>
      first
      | rfl
      | (rcases hcm with rfl | rfl <;> rcases hcn with h' | h' <;> exact absurd h' (by decide))
  ownedIsChild := by
    intro n nd hn ho
    have hn' := (State.node?_eq_some_iff.1 hn).2
    have hmem : ∀ nd : Node, nd ∈ treeC.nm → nd ∈ s.nm := fun nd hnd => by rwa [h]
    rcases treeC_nodes h hn' with ⟨hi, -⟩ | ⟨hi, -⟩ | ⟨hi, -⟩ | ⟨hi, -⟩ | ⟨-, rfl⟩
    · exact ⟨⟨false, .internal 0 3 10⟩, hmem _ (by decide), .inl (BitVec.eq_of_toNat_eq hi)⟩
    · exact ⟨⟨true, .internal 2 1 5⟩, hmem _ (by decide), .inr (BitVec.eq_of_toNat_eq hi)⟩
    · exact ⟨⟨true, .internal 2 1 5⟩, hmem _ (by decide), .inl (BitVec.eq_of_toNat_eq hi)⟩
    · exact ⟨⟨false, .internal 0 3 10⟩, hmem _ (by decide), .inr (BitVec.eq_of_toNat_eq hi)⟩
    · cases ho

theorem busy_inv : Inv busy where
  store := treeC_store rfl
  queue := ⟨by decide, by decide, by decide⟩
  pointers := ⟨fun _ => by decide, fun _ => ⟨true, 2, 1, 5, by decide⟩⟩
  codes := by
    constructor
    · intro k code hk
      have : code = [true] := by simpa [State.codeAt, busy, eq_comm] using hk
      subst this
      decide
    · intro v code hv
      have hall : ∀ v : Byte, ((tableGet codesC v).all fun code => decide (1 ≤ code.length ∧ code.length ≤ 255)) = true := by
        decide +kernel
      have := hall v
      rw [show tableGet codesC v = some code from hv] at this
      simpa [codeMax] using this
  buffer := by
    refine ⟨by decide, fun i hi => ?_⟩
    have h3 : 3 ≤ i := hi
    by_cases h8 : i < 8
    · have : ∀ j : Fin 8, 3 ≤ j.val → (5#8).getLsbD j.val = false := by decide
      exact this ⟨i, h8⟩ h3
    · simp [BitVec.getLsbD_of_ge _ _ (by omega : 8 ≤ i)]
  sink := by decide

theorem leadsTo_treeC {s : State} (h : s.nm = treeC.nm) {p : BinaryCode} {v : Byte} :
    LeadsTo s 4 p v ↔ (p = [false] ∧ v = 0x61) ∨ (p = [true, false] ∧ v = 0x63) ∨ (p = [true, true] ∧ v = 0x62) := by
  have n0 : s.node? 0 = some ⟨true, .leaf 0x61 5⟩ := by simp [State.node?, h]; decide
  have n1 : s.node? 1 = some ⟨true, .leaf 0x62 3⟩ := by simp [State.node?, h]; decide
  have n2 : s.node? 2 = some ⟨true, .leaf 0x63 2⟩ := by simp [State.node?, h]; decide
  have n3 : s.node? 3 = some ⟨true, .internal 2 1 5⟩ := by simp [State.node?, h]; decide
  have n4 : s.node? 4 = some ⟨false, .internal 0 3 10⟩ := by simp [State.node?, h]; decide
  rw [LeadsTo.of_internal n4]
  simp only [LeadsTo.of_leaf n0, LeadsTo.of_internal n3, LeadsTo.of_leaf n1, LeadsTo.of_leaf n2]
  constructor
  · rintro (⟨q, rfl, rfl, rfl⟩ | ⟨q, rfl, ⟨q', rfl, rfl, rfl⟩ | ⟨q', rfl, rfl, rfl⟩⟩) <;> simp
  · rintro (⟨rfl, rfl⟩ | ⟨rfl, rfl⟩ | ⟨rfl, rfl⟩) <;> simp

theorem distinct_treeC {s : State} (h : s.nm = treeC.nm) : DistinctLeaves s 4 := by
  intro p q v hp hq
  rw [leadsTo_treeC h] at hp hq
  rcases hp with ⟨rfl, rfl⟩ | ⟨rfl, rfl⟩ | ⟨rfl, rfl⟩ <;>
    rcases hq with ⟨rfl, h'⟩ | ⟨rfl, h'⟩ | ⟨rfl, h'⟩ <;> first | rfl | exact absurd h' (by decide)

theorem witness_StepRunsTheDecodedCommand :
    ({ busy with host := [writeCommand 0x10000000#32] } : State).host = writeCommand 0x10000000#32 :: [] ∧
    decodeCommand 0x10000000#32 = .ok .ftClr ∧ busy.host = [] ∧
    ({ busy with host := [.write 8 64 5] } : State).host = .write 8 64 5 :: [] ∧
    (HostMove.write 8 64 5).commandWord? = none ∧ HostMove.hardwareReset.commandWord? = none ∧
    ({ busy with host := [.hardwareReset] } : State).host = .hardwareReset :: [] := by decide

/-- An unassigned opcode, and a command with a reserved bit: neither is the encoding of an instruction. -/
theorem witness_IllegalWordsOnlyReport :
    ({ busy with host := [writeCommand 0x4B000000#32] } : State).host = writeCommand 0x4B000000#32 :: [] ∧
    (∀ i, encode i ≠ .command 0x4B000000#32) ∧ ∀ i, encode i ≠ .command 0x10000001#32 := by
  have e1 : opcodeOf 0x4B000000#32 = 0x4B#8 := by decide
  have e2 : opcodeOf 0x10000001#32 = 0x10#8 := by decide
  refine ⟨rfl, fun i h => ?_, fun i h => ?_⟩ <;>
    cases i <;> simp only [encode, reduceCtorEq, Encoded.command.injEq] at h <;>
    first
    | exact absurd h (by decide)
    | (have ho := congrArg opcodeOf h
       simp [e1, e2] at ho)

/-- A counter at the limit and below it, and the two sides of 2^32 in `ARG0`. -/
theorem witness_FrequencyCommandEffects :
    (State.reset.setCount 9 0xFFFFFFFF).count 9 = 0xFFFFFFFF#32 ∧
    (State.reset.setCount 9 0xFFFFFFFE).count 9 ≠ 0xFFFFFFFF#32 ∧
    2 ^ 32 ≤ ({ busy with arg0 := 0x100000000 } : State).arg0.toNat ∧
    ({ busy with arg0 := 0xFFFFFFFF } : State).arg0.toNat < 2 ^ 32 := by decide

theorem witness_ScanCountsTheUnreadSource :
    (SourceThere busy ∧ ∀ v, (busy.count v).toNat + busy.unread.count v < 2 ^ 32) ∧
    SourceThere (busy.setCount 0x62 0xFFFFFFFF) ∧
    (busy.setCount 0x62 0xFFFFFFFF).unread = [0x61] ++ 0x62 :: [0x63] ∧
    (∀ u, ((busy.setCount 0x62 0xFFFFFFFF).count u).toNat + [0x61#8].count u < 2 ^ 32) ∧
    ((busy.setCount 0x62 0xFFFFFFFF).count 0x62).toNat + [0x61#8].count 0x62 = 2 ^ 32 - 1 := by
  decide +kernel

theorem witness_ScannedCountsSumToTheLength : ∃ t u,
    busy.srcPos = 0 ∧ exec .ftClr busy = .next t ∧ exec .ftScan t = .next u ∧ u.err = .ok :=
  ⟨_, _, rfl, rfl, next_after (by decide +kernel), by decide +kernel⟩

/-- An index that names no node, a full queue, and a queue with room for one more. -/
theorem witness_EnqueueInsertsStably :
    ¬ ((5 : NodeIx).toNat ≤ 510 ∧ (5 : NodeIx).toNat < busy.nmNext) ∧
    ((4 : NodeIx).toNat ≤ 510 ∧ (4 : NodeIx).toNat < busy.nmNext) ∧
    256 ≤ ({ busy with pq := List.replicate 256 4 } : State).pq.length ∧
    ({ busy with pq := List.replicate 255 4 } : State).pq.length < 256 ∧
    ∀ q ∈ ({ busy with pq := List.replicate 255 4 } : State).pq, (busy.node? q).isSome = true :=
  ⟨by decide, by decide, Nat.le_of_eq List.length_replicate.symm,
    Nat.lt_of_le_of_lt (Nat.le_of_eq List.length_replicate) (by decide),
    fun q hq => by rw [(List.mem_replicate.1 hq).2]; decide⟩

theorem witness_QueueCommandEffects :
    treeC.pq = [] ∧ busy.pq = 3 :: [0, 4] ∧ ({ busy with pq := List.replicate 256 4 } : State).pq.length ≤ 256 := by
  decide +kernel

theorem witness_EnqueuesSortStably :
    treeC.pq = [] ∧ [4, 1, 0, 3].length ≤ 256 ∧ ∀ n ∈ ([4, 1, 0, 3] : List NodeIx), (treeC.node? n).isSome = true := by
  decide

/-- A store with `nmNext` entries: two leaves of the given weights that are not owned, and owned ones. -/
def storeOf (k : Nat) (w0 w1 : Word64) : State := { State.reset with
  nm := ⟨false, .leaf 0 w0⟩ :: ⟨false, .leaf 1 w1⟩ :: List.replicate k ⟨true, .leaf 2 1⟩ }

theorem witness_NodeMakingEffects :
    511 ≤ (storeOf 509 1 2).nmNext ∧ (storeOf 508 1 2).nmNext < 511 ∧
    (storeOf 1 1 2).node? 3 = none ∧ (storeOf 1 1 2).node? 0 = some ⟨false, .leaf 0 1⟩ ∧
    (storeOf 1 1 2).node? 1 = some ⟨false, .leaf 1 2⟩ ∧ (storeOf 1 1 2).node? 2 = some ⟨true, .leaf 2 1⟩ ∧
    2 ^ 64 ≤ (storeOf 1 1 (BitVec.allOnes 64)).weightOf 0 + (storeOf 1 1 (BitVec.allOnes 64)).weightOf 1 ∧
    (storeOf 1 0 (BitVec.allOnes 64)).weightOf 0 + (storeOf 1 0 (BitVec.allOnes 64)).weightOf 1 < 2 ^ 64 ∧
    (storeOf 509 1 2).weightOf 0 + (storeOf 509 1 2).weightOf 1 < 2 ^ 64 := by
  decide +kernel

theorem witness_RootCommandEffects :
    State.reset.rootValid = false ∧ treeC.rootValid = true ∧ treeC.node? 5 = none ∧ treeC.node? 4 ≠ none := by decide

theorem witness_AccessorEffects :
    treeC.node? 511 = none ∧ treeC.node? 0 = some ⟨true, .leaf 0x61 5⟩ ∧
    treeC.node? 4 = some ⟨false, .internal 0 3 10⟩ := by decide

theorem witness_HeightIsAtMost255 : treeC.node? 5 = none ∧ StoreInv treeC ∧ treeC.node? 4 ≠ none :=
  ⟨by decide, treeC_store rfl, by decide⟩

theorem witness_EqualityIsOfTreeValues :
    treeC.node? 5 = none ∧ treeC.node? 3 ≠ none ∧ StoreInv treeC ∧ treeC.node? 4 ≠ none :=
  ⟨by decide, by decide, treeC_store rfl, by decide⟩

/-- No occupied value, one, and three. -/
theorem witness_BuildMakesTheWholeTree :
    (∀ v, State.reset.count v = 0#32) ∧
    allBytes.filter (fun v => (State.reset.setCount 7 1).count v != 0#32) = [7] ∧
    allBytes.filter (fun v => ({ busy with ft := countsC } : State).count v != 0#32) = [0x61, 0x62, 0x63] := by
  decide +kernel

theorem witness_BuildIsTheStableMerge : ∃ t, exec .trBuild { busy with ft := countsC } = .next t ∧ t.err = .ok :=
  ⟨_, next_after (by decide +kernel), by decide +kernel⟩

theorem witness_BuildReadsNothingButTheCounts : ∃ t t',
    ({ busy with ft := countsC } : State).ft = ({ State.reset with ft := countsC } : State).ft ∧
    exec .trBuild { busy with ft := countsC } = .next t ∧
    exec .trBuild { State.reset with ft := countsC } = .next t' :=
  ⟨_, _, rfl, next_after (by decide +kernel), next_after (by decide +kernel)⟩

theorem witness_BuiltRootWeighsTheSum : ∃ t, exec .trBuild { busy with ft := countsC } = .next t ∧ t.err = .ok :=
  witness_BuildIsTheStableMerge

/-- A state with codes of the given lengths in `C0` and `C1` and none in `C2`. -/
def codesOf (m n : Nat) : State := (State.reset.setCode 0 (List.replicate m true)).setCode 1 (List.replicate n false)

theorem witness_CodeReadingEffects :
    (codesOf 255 1).codeAt 2 = none ∧ (codesOf 255 1).codeAt 0 = some (List.replicate 255 true) ∧
    255 ≤ (List.replicate 255 true).length ∧ (codesOf 254 1).codeAt 0 = some (List.replicate 254 true) ∧
    (List.replicate 254 true).length < 255 ∧ (codesOf 2 1).codeAt 0 = some [true, true] ∧
    [true, true].length ≤ (2 : Byte).toNat ∧ [true, true][(1 : Byte).toNat]? = some true ∧
    (codesOf 2 1).codeAt 1 = some [false] := by
  decide +kernel

/-- Spans at the ends of a code and beyond them, an empty span, an index at the last bit and after it, results of 255 and
256 bits. -/
theorem witness_SliceSetSpliceEffects :
    (codesOf 3 1).codeAt 2 = none ∧ (codesOf 3 1).codeAt 0 = some [true, true, true] ∧
    (codesOf 3 1).codeAt 1 = some [false] ∧
    ¬ ((1 : Byte).toNat ≤ (4 : Byte).toNat ∧ (4 : Byte).toNat ≤ [true, true, true].length) ∧
    ((3 : Byte) = 3 ∧ (3 : Byte).toNat ≤ [true, true, true].length) ∧
    ((2 : Byte).toNat < (3 : Byte).toNat ∧ (3 : Byte).toNat ≤ [true, true, true].length) ∧
    [true, true, true].length ≤ (3 : Byte).toNat ∧ (2 : Byte).toNat < [true, true, true].length ∧
    ([true, true, true] = [true] ++ [true, true] ++ [] ∧ [true].length = (1 : Byte).toNat ∧
      [true].length + [true, true].length = (3 : Byte).toNat ∧
      [true].length + [false].length + ([] : List Bool).length ≤ 255) ∧
    ((codesOf 255 1).codeAt 0 = some ([] ++ [] ++ List.replicate 255 true) ∧
      255 < ([] : List Bool).length + [false].length + (List.replicate 255 true).length) ∧
    ((codesOf 254 1).codeAt 0 = some ([] ++ [] ++ List.replicate 254 true) ∧
      ([] : List Bool).length + [false].length + (List.replicate 254 true).length ≤ 255) := by
  decide +kernel

theorem witness_InsertDeleteConcatEffects :
    (codesOf 3 1).codeAt 2 = none ∧ (codesOf 3 1).codeAt 0 = some [true, true, true] ∧
    [true, true, true].length < (4 : Byte).toNat ∧
    ((codesOf 255 1).codeAt 0 = some (List.replicate 255 true) ∧ (255 : Byte).toNat ≤ (List.replicate 255 true).length ∧
      255 ≤ (List.replicate 255 true).length) ∧
    ([true, true, true] = [true, true, true] ++ [] ∧ [true, true, true].length = (3 : Byte).toNat ∧
      [true, true, true].length < 255) ∧
    ¬ ((2 : Byte).toNat ≤ (1 : Byte).toNat ∧ (1 : Byte).toNat ≤ [true, true, true].length) ∧
    ([true, true, true] = [] ++ [true, true, true] ++ [] ∧ ([] : List Bool).length = (0 : Byte).toNat ∧
      ([] : List Bool).length + [true, true, true].length = (3 : Byte).toNat ∧ ([] ++ [] : List Bool) = []) ∧
    ([true, true, true] = [true] ++ [true, true] ++ [] ∧ [true].length = (1 : Byte).toNat ∧
      [true].length + [true, true].length = (3 : Byte).toNat ∧ ([true] ++ [] : List Bool) ≠ []) ∧
    255 < (List.replicate 255 true).length + [false].length ∧
    (List.replicate 254 true).length + [false].length ≤ 255 := by
  decide +kernel

theorem witness_SliceWrittenBackRestoresTheCode :
    (0 : CodeReg) ≠ 1 ∧ (codesOf 255 1).codeAt 0 = some (List.replicate 255 true) ∧
    (List.replicate 255 true).length ≤ 255 ∧ (254 : Byte).toNat < (255 : Byte).toNat ∧
    (255 : Byte).toNat ≤ (List.replicate 255 true).length := by
  decide +kernel

theorem witness_CodeTableEffects :
    State.reset.codeAt 0 = none ∧ busy.codeAt 0 = some [true] ∧ tableGet busy.ct 0x60 = none ∧
    tableGet busy.ct 0x62 = some [true, true] := by
  decide

theorem witness_CodesAreTheRootPaths :
    State.reset.rootValid = false ∧
    (({ treeC with root := 0 } : State).rootValid = true ∧
      ({ treeC with root := 0 } : State).node? 0 = some ⟨true, .leaf 0x61 5⟩) ∧
    StoreInv treeC ∧ treeC.rootValid = true ∧ treeC.node? treeC.root = some ⟨false, .internal 0 3 10⟩ :=
  ⟨by decide, by decide, treeC_store rfl, by decide, by decide⟩

/-- Premises of the statement, and two entries of the table it speaks of. -/
theorem witness_CodesArePrefixFree : ∃ t, StoreInv treeC ∧ DistinctLeaves treeC treeC.root ∧ exec .cgRun treeC = .next t ∧
    t.err = .ok ∧ tableGet t.ct 0x61 = some [false] ∧ tableGet t.ct 0x63 = some [true, false] :=
  ⟨_, treeC_store rfl, distinct_treeC rfl, next_after (by decide +kernel), by decide +kernel⟩

/-- Counts whose sum is 2^32, one more than the largest length; scenario C's; and tables with none, one and two occupied
values. -/
theorem witness_HeaderWriterEffects :
    let many : State := { State.reset with ft := Vector.replicate 256 0x01000000 }
    let k := fun s : State => (List.range 256).countP (fun v => s.count (BitVec.ofNat 8 v) != 0#32)
    let sum := fun s : State => ((List.range 256).map fun v => (s.count (BitVec.ofNat 8 v)).toNat).sum
    (k many = 256 ∧ sum many = 2 ^ 32) ∧ k State.reset = 0 ∧ k (State.reset.setCount 255 1) = 1 ∧
    k ((State.reset.setCount 255 1).setCount 0 0xFFFFFFFF) = 2 ∧
    (k { State.reset with ft := countsC } = 3 ∧ sum { State.reset with ft := countsC } < 2 ^ 32) := by
  decide +kernel

theorem witness_PutAndFlushPackBits :
    tableGet busy.ct 0x60 = none ∧ (tableGet busy.ct 0x62 = some [true, true] ∧ BufferInv busy) ∧
    State.reset.bbCnt = 0 ∧ busy.bbCnt ≠ 0 :=
  ⟨by decide, ⟨by decide, busy_inv.buffer⟩, by decide, by decide⟩

theorem witness_BodyPacksTheCodes :
    SourceThere busy ∧ BufferInv busy ∧ (∀ v ∈ busy.unread, tableGet busy.ct v ≠ none) ∧
    SourceThere { busy with src := [0x62, 0x60, 0x61] } ∧ BufferInv { busy with src := [0x62, 0x60, 0x61] } ∧
    ({ busy with src := [0x62, 0x60, 0x61] } : State).unread = [0x62] ++ 0x60 :: [0x61] ∧
    (∀ u ∈ [0x62#8], tableGet busy.ct u ≠ none) ∧ tableGet busy.ct 0x60 = none :=
  ⟨by decide, busy_inv.buffer, by decide, by decide, ⟨busy_inv.buffer.count, busy_inv.buffer.zeros⟩, by decide, by decide,
    by decide⟩

/-- Sources of every class: no byte, one value, two, three. -/
theorem witness_CompressSucceeds :
    (SourceThere (withSource []) ∧ (withSource []).src.take (withSource []).srcLen.toNat = []) ∧
    (SourceThere (withSource [7, 7]) ∧ (withSource [7, 7]).src.take (withSource [7, 7]).srcLen.toNat = [7, 7] ∧
      [7#8, 7#8].dedup.length = 1) ∧
    [7#8, 8#8, 7#8].dedup.length = 2 ∧
    (SourceThere busy ∧ busy.src.take busy.srcLen.toNat = [0x61, 0x62, 0x63] ∧
      [0x61#8, 0x62#8, 0x63#8].dedup.length = 3 ∧ [0x61#8, 0x62#8, 0x63#8].length < 2 ^ 32) := by
  decide

/-- A record of each kind. -/
theorem witness_HeaderReaderDecodesTheRecord :
    let general := [0x34#8, 0x32#8, 0x02#8, 0#8, 0#8, 0#8, 1#8] ++ List.replicate 1024 0#8
    (SourceThere (withSource [0x34, 0x32, 0, 9]) ∧
      decodeRecord (withSource [0x34, 0x32, 0, 9]).unread = .ok (.streamEmpty, [9])) ∧
    decodeRecord (withSource [0x34, 0x32, 1, 0, 0, 0, 5, 7]).unread = .ok (.streamDegen 5 7, []) ∧
    (SourceThere (withSource general) ∧
      decodeRecord (withSource general).unread = .ok (.streamGeneral 1 (List.replicate 256 0), [])) := by
  decide +kernel

theorem witness_HeaderReaderRejectsBadStarts :
    SourceThere (withSource []) ∧ (withSource []).unread.take 2 = [] ∧ ([] : List Byte) ≠ [0x34#8, 0x32#8] ∧
    (withSource [0x34]).unread.take 2 = [0x34] ∧ (withSource [0x34, 0x33, 0]).unread.take 2 = [0x34, 0x33] ∧
    (SourceThere (withSource [0x34, 0x32]) ∧ (withSource [0x34, 0x32]).unread = [0x34#8, 0x32#8]) ∧
    (SourceThere (withSource [0x34, 0x32, 3]) ∧
      (withSource [0x34, 0x32, 3]).unread = 0x34#8 :: 0x32#8 :: 3#8 :: [] ∧ 2 < (3 : Byte).toNat) ∧
    (SourceThere (withSource [0x34, 0x32, 1, 0, 0, 0]) ∧
      (withSource [0x34, 0x32, 1, 0, 0, 0]).unread = 0x34#8 :: 0x32#8 :: 1#8 :: [0, 0, 0] ∧ [0#8, 0#8, 0#8].length < 4) ∧
    (SourceThere (withSource [0x34, 0x32, 1, 0, 0, 0, 5]) ∧
      (withSource [0x34, 0x32, 1, 0, 0, 0, 5]).unread = 0x34#8 :: 0x32#8 :: 1#8 :: [0, 0, 0, 5] ∧
      [0#8, 0#8, 0#8, 5#8].length = 4) ∧
    (SourceThere (withSource [0x34, 0x32, 2, 0, 0, 0, 1, 0, 0, 0, 9, 8, 7, 6]) ∧
      (withSource [0x34, 0x32, 2, 0, 0, 0, 1, 0, 0, 0, 9, 8, 7, 6]).unread =
        0x34#8 :: 0x32#8 :: 2#8 :: (be32 1 ++ [9#32].flatMap be32 ++ [8, 7, 6]) ∧
      [9#32].length < 256 ∧ [8#8, 7#8, 6#8].length < 4) := by
  decide

/-- The tree of scenario C at the first bit of 0xE0, at its last one, and with the code of 0x62 ahead. -/
def atFirstBit : State := { treeC with src := [0xE0], srcLen := 1 }
def atLastBit : State := { treeC with dbyte := 0xE0, bitPos := 7 }
def atSymbol : State := { treeC with
  src := [0xE0, 0x2F], srcLen := 2, srcPos := 1, dbyte := 0xE0, bitPos := 6, hdrValid := true, fileType := 2
  totalLen := 10, emitted := 8 }
def rootIsLeaf : State := { treeC with root := 0 }

/-- No tree; a root that is a leaf; no byte left; a byte of the source, and a byte under way, for a bit that leads to a
leaf and for one that leads to an internal node. -/
theorem witness_DescentStepEffects :
    (SourceThere State.reset ∧ State.reset.rootValid = false) ∧
    (SourceThere rootIsLeaf ∧ rootIsLeaf.node? rootIsLeaf.standsAt = some ⟨true, .leaf 0x61 5⟩) ∧
    (SourceThere treeC ∧ treeC.node? treeC.standsAt = some ⟨false, .internal 0 3 10⟩ ∧ treeC.bitPos = 0 ∧
      treeC.srcLen.toNat ≤ treeC.srcPos) ∧
    (SourceThere atFirstBit ∧ atFirstBit.bitPos = 0 ∧ atFirstBit.srcPos < atFirstBit.srcLen.toNat ∧
      atFirstBit.src[atFirstBit.srcPos]? = some 0xE0 ∧
      (0 : NodeIx) = (if (0xE0 : Byte).getLsbD atFirstBit.bitPos.toNat then 3 else 0) ∧
      atFirstBit.node? 0 = some ⟨true, .leaf 0x61 5⟩) ∧
    (SourceThere atLastBit ∧ atLastBit.bitPos ≠ 0 ∧
      (3 : NodeIx) = (if (0xE0 : Byte).getLsbD atLastBit.bitPos.toNat then 3 else 0) ∧
      atLastBit.node? 3 = some ⟨true, .internal 2 1 5⟩) := by
  decide

/-- The last bit of 0xE0 is left, and leads to the internal node 3. -/
theorem path_atLastBit : Path atLastBit 4 [true] 3 := .right (l := 0) (r := 3) (o := false) (w := 10) (by decide) (.here 3)

/-- A whole code ahead, a first step that fails, and bits that end before a leaf. -/
theorem witness_SymbolDecodesOneCode :
    (SourceThere atSymbol ∧ atSymbol.rootValid = true ∧ [true, true] ≠ [] ∧
      LeadsTo atSymbol atSymbol.standsAt [true, true] 0x62 ∧
      atSymbol.bitsAhead = [true, true] ++ [true, true, true, true, false, true, false, false]) ∧
    (SourceThere rootIsLeaf ∧ ∃ t, exec .decBit rootIsLeaf = .next t ∧ t.err ≠ .ok) ∧
    (SourceThere atLastBit ∧ atLastBit.rootValid = true ∧ Path atLastBit atLastBit.standsAt atLastBit.bitsAhead 3 ∧
      atLastBit.node? 3 = some ⟨true, .internal 2 1 5⟩) :=
  ⟨⟨by decide, by decide, by decide, (leadsTo_treeC (s := atSymbol) rfl).2 (by simp), by decide⟩,
    ⟨by decide, _, next_after (by decide), by decide⟩, by decide, by decide, path_atLastBit, by decide⟩

theorem witness_EmptyAndDegenerateBodies :
    State.reset.hdrValid = false ∧ ({ State.reset with hdrValid := true } : State).fileType = 0 ∧
    ({ State.reset with hdrValid := true, fileType := 1 } : State).fileType = 1 ∧
    ({ State.reset with hdrValid := true, fileType := 2 } : State).rootValid = false := by decide

/-- Nothing left to emit; a root that is a leaf; two bytes still to be emitted and their codes ahead; one more than the
bits ahead hold. -/
def allEmitted : State := { atSymbol with emitted := 10 }
def leafBodyAhead : State := { rootIsLeaf with hdrValid := true, fileType := 2, totalLen := 1 }
def oneBitAhead : State := { atLastBit with hdrValid := true, fileType := 2, totalLen := 1 }

theorem witness_GeneralBodyDecodesTheCodes :
    let cs : List (BinaryCode × Byte) := [([true, true], 0x62), ([true, true], 0x62)]
    (SourceThere allEmitted ∧ allEmitted.hdrValid = true ∧ allEmitted.fileType = 2 ∧ allEmitted.rootValid = true ∧
      allEmitted.totalLen.toNat ≤ allEmitted.emitted.toNat) ∧
    (SourceThere leafBodyAhead ∧ leafBodyAhead.hdrValid = true ∧ leafBodyAhead.fileType = 2 ∧
      leafBodyAhead.rootValid = true ∧ leafBodyAhead.emitted.toNat < leafBodyAhead.totalLen.toNat ∧
      leafBodyAhead.node? leafBodyAhead.standsAt = some ⟨true, .leaf 0x61 5⟩) ∧
    (SourceThere atSymbol ∧ atSymbol.hdrValid = true ∧ atSymbol.fileType = 2 ∧ atSymbol.rootValid = true ∧
      atSymbol.emitted.toNat + cs.length = atSymbol.totalLen.toNat ∧
      (∀ k x v, cs[k]? = some (x, v) →
        x ≠ [] ∧ LeadsTo atSymbol (if k = 0 then atSymbol.standsAt else atSymbol.root) x v) ∧
      atSymbol.bitsAhead = (cs.map Prod.fst).flatten ++ [true, true, false, true, false, false]) ∧
    (SourceThere oneBitAhead ∧ oneBitAhead.hdrValid = true ∧ oneBitAhead.fileType = 2 ∧ oneBitAhead.rootValid = true ∧
      oneBitAhead.emitted.toNat + ([] : List (BinaryCode × Byte)).length < oneBitAhead.totalLen.toNat ∧
      oneBitAhead.bitsAhead = [] ++ [true] ∧ Path oneBitAhead oneBitAhead.standsAt [true] 3 ∧
      oneBitAhead.node? 3 = some ⟨true, .internal 2 1 5⟩) := by
  refine ⟨by decide, by decide, ⟨by decide, by decide, by decide, by decide, by decide, ?_, by decide⟩,
    by decide, by decide, by decide, by decide, by decide, by decide,
    .right (l := 0) (r := 3) (o := false) (w := 10) (by decide) (.here 3), by decide⟩
  intro k x v hk
  have h2 : x = [true, true] ∧ v = 0x62 := by
    match k with
    | 0 | 1 => simp at hk; exact ⟨hk.1.symm, hk.2.symm⟩
    | k + 2 => simp at hk
  obtain ⟨rfl, rfl⟩ := h2
  refine ⟨by decide, ?_⟩
  split <;> exact (leadsTo_treeC (s := atSymbol) rfl).2 (by simp)

theorem witness_DecompressRunsTheRecord :
    SourceThere (withSource [0x34, 0x32, 1, 0, 0, 0, 5, 7]) ∧
    decodeRecord ((withSource [0x34, 0x32, 1, 0, 0, 0, 5, 7]).src.take (withSource [0x34, 0x32, 1, 0, 0, 0, 5, 7]).srcLen.toNat) =
      .ok (.streamDegen 5 7, []) := by decide

theorem witness_SmallRecordsComplete :
    (SourceThere (withSource [0x34, 0x32, 0]) ∧
      decodeRecord ((withSource [0x34, 0x32, 0]).src.take (withSource [0x34, 0x32, 0]).srcLen.toNat) = .ok (.streamEmpty, [])) ∧
    SourceThere (withSource [0x34, 0x32, 1, 0, 0, 0, 0, 7]) ∧
    decodeRecord ((withSource [0x34, 0x32, 1, 0, 0, 0, 0, 7]).src.take (withSource [0x34, 0x32, 1, 0, 0, 0, 0, 7]).srcLen.toNat) =
      .ok (.streamDegen 0 7, []) := by decide

/-- The counts of scenario C, and a bitstream of one byte: codes "0" and "11", the byte 0x06. -/
theorem witness_GeneralRecordDecodesItsBits : ∃ u,
    let s : State := withSource (recordBytes 2 (be32 2 ++ countsC.toList.flatMap be32) ++ [0x06])
    let cs : List (BinaryCode × Byte) := [([false], 0x61), ([true, true], 0x62)]
    let rest := [false, false, false, false, false]
    SourceThere s ∧ countsC.toList.length = 256 ∧ cs.length = (2 : Word32).toNat ∧
    ({ State.reset with ft := countsC } : State).ft.toList = countsC.toList ∧
    exec .trBuild { State.reset with ft := countsC } = .next u ∧ u.err = .ok ∧
    (∀ x v, (x, v) ∈ cs → x ≠ [] ∧ LeadsTo u u.root x v) ∧
    ({ s with srcPos := s.srcPos + 1031 } : State).unread.flatMap byteBits = (cs.map Prod.fst).flatten ++ rest ∧
    decodeRecord (s.src.take s.srcLen.toNat) = .ok (.streamGeneral 2 countsC.toList, [0x06]) ∧
    [0x06#8].flatMap byteBits = (cs.map Prod.fst).flatten ++ rest := by
  refine ⟨_, by decide +kernel, by decide +kernel, rfl, rfl, next_after (by decide +kernel), by decide +kernel, ?_,
    by decide +kernel, by decide +kernel, by decide⟩
  have hnm : (after (exec .trBuild { State.reset with ft := countsC })).nm = treeC.nm := by decide +kernel
  have hroot : (after (exec .trBuild { State.reset with ft := countsC })).root = 4 := by decide +kernel
  intro x v hx
  rw [hroot]
  simp only [List.mem_cons, Prod.mk.injEq, List.not_mem_nil, or_false] at hx
  rcases hx with ⟨rfl, rfl⟩ | ⟨rfl, rfl⟩
  · exact ⟨by decide, (leadsTo_treeC hnm).2 (by simp)⟩
  · exact ⟨by decide, (leadsTo_treeC hnm).2 (by simp)⟩

/-- Scenario C's tree as a tree value, and two of its codes in the byte after the record: what the second clause of that
statement asks for. -/
theorem witness_GeneralRecordCompletes :
    let tree : TreeVal := .node (.leaf 0x61 5) (.node (.leaf 0x63 2) (.leaf 0x62 3))
    let s : State := { busy with srcPos := 0, src := List.replicate 1031 0 ++ [0x06], srcLen := 1032 }
    let cs : List (BinaryCode × Byte) := [([false], 0x61), ([true, true], 0x62)]
    SourceThere s ∧ countsC.toList.length = 256 ∧ mergeTrees 256 (leafQueue countsC) = some tree ∧
    cs.length = (2 : Word32).toNat ∧ (∀ x ∈ cs, x.1 ≠ [] ∧ tree.follow x.1 = some x.2) ∧
    ({ s with srcPos := s.srcPos + 1031 } : State).unread.flatMap byteBits =
      (cs.map Prod.fst).flatten ++ [false, false, false, false, false] := by
  decide +kernel

/-- The state the first clause of that statement speaks of: the header's registers, for scenario C's counts. -/
theorem witness_GeneralRecordHeader : ∃ h : State, h.ft.toList = countsC.toList ∧ h = { busy with
    ft := h.ft, srcPos := busy.srcPos + 1031, fileType := 2, totalLen := 2, dgCount := 0, dgValue := 0,
    hdrValid := true, bitPos := 0, curValid := false, emitted := 0, res0 := 2, err := .ok } :=
  ⟨{ busy with
    ft := countsC, srcPos := busy.srcPos + 1031, fileType := 2, totalLen := 2, dgCount := 0, dgValue := 0,
    hdrValid := true, bitPos := 0, curValid := false, emitted := 0, res0 := 2, err := .ok }, rfl, rfl⟩

/-- Sources of no byte, one value, two values; and a decoder whose source is whatever was produced. -/
theorem witness_RoundTripOfSmallAlphabets :
    ((withSource []).src = [] ∧ (withSource []).srcLen = BitVec.ofNat 64 0 ∧ ([] : List Byte).dedup.length ≤ 2) ∧
    ((withSource [7, 7]).src = [7, 7] ∧ (withSource [7, 7]).srcLen = BitVec.ofNat 64 2 ∧ [7#8, 7#8].dedup.length ≤ 2) ∧
    ((withSource [7, 8]).src = [7, 8] ∧ (withSource [7, 8]).srcLen = BitVec.ofNat 64 2 ∧ [7#8, 8#8].dedup.length ≤ 2) ∧
    ∀ bytes, (withSource bytes).src = bytes ∧ (withSource bytes).srcLen = BitVec.ofNat 64 bytes.length :=
  ⟨by decide, by decide, by decide, fun _ => ⟨rfl, rfl⟩⟩

theorem witness_RoundTripOfGeneralSources :
    (busy.src = [0x61, 0x62, 0x63] ∧ busy.srcLen = BitVec.ofNat 64 3 ∧ [0x61#8, 0x62#8, 0x63#8].length < 2 ^ 32 ∧
      3 ≤ [0x61#8, 0x62#8, 0x63#8].dedup.length) ∧
    ∀ bytes, (withSource bytes).src = bytes ∧ (withSource bytes).srcLen = BitVec.ofNat 64 bytes.length :=
  ⟨by decide, fun _ => ⟨rfl, rfl⟩⟩

theorem witness_DecodeInvertsEncode :
    (Instr.streamGeneral 1 (List.replicate 256 0)).wf = true ∧ (Instr.trMerge 0 511).wf = true ∧
    encode (.streamDegen 5 7) = .record [0x34, 0x32, 1, 0, 0, 0, 5, 7] := by
  decide +kernel

theorem witness_EncodeInvertsDecode :
    decodeCommand 0x321FF000#32 = .ok (.trMerge 0 511) ∧
    decodeRecord [0x34, 0x32, 0, 9] = .ok (.streamEmpty, [9]) := by decide

theorem witness_StatusFieldsAreCopies : ({ busy with bbCnt := 7 } : State).bbCnt.toNat ≤ 7 := by decide

theorem witness_RegisterMapAccesses :
    busy.srcPos < 2 ^ 64 ∧ busy.snkPos < 2 ^ 64 ∧ busy.nmNext < 1024 ∧ busy.pq.length < 512 ∧ 3 < 4 ∧ 63 < 64 ∧
    ((0x000, 32) : Nat × Nat) ∉ [(0x008, 64), (0x010, 64), (0x018, 32), (0x020, 64), (0x028, 64), (0x030, 64),
        (0x038, 64), (0x040, 32), (0x044, 32), (0x048, 32), (0x04C, 32), (0x050, 32), (0x054, 32), (0x058, 32),
        (0x060, 64), (0x068, 64), (0x070, 64), (0x078, 64)] := by
  decide

theorem witness_EveryCommandReports :
    (∃ t, exec .pqDeq busy = .next t ∧ Instr.pqDeq ≠ .rst ∧ t.err = .ok) ∧
    ∃ t, exec .pqDeq treeC = .next t ∧ t.err = .emptyQueue :=
  ⟨⟨_, rfl, by decide, rfl⟩, _, rfl, rfl⟩

theorem witness_FailingAtomicCommandsChangeNothing : ∃ t,
    isSequenced (.trMerge 3 4) = false ∧ exec (.trMerge 3 4) busy = .next t ∧ t.err ≠ .ok :=
  ⟨_, rfl, next_after (by decide), by decide⟩

theorem witness_CommandsRaiseOnlyTheirKinds : ∃ t, Inv busy ∧ exec (.trMerge 3 4) busy = .next t ∧ t.err = .badNode :=
  ⟨_, busy_inv, next_after (by decide), by decide⟩

/-- The two ways `FAULTED` is cleared. -/
theorem witness_OnlyResetClearsFaulted :
    (∃ t, step { busy with faulted := true, host := [.hardwareReset] } = .next t ∧ t.faulted = false) ∧
    ∃ t, step { busy with faulted := true, host := [writeCommand 0x01000000#32] } = .next t ∧ t.faulted = false :=
  ⟨⟨_, rfl, rfl⟩, _, rfl, rfl⟩

theorem witness_HostOwnedStateIsNeverWritten : ∃ t, exec .pqDeq busy = .next t ∧ Instr.pqDeq ≠ .rst :=
  ⟨_, rfl, by decide⟩

/-- Every table has an instruction that does not write it; `NOP` writes none. -/
theorem witness_TablesAreWrittenOnlyByTheirCommands : ∃ t, exec .nop busy = .next t ∧
    writesFt .nop = false ∧ writesNm .nop = false ∧ writesPq .nop = false ∧ writesRoot .nop = false ∧
    writesCodes .nop = false ∧ writesCt .nop = false ∧ writesOcc .nop = false ∧ writesHeader .nop = false ∧
    writesBuffer .nop = false ∧ writesDecoder .nop = false ∧ writesCur .nop = false ∧ writesSrcPos .nop = false ∧
    writesSnkPos .nop = false ∧ writesRes0 .nop = false :=
  ⟨_, rfl, by decide⟩

theorem witness_SinkIsWrittenOnlyAtItsPosition :
    (∃ t, exec .pqDeq busy = .next t ∧ writesSink .pqDeq = false) ∧
    (∃ t, exec .encFlush busy = .next t ∧ writesSink .encFlush = true ∧ Instr.encFlush ≠ .encRun ∧
      Instr.encFlush ≠ .decRun) ∧
    ∃ t, exec .decRun busy = .next t :=
  ⟨⟨_, rfl, rfl⟩, ⟨_, rfl, rfl, by decide, by decide⟩, _, next_after (by decide)⟩

theorem witness_EveryStepKeepsTheInvariants : ∃ t,
    Inv { busy with host := [writeCommand 0x22000000#32] } ∧
    step { busy with host := [writeCommand 0x22000000#32] } = .next t :=
  ⟨_, ⟨treeC_store rfl, ⟨busy_inv.queue.bound, busy_inv.queue.named, busy_inv.queue.sorted⟩,
    ⟨busy_inv.pointers.root, busy_inv.pointers.cur⟩, ⟨busy_inv.codes.regs, busy_inv.codes.table⟩,
    ⟨busy_inv.buffer.count, busy_inv.buffer.zeros⟩, busy_inv.sink⟩, rfl⟩

theorem witness_EveryCommandEnds : Inv busy ∧ SourceThere busy := ⟨busy_inv, by decide⟩

end Sys2Proof.Tests
end

section
/-! PROOFS. Family 10_state: who writes which part of the state, reset, the step, the host's view. -/

namespace Sys2Proof.Machine

/-! ### The parts of the state -/

/-- The parts of the state, as the rules that say who writes them divide it (R20 to R36). -/
inductive StatePart where
  | arg0 | res0 | occ | err | fault | header | ft | nm | root | pq | codes | ct | buffer | decoder | cur
  | srcPos | snkPos | sink | host
deriving DecidableEq

/-- The part of `t` is that of `s`. -/
def StatePart.Kept (s t : State) : StatePart → Prop
  | .arg0 => t.arg0 = s.arg0
  | .res0 => t.res0 = s.res0
  | .occ => t.occ = s.occ
  | .err => t.err = s.err
  | .fault => t.faulted = s.faulted ∧ t.errInfo = s.errInfo
  | .header => t.fileType = s.fileType ∧ t.totalLen = s.totalLen ∧ t.dgCount = s.dgCount ∧
      t.dgValue = s.dgValue ∧ t.hdrValid = s.hdrValid
  | .ft => t.ft = s.ft
  | .nm => t.nm = s.nm
  | .root => t.root = s.root ∧ t.rootValid = s.rootValid
  | .pq => t.pq = s.pq
  | .codes => t.codes = s.codes
  | .ct => t.ct = s.ct
  | .buffer => t.bbBits = s.bbBits ∧ t.bbCnt = s.bbCnt
  | .decoder => t.dbyte = s.dbyte ∧ t.bitPos = s.bitPos ∧ t.emitted = s.emitted
  | .cur => t.cur = s.cur ∧ t.curValid = s.curValid
  | .srcPos => t.srcPos = s.srcPos
  | .snkPos => t.snkPos = s.snkPos
  | .sink => t.snk = s.snk
  | .host => t.src = s.src ∧ t.srcLen = s.srcLen ∧ t.host = s.host

theorem StatePart.Kept.refl (p : StatePart) (s : State) : p.Kept s s := by
  cases p <;> simp [StatePart.Kept]

theorem StatePart.Kept.trans {p : StatePart} {s t u : State} (h : p.Kept s t) (h' : p.Kept t u) : p.Kept s u := by
  cases p <;> simp_all [StatePart.Kept]

/-- Between `s` and `t` nothing changes but the parts `ps`. -/
def ChangesOnly (ps : List StatePart) (s t : State) : Prop := ∀ p, p ∉ ps → p.Kept s t

section
variable {ps qs : List StatePart} {s t u : State}

theorem ChangesOnly.refl (ps : List StatePart) (s : State) : ChangesOnly ps s s := fun p _ => .refl p s

theorem ChangesOnly.trans (h : ChangesOnly ps s t) (h' : ChangesOnly ps t u) : ChangesOnly ps s u :=
  fun p hp => (h p hp).trans (h' p hp)

theorem ChangesOnly.mono (h : ChangesOnly ps s t) (hsub : ps ⊆ qs) : ChangesOnly qs s t :=
  fun p hp => h p fun hm => hp (hsub hm)

end

/-! ### What each update of the state changes -/

section
variable (s : State)

theorem changesOnly_res0 (x : Word64) : ChangesOnly [.res0] s { s with res0 := x } := by
  intro p; cases p <;> simp [StatePart.Kept]

theorem changesOnly_complete : ChangesOnly [.err] s s.complete := by
  intro p; cases p <;> simp [StatePart.Kept]

theorem changesOnly_raise (k : Err) (info : Word64) : ChangesOnly [.err, .fault] s (s.raise k info) := by
  intro p; cases p <;> simp [StatePart.Kept]

theorem changesOnly_srcPos (n : Nat) : ChangesOnly [.srcPos] s { s with srcPos := n } := by
  intro p; cases p <;> simp [StatePart.Kept]

theorem changesOnly_sinkWrite (b : Byte) : ChangesOnly [.snkPos, .sink] s (s.sinkWrite b) := by
  intro p; cases p <;> simp [StatePart.Kept]

theorem changesOnly_sinkWrites (bs : List Byte) : ChangesOnly [.snkPos, .sink] s (s.sinkWrites bs) := by
  rw [State.sinkWrites_frame]
  intro p; cases p <;> simp [StatePart.Kept]

theorem changesOnly_rewind (src snk : Bool) : ChangesOnly [.srcPos, .snkPos] s (rewind src snk s) := by
  intro p; cases p <;> cases src <;> cases snk <;> simp [StatePart.Kept, rewind]

theorem changesOnly_setCount (v : Byte) (n : Word32) : ChangesOnly [.ft] s (s.setCount v n) := by
  intro p; cases p <;> simp [StatePart.Kept]

theorem changesOnly_clearCounts : ChangesOnly [.ft] s (clearCounts s) := by
  intro p; cases p <;> simp [StatePart.Kept, clearCounts]

theorem changesOnly_pq (q : List NodeIx) : ChangesOnly [.pq] s { s with pq := q } := by
  intro p; cases p <;> simp [StatePart.Kept]

theorem changesOnly_pushNode (b : NodeBody) : ChangesOnly [.nm] s (s.pushNode b) := by
  intro p; cases p <;> simp [StatePart.Kept]

theorem changesOnly_joinNodes (a b : NodeIx) (na nb : Node) : ChangesOnly [.nm] s (joinNodes a b na nb s) := by
  intro p; cases p <;> simp [StatePart.Kept, joinNodes]

theorem changesOnly_clearTree : ChangesOnly [.nm, .root, .pq, .cur] s s.clearTree := by
  intro p; cases p <;> simp [StatePart.Kept]

theorem changesOnly_root (n : NodeIx) (b : Bool) : ChangesOnly [.root] s { s with root := n, rootValid := b } := by
  intro p; cases p <;> simp [StatePart.Kept]

theorem changesOnly_cur (n : NodeIx) (b : Bool) : ChangesOnly [.cur] s { s with cur := n, curValid := b } := by
  intro p; cases p <;> simp [StatePart.Kept]

theorem changesOnly_setCode (k : CodeReg) (c : BinaryCode) : ChangesOnly [.codes] s (s.setCode k c) := by
  intro p; cases p <;> simp [StatePart.Kept]

theorem changesOnly_ct (t : CodeTable) : ChangesOnly [.ct] s { s with ct := t } := by
  intro p; cases p <;> simp [StatePart.Kept]

theorem changesOnly_buffer (bits : BitVec 8) (cnt : BitVec 4) :
    ChangesOnly [.buffer] s { s with bbBits := bits, bbCnt := cnt } := by
  intro p; cases p <;> simp [StatePart.Kept]

theorem changesOnly_decoder (b : Byte) (pos : BitVec 3) (n : Word32) :
    ChangesOnly [.decoder] s { s with dbyte := b, bitPos := pos, emitted := n } := by
  intro p; cases p <;> simp [StatePart.Kept]

theorem changesOnly_setHeader (t : Byte) (total dgCount : Word32) (dgValue : Byte) :
    ChangesOnly [.header, .res0] s (setHeader t total dgCount dgValue s) := by
  intro p; cases p <;> simp [StatePart.Kept]

theorem changesOnly_beginDecode : ChangesOnly [.header, .decoder, .cur] s (beginDecode s) := by
  intro p; cases p <;> simp [StatePart.Kept]

/-- `RST` leaves the sink's storage and what the host owns (R221, log entry 10). -/
theorem changesOnly_softReset :
    ChangesOnly [.arg0, .res0, .occ, .err, .fault, .header, .ft, .nm, .root, .pq, .codes, .ct, .buffer, .decoder,
      .cur, .srcPos, .snkPos] s (softReset s) := by
  intro p; cases p <;> simp [StatePart.Kept, softReset]

theorem changesOnly_bbAppend (bit : Bool) : ChangesOnly [.buffer, .snkPos, .sink] s (bbAppend s bit) := by
  rcases bbAppend_cases s bit with ⟨-, h⟩ | ⟨-, h⟩ <;> rw [h]
  · exact (changesOnly_buffer s _ _).mono (by decide)
  · exact ((changesOnly_sinkWrite s _).mono (by decide)).trans ((changesOnly_buffer _ _ _).mono (by decide))

theorem changesOnly_bbAppends (bits : List Bool) : ChangesOnly [.buffer, .snkPos, .sink] s (bbAppends s bits) := by
  induction bits generalizing s with
  | nil => exact .refl _ s
  | cons b bits ih => exact (changesOnly_bbAppend s b).trans (ih _)

theorem changesOnly_bbFlush : ChangesOnly [.buffer, .snkPos, .sink] s (bbFlush s) := by
  unfold bbFlush
  split
  · exact .refl _ s
  · exact ((changesOnly_sinkWrite s _).mono (by decide)).trans ((changesOnly_buffer _ _ _).mono (by decide))

theorem changesOnly_sinkFill (b : Byte) (n : Nat) : ChangesOnly [.snkPos, .sink] s (sinkFill b n s) := by
  induction n generalizing s with
  | zero => exact .refl _ s
  | succ n ih => exact (changesOnly_sinkWrite s b).trans (ih _)

theorem changesOnly_degenerateBody : ChangesOnly [.snkPos, .sink] s (degenerateBody s) :=
  (changesOnly_sinkFill s _ _).trans (changesOnly_sinkWrite _ _)

theorem changesOnly_putCounts (vs : List Byte) (ns : List Word32) : ChangesOnly [.ft] s (putCounts vs ns s) := by
  induction vs generalizing s ns with
  | nil => exact .refl _ s
  | cons v vs ih =>
    cases ns with
    | nil => exact .refl _ s
    | cons n ns => exact (changesOnly_setCount s v n).trans (ih _ ns)

end

/-! ### What holds of the state a body ends in

`r.Ends P`: if the body comes to its end or to a `raise`, it does so in a state of which `P` holds. -/

def Res.Ends (P : State → Prop) : Res → Prop
  | .done t => P t
  | .raised _ _ t => P t
  | .stopped _ => True

/-- From `s` on the body changes nothing but the parts `ps`. -/
abbrev Res.Within (ps : List StatePart) (s : State) (r : Res) : Prop := r.Ends (ChangesOnly ps s)

section
variable {P Q : State → Prop} {s : State}

theorem Res.Ends.mono {r : Res} (h : r.Ends P) (hPQ : ∀ t, P t → Q t) : r.Ends Q := by
  cases r with
  | done t => exact hPQ t h
  | raised k info t => exact hPQ t h
  | stopped g => trivial

theorem Res.Ends.andThen {r : Res} {f : State → Res} (h : r.Ends P) (hf : ∀ t, P t → (f t).Ends P) :
    (r.andThen f).Ends P := by
  cases r with
  | done t => exact hf t h
  | raised k info t => exact h
  | stopped g => trivial

theorem withNode_ends {n : NodeIx} {k : Node → Res} (hs : P s) (hk : ∀ nd, (k nd).Ends P) :
    (withNode n s k).Ends P := by
  unfold withNode
  split
  · exact hs
  · exact hk _

theorem withCode_ends {n : CodeReg} {k : BinaryCode → Res} (hs : P s) (hk : ∀ c, (k c).Ends P) :
    (withCode n s k).Ends P := by
  unfold withCode
  split
  · exact hs
  · exact hk _

theorem withCtEntry_ends {v : Byte} {k : BinaryCode → Res} (hs : P s) (hk : ∀ c, (k c).Ends P) :
    (withCtEntry v s k).Ends P := by
  unfold withCtEntry
  split
  · exact hs
  · exact hk _

theorem withBytes_ends {n : Nat} {k : List Byte → State → Res} (hs : P s)
    (hk : ∀ bs, (k bs { s with srcPos := s.srcPos + n }).Ends P) : (withBytes n s k).Ends P := by
  unfold withBytes
  split
  · exact hs
  · split
    · trivial
    · exact hk _

theorem withField_ends {k : Word32 → State → Res} (hs : P s)
    (hk : ∀ x, (k x { s with srcPos := s.srcPos + 4 }).Ends P) : (withField s k).Ends P := by
  refine withBytes_ends hs fun bs => ?_
  split
  · exact hk _
  · trivial

theorem withByte_ends {k : Byte → State → Res} (hs : P s)
    (hk : ∀ b, (k b { s with srcPos := s.srcPos + 1 }).Ends P) : (withByte s k).Ends P := by
  refine withBytes_ends hs fun bs => ?_
  split
  · exact hk _
  · trivial

theorem withMagic_ends {k : State → Res} (hs : P s) (hk : (k { s with srcPos := s.srcPos + 2 }).Ends P) :
    (withMagic s k).Ends P := by
  unfold withMagic
  dsimp only
  split
  · trivial
  · split
    · exact hs
    · exact hk

theorem dequeue_ends {k : NodeIx → State → Res} (hs : P s) (hk : ∀ n q, (k n { s with pq := q }).Ends P) :
    (dequeue s k).Ends P := by
  unfold dequeue
  split
  · exact hs
  · exact hk _ _

theorem WalkErr.toRes_ends (hs : P s) (e : WalkErr) : (e.toRes s).Ends P := by
  cases e with
  | badNode n => exact hs
  | endless => trivial

theorem childLeft_ends {n : NodeIx} {nd : Node} {k : NodeIx → Res} (hs : P s) (hk : ∀ l, (k l).Ends P) :
    (childLeft n nd s k).Ends P := by
  unfold childLeft
  split
  · exact hs
  · exact hk _

theorem childRight_ends {n : NodeIx} {nd : Node} {k : NodeIx → Res} (hs : P s) (hk : ∀ l, (k l).Ends P) :
    (childRight n nd s k).Ends P := by
  unfold childRight
  split
  · exact hs
  · exact hk _

theorem leafValue_ends {n : NodeIx} {nd : Node} {k : Byte → Res} (hs : P s) (hk : ∀ v, (k v).Ends P) :
    (leafValue n nd s k).Ends P := by
  unfold leafValue
  split
  · exact hk _
  · exact hs

end

section
variable {ps qs : List StatePart} {s t : State} {r : Res} {f : State → Res}

theorem Res.Within.mono (h : r.Within ps s) (hsub : ps ⊆ qs) : r.Within qs s :=
  Res.Ends.mono h fun _ ht => ht.mono hsub

/-- A body that goes on from a state `s` has been brought to. -/
theorem Res.Within.after (hst : ChangesOnly ps s t) (h : r.Within ps t) : r.Within ps s :=
  Res.Ends.mono h fun _ ht => hst.trans ht

theorem Res.Within.andThen (h : r.Within ps s) (hf : ∀ t, (f t).Within ps t) : (r.andThen f).Within ps s :=
  Res.Ends.andThen h fun t ht => (hf t).after ht

theorem Res.Within.thenCommand (h : r.Within ps s) (herr : .err ∈ ps) (hf : ∀ t, (f t).Within ps t) :
    (r.thenCommand f).Within ps s :=
  h.andThen fun t => (hf _).after ((changesOnly_complete t).mono (by simpa using herr))

end

/-! ### What each command's body changes -/

section
variable {ps : List StatePart} {s : State}

/-- A check that raises leaves the state as it is. -/
theorem guard_within {failed : Prop} [Decidable failed] {k : Err} {info : Word64} {r : Res} (h : r.Within ps s) :
    (if failed then raise k info s else r).Within ps s := by
  split
  · exact .refl ps s
  · exact h

theorem done_within {t : State} (h : ChangesOnly ps s t) : (Res.done t).Within ps s := h

theorem raise_within (k : Err) (info : Word64) : (raise k info s).Within ps s := .refl ps s

theorem changesOnly_srcPos_of_mem (hps : .srcPos ∈ ps) (n : Nat) : ChangesOnly ps s { s with srcPos := n } :=
  (changesOnly_srcPos s n).mono (by simpa using hps)

theorem withByte_within {k : Byte → State → Res} (hps : .srcPos ∈ ps) (hk : ∀ b t, (k b t).Within ps t) :
    (withByte s k).Within ps s :=
  withByte_ends (.refl ps s) fun b => (hk b _).after (changesOnly_srcPos_of_mem hps _)

theorem withField_within {k : Word32 → State → Res} (hps : .srcPos ∈ ps) (hk : ∀ x t, (k x t).Within ps t) :
    (withField s k).Within ps s :=
  withField_ends (.refl ps s) fun x => (hk x _).after (changesOnly_srcPos_of_mem hps _)

theorem withMagic_within {k : State → Res} (hps : .srcPos ∈ ps) (hk : ∀ t, (k t).Within ps t) :
    (withMagic s k).Within ps s :=
  withMagic_ends (.refl ps s) ((hk _).after (changesOnly_srcPos_of_mem hps _))

theorem dequeue_within {k : NodeIx → State → Res} (hps : .pq ∈ ps) (hk : ∀ n t, (k n t).Within ps t) :
    (dequeue s k).Within ps s :=
  dequeue_ends (.refl ps s) fun n q => (hk n _).after ((changesOnly_pq s q).mono (by simpa using hps))

end

section
variable (s : State)

theorem result_within (x : Word64) : (result x s).Within [.res0] s := changesOnly_res0 s x

theorem storeCode_within (cd : CodeReg) (c : BinaryCode) : (storeCode cd c s).Within [.codes] s :=
  guard_within (changesOnly_setCode s cd c)

theorem getBody_within (cs : CodeReg) (a : Byte) : (getBody cs a s).Within [.res0] s :=
  withCode_ends (.refl _ s) fun c => by
    split
    · exact .refl _ s
    · exact result_within s _

theorem sliceBody_within (cd cs : CodeReg) (a b : Byte) : (sliceBody cd cs a b s).Within [.codes] s :=
  withCode_ends (.refl _ s) fun _ => guard_within (guard_within (changesOnly_setCode s cd _))

theorem setBody_within (cd : CodeReg) (a : Byte) (bit : Bool) : (setBody cd a bit s).Within [.codes] s :=
  withCode_ends (.refl _ s) fun _ => guard_within (changesOnly_setCode s cd _)

theorem spliceBody_within (cd cs : CodeReg) (a b : Byte) : (spliceBody cd cs a b s).Within [.codes] s :=
  withCode_ends (.refl _ s) fun _ => withCode_ends (.refl _ s) fun _ => guard_within (storeCode_within s cd _)

theorem insBody_within (cd : CodeReg) (a : Byte) (bit : Bool) : (insBody cd a bit s).Within [.codes] s :=
  withCode_ends (.refl _ s) fun _ => guard_within (storeCode_within s cd _)

theorem delBody_within (cd : CodeReg) (a b : Byte) : (delBody cd a b s).Within [.codes] s :=
  withCode_ends (.refl _ s) fun _ => guard_within (guard_within (changesOnly_setCode s cd _))

theorem incCount_within (v : Byte) : (incCount v s).Within [.ft] s := guard_within (changesOnly_setCount s v _)

theorem setCountFromArg_within (v : Byte) : (setCountFromArg v s).Within [.ft] s :=
  guard_within (changesOnly_setCount s v _)

theorem occBody_within : (occBody s).Within [.occ, .res0] s := by
  intro p; cases p <;> simp [StatePart.Kept]

theorem scanLoop_within (left k : Nat) : (scanLoop left k s).Within [.ft, .srcPos, .res0] s := by
  induction left generalizing k s with
  | zero => exact (result_within s _).mono (by decide)
  | succ left ih =>
    unfold scanLoop
    split
    · trivial
    · refine ((incCount_within s _).mono (by decide)).andThen fun t => ?_
      exact (ih _ _).after ((changesOnly_srcPos t _).mono (by decide))

theorem enqueue_within (n : NodeIx) : (enqueue n s).Within [.pq] s := by
  unfold enqueue
  split
  · exact .refl _ s
  · refine guard_within ?_
    split
    · exact changesOnly_pq s _
    · exact .refl _ s

theorem leafBody_within (v : Byte) : (leafBody v s).Within [.nm, .res0] s :=
  guard_within (((result_within _ _).mono (by decide)).after ((changesOnly_pushNode s _).mono (by decide)))

theorem mergeBody_within (n1 n2 : NodeIx) : (mergeBody n1 n2 s).Within [.nm, .res0] s :=
  withNode_ends (.refl _ s) fun _ => withNode_ends (.refl _ s) fun _ =>
    guard_within <| guard_within <| guard_within <| guard_within <| guard_within <|
      ((result_within _ _).mono (by decide)).after ((changesOnly_joinNodes s _ _ _ _).mono (by decide))

theorem addLeaf_within (v : Byte) : (addLeaf v s).Within [.nm, .pq] s :=
  ((enqueue_within _ _).mono (by decide)).after ((changesOnly_pushNode s _).mono (by decide))

theorem buildLeaves_within (vs : List Byte) : (buildLeaves vs s).Within [.nm, .pq] s := by
  induction vs generalizing s with
  | nil => exact .refl _ s
  | cons v vs ih =>
    unfold buildLeaves
    split
    · exact ih s
    · exact (addLeaf_within s v).andThen fun t => ih t

theorem mergeStep_within : (mergeStep s).Within [.nm, .pq] s :=
  dequeue_within (by decide) fun a _ => dequeue_within (by decide) fun b s =>
    guard_within <| withNode_ends (.refl _ s) fun na => withNode_ends (.refl _ s) fun nb =>
      ((enqueue_within _ _).mono (by decide)).after ((changesOnly_joinNodes s a b na nb).mono (by decide))

theorem mergeLoop_within (k : Nat) : (mergeLoop k s).Within [.nm, .pq] s := by
  induction k generalizing s with
  | zero => exact .refl _ s
  | succ k ih =>
    unfold mergeLoop
    split
    · exact (mergeStep_within s).andThen fun t => ih t
    · exact .refl _ s

theorem takeRoot_within : (takeRoot s).Within [.root, .pq, .res0] s :=
  dequeue_within (by decide) fun r s =>
    ((result_within _ _).mono (by decide)).after ((changesOnly_root s r true).mono (by decide))

theorem buildBody_within : (buildBody s).Within [.nm, .root, .pq, .cur, .res0] s := by
  refine Res.Within.after ((changesOnly_clearTree s).mono (by decide)) ?_
  refine ((buildLeaves_within _ _).mono (by decide)).andThen fun t => guard_within ?_
  exact ((mergeLoop_within t _).mono (by decide)).andThen fun u => (takeRoot_within u).mono (by decide)

theorem heightBody_within (n : NodeIx) : (heightBody n s).Within [.res0] s :=
  withNode_ends (.refl _ s) fun _ => by
    split
    · exact result_within s _
    · exact WalkErr.toRes_ends (.refl _ s) _

theorem eqBody_within (n1 n2 : NodeIx) : (eqBody n1 n2 s).Within [.res0] s :=
  withNode_ends (.refl _ s) fun _ => withNode_ends (.refl _ s) fun _ => by
    split
    · exact result_within s _
    · exact WalkErr.toRes_ends (.refl _ s) _

theorem codegenBody_within : (codegenBody s).Within [.ct] s :=
  guard_within <| withNode_ends (.refl _ s) fun _ => by
    split
    · exact .refl _ s
    · split
      · exact changesOnly_ct s _
      · exact WalkErr.toRes_ends (.refl _ s) _

theorem headerBody_within : (headerBody s).Within [.header, .buffer, .snkPos, .sink, .res0] s := by
  have hclear : ChangesOnly [.header, .buffer] s { s with hdrValid := false, bbBits := 0#8, bbCnt := 0#4 } := by
    intro p; cases p <;> simp [StatePart.Kept]
  refine guard_within ((hclear.mono (by decide)).trans ?_)
  exact ((changesOnly_sinkWrites _ _).mono (by decide)).trans ((changesOnly_setHeader _ _ _ _ _).mono (by decide))

theorem putBody_within (v : Byte) : (putBody v s).Within [.buffer, .snkPos, .sink] s :=
  withCtEntry_ends (.refl _ s) fun c => changesOnly_bbAppends s c

theorem encodeLoop_within (left : Nat) : (encodeLoop left s).Within [.buffer, .srcPos, .snkPos, .sink] s := by
  induction left generalizing s with
  | zero => exact .refl _ s
  | succ left ih =>
    unfold encodeLoop
    split
    · trivial
    · refine ((putBody_within s _).mono (by decide)).andThen fun t => ?_
      exact (ih _).after ((changesOnly_srcPos t _).mono (by decide))

theorem encodeBody_within : (encodeBody s).Within [.buffer, .srcPos, .snkPos, .sink] s :=
  (encodeLoop_within s _).andThen fun t => (changesOnly_bbFlush t).mono (by decide)

/-- What `ENC.RUN` changes (R197). -/
abbrev encodeParts : List StatePart :=
  [.err, .ft, .nm, .root, .pq, .cur, .ct, .header, .buffer, .srcPos, .snkPos, .sink, .res0]

theorem encodeGeneral_within : (encodeGeneral s).Within encodeParts s :=
  ((buildBody_within s).mono (by decide)).thenCommand (by decide) fun t =>
  ((codegenBody_within t).mono (by decide)).thenCommand (by decide) fun u =>
  ((encodeBody_within _).mono (by decide)).after ((changesOnly_srcPos u 0).mono (by decide))

theorem encodePass_within : (encodePass s).Within encodeParts s := by
  have hstart : ChangesOnly encodeParts s (clearCounts (rewind true true s)) :=
    ((changesOnly_rewind s true true).mono (by decide)).trans ((changesOnly_clearCounts _).mono (by decide))
  refine Res.Within.thenCommand hstart (by decide) fun t => ?_
  refine ((scanLoop_within t _ _).mono (by decide)).thenCommand (by decide) fun u => ?_
  refine ((headerBody_within u).mono (by decide)).thenCommand (by decide) fun v => ?_
  refine Res.Within.andThen ?_ fun w => (result_within w _).mono (by decide)
  split
  · exact encodeGeneral_within v
  · exact .refl _ v

theorem loadCounts_within (vs : List Byte) : (loadCounts vs s).Within [.ft, .srcPos] s := by
  induction vs generalizing s with
  | nil => exact .refl _ s
  | cons v vs ih =>
    exact withField_within (by decide) fun n s => (ih _).after ((changesOnly_setCount s v n).mono (by decide))

/-- What `DEC.HDR` changes (R205). -/
abbrev decodeHeaderParts : List StatePart := [.header, .decoder, .cur, .ft, .srcPos, .res0]

theorem decodeHeader_within : (decodeHeader s).Within decodeHeaderParts s := by
  have hset (t : Byte) (total dgc : Word32) (dgv : Byte) (u : State) :
      (Res.done (setHeader t total dgc dgv u)).Within decodeHeaderParts u :=
    (changesOnly_setHeader u t total dgc dgv).mono (by decide)
  refine Res.Within.after ((changesOnly_beginDecode s).mono (by decide)) ?_
  refine withMagic_within (by decide) fun s => withByte_within (by decide) fun t s => ?_
  split
  · exact hset _ _ _ _ s
  split
  · exact withField_within (by decide) fun c s => withByte_within (by decide) fun p s => hset _ _ _ _ s
  split
  · refine withField_within (by decide) fun total s => ?_
    exact ((loadCounts_within s _).mono (by decide)).andThen fun s => hset _ _ _ _ s
  · exact raise_within _ _

/-- What a descent step, and so a symbol and a body, can change (R208, R209, R211). -/
abbrev descentParts : List StatePart := [.decoder, .cur, .srcPos, .snkPos, .sink, .res0]

theorem arrive_within (c : NodeIx) {s₀ : State} (hs : ChangesOnly descentParts s₀ s) :
    (arrive c s₀ s).Within descentParts s₀ :=
  withNode_ends (.refl _ s₀) fun nd => Res.Within.after hs <| by
    split
    · intro p; cases p <;> simp [StatePart.Kept]
    · exact ((result_within _ _).mono (by decide)).after ((changesOnly_cur s c true).mono (by decide))

theorem withDescentByte_ends {P : State → Prop} {k : State → Res} (hs : P s) (hk : (k s).Ends P)
    (hk' : ∀ b, (k { s with srcPos := s.srcPos + 1, dbyte := b }).Ends P) : (withDescentByte s k).Ends P := by
  unfold withDescentByte
  split
  · exact withByte_ends hs hk'
  · exact hk

theorem bitBody_within : (bitBody s).Within descentParts s := by
  refine guard_within (withNode_ends (.refl _ s) fun nd => ?_)
  split
  · exact .refl _ s
  · refine withDescentByte_ends s (.refl _ s) (arrive_within _ _ ?_) fun b => arrive_within _ _ ?_
    · exact (changesOnly_decoder s _ _ _).mono (by decide)
    · exact ((changesOnly_srcPos s _).mono (by decide)).trans ((changesOnly_decoder _ _ _ _).mono (by decide))

theorem symbolLoop_within (k : Nat) : (symbolLoop k s).Within descentParts s := by
  induction k generalizing s with
  | zero => exact .refl _ s
  | succ k ih =>
    refine (bitBody_within s).andThen fun t => ?_
    split
    · exact .refl _ t
    · exact ih t

theorem symbolsLoop_within (k : Nat) : (symbolsLoop k s).Within descentParts s := by
  induction k generalizing s with
  | zero => exact .refl _ s
  | succ k ih => exact (symbolLoop_within s _).andThen fun t => ih t

theorem decodeBody_within : (decodeBody s).Within descentParts s := by
  refine guard_within ?_
  unfold bodyOfType
  split
  · exact .refl _ s
  split
  · exact (changesOnly_degenerateBody s).mono (by decide)
  split
  · exact guard_within (symbolsLoop_within s _)
  · exact .refl _ s

theorem rebuildTree_within : (rebuildTree s).Within [.nm, .root, .pq, .cur, .res0] s := by
  unfold rebuildTree
  split
  · exact buildBody_within s
  · exact .refl _ s

/-- Only a general record makes a tree (R212). -/
theorem rebuildTree_of_fileType_ne {s : State} (h : s.fileType ≠ 2#8) : rebuildTree s = .done s := if_neg h

/-- What `DEC.RUN` changes (R212). -/
abbrev decodeParts : List StatePart :=
  [.err, .ft, .nm, .root, .pq, .header, .decoder, .cur, .srcPos, .snkPos, .sink, .res0]

theorem decodePass_within : (decodePass s).Within decodeParts s := by
  refine Res.Within.after ((changesOnly_rewind s true true).mono (by decide)) ?_
  refine ((decodeHeader_within _).mono (by decide)).thenCommand (by decide) fun t => ?_
  refine ((rebuildTree_within t).mono (by decide)).thenCommand (by decide) fun u => ?_
  exact ((decodeBody_within u).mono (by decide)).andThen fun v => (result_within v _).mono (by decide)

/-- What the header of a record and a body without a tree change (R95, R206, R207). -/
abbrev smallRecordParts : List StatePart := [.err, .header, .decoder, .cur, .srcPos, .snkPos, .sink, .res0]

theorem changesOnly_takeRecord (size : Nat) (t : Byte) (total dgCount : Word32) (dgValue : Byte) :
    ChangesOnly smallRecordParts s (takeRecord size t total dgCount dgValue s) :=
  (((changesOnly_beginDecode s).mono (by decide)).trans ((changesOnly_srcPos _ _).mono (by decide))).trans
    ((changesOnly_setHeader _ _ _ _ _).mono (by decide))

theorem runRecord_within : (runRecord s).Within decodeParts s :=
  Res.Within.thenCommand (.refl _ s) (by decide) fun t =>
  ((rebuildTree_within t).mono (by decide)).thenCommand (by decide) fun u =>
  (decodeBody_within u).mono (by decide)

/-- A record that is no general one makes no tree, so its body follows its header at once. -/
theorem smallRecord_within (size : Nat) {t : Byte} (total dgCount : Word32) (dgValue : Byte) (ht : t ≠ 2#8) :
    (runRecord (takeRecord size t total dgCount dgValue s)).Within smallRecordParts s := by
  have hrun (u : State) (hu : u.fileType ≠ 2#8) : runRecord u = decodeBody u.complete.complete := by
    simp [runRecord, rebuildTree_of_fileType_ne (s := u.complete) hu]
  rw [hrun _ ht]
  refine Res.Within.after ((changesOnly_takeRecord s size t total dgCount dgValue).trans ?_)
    ((decodeBody_within _).mono (by decide))
  exact ((changesOnly_complete _).mono (by decide)).trans ((changesOnly_complete _).mono (by decide))

end

/-! ### What each instruction changes -/

def isReset : Instr → Bool
  | .rst => true
  | _ => false

theorem isReset_eq_false_iff {i : Instr} : isReset i = false ↔ i ≠ .rst := by
  cases i <;> simp [isReset]

/-- Whether an instruction's body may write a part of the state, by the tables `writesFt` to `writesRes0`. `FAULTED` and
`ERRINFO` are written by the body of `RST` alone, and else by `raise` at the command's end (R233). -/
def StatePart.writtenBy (i : Instr) : StatePart → Bool
  | .arg0 => isReset i
  | .res0 => writesRes0 i
  | .occ => writesOcc i
  | .err => true
  | .fault => isReset i
  | .header => writesHeader i
  | .ft => writesFt i
  | .nm => writesNm i
  | .root => writesRoot i
  | .pq => writesPq i
  | .codes => writesCodes i
  | .ct => writesCt i
  | .buffer => writesBuffer i
  | .decoder => writesDecoder i
  | .cur => writesCur i
  | .srcPos => writesSrcPos i
  | .snkPos => writesSnkPos i
  | .sink => writesSink i
  | .host => false

/-- An instruction is a body, which changes only parts the tables allow it, and the end of a command. -/
theorem exec_within (i : Instr) (s : State) :
    ∃ (r : Res) (ps : List StatePart),
      exec i s = r.finish ∧ r.Within ps s ∧ ps.all (StatePart.writtenBy i) = true := by
  have query {n : NodeIx} {k : Node → Res} (hk : ∀ nd, (k nd).Within [.res0] s) :
      (withNode n s k).Within [.res0] s := withNode_ends (.refl _ s) hk
  cases i with
  | nop => exact ⟨_, _, rfl, done_within (.refl [] s), rfl⟩
  | rst => exact ⟨_, _, rfl, done_within (changesOnly_softReset s), rfl⟩
  | rew src snk => exact ⟨_, _, rfl, done_within (changesOnly_rewind s src snk), rfl⟩
  | ftClr => exact ⟨_, _, rfl, done_within (changesOnly_clearCounts s), rfl⟩
  | ftInc v => exact ⟨_, _, rfl, incCount_within s v, rfl⟩
  | ftSet v => exact ⟨_, _, rfl, setCountFromArg_within s v, rfl⟩
  | ftCnt v => exact ⟨_, _, rfl, result_within s _, rfl⟩
  | ftOcc => exact ⟨_, _, rfl, occBody_within s, rfl⟩
  | ftScan => exact ⟨_, _, rfl, scanLoop_within s _ _, rfl⟩
  | pqClr => exact ⟨_, _, rfl, done_within (changesOnly_pq s []), rfl⟩
  | pqEnq n => exact ⟨_, _, rfl, enqueue_within s n, rfl⟩
  | pqDeq => exact ⟨_, [.pq, .res0], rfl,
      dequeue_within (by decide) fun n t => (result_within t _).mono (by decide), rfl⟩
  | pqPeek => exact ⟨_, _, rfl, dequeue_ends (.refl _ s) fun n q => result_within s _, rfl⟩
  | pqLen => exact ⟨_, _, rfl, result_within s _, rfl⟩
  | trClr => exact ⟨_, _, rfl, done_within (changesOnly_clearTree s), rfl⟩
  | trLeaf v => exact ⟨_, _, rfl, leafBody_within s v, rfl⟩
  | trMerge n1 n2 => exact ⟨_, _, rfl, mergeBody_within s n1 n2, rfl⟩
  | trBuild => exact ⟨_, _, rfl, buildBody_within s, rfl⟩
  | trRoot =>
    refine ⟨_, [.res0], rfl, ?_, rfl⟩
    split
    · exact result_within s _
    · exact raise_within _ _
  | trSetroot n =>
    refine ⟨_, [.root, .cur], rfl, withNode_ends (.refl _ s) fun nd => ?_, rfl⟩
    intro p; cases p <;> simp [StatePart.Kept]
  | trIsleaf n => exact ⟨_, _, rfl, query fun nd => result_within s _, rfl⟩
  | trValue n => exact ⟨_, _, rfl, query fun nd => leafValue_ends (.refl _ s) fun v => result_within s _, rfl⟩
  | trLeft n => exact ⟨_, _, rfl, query fun nd => childLeft_ends (.refl _ s) fun l => result_within s _, rfl⟩
  | trRight n => exact ⟨_, _, rfl, query fun nd => childRight_ends (.refl _ s) fun r => result_within s _, rfl⟩
  | trWeight n => exact ⟨_, _, rfl, query fun nd => result_within s _, rfl⟩
  | trHeight n => exact ⟨_, _, rfl, heightBody_within s n, rfl⟩
  | trEq n1 n2 => exact ⟨_, _, rfl, eqBody_within s n1 n2, rfl⟩
  | bcNew cd bit => exact ⟨_, _, rfl, done_within (changesOnly_setCode s cd _), rfl⟩
  | bcPush cd bit => exact ⟨_, _, rfl, withCode_ends (.refl _ s) fun c => storeCode_within s cd _, rfl⟩
  | bcLen cs => exact ⟨_, _, rfl, withCode_ends (.refl _ s) fun c => result_within s _, rfl⟩
  | bcGet cs a => exact ⟨_, _, rfl, getBody_within s cs a, rfl⟩
  | bcSlice cd cs a b => exact ⟨_, _, rfl, sliceBody_within s cd cs a b, rfl⟩
  | bcSet cd a bit => exact ⟨_, _, rfl, setBody_within s cd a bit, rfl⟩
  | bcSplice cd cs a b => exact ⟨_, _, rfl, spliceBody_within s cd cs a b, rfl⟩
  | bcIns cd a bit => exact ⟨_, _, rfl, insBody_within s cd a bit, rfl⟩
  | bcDel cd a b => exact ⟨_, _, rfl, delBody_within s cd a b, rfl⟩
  | bcCat cd cs ct => exact ⟨_, _, rfl,
      withCode_ends (.refl _ s) fun c => withCode_ends (.refl _ s) fun d => storeCode_within s cd _, rfl⟩
  | bcEq cs ct => exact ⟨_, _, rfl,
      withCode_ends (.refl _ s) fun c => withCode_ends (.refl _ s) fun d => result_within s _, rfl⟩
  | ctClr => exact ⟨_, _, rfl, done_within (changesOnly_ct s emptyTable), rfl⟩
  | ctSt a cs => exact ⟨_, _, rfl, withCode_ends (.refl _ s) fun c => changesOnly_ct s _, rfl⟩
  | ctLd cd a => exact ⟨_, _, rfl, withCtEntry_ends (.refl _ s) fun c => changesOnly_setCode s cd c, rfl⟩
  | cgRun => exact ⟨_, _, rfl, codegenBody_within s, rfl⟩
  | encHdr => exact ⟨_, _, rfl, headerBody_within s, rfl⟩
  | encPut v => exact ⟨_, _, rfl, putBody_within s v, rfl⟩
  | encFlush => exact ⟨_, _, rfl, done_within (changesOnly_bbFlush s), rfl⟩
  | encBody => exact ⟨_, _, rfl, encodeBody_within s, rfl⟩
  | encRun => exact ⟨_, _, rfl, encodePass_within s, rfl⟩
  | decHdr => exact ⟨_, _, rfl, decodeHeader_within s, rfl⟩
  | decBit => exact ⟨_, _, rfl, bitBody_within s, rfl⟩
  | decSym => exact ⟨_, _, rfl, symbolLoop_within s _, rfl⟩
  | decBody => exact ⟨_, _, rfl, decodeBody_within s, rfl⟩
  | decRun => exact ⟨_, _, rfl, decodePass_within s, rfl⟩
  | streamEmpty => exact ⟨_, _, rfl, smallRecord_within s 3 0#32 0#32 0#8 (t := 0#8) (by decide), rfl⟩
  | streamDegen count value =>
    exact ⟨_, _, rfl, smallRecord_within s 8 0#32 count value (t := 1#8) (by decide), rfl⟩
  | streamGeneral total counts =>
    have hft : ChangesOnly decodeParts s (putCounts allBytes counts s) :=
      (changesOnly_putCounts s allBytes counts).mono (by decide)
    exact ⟨_, decodeParts, rfl, (runRecord_within _).after
      (hft.trans ((changesOnly_takeRecord _ 1031 _ _ _ _).mono (by decide))), rfl⟩

/-- An instruction leaves the parts of the state that the tables do not let it write. -/
theorem exec_keeps {i : Instr} {s t : State} (h : exec i s = .next t) {p : StatePart} (hp : p.writtenBy i = false)
    (hfault : p ≠ .fault) : p.Kept s t := by
  obtain ⟨r, ps, he, hr, hps⟩ := exec_within i s
  have hmem : p ∉ ps := fun hm => by simp [List.all_eq_true.1 hps p hm] at hp
  have herr : p ≠ .err := by rintro rfl; cases hp
  rcases Res.finish_eq_next.1 (he.symm.trans h) with ⟨u, rfl, rfl⟩ | ⟨k, info, u, rfl, rfl⟩
  · exact (hr p hmem).trans (changesOnly_complete u p (by simp [herr]))
  · exact (hr p hmem).trans (changesOnly_raise u k info p (by simp [herr, hfault]))

/-- No instruction but `RST` clears `FAULTED` (R24, R233, R237). -/
theorem exec_keeps_faulted {i : Instr} {s t : State} (h : exec i s = .next t) (hi : isReset i = false)
    (hs : s.faulted = true) : t.faulted = true := by
  obtain ⟨r, ps, he, hr, hps⟩ := exec_within i s
  have hmem : StatePart.fault ∉ ps := fun hm => by
    simpa [StatePart.writtenBy, hi] using List.all_eq_true.1 hps _ hm
  rcases Res.finish_eq_next.1 (he.symm.trans h) with ⟨u, rfl, rfl⟩ | ⟨k, info, u, rfl, rfl⟩
  · have hu : u.faulted = s.faulted := (hr .fault hmem).1
    simp [hu, hs]
  · rfl

/-! ### `FAULTED` over a step -/

/-- The only word that decodes to `RST` (R221). -/
theorem word_of_decodeCommand_rst {w : Word32} (h : decodeCommand w = .ok .rst) : w = 0x01000000#32 := by
  obtain ⟨r, hr, hmask, hbuild⟩ := decodeCommand_eq_ok.1 h
  have hrows : ∀ r ∈ commandRows, r.build w = .rst → r.mask = BitVec.allOnes 32 ∧ r.pattern = 0x01000000#32 := by
    simp [commandRows, systemRows, frequencyRows, queueRows, treeRows, codeRows, codeTableRows, codecRows,
      CommandRow.mask, CommandRow.pattern, usesZ]
  obtain ⟨hm, hp⟩ := hrows r (List.mem_of_find?_eq_some hr) hbuild
  rwa [hm, hp, BitVec.and_allOnes] at hmask

/-- A move of the host that runs no command keeps `FAULTED`, unless it is hardware reset (R38, R260, R262). -/
theorem hostMove_faulted {m : HostMove} (hm : m ≠ .hardwareReset) (s : State) :
    (hostMove m s).faulted = s.faulted := by
  cases m with
  | write offset width value =>
    simp only [hostMove, mapWrite]
    split
    · rfl
    · split <;> rfl
  | connectSource bytes => rfl
  | connectSink bytes => rfl
  | hardwareReset => exact absurd rfl hm

/-- Settles O54: by the host's move; a command other than `RST` keeps `FAULTED`, as a raise sets it and a body never
writes it. -/
theorem onlyResetClearsFaulted : Obligations.OnlyResetClearsFaulted := by
  unfold Obligations.OnlyResetClearsFaulted
  intro s t hstep hs ht
  rcases step_cases hstep with ⟨-, rfl⟩ | ⟨m, rest, hhost, ⟨-, rfl⟩ | ⟨w, hw, ⟨i, hd, he⟩ | ⟨e, -, rfl⟩⟩⟩
  · simp [hs] at ht
  · left
    by_contra hm
    have hm' : m ≠ .hardwareReset := by simpa [hhost] using hm
    simp [hostMove_faulted hm', hs] at ht
  · right
    have hi : i = .rst := by
      by_contra hi
      simp [exec_keeps_faulted he (isReset_eq_false_iff.2 hi) hs] at ht
    subst hi
    exact ⟨m, by simp [hhost], by rw [hw, word_of_decodeCommand_rst hd]⟩
  · simp [illegalCommand] at ht

/-- Settles O55: the source, `SRC_LEN` and the host's moves are a part no instruction writes, `ARG0` one that only `RST`
writes. -/
theorem hostOwnedStateIsNeverWritten : Obligations.HostOwnedStateIsNeverWritten := by
  unfold Obligations.HostOwnedStateIsNeverWritten
  intro i s t h
  obtain ⟨hsrc, hlen, hhost⟩ : StatePart.host.Kept s t := exec_keeps h rfl (by decide)
  refine ⟨hsrc, hlen, hhost, fun hi => ?_⟩
  exact exec_keeps (p := .arg0) h (isReset_eq_false_iff.2 hi) (by decide)

/-- Settles O56: each clause is `exec_keeps` at its part. -/
theorem tablesAreWrittenOnlyByTheirCommands : Obligations.TablesAreWrittenOnlyByTheirCommands := by
  unfold Obligations.TablesAreWrittenOnlyByTheirCommands
  intro i s t h
  have keeps (p : StatePart) (hfault : p ≠ .fault) (hp : p.writtenBy i = false) : p.Kept s t := exec_keeps h hp hfault
  exact ⟨keeps .ft (by decide), keeps .nm (by decide), keeps .pq (by decide), keeps .root (by decide),
    keeps .codes (by decide), keeps .ct (by decide), keeps .occ (by decide), keeps .header (by decide),
    keeps .buffer (by decide), keeps .decoder (by decide), keeps .cur (by decide), keeps .srcPos (by decide),
    keeps .snkPos (by decide), keeps .res0 (by decide)⟩

/-! ### Reset -/

theorem atReset_reset : AtReset State.reset := by
  constructor <;>
    simp [State.reset, State.count, State.nodeValid, State.nodeOwned, State.node?, State.nmNext, State.codeValid,
      State.codeAt, State.ctValid, Err.code]

theorem output_eq_nil {s : State} (h : s.snkPos = 0) : s.output = [] := by simp [State.output, h]

/-- The values of R39 are of the core's registers: connecting streams, `SRC_LEN` and the host's moves leave them. -/
theorem AtReset.of_reset (len : Word64) (snk : Memory) (src : List Byte) (host : List HostMove) :
    AtReset { State.reset with srcLen := len, snk := snk, src := src, host := host } :=
  { atReset_reset with }

/-- Settles O2: both resets write `State.reset`, and `RST` puts back what R221 keeps. -/
theorem resetLeavesTheResetValues : Obligations.ResetLeavesTheResetValues := by
  unfold Obligations.ResetLeavesTheResetValues
  refine ⟨atReset_reset, rfl, output_eq_nil rfl, fun s => ⟨_, rfl, ?_, rfl, output_eq_nil rfl⟩⟩
  exact AtReset.of_reset s.srcLen s.snk s.src s.host

/-- Settles O58: after reset every table is empty and every valid bit 0. -/
theorem resetMeetsTheInvariants : Obligations.ResetMeetsTheInvariants := by
  unfold Obligations.ResetMeetsTheInvariants
  have hnode (n : NodeIx) : State.reset.node? n = none := by simp [State.node?, State.reset]
  exact {
    store := {
      bound := by simp [State.reset]
      children := by simp [State.reset]
      oneParent := by simp [State.reset]
      ownedIsChild := by simp [hnode] }
    queue := ⟨by simp [State.reset], by simp [State.reset], by simp [State.reset]⟩
    pointers := ⟨by simp [State.reset], by simp [State.reset]⟩
    codes := ⟨by simp [State.reset, State.codeAt], by simp [State.reset]⟩
    buffer := ⟨by simp [State.reset], by simp [State.reset]⟩
    sink := rfl }

/-! ### The step -/

theorem commandWord?_write_eq_none {offset width : Nat} {value : Word64} (h : ¬ (offset = 0 ∧ width = 32)) :
    (HostMove.write offset width value).commandWord? = none := if_neg h

/-- A record placed as the host's next move runs through `DEC.RUN` (R95, log entry 12). -/
theorem step_withFetchWord_record (s : State) (h : Nat) :
    step (s.withFetchWord 24 h) = exec .decRun { s with src := tableRecordBytes h, srcLen := 1031 } := by
  have hd : decodeCommand (commandWord .decRun) = .ok .decRun := by decide
  have hlen : (tableRecordBytes h).length = 1031 := by
    rw [tableRecordBytes, List.length_append, List.length_replicate]
    rfl
  rw [State.withFetchWord, if_pos rfl, placeRecord, placeCommand, hlen,
    step_command rfl (writeCommand_commandWord _) hd]
  rfl

/-- Settles O3, clause by clause from the laws of the step by kind of move. -/
theorem stepRunsTheDecodedCommand : Obligations.StepRunsTheDecodedCommand := by
  unfold Obligations.StepRunsTheDecodedCommand
  refine ⟨fun s w i rest h hd => step_command h (writeCommand_commandWord w) hd,
    fun s w i hd => step_withFetchWord hd, step_withFetchWord_record, fun s h => step_idle h,
    fun s m rest h hm => step_move h hm,
    fun s offset width value rest h hw => step_move h (commandWord?_write_eq_none hw), fun s rest h => ?_⟩
  exact ⟨_, step_move h rfl, .of_reset 0 s.snk s.src rest, rfl, output_eq_nil rfl, rfl⟩

/-! ### The host's view -/

/-- The bits of `STATUS`, by the fields of R24. -/
theorem State.getLsbD_status (s : State) (i : Nat) : s.status.getLsbD i =
    if i < 8 then s.err.code.getLsbD i
    else if i = 8 then s.faulted
    else if i = 9 then s.rootValid
    else if i = 10 then s.hdrValid
    else if i = 11 then s.curValid
    else if i < 15 then s.bbCnt.getLsbD (i - 12)
    else if i = 15 then false
    else s.bitPos.getLsbD (i - 16) := by
  by_cases hi : i < 32
  · simp only [State.status, BitVec.getLsbD_append, BitVec.getLsbD_extractLsb']
    interval_cases i <;> simp
  · have h32 : s.status.getLsbD i = false := BitVec.getLsbD_of_ge _ _ (by omega)
    rw [h32]
    grind

/-- Settles O49: each field of `STATUS` is read off its bits. -/
theorem statusFieldsAreCopies : Obligations.StatusFieldsAreCopies := by
  unfold Obligations.StatusFieldsAreCopies
  have field (s : State) (start len i : Nat) (hi : i < len) :
      (s.status.extractLsb' start len).getLsbD i = s.status.getLsbD (start + i) := by
    simp only [BitVec.getLsbD_extractLsb', hi, decide_true, Bool.true_and]
  refine ⟨fun s => ⟨?err, s.getLsbD_status 8, s.getLsbD_status 9, s.getLsbD_status 10, s.getLsbD_status 11,
    fun h => ?cnt, s.getLsbD_status 15, ?pos, ?reserved⟩, by decide⟩
  case err =>
    apply BitVec.eq_of_getLsbD_eq
    intro i hi
    rw [field s 0 8 i hi, Nat.zero_add, State.getLsbD_status, if_pos hi]
  case cnt =>
    have hcnt : s.status.extractLsb' 12 3 = s.bbCnt.setWidth 3 := by
      apply BitVec.eq_of_getLsbD_eq
      intro i hi
      rw [field s 12 3 i hi, State.getLsbD_status]
      interval_cases i <;> simp
    rw [hcnt, BitVec.toNat_setWidth, Nat.mod_eq_of_lt (by omega)]
  case pos =>
    apply BitVec.eq_of_getLsbD_eq
    intro i hi
    rw [field s 16 3 i hi, State.getLsbD_status]
    interval_cases i <;> rfl
  case reserved =>
    apply BitVec.eq_of_getLsbD_eq
    intro i hi
    rw [field s 19 13 i hi, State.getLsbD_status]
    interval_cases i <;> simp

/-- Settles O50: the offsets of R38 one by one; away from them every test of `mapRead` fails. -/
theorem registerMapAccesses : Obligations.RegisterMapAccesses := by
  unfold Obligations.RegisterMapAccesses
  refine fun s => ⟨?registers, ?occ, ?others, ?writes⟩
  case registers =>
    refine ⟨rfl, rfl, rfl, rfl, Nat.mod_eq_of_lt, rfl, Nat.mod_eq_of_lt, rfl, rfl, rfl, rfl, rfl, fun h => ?_,
      fun h => ?_⟩
    · change s.nmNext % 1024 % 2 ^ 64 = s.nmNext
      omega
    · change s.pq.length % 512 % 2 ^ 64 = s.pq.length
      omega
  case occ =>
    intro k j hk hj
    have hread : mapRead s (0x060 + 8 * k) 64 = s.occWord k := by interval_cases k <;> rfl
    simp [hread, State.occWord, hj]
  case others =>
    intro offset width h
    by_cases h64 : width = 64
    · subst h64
      simp_all [mapRead]
    by_cases h32 : width = 32
    · subst h32
      simp_all [mapRead]
    · simp [mapRead, h64, h32]
  case writes =>
    intro offset width value
    unfold mapWrite
    by_cases h64 : width = 64
    · by_cases h8 : offset = 0x008
      · simp [h64, h8]
      · by_cases h30 : offset = 0x030 <;> simp [h64, h8, h30]
    · simp [h64]

end Sys2Proof.Machine
end

section
/-! PROOFS. Family 20_memory: the byte order of a field, and what is written to the sink. -/

namespace Sys2Proof

/-! ### Byte order (R66) -/

/-- A byte put behind a bit string is its least significant digit in base 256. -/
theorem toNat_append_byte {n : Nat} (x : BitVec n) (b : Byte) : (x ++ b).toNat = x.toNat * 256 + b.toNat := by
  rw [BitVec.toNat_append, ← Nat.shiftLeft_add_eq_or_of_lt b.isLt, Nat.shiftLeft_eq]

theorem toNat_unbe32 (b0 b1 b2 b3 : Byte) :
    (unbe32 b0 b1 b2 b3).toNat = b0.toNat * 2 ^ 24 + b1.toNat * 2 ^ 16 + b2.toNat * 2 ^ 8 + b3.toNat := by
  simp only [unbe32, toNat_append_byte]
  omega

theorem be32_eq_iff {x : Word32} {b0 b1 b2 b3 : Byte} : be32 x = [b0, b1, b2, b3] ↔ unbe32 b0 b1 b2 b3 = x := by
  constructor
  · intro h
    simp only [be32, List.cons.injEq, and_true] at h
    obtain ⟨rfl, rfl, rfl, rfl⟩ := h
    exact unbe32_be32 x
  · rintro rfl
    exact be32_unbe32 b0 b1 b2 b3

end Sys2Proof

namespace Sys2Proof.Machine

/-- Settles O48: the value digit by digit, and `unbe32` as the inverse of `be32` on both sides. -/
theorem fieldsAreBigEndian : Obligations.FieldsAreBigEndian := by
  unfold Obligations.FieldsAreBigEndian
  exact fun x b0 b1 b2 b3 => ⟨rfl, toNat_unbe32 b0 b1 b2 b3, be32_eq_iff⟩

/-! ### The sink grows at its position

`SinkExtends s t`: from `s` to `t` the sink's bytes change at most between the two values of `SNK_POS`, which has not gone
back (R63, R74). -/

def SinkExtends (s t : State) : Prop :=
  s.snkPos ≤ t.snkPos ∧ ∀ a, a < s.snkPos ∨ t.snkPos ≤ a → t.snk.read a = s.snk.read a

section
variable {s t u : State}

theorem SinkExtends.trans (h : SinkExtends s t) (h' : SinkExtends t u) : SinkExtends s u := by
  obtain ⟨hle, hread⟩ := h
  obtain ⟨hle', hread'⟩ := h'
  refine ⟨hle.trans hle', fun a ha => ?_⟩
  rw [hread' a (by omega), hread a (by omega)]

/-- An update that touches neither the sink nor its position. -/
theorem SinkExtends.of_eq (hpos : t.snkPos = s.snkPos) (hsnk : t.snk = s.snk) : SinkExtends s t :=
  ⟨hpos.ge, fun a _ => by rw [hsnk]⟩

theorem SinkExtends.refl (s : State) : SinkExtends s s := .of_eq rfl rfl

theorem ChangesOnly.sinkExtends {ps : List StatePart} (h : ChangesOnly ps s t) (hpos : .snkPos ∉ ps)
    (hsink : .sink ∉ ps) : SinkExtends s t :=
  .of_eq (h .snkPos hpos) (h .sink hsink)

theorem Appended.sinkExtends {bs : List Byte} (h : Appended s t bs) : SinkExtends s t := by
  obtain ⟨hpos, -, hread⟩ := h
  exact ⟨by omega, fun a ha => hread a (by omega)⟩

end

section
variable (s : State)

theorem sinkExtends_sinkWrites (bs : List Byte) : SinkExtends s (s.sinkWrites bs) :=
  (s.sinkWrites_appended bs).sinkExtends

theorem sinkExtends_sinkWrite (b : Byte) : SinkExtends s (s.sinkWrite b) := sinkExtends_sinkWrites s [b]

theorem sinkExtends_bbAppend (bit : Bool) : SinkExtends s (bbAppend s bit) := by
  rcases bbAppend_cases s bit with ⟨-, h⟩ | ⟨-, h⟩ <;> rw [h]
  · exact .of_eq rfl rfl
  · exact (sinkExtends_sinkWrite s _).trans (.of_eq rfl rfl)

theorem sinkExtends_bbAppends (bits : List Bool) : SinkExtends s (bbAppends s bits) := by
  induction bits generalizing s with
  | nil => exact .refl s
  | cons b bits ih => exact (sinkExtends_bbAppend s b).trans (ih _)

theorem sinkExtends_bbFlush : SinkExtends s (bbFlush s) := by
  rcases bbFlush_cases s with ⟨-, h⟩ | ⟨-, h⟩ <;> rw [h]
  · exact .refl s
  · exact (sinkExtends_sinkWrite s _).trans (.of_eq rfl rfl)

theorem sinkExtends_sinkFill (b : Byte) (n : Nat) : SinkExtends s (sinkFill b n s) := by
  induction n generalizing s with
  | zero => exact .refl s
  | succ n ih => exact (sinkExtends_sinkWrite s b).trans (ih _)

theorem sinkExtends_degenerateBody : SinkExtends s (degenerateBody s) :=
  (sinkExtends_sinkFill s _ _).trans (sinkExtends_sinkWrite _ _)

end

/-! ### Bodies that extend the sink -/

/-- From `s` on the body writes the sink at its position only. -/
abbrev Res.ExtendsSink (s : State) (r : Res) : Prop := r.Ends (SinkExtends s)

section
variable {s t : State} {r : Res} {f : State → Res}

/-- A body that writes neither the sink nor its position. -/
theorem Res.Within.extendsSink {ps : List StatePart} (h : r.Within ps s) (hpos : .snkPos ∉ ps) (hsink : .sink ∉ ps) :
    r.ExtendsSink s :=
  Res.Ends.mono h fun _ ht => ht.sinkExtends hpos hsink

theorem Res.ExtendsSink.after (hst : SinkExtends s t) (h : r.ExtendsSink t) : r.ExtendsSink s :=
  Res.Ends.mono h fun _ ht => hst.trans ht

theorem Res.ExtendsSink.andThen (h : r.ExtendsSink s) (hf : ∀ t, (f t).ExtendsSink t) : (r.andThen f).ExtendsSink s :=
  Res.Ends.andThen h fun t ht => (hf t).after ht

theorem Res.ExtendsSink.thenCommand (h : r.ExtendsSink s) (hf : ∀ t, (f t).ExtendsSink t) :
    (r.thenCommand f).ExtendsSink s :=
  h.andThen fun t => (hf t.complete).after (.of_eq rfl rfl)

/-- The end of a command, completed or raised, leaves the sink as the body left it (R233). -/
theorem Res.ExtendsSink.of_finish (h : r.ExtendsSink s) (ht : r.finish = .next t) : SinkExtends s t := by
  rcases Res.finish_eq_next.1 ht with ⟨u, rfl, rfl⟩ | ⟨k, info, u, rfl, rfl⟩
  · exact SinkExtends.trans h (.of_eq rfl rfl)
  · exact SinkExtends.trans h (.of_eq rfl rfl)

end

section
variable (s : State)

theorem result_extendsSink (x : Word64) : (result x s).ExtendsSink s :=
  (result_within s x).extendsSink (by decide) (by decide)

theorem headerBody_extendsSink : (headerBody s).ExtendsSink s := by
  unfold headerBody
  split
  · exact SinkExtends.refl s
  · have hclear : SinkExtends s { s with hdrValid := false, bbBits := 0#8, bbCnt := 0#4 } := .of_eq rfl rfl
    have hwrite := hclear.trans (sinkExtends_sinkWrites _ (headerOf s.ft).1)
    exact hwrite.trans (.of_eq rfl rfl)

theorem putBody_extendsSink (v : Byte) : (putBody v s).ExtendsSink s :=
  withCtEntry_ends (.refl s) fun c => sinkExtends_bbAppends s c

theorem encodeLoop_extendsSink (left : Nat) : (encodeLoop left s).ExtendsSink s := by
  induction left generalizing s with
  | zero => exact SinkExtends.refl s
  | succ left ih =>
    unfold encodeLoop
    split
    · trivial
    · exact (putBody_extendsSink s _).andThen fun t => (ih _).after (.of_eq rfl rfl)

theorem encodeBody_extendsSink : (encodeBody s).ExtendsSink s :=
  (encodeLoop_extendsSink s _).andThen fun t => sinkExtends_bbFlush t

theorem buildBody_extendsSink : (buildBody s).ExtendsSink s :=
  (buildBody_within s).extendsSink (by decide) (by decide)

theorem encodeGeneral_extendsSink : (encodeGeneral s).ExtendsSink s :=
  (buildBody_extendsSink s).thenCommand fun t =>
  ((codegenBody_within t).extendsSink (by decide) (by decide)).thenCommand fun u =>
  (encodeBody_extendsSink u.rewindSrc).after (.of_eq rfl rfl)

/-- `ENC.RUN` writes from position 0 on, since it rewinds the sink first (R64, R197). -/
theorem encodePass_extendsSink : (encodePass s).ExtendsSink s.rewindSnk := by
  refine Res.ExtendsSink.thenCommand (r := .done _) (SinkExtends.of_eq rfl rfl) fun t => ?_
  refine ((scanLoop_within t _ _).extendsSink (by decide) (by decide)).thenCommand fun u => ?_
  refine (headerBody_extendsSink u).thenCommand fun v => ?_
  refine Res.ExtendsSink.andThen ?_ fun w => result_extendsSink w _
  split
  · exact encodeGeneral_extendsSink v
  · exact SinkExtends.refl v

/-- A descent step that has not yet written the sink writes at most the leaf's byte (R208). -/
theorem arrive_extendsSink (c : NodeIx) {s₀ : State} (hs : SinkExtends s₀ s) : (arrive c s₀ s).ExtendsSink s₀ := by
  refine withNode_ends (.refl s₀) fun nd => Res.ExtendsSink.after hs ?_
  split
  · exact (sinkExtends_sinkWrite s _).trans (.of_eq rfl rfl)
  · exact SinkExtends.of_eq rfl rfl

theorem bitBody_extendsSink : (bitBody s).ExtendsSink s := by
  unfold bitBody
  split
  · exact SinkExtends.refl s
  refine withNode_ends (.refl s) fun nd => ?_
  split
  · exact SinkExtends.refl s
  · exact withDescentByte_ends s (.refl s) (arrive_extendsSink _ _ (.of_eq rfl rfl))
      fun b => arrive_extendsSink _ _ (.of_eq rfl rfl)

theorem symbolLoop_extendsSink (k : Nat) : (symbolLoop k s).ExtendsSink s := by
  induction k generalizing s with
  | zero => exact SinkExtends.refl s
  | succ k ih =>
    refine (bitBody_extendsSink s).andThen fun t => ?_
    split
    · exact SinkExtends.refl t
    · exact ih t

theorem symbolsLoop_extendsSink (k : Nat) : (symbolsLoop k s).ExtendsSink s := by
  induction k generalizing s with
  | zero => exact SinkExtends.refl s
  | succ k ih => exact (symbolLoop_extendsSink s _).andThen ih

theorem generalBody_extendsSink : (generalBody s).ExtendsSink s := by
  unfold generalBody
  split
  · exact SinkExtends.refl s
  · exact symbolsLoop_extendsSink s _

theorem decodeBody_extendsSink : (decodeBody s).ExtendsSink s := by
  unfold decodeBody bodyOfType
  split
  · exact SinkExtends.refl s
  split
  · exact SinkExtends.refl s
  split
  · exact sinkExtends_degenerateBody s
  split
  · exact generalBody_extendsSink s
  · exact SinkExtends.refl s

theorem rebuildTree_extendsSink : (rebuildTree s).ExtendsSink s :=
  (rebuildTree_within s).extendsSink (by decide) (by decide)

/-- `DEC.RUN` writes from position 0 on, since it rewinds the sink first (R64, R212). -/
theorem decodePass_extendsSink : (decodePass s).ExtendsSink s.rewindSnk := by
  refine Res.ExtendsSink.after (t := rewind true true s) (.of_eq rfl rfl) ?_
  refine ((decodeHeader_within _).extendsSink (by decide) (by decide)).thenCommand fun t => ?_
  refine (rebuildTree_extendsSink t).thenCommand fun u => ?_
  exact (decodeBody_extendsSink u).andThen fun v => result_extendsSink v _

/-- A record leaves the sink to its body (R95). -/
theorem runRecord_takeRecord_extendsSink (size : Nat) (t : Byte) (total dgCount : Word32) (dgValue : Byte) :
    (runRecord (takeRecord size t total dgCount dgValue s)).ExtendsSink s :=
  Res.ExtendsSink.thenCommand (r := .done _) (SinkExtends.of_eq rfl rfl) fun u =>
  (rebuildTree_extendsSink u).thenCommand decodeBody_extendsSink

end

/-- An instruction that writes the sink and does not rewind it first writes it at its position only (R63). -/
theorem exec_sinkExtends {i : Instr} {s t : State} (h : exec i s = .next t) (hw : writesSink i = true)
    (henc : i ≠ .encRun) (hdec : i ≠ .decRun) : SinkExtends s t := by
  cases i with
  | encHdr => exact (headerBody_extendsSink s).of_finish h
  | encPut v => exact (putBody_extendsSink s v).of_finish h
  | encFlush => exact Res.ExtendsSink.of_finish (r := .done _) (sinkExtends_bbFlush s) h
  | encBody => exact (encodeBody_extendsSink s).of_finish h
  | encRun => exact absurd rfl henc
  | decBit => exact (bitBody_extendsSink s).of_finish h
  | decSym => exact (symbolLoop_extendsSink s _).of_finish h
  | decBody => exact (decodeBody_extendsSink s).of_finish h
  | decRun => exact absurd rfl hdec
  | streamEmpty => exact (runRecord_takeRecord_extendsSink s 3 0#8 0#32 0#32 0#8).of_finish h
  | streamDegen count value => exact (runRecord_takeRecord_extendsSink s 8 1#8 0#32 count value).of_finish h
  | streamGeneral total counts =>
    have hft : SinkExtends s (putCounts allBytes counts s) :=
      (changesOnly_putCounts s allBytes counts).sinkExtends (by decide) (by decide)
    exact ((runRecord_takeRecord_extendsSink _ 1031 2#8 total 0#32 0#8).after hft).of_finish h
  | _ => cases hw

/-- Settles O57: an instruction that `writesSink` leaves out keeps the storage; any other extends the sink from where it
starts, which for the two whole passes is position 0. -/
theorem sinkIsWrittenOnlyAtItsPosition : Obligations.SinkIsWrittenOnlyAtItsPosition := by
  unfold Obligations.SinkIsWrittenOnlyAtItsPosition
  intro i s t h
  refine ⟨fun hw => ?_, exec_sinkExtends h, fun hpass a ha => ?_⟩
  · exact exec_keeps (p := .sink) h hw (by decide)
  · have hext : SinkExtends s.rewindSnk t := by
      rcases hpass with rfl | rfl
      · exact (encodePass_extendsSink s).of_finish h
      · exact (decodePass_extendsSink s).of_finish h
    obtain ⟨-, hread⟩ := hext
    exact hread a (.inr ha)

end Sys2Proof.Machine
end

section
/-! PROOFS. Family 30_encoding: the words and records, and what a record runs. -/

namespace Sys2Proof

/-! ### The words of R91 and the rows of R92

Format by format: an opcode over the bits a command uses is the word of the fields those bits hold. -/

theorem masked_eq_wordZ (op : Byte) (w : Word32) : w &&& usesZ ||| (op ++ 0#24) = wordZ op := by
  simp [usesZ, wordZ]

theorem masked_eq_wordB (op : Byte) (w : Word32) : w &&& usesB ||| (op ++ 0#24) = wordB op (fieldV w) := by
  apply BitVec.eq_of_getLsbD_eq
  intro i hi
  simp only [usesB, wordB, fieldV, BitVec.getLsbD_or, BitVec.getLsbD_and, BitVec.getLsbD_append,
    BitVec.getLsbD_extractLsb']
  interval_cases i <;> simp

theorem masked_eq_wordN (op : Byte) (w : Word32) : w &&& usesN ||| (op ++ 0#24) = wordN op (fieldN1 w) := by
  apply BitVec.eq_of_getLsbD_eq
  intro i hi
  simp only [usesN, wordN, fieldN1, BitVec.getLsbD_or, BitVec.getLsbD_and, BitVec.getLsbD_append,
    BitVec.getLsbD_extractLsb']
  interval_cases i <;> simp

theorem masked_eq_wordNN (op : Byte) (w : Word32) :
    w &&& usesNN ||| (op ++ 0#24) = wordNN op (fieldN1 w) (fieldN2 w) := by
  apply BitVec.eq_of_getLsbD_eq
  intro i hi
  simp only [usesNN, wordNN, fieldN1, fieldN2, BitVec.getLsbD_or, BitVec.getLsbD_and, BitVec.getLsbD_append,
    BitVec.getLsbD_extractLsb']
  interval_cases i <;> simp

theorem masked_eq_wordM (op : Byte) (w : Word32) :
    w &&& usesM ||| (op ++ 0#24) = wordM op (fieldSrc w) (fieldSnk w) := by
  apply BitVec.eq_of_getLsbD_eq
  intro i hi
  simp only [usesM, wordM, fieldSrc, fieldSnk, BitVec.getLsbD_or, BitVec.getLsbD_and, BitVec.getLsbD_append]
  interval_cases i <;> simp

/-- The operand bits of format C. -/
def usesC : Word32 := 0xFFFF7F#32

theorem masked_eq_wordC (op : Byte) (w : Word32) :
    w &&& usesC ||| (op ++ 0#24) =
      wordC op (fieldCd w) (fieldCs w) (fieldCt w) (fieldBit w) (fieldA w) (fieldB w) := by
  apply BitVec.eq_of_getLsbD_eq
  intro i hi
  simp only [usesC, wordC, fieldCd, fieldCs, fieldCt, fieldBit, fieldA, fieldB, BitVec.getLsbD_or, BitVec.getLsbD_and,
    BitVec.getLsbD_append, BitVec.getLsbD_extractLsb']
  interval_cases i <;> simp

/-- A command that uses some of the bits of format C has 0 in the other fields. -/
theorem masked_eq_wordC_of_subset (op : Byte) (w : Word32) {u : Word32} (hu : u &&& usesC = u) :
    w &&& u ||| (op ++ 0#24) = wordC op (fieldCd w &&& fieldCd u) (fieldCs w &&& fieldCs u)
      (fieldCt w &&& fieldCt u) (fieldBit w && fieldBit u) (fieldA w &&& fieldA u) (fieldB w &&& fieldB u) := by
  have h := masked_eq_wordC op (w &&& u)
  rw [BitVec.and_assoc, hu] at h
  rw [h]
  simp [fieldCd, fieldCs, fieldCt, fieldBit, fieldA, fieldB, BitVec.extractLsb'_and]

/-- The instruction a row builds is encoded by the row's opcode over the bits the row uses (R92). -/
theorem encode_build {r : CommandRow} (hr : r ∈ commandRows) (w : Word32) :
    encode (r.build w) = .command (w &&& r.uses ||| r.pattern) := by
  revert r
  simp only [commandRows, systemRows, frequencyRows, queueRows, treeRows, codeRows, codeTableRows, codecRows,
    List.forall_mem_append, List.forall_mem_cons, CommandRow.pattern, encode, masked_eq_wordZ, masked_eq_wordB,
    masked_eq_wordN, masked_eq_wordNN, masked_eq_wordM,
    List.not_mem_nil, IsEmpty.forall_iff, implies_true, and_true, true_and, Encoded.command.injEq]
  have reg (x : CodeReg) : x &&& 3#2 = x := BitVec.and_allOnes
  have byte (x : Byte) : x &&& 255#8 = x := BitVec.and_allOnes
  and_intros <;>
  · rw [masked_eq_wordC_of_subset _ w (by decide)]
    simp [fieldCd, fieldCs, fieldCt, fieldBit, fieldA, fieldB, usesCd, usesCs, usesCt, usesBit, usesA, usesAB, reg,
      byte]

/-- The bits a row uses and the bits it leaves unused are all the bits of a word. -/
theorem and_uses_or_and_mask (w : Word32) (r : CommandRow) : w &&& r.uses ||| w &&& r.mask = w := by
  rw [CommandRow.mask, ← BitVec.and_or_distrib_left, BitVec.or_not_self, BitVec.and_allOnes]

/-- A word a row accepts is the encoding of the instruction the row gives. -/
theorem encode_of_decodeCommand {w : Word32} {i : Instr} (h : decodeCommand w = .ok i) : encode i = .command w := by
  obtain ⟨r, hr, hmask, rfl⟩ := decodeCommand_eq_ok.1 h
  rw [encode_build (List.mem_of_find?_eq_some hr), ← hmask, and_uses_or_and_mask]

/-- The row of a command's opcode gives the command back. -/
theorem row_of_encode_command {i : Instr} {w : Word32} (h : encode i = .command w) :
    ∃ r, rowOf (opcodeOf w) = some r ∧ r.build w = i := by
  have row {op : Byte} {r : CommandRow} (ho : opcodeOf w = op) (hr : rowOf op = some r) (hb : r.build w = i) :
      ∃ r, rowOf (opcodeOf w) = some r ∧ r.build w = i := ⟨r, by rw [ho, hr], hb⟩
  cases i with
  | streamEmpty => cases h
  | streamDegen count value => cases h
  | streamGeneral total counts => cases h
  | nop | rst | ftClr | ftOcc | ftScan | pqClr | pqDeq | pqPeek | pqLen | trClr | trBuild | trRoot | ctClr | cgRun
  | encHdr | encFlush | encBody | encRun | decHdr | decBit | decSym | decBody | decRun =>
    cases h
    exact row (opcodeOf_wordZ _) rfl rfl
  | rew src snk =>
    cases h
    exact row (opcodeOf_wordM _ _ _) rfl (by simp)
  | ftInc v | ftSet v | ftCnt v | trLeaf v | encPut v =>
    cases h
    exact row (opcodeOf_wordB _ _) rfl (by simp)
  | pqEnq n | trSetroot n | trIsleaf n | trValue n | trLeft n | trRight n | trWeight n | trHeight n =>
    cases h
    exact row (opcodeOf_wordN _ _) rfl (by simp)
  | trMerge n1 n2 | trEq n1 n2 =>
    cases h
    exact row (opcodeOf_wordNN _ _ _) rfl (by simp)
  | bcNew cd bit | bcPush cd bit | bcLen cs | bcGet cs a | bcSlice cd cs a b | bcSet cd a bit | bcSplice cd cs a b
  | bcIns cd a bit | bcDel cd a b | bcCat cd cs ct | bcEq cs ct | ctSt a cs | ctLd cd a =>
    cases h
    exact row (opcodeOf_wordC _ _ _ _ _ _ _) rfl (by simp)

/-- A pattern has no bit its row uses. -/
theorem pattern_and_mask {r : CommandRow} (hr : r ∈ commandRows) : r.pattern &&& r.mask = r.pattern := by
  revert r
  decide

/-- A command's word is decoded to it: by `encode_build` the word has no bit its row leaves unused. -/
theorem decodeCommand_of_encode {i : Instr} {w : Word32} (h : encode i = .command w) : decodeCommand w = .ok i := by
  obtain ⟨r, hr, rfl⟩ := row_of_encode_command h
  have hmem : r ∈ commandRows := List.mem_of_find?_eq_some hr
  have hw : w &&& r.uses ||| r.pattern = w := Encoded.command.inj ((encode_build hmem w).symm.trans h)
  have hused : r.uses &&& r.mask = 0#32 := BitVec.and_not_self _
  refine decodeCommand_eq_ok.2 ⟨r, hr, ?_, rfl⟩
  calc w &&& r.mask = (w &&& r.uses ||| r.pattern) &&& r.mask := by rw [hw]
    _ = w &&& (r.uses &&& r.mask) ||| r.pattern &&& r.mask := by rw [BitVec.and_or_distrib_right, BitVec.and_assoc]
    _ = r.pattern := by rw [hused, pattern_and_mask hmem, BitVec.and_zero, BitVec.zero_or]

/-! ### Records (R95) -/

/-- The counts a record's bytes hold are those whose bytes stand there. -/
theorem eq_of_takeCounts {k : Nat} {bs rest : List Byte} {counts : List Word32}
    (h : takeCounts k bs = some (counts, rest)) : counts.length = k ∧ bs = counts.flatMap be32 ++ rest := by
  induction k generalizing bs counts with
  | zero => cases h; exact ⟨rfl, rfl⟩
  | succ k ih =>
    match bs, h with
    | b0 :: b1 :: b2 :: b3 :: bs, h =>
      simp only [takeCounts] at h
      split at h
      · next cs rest' hcs =>
        cases h
        obtain ⟨hlen, hbs⟩ := ih hcs
        exact ⟨by simp [hlen], by simp [be32_unbe32, hbs]⟩
      · cases h

theorem decodeRecord_of_encode {i : Instr} {bytes : List Byte} (h : encode i = .record bytes) (hi : i.wf = true)
    (rest : List Byte) : decodeRecord (bytes ++ rest) = .ok (i, rest) := by
  cases i with
  | streamEmpty => cases h; rfl
  | streamDegen count value =>
    cases h
    simp [recordBytes, be32, decodeRecord, decodeOperands, unbe32_be32]
  | streamGeneral total counts =>
    cases h
    have hlen : counts.length = 256 := by simpa [Instr.wf] using hi
    have hcounts := takeCounts_flatMap counts rest
    rw [hlen] at hcounts
    simp [recordBytes, be32, decodeRecord, decodeOperands, unbe32_be32, hcounts]
  | _ => cases h

/-- The operands after a file_type byte are those of one record, and the rest follows them. -/
theorem encode_of_decodeOperands {t : Byte} {bs rest : List Byte} {i : Instr}
    (h : decodeOperands t bs = .ok (i, rest)) :
    ∃ operands, encode i = .record (recordBytes t operands) ∧ bs = operands ++ rest ∧ i.wf = true := by
  unfold decodeOperands at h
  split at h
  case isTrue ht =>
    cases h
    exact ⟨[], by rw [ht]; rfl, rfl, rfl⟩
  split at h
  case isTrue ht =>
    split at h
    · next b0 b1 b2 b3 p rest =>
      cases h
      exact ⟨_, by rw [ht]; rfl, by simp [be32_unbe32], rfl⟩
    · cases h
  split at h
  case isTrue ht =>
    split at h
    · next b0 b1 b2 b3 bs =>
      split at h
      · next counts rest hcounts =>
        cases h
        obtain ⟨hlen, rfl⟩ := eq_of_takeCounts hcounts
        exact ⟨_, by rw [ht]; rfl, by simp [be32_unbe32], by simp [Instr.wf, hlen]⟩
      · cases h
    · cases h
  · cases h

theorem encode_of_decodeRecord {bytes rest : List Byte} {i : Instr} (h : decodeRecord bytes = .ok (i, rest)) :
    ∃ front, encode i = .record front ∧ bytes = front ++ rest ∧ i.wf = true := by
  unfold decodeRecord at h
  split at h
  · next m0 m1 bs =>
    split at h
    case isTrue hm =>
      obtain ⟨rfl, rfl⟩ := hm
      split at h
      · cases h
      · next t bs =>
        obtain ⟨operands, he, rfl, hi⟩ := encode_of_decodeOperands h
        exact ⟨_, he, rfl, hi⟩
    · cases h
  · cases h

end Sys2Proof

namespace Sys2Proof.Machine

/-- Settles O45: a command by the row of its opcode, a record by its fields. -/
theorem decodeInvertsEncode : Obligations.DecodeInvertsEncode := by
  unfold Obligations.DecodeInvertsEncode
  refine ⟨fun i hi => ?_, fun i bytes rest hi h => decodeRecord_of_encode h hi rest⟩
  cases h : encode i with
  | command w => exact decodeCommand_of_encode h
  | record bytes =>
    have hrec := decodeRecord_of_encode h hi []
    rw [List.append_nil] at hrec
    simp [decode, hrec, Except.map]

/-- Settles O46: a command by its row, which determines every bit of the word; a record by its fields. -/
theorem encodeInvertsDecode : Obligations.EncodeInvertsDecode := by
  unfold Obligations.EncodeInvertsDecode
  exact ⟨fun w i => encode_of_decodeCommand, fun bytes rest i => encode_of_decodeRecord⟩

/-- Settles O4: the decoder rejects a word that encodes no instruction. -/
theorem illegalWordsOnlyReport : Obligations.IllegalWordsOnlyReport := by
  unfold Obligations.IllegalWordsOnlyReport
  intro s w rest hhost hw
  cases hd : decodeCommand w with
  | ok i => exact absurd (encode_of_decodeCommand hd) (hw i)
  | error e => exact step_illegal hhost (writeCommand_commandWord w) hd

/-- Settles O47, by evaluating the decoder on each word. -/
theorem sampleWordsDecodeAsWritten : Obligations.SampleWordsDecodeAsWritten := by
  unfold Obligations.SampleWordsDecodeAsWritten
  decide

/-! ### What a body can raise

`r.Raises P`: where the body raises, it raises a kind of which `P` holds. -/

def Res.Raises (P : Err → Prop) : Res → Prop
  | .done _ => True
  | .raised k _ _ => P k
  | .stopped _ => True

/-- What `raise` may put in `STATUS.ERR`: every kind but 0, no error, and the one no rule raises (R230, R240). -/
abbrev Err.IsError (k : Err) : Prop := k ≠ .ok ∧ k ≠ .nonComparable

section
variable {P : Err → Prop} {s : State}

theorem Res.Raises.andThen {r : Res} {f : State → Res} (h : r.Raises P) (hf : ∀ t, (f t).Raises P) :
    (r.andThen f).Raises P := by
  cases r with
  | done t => exact hf t
  | raised k info t => exact h
  | stopped g => trivial

theorem raised_raises {k : Err} {info : Word64} (hk : P k) : (Res.raised k info s).Raises P := hk

theorem guard_raises {failed : Prop} [Decidable failed] {k : Err} {info : Word64} {r : Res} (hk : P k)
    (h : r.Raises P) : (if failed then raise k info s else r).Raises P := by
  split
  · exact hk
  · exact h

theorem withNode_raises {n : NodeIx} {k : Node → Res} (hbad : P .badNode) (hk : ∀ nd, (k nd).Raises P) :
    (withNode n s k).Raises P := by
  unfold withNode
  split
  · exact hbad
  · exact hk _

theorem withBytes_raises {n : Nat} {k : List Byte → State → Res} (hunder : P .streamUnderrun)
    (hk : ∀ bs t, (k bs t).Raises P) : (withBytes n s k).Raises P := by
  unfold withBytes
  split
  · exact hunder
  · split
    · trivial
    · exact hk _ _

theorem withByte_raises {k : Byte → State → Res} (hunder : P .streamUnderrun) (hk : ∀ b t, (k b t).Raises P) :
    (withByte s k).Raises P := by
  refine withBytes_raises hunder fun bs t => ?_
  split
  · exact hk _ _
  · trivial

theorem dequeue_raises {k : NodeIx → State → Res} (hempty : P .emptyQueue) (hk : ∀ n t, (k n t).Raises P) :
    (dequeue s k).Raises P := by
  unfold dequeue
  split
  · exact hempty
  · exact hk _ _

end

section
variable (s : State)

theorem enqueue_raises (n : NodeIx) : (enqueue n s).Raises Err.IsError := by
  unfold enqueue
  split
  · exact raised_raises (by decide)
  · refine guard_raises (by decide) ?_
    split
    · trivial
    · exact raised_raises (by decide)

theorem buildLeaves_raises (vs : List Byte) : (buildLeaves vs s).Raises Err.IsError := by
  induction vs generalizing s with
  | nil => trivial
  | cons v vs ih =>
    unfold buildLeaves
    split
    · exact ih s
    · exact (enqueue_raises _ _).andThen ih

theorem mergeStep_raises : (mergeStep s).Raises Err.IsError :=
  dequeue_raises (by decide) fun _ _ => dequeue_raises (by decide) fun _ _ =>
    guard_raises (by decide) <| withNode_raises (by decide) fun _ =>
      withNode_raises (by decide) fun _ => enqueue_raises _ _

theorem mergeLoop_raises (k : Nat) : (mergeLoop k s).Raises Err.IsError := by
  induction k generalizing s with
  | zero => trivial
  | succ k ih =>
    unfold mergeLoop
    split
    · exact (mergeStep_raises s).andThen ih
    · trivial

theorem buildBody_raises : (buildBody s).Raises Err.IsError :=
  (buildLeaves_raises _ _).andThen fun t => guard_raises (by decide) <|
    (mergeLoop_raises t _).andThen fun _ => dequeue_raises (by decide) fun _ _ => trivial

theorem rebuildTree_raises : (rebuildTree s).Raises Err.IsError := by
  unfold rebuildTree
  split
  · exact buildBody_raises s
  · trivial

theorem arrive_raises (c : NodeIx) (s₀ : State) : (arrive c s₀ s).Raises Err.IsError :=
  withNode_raises (by decide) fun nd => by split <;> trivial

theorem bitBody_raises : (bitBody s).Raises Err.IsError := by
  refine guard_raises (by decide) (withNode_raises (by decide) fun nd => ?_)
  split
  · exact raised_raises (by decide)
  · unfold withDescentByte
    split
    · exact withByte_raises (by decide) fun _ _ => arrive_raises _ _ _
    · exact arrive_raises _ _ _

theorem symbolLoop_raises (k : Nat) : (symbolLoop k s).Raises Err.IsError := by
  induction k generalizing s with
  | zero => trivial
  | succ k ih =>
    refine (bitBody_raises s).andThen fun t => ?_
    split
    · trivial
    · exact ih t

theorem symbolsLoop_raises (k : Nat) : (symbolsLoop k s).Raises Err.IsError := by
  induction k generalizing s with
  | zero => trivial
  | succ k ih => exact (symbolLoop_raises s _).andThen ih

theorem decodeBody_raises : (decodeBody s).Raises Err.IsError := by
  refine guard_raises (by decide) ?_
  unfold bodyOfType
  split
  · trivial
  split
  · trivial
  split
  · exact guard_raises (by decide) (symbolsLoop_raises s _)
  · trivial

theorem runRecord_raises : (runRecord s).Raises Err.IsError :=
  (rebuildTree_raises s.complete).andThen fun _ => decodeBody_raises _

end

/-- A pass goes on from a whole command exactly when the command did not raise (R235). -/
theorem finish_thenCommand {r : Res} (hr : r.Raises Err.IsError) (f : State → Res) :
    (r.thenCommand f).finish = thenOk r.finish fun t => (f t).finish := by
  cases r with
  | done t => rfl
  | raised k info t => exact (thenOk_failed hr.1 _).symm
  | stopped g => rfl

/-- `DEC.RUN`'s last step: `RES0 <- SNK_POS` unless a step before it failed (R212, R235). -/
def producedToRes0 (o : Host.Outcome State Fault Refusal) : Host.Outcome State Fault Refusal :=
  thenOk o fun t => .next { t with res0 := BitVec.ofNat 64 t.snkPos }

theorem finish_andThen_result {r : Res} (hr : r.Raises Err.IsError) :
    (r.andThen fun t => result (BitVec.ofNat 64 t.snkPos) t).finish = producedToRes0 r.finish := by
  cases r with
  | done t => rfl
  | raised k info t => exact (thenOk_failed hr.1 _).symm
  | stopped g => rfl

/-! ### From the source's bytes to a record's header (R205) -/

/-- The state in which a record's tree and body run: the header registers hold its operands, its bytes are passed. -/
def recordHeader (s : State) : Instr → State
  | .streamEmpty => takeRecord 3 0#8 0#32 0#32 0#8 s
  | .streamDegen count value => takeRecord 8 1#8 0#32 count value s
  | .streamGeneral total counts => takeRecord 1031 2#8 total 0#32 0#8 (putCounts allBytes counts s)
  | _ => s

theorem exec_eq_runRecord {i : Instr} {bytes : List Byte} (h : encode i = .record bytes) (s : State) :
    exec i s = (runRecord (recordHeader s i)).finish := by
  cases i with
  | streamEmpty | streamDegen count value | streamGeneral total counts => rfl
  | _ => cases h

/-- The state with the next `n` bytes of the source passed. -/
def State.passed (n : Nat) (s : State) : State := { s with srcPos := s.srcPos + n }

theorem State.passed_passed (m n : Nat) (s : State) : (s.passed m).passed n = s.passed (m + n) := by
  simp [State.passed, Nat.add_assoc]

theorem State.unread_passed_eq_drop (n : Nat) (s : State) : (s.passed n).unread = s.unread.drop n := by
  simp [State.passed, State.unread, State.srcLeft, List.drop_take, Nat.sub_sub]

theorem State.unread_passed {s : State} {front rest : List Byte} {n : Nat} (h : s.unread = front ++ rest)
    (hn : front.length = n) : (s.passed n).unread = rest := by
  rw [State.unread_passed_eq_drop, h, ← hn, List.drop_left]

theorem State.unread_length_le (s : State) : s.unread.length ≤ s.srcLeft := by
  simp [State.unread]

section
variable {s : State} {front rest : List Byte}

theorem srcRun_of_unread (h : s.unread = front ++ rest) : s.srcRun front.length = some front := by
  have hle : front.length ≤ s.srcLeft := by
    have := s.unread_length_le
    rw [h, List.length_append] at this
    omega
  have htake : (s.src.drop s.srcPos).take front.length = front := by
    have := congrArg (List.take front.length) h
    rwa [State.unread, List.take_take, Nat.min_eq_left hle, List.take_left] at this
  simp [State.srcRun, htake]

theorem withBytes_of_unread (h : s.unread = front ++ rest) (k : List Byte → State → Res) :
    withBytes front.length s k = k front (s.passed front.length) := by
  have hle := s.unread_length_le
  rw [h, List.length_append] at hle
  rw [withBytes, if_neg (by omega), srcRun_of_unread h]
  rfl

theorem withByte_of_unread {b : Byte} (h : s.unread = b :: rest) (k : Byte → State → Res) :
    withByte s k = k b (s.passed 1) :=
  withBytes_of_unread (front := [b]) h _

theorem withField_of_unread {x : Word32} (h : s.unread = be32 x ++ rest) (k : Word32 → State → Res) :
    withField s k = k x (s.passed 4) := by
  refine (withBytes_of_unread (front := be32 x) h _).trans ?_
  simp only [be32, unbe32_be32, List.length_cons, List.length_nil]

theorem withMagic_of_unread (h : s.unread = magic0 :: magic1 :: rest) (k : State → Res) :
    withMagic s k = k (s.passed 2) := by
  have hle := s.unread_length_le
  rw [h] at hle
  have havail : min 2 s.srcLeft = 2 := by simp at hle; omega
  have hrun : s.srcRun 2 = some [magic0, magic1] := srcRun_of_unread (front := [magic0, magic1]) h
  simp [withMagic, havail, hrun, State.passed]

end

/-! ### Writing all counts of a general record -/

@[simp] theorem allBytes_length : allBytes.length = 256 := by simp [allBytes]

theorem allBytes_nodup : allBytes.Nodup := by
  refine List.Nodup.map_on (fun a ha b hb h => ?_) List.nodup_range
  have := congrArg BitVec.toNat h
  simp only [List.mem_range, BitVec.toNat_ofNat] at *
  omega

section
variable (s : State)

theorem putCounts_frame (vs : List Byte) (ns : List Word32) :
    putCounts vs ns s = { s with ft := (putCounts vs ns s).ft } := by
  induction vs generalizing s ns with
  | nil => rfl
  | cons v vs ih =>
    cases ns with
    | nil => rfl
    | cons n ns => exact ih (s.setCount v n) ns

theorem count_putCounts_of_not_mem {v : Byte} {vs : List Byte} (hv : v ∉ vs) (ns : List Word32) :
    (putCounts vs ns s).count v = s.count v := by
  induction vs generalizing s ns with
  | nil => rfl
  | cons u vs ih =>
    have hne : v ≠ u := fun h => hv (by simp [h])
    have hvs : v ∉ vs := fun h => hv (by simp [h])
    cases ns with
    | nil => rfl
    | cons n ns => exact (ih _ hvs ns).trans (State.count_setCount_other s n hne)

theorem count_putCounts_of_mem_zip {v : Byte} {n : Word32} {vs : List Byte} {ns : List Word32} (hvs : vs.Nodup)
    (h : (v, n) ∈ vs.zip ns) : (putCounts vs ns s).count v = n := by
  induction vs generalizing s ns with
  | nil => cases h
  | cons u vs ih =>
    obtain ⟨hu, hvs⟩ := List.nodup_cons.1 hvs
    cases ns with
    | nil => cases h
    | cons m ns =>
      rcases List.mem_cons.1 h with heq | hmem
      · cases heq
        exact (count_putCounts_of_not_mem _ hu ns).trans (State.count_setCount_same s v n)
      · exact ih _ hvs hmem

theorem mem_zip_allBytes {α : Type} (t : Vector α 256) (v : Byte) : (v, tableGet t v) ∈ allBytes.zip t.toList := by
  refine List.mem_iff_getElem.2 ⟨v.toNat, by simpa using v.isLt, ?_⟩
  simp [allBytes, tableGet]

/-- Writing 256 counts makes them the table. -/
theorem putCounts_allBytes (ft : FreqTable) : putCounts allBytes ft.toList s = { s with ft := ft } := by
  have hft : (putCounts allBytes ft.toList s).ft = ft :=
    table_ext fun v => count_putCounts_of_mem_zip s allBytes_nodup (mem_zip_allBytes ft v)
  rw [putCounts_frame, hft]

theorem loadCounts_of_unread {vs : List Byte} {ns : List Word32} {rest : List Byte} (hlen : ns.length = vs.length)
    (h : s.unread = ns.flatMap be32 ++ rest) :
    loadCounts vs s = .done (putCounts vs ns (s.passed (4 * vs.length))) := by
  induction vs generalizing s ns with
  | nil =>
    cases ns with
    | nil => rfl
    | cons n ns => cases hlen
  | cons v vs ih =>
    cases ns with
    | nil => cases hlen
    | cons n ns =>
      rw [List.flatMap_cons, List.append_assoc] at h
      have hpos : s.passed (4 * (v :: vs).length) = (s.passed 4).passed (4 * vs.length) := by
        rw [State.passed_passed, List.length_cons]
        congr 1
        omega
      rw [loadCounts, withField_of_unread h, hpos]
      exact ih _ (by simpa using hlen) (State.unread_passed h rfl)

/-- The header reader's loop over the counts makes them the table. -/
theorem loadCounts_allBytes {ft : FreqTable} {rest : List Byte} (h : s.unread = ft.toList.flatMap be32 ++ rest) :
    loadCounts allBytes s = .done { s.passed 1024 with ft := ft } := by
  rw [loadCounts_of_unread s (by simp) h, allBytes_length, putCounts_allBytes]

end

theorem exists_table_of_length {counts : List Word32} (h : counts.length = 256) :
    ∃ ft : FreqTable, ft.toList = counts :=
  ⟨⟨counts.toArray, by simpa using h⟩, by simp⟩

/-- `DEC.HDR` on a whole record leaves the state in which the record runs (R95, R205). -/
theorem decodeHeader_of_decodeRecord {s : State} {i : Instr} {rest : List Byte}
    (h : decodeRecord s.unread = .ok (i, rest)) : decodeHeader s = .done (recordHeader s i) := by
  obtain ⟨front, he, hun, hwf⟩ := encode_of_decodeRecord h
  unfold decodeHeader
  cases i with
  | streamEmpty =>
    cases he
    have h0 : (beginDecode s).unread = [magic0, magic1] ++ 0#8 :: rest := hun
    have h2 := State.unread_passed h0 (n := 2) rfl
    rw [withMagic_of_unread h0, withByte_of_unread h2]
    rfl
  | streamDegen count value =>
    cases he
    have h0 : (beginDecode s).unread = [magic0, magic1] ++ ([1#8] ++ (be32 count ++ value :: rest)) :=
      Eq.trans hun (by simp [recordBytes])
    have h2 := State.unread_passed h0 (n := 2) rfl
    have h3 := State.unread_passed h2 (n := 1) rfl
    have h7 := State.unread_passed h3 (n := 4) rfl
    rw [withMagic_of_unread h0, withByte_of_unread h2, if_neg (by decide), if_pos rfl, withField_of_unread h3,
      withByte_of_unread h7]
    rfl
  | streamGeneral total counts =>
    cases he
    obtain ⟨ft, rfl⟩ := exists_table_of_length (by simpa [Instr.wf] using hwf)
    have h0 : (beginDecode s).unread =
        [magic0, magic1] ++ ([2#8] ++ (be32 total ++ (ft.toList.flatMap be32 ++ rest))) :=
      Eq.trans hun (by simp [recordBytes])
    have h2 := State.unread_passed h0 (n := 2) rfl
    have h3 := State.unread_passed h2 (n := 1) rfl
    have h7 := State.unread_passed h3 (n := 4) rfl
    rw [withMagic_of_unread h0, withByte_of_unread h2, if_neg (by decide), if_neg (by decide), if_pos rfl,
      withField_of_unread h3, loadCounts_allBytes _ h7, recordHeader, putCounts_allBytes]
    rfl
  | _ => cases he

/-! ### `DEC.RUN` and the record -/

theorem State.unread_rewound (s : State) : (rewind true true s).unread = s.src.take s.srcLen.toNat := by
  simp [State.unread, State.srcLeft, rewind, State.rewindSrc, State.rewindSnk]

/-- On a source that begins with a record, `DEC.RUN` runs that record and reports how many bytes were produced. -/
theorem exec_decRun_of_decodeRecord {s : State} {i : Instr} {rest : List Byte}
    (h : decodeRecord (s.src.take s.srcLen.toNat) = .ok (i, rest)) :
    exec .decRun s = producedToRes0 (exec i { s with srcPos := 0, snkPos := 0 }) := by
  obtain ⟨front, he, -, -⟩ := encode_of_decodeRecord h
  rw [← State.unread_rewound] at h
  have hpass : decodePass s =
      (runRecord (recordHeader (rewind true true s) i)).andThen fun t => result (BitVec.ofNat 64 t.snkPos) t := by
    rw [decodePass, decodeHeader_of_decodeRecord h, runRecord]
    simp only [Res.thenCommand, Res.andThen_assoc]
  calc exec .decRun s = (decodePass s).finish := rfl
    _ = producedToRes0 (runRecord (recordHeader (rewind true true s) i)).finish := by
      rw [hpass, finish_andThen_result (runRecord_raises _)]
    _ = producedToRes0 (exec i { s with srcPos := 0, snkPos := 0 }) := by rw [exec_eq_runRecord he]; rfl

/-- Settles O40: the header reader leaves the state in which the record runs, and the passes go on alike from there. -/
theorem decompressRunsTheRecord : Obligations.DecompressRunsTheRecord := by
  unfold Obligations.DecompressRunsTheRecord
  intro s i rest _ h
  rw [exec_decRun_of_decodeRecord h]
  cases exec i { s with srcPos := 0, snkPos := 0 } <;> rfl

/-! ### The small records -/

theorem sinkFill_eq (b : Byte) (n : Nat) (s : State) : sinkFill b n s = s.sinkWrites (List.replicate n b) := by
  induction n generalizing s with
  | zero => rfl
  | succ n ih => exact ih _

/-- The degenerate body writes the run and the extra newline byte (R206). -/
theorem degenerateBody_eq (s : State) :
    degenerateBody s = s.sinkWrites (List.replicate s.dgCount.toNat s.dgValue ++ [0x0A#8]) := by
  rw [degenerateBody, sinkFill_eq, State.sinkWrites, State.sinkWrites, List.foldl_append]
  rfl

theorem runRecord_of_fileType_ne {s : State} (h : s.fileType ≠ 2#8) :
    runRecord s = decodeBody s.complete.complete := by
  simp [runRecord, rebuildTree_of_fileType_ne (s := s.complete) h]

theorem exec_streamEmpty (s : State) : exec .streamEmpty s = .next { s with
    srcPos := s.srcPos + 3, fileType := 0, totalLen := 0, dgCount := 0, dgValue := 0, hdrValid := true,
    bitPos := 0, curValid := false, emitted := 0, res0 := 0, err := .ok } := by
  rw [exec_eq_runRecord rfl, runRecord_of_fileType_ne (by simp [recordHeader, takeRecord])]
  rfl

theorem exec_streamDegen (n : Word32) (p : Byte) (s : State) : exec (.streamDegen n p) s =
    .next ((takeRecord 8 1#8 0#32 n p s).complete.sinkWrites (List.replicate n.toNat p ++ [0x0A#8])).complete := by
  rw [exec_eq_runRecord rfl, runRecord_of_fileType_ne (by simp [recordHeader, takeRecord])]
  exact congrArg (fun t => (Res.done t).finish) (degenerateBody_eq (takeRecord 8 1#8 0#32 n p s).complete)

/-- What was written from position 0 on is the produced output (R74). -/
theorem Appended.produced {s t : State} {bs : List Byte} (h : Appended s t bs) (hs : s.snkPos = 0) :
    Produced t bs ∧ t.snkPos = bs.length := by
  obtain ⟨hpos, hin, -⟩ := h
  rw [hs, Nat.zero_add] at hpos
  refine ⟨List.ext_getElem (by simp [State.output, hpos]) fun k hk _ => ?_, hpos⟩
  have hk : k < bs.length := by simpa [State.output, hpos] using hk
  have hread := hin k bs[k] (by simp [hk])
  simpa [State.output, hs] using hread

/-- `DEC.RUN` on a source that begins with a record which completes. -/
theorem decRun_produces {s t : State} {i : Instr} {bytes rest : List Byte}
    (hdec : decodeRecord (s.src.take s.srcLen.toNat) = .ok (i, rest))
    (hrun : exec i { s with srcPos := 0, snkPos := 0 } = .next t) (herr : t.err = .ok)
    (happ : Appended { s with srcPos := 0, snkPos := 0 } t bytes) :
    ∃ t, exec .decRun s = .next t ∧ t.err = .ok ∧ Produced t bytes ∧ t.res0 = BitVec.ofNat 64 bytes.length := by
  obtain ⟨hprod, hpos⟩ := happ.produced rfl
  refine ⟨{ t with res0 := BitVec.ofNat 64 t.snkPos }, ?_, herr, hprod, congrArg (BitVec.ofNat 64) hpos⟩
  rw [exec_decRun_of_decodeRecord hdec, hrun]
  exact thenOk_next herr _

theorem streamDegen_completes (n : Word32) (p : Byte) (s : State) : ∃ t, exec (.streamDegen n p) s = .next t ∧
    Appended s t (List.replicate n.toNat p ++ [0x0A#8]) ∧ t = { s with
      srcPos := s.srcPos + 8, snk := t.snk, snkPos := t.snkPos, fileType := 1, totalLen := 0, dgCount := n,
      dgValue := p, hdrValid := true, bitPos := 0, curValid := false, emitted := 0, res0 := 1, err := .ok } := by
  refine ⟨_, exec_streamDegen n p s, State.sinkWrites_appended (takeRecord 8 1#8 0#32 n p s).complete _, ?_⟩
  rw [State.sinkWrites_frame]
  rfl

/-- Settles O41: a record that is no general one runs its body at once; `DEC.RUN` runs the record. -/
theorem smallRecordsComplete : Obligations.SmallRecordsComplete := by
  unfold Obligations.SmallRecordsComplete
  refine ⟨fun s => ⟨_, exec_streamEmpty s, rfl⟩, fun s n p => streamDegen_completes n p s, fun s i rest _ hdec => ?_⟩
  refine ⟨?empty, ?degenerate⟩
  case empty =>
    rintro rfl
    exact decRun_produces hdec (exec_streamEmpty _) rfl ⟨rfl, by simp, fun a _ => rfl⟩
  case degenerate =>
    rintro n p rfl
    obtain ⟨t, hrun, happ, ht⟩ := streamDegen_completes n p { s with srcPos := 0, snkPos := 0 }
    obtain ⟨u, hu, herr, hprod, hres⟩ := decRun_produces hdec hrun (by rw [ht]) happ
    refine ⟨u, hu, herr, hprod, ?_⟩
    rw [hres]
    simp
    omega

/-! ### Trees while the node store grows -/

/-- Every node of `s` is a node of `t` with the same body; it may have become owned (R28). -/
def StoreGrows (s t : State) : Prop :=
  ∀ (n : NodeIx) (o : Bool) (b : NodeBody), s.node? n = some ⟨o, b⟩ → ∃ o', t.node? n = some ⟨o', b⟩

section
variable {s t u : State} {n : NodeIx} {T : TreeVal}

theorem StoreGrows.of_nm_eq (h : t.nm = s.nm) : StoreGrows s t := fun n o b hn =>
  ⟨o, by rw [← hn, State.node?, State.node?, h]⟩

theorem StoreGrows.trans (h : StoreGrows s t) (h' : StoreGrows t u) : StoreGrows s u := fun n o b hn => by
  obtain ⟨o', hn'⟩ := h n o b hn
  exact h' n o' b hn'

theorem storeGrows_pushNode (s : State) (b : NodeBody) : StoreGrows s (s.pushNode b) := fun _ o _ hn =>
  ⟨o, State.node?_pushNode_old hn⟩

theorem storeGrows_setOwned (h : t.nm = setOwned s.nm n) : StoreGrows s t := fun m o b hm => by
  obtain ⟨hlt, hget⟩ := State.node?_eq_some_iff.1 hm
  refine ⟨if m.toNat = n.toNat then true else o, State.node?_eq_some_iff.2 ⟨hlt, ?_⟩⟩
  rw [h, getElem?_setOwned, hget]
  split <;> rfl

theorem TreeIs.mono (h : StoreGrows s t) (ht : TreeIs s n T) : TreeIs t n T := by
  induction ht with
  | leaf hn =>
    obtain ⟨o', hn'⟩ := h _ _ _ hn
    exact .leaf hn'
  | node hn _ _ ihl ihr =>
    obtain ⟨o', hn'⟩ := h _ _ _ hn
    exact .node hn' ihl ihr

/-- A tree is a matter of the node store alone. -/
theorem TreeIs.of_nm_eq (ht : TreeIs s n T) (h : t.nm = s.nm) : TreeIs t n T := ht.mono (.of_nm_eq h)

theorem TreeIs.exists_node (ht : TreeIs s n T) : ∃ nd, s.node? n = some nd := by
  cases ht with
  | leaf hn => exact ⟨_, hn⟩
  | node hn _ _ => exact ⟨_, hn⟩

theorem State.weightOf_eq {nd : Node} (h : s.node? n = some nd) : s.weightOf n = nd.body.weight.toNat := by
  simp [State.weightOf, h]

end

/-! ### The queue of the arena and the queue of weighted trees (R131, R146) -/

/-- The index stands for the weighted tree. -/
def Holds (s : State) (n : NodeIx) (x : Nat × TreeVal) : Prop := TreeIs s n x.2 ∧ s.weightOf n = x.1

section
variable {s t : State} {n : NodeIx} {x : Nat × TreeVal} {q : List NodeIx} {Q : List (Nat × TreeVal)}

theorem Holds.mono (hg : StoreGrows s t) (h : Holds s n x) : Holds t n x := by
  obtain ⟨ht, hw⟩ := h
  obtain ⟨⟨o, b⟩, hn⟩ := ht.exists_node
  obtain ⟨o', hn'⟩ := hg n o b hn
  exact ⟨ht.mono hg, by rw [State.weightOf_eq hn', ← hw, State.weightOf_eq hn]⟩

theorem holds_mono (hg : StoreGrows s t) (h : List.Forall₂ (Holds s) q Q) : List.Forall₂ (Holds t) q Q :=
  h.imp fun _ _ => Holds.mono hg

theorem insertTree_perm (x : Nat × TreeVal) (Q : List (Nat × TreeVal)) : (insertTree x Q).Perm (x :: Q) := by
  induction Q with
  | nil => exact .refl _
  | cons y Q ih =>
    unfold insertTree
    split
    · exact .refl _
    · exact (ih.cons y).trans (.swap x y Q)

/-- The scan of R131 puts an index where the insertion of weighted trees puts its tree. -/
theorem insertByWeight_holds {w : Word64} (hq : List.Forall₂ (Holds s) q Q) (hn : Holds s n x) (hw : w.toNat = x.1) :
    ∃ l, insertByWeight s w n q = .ok l ∧ List.Forall₂ (Holds s) l (insertTree x Q) ∧ l.Perm (n :: q) := by
  induction hq with
  | nil => exact ⟨[n], rfl, .cons hn .nil, .refl _⟩
  | @cons m y q Q hm hq ih =>
    obtain ⟨nd, hnd⟩ := hm.1.exists_node
    have hy : nd.body.weight.toNat = y.1 := by rw [← State.weightOf_eq hnd, hm.2]
    have hgt : nd.body.weight > w ↔ y.1 > x.1 := by rw [← hy, ← hw]; exact BitVec.lt_def
    simp only [insertByWeight, hnd, insertTree]
    by_cases h : y.1 > x.1
    · rw [if_pos (hgt.2 h), if_pos h]
      exact ⟨_, rfl, .cons hn (.cons hm hq), .refl _⟩
    · obtain ⟨l, hl, hQ, hperm⟩ := ih
      rw [if_neg (mt hgt.1 h), if_neg h, hl]
      exact ⟨m :: l, rfl, .cons hm hQ, (hperm.cons m).trans (.swap n m q)⟩

theorem toNat_nextIx (h : s.nm.length < 511) : s.nextIx.toNat = s.nm.length := by
  simp [State.nextIx]
  omega

/-- Every queued index stands for a tree. -/
theorem exists_holds {m : NodeIx} (hq : List.Forall₂ (Holds s) q Q) (hm : m ∈ q) : ∃ x, Holds s m x := by
  induction hq with
  | nil => cases hm
  | cons hx _ ih =>
    rcases List.mem_cons.1 hm with rfl | hm
    · exact ⟨_, hx⟩
    · exact ih hm

theorem nextIx_not_mem (hnm : s.nm.length < 511) (hq : List.Forall₂ (Holds s) s.pq Q) : s.nextIx ∉ s.pq := by
  intro hmem
  obtain ⟨x, hx⟩ := exists_holds hq hmem
  obtain ⟨nd, hnd⟩ := hx.1.exists_node
  obtain ⟨-, hget⟩ := State.node?_eq_some_iff.1 hnd
  obtain ⟨hlt, -⟩ := List.getElem?_eq_some_iff.1 hget
  rw [toNat_nextIx hnm] at hlt
  exact lt_irrefl _ hlt

/-- Making a node and putting it in the queue is inserting its tree (R131, R146). -/
theorem enqueue_pushNode {b : NodeBody} (hq : List.Forall₂ (Holds s) s.pq Q) (hnd : s.pq.Nodup)
    (hpq : s.pq.length < 256) (hnm : s.nm.length < 511) (hx : TreeIs (s.pushNode b) s.nextIx x.2)
    (hw : b.weight.toNat = x.1) :
    ∃ t, enqueue s.nextIx (s.pushNode b) = .done t ∧ List.Forall₂ (Holds t) t.pq (insertTree x Q) ∧ t.pq.Nodup ∧
      t.nm.length = s.nm.length + 1 ∧ t.ft = s.ft := by
  have hnew : (s.pushNode b).node? s.nextIx = some ⟨false, b⟩ := State.node?_pushNode_new hnm
  have hholds : Holds (s.pushNode b) s.nextIx x := ⟨hx, by rw [State.weightOf_eq hnew, hw]⟩
  obtain ⟨l, hl, hQ, hperm⟩ := insertByWeight_holds (holds_mono (storeGrows_pushNode s b) hq) hholds hw
  have hgrow : StoreGrows (s.pushNode b) { s.pushNode b with pq := l } := .of_nm_eq rfl
  refine ⟨{ s.pushNode b with pq := l }, ?_, holds_mono hgrow hQ, ?_, by simp, rfl⟩
  · simp only [enqueue, hnew, State.pushNode_pq, pqCap, if_neg (Nat.not_le.2 hpq), hl]
  · exact hperm.nodup_iff.2 (List.nodup_cons.2 ⟨nextIx_not_mem hnm hq, hnd⟩)

end

/-! ### The construction of R146 in the arena and on tree values

`Arena s k Q`: after `k` leaves, the arena's queue stands for the queue `Q` of weighted trees. -/

structure Arena (s : State) (k : Nat) (Q : List (Nat × TreeVal)) : Prop where
  queue : List.Forall₂ (Holds s) s.pq Q
  nodup : s.pq.Nodup
  size : s.nm.length + Q.length = 2 * k
  few : Q.length ≤ k
  light : (Q.map Prod.fst).sum ≤ k * 2 ^ 32

theorem arena_clearTree (s : State) : Arena s.clearTree 0 [] :=
  ⟨.nil, .nil, rfl, Nat.le_refl _, Nat.zero_le _⟩

/-- What step 1 of R146 does to a queue of weighted trees: the leaves of the occupied values among `vs`. -/
def insertLeaves (ft : FreqTable) (vs : List Byte) (Q : List (Nat × TreeVal)) : List (Nat × TreeVal) :=
  (vs.filter fun v => tableGet ft v != 0#32).foldl
    (fun q v => insertTree ((tableGet ft v).toNat, .leaf v ((tableGet ft v).setWidth 64)) q) Q

theorem leafQueue_eq (ft : FreqTable) : leafQueue ft = insertLeaves ft allBytes [] := rfl

section
variable {s : State} {k : Nat} {Q : List (Nat × TreeVal)}

theorem sum_insertTree (x : Nat × TreeVal) (Q : List (Nat × TreeVal)) :
    ((insertTree x Q).map Prod.fst).sum = x.1 + (Q.map Prod.fst).sum := by
  rw [((insertTree_perm x Q).map _).sum_eq, List.map_cons, List.sum_cons]

theorem length_insertTree (x : Nat × TreeVal) (Q : List (Nat × TreeVal)) : (insertTree x Q).length = Q.length + 1 :=
  (insertTree_perm x Q).length_eq

/-- Step 1 of R146 for one occupied value. -/
theorem addLeaf_arena (h : Arena s k Q) (hk : k < 256) (v : Byte) :
    ∃ t, addLeaf v s = .done t ∧ t.ft = s.ft ∧
      Arena t (k + 1) (insertTree ((s.count v).toNat, .leaf v ((s.count v).setWidth 64)) Q) := by
  obtain ⟨hq, hnd, hsize, hfew, hlight⟩ := h
  have hlen : s.pq.length = Q.length := hq.length_eq
  have hnm : s.nm.length < 511 := by omega
  have hcount : (s.count v).toNat < 2 ^ 32 := (s.count v).isLt
  obtain ⟨t, ht, hQ, hnd', hnm', hft⟩ := enqueue_pushNode (b := .leaf v ((s.count v).setWidth 64))
    (x := ((s.count v).toNat, .leaf v ((s.count v).setWidth 64))) hq hnd (by omega) hnm
    (.leaf (State.node?_pushNode_new hnm)) (by simp [NodeBody.weight]; omega)
  refine ⟨t, ht, hft, hQ, hnd', ?_, ?_, ?_⟩
  · rw [length_insertTree]; omega
  · rw [length_insertTree]; omega
  · rw [sum_insertTree]; dsimp only; omega

theorem buildLeaves_arena (vs : List Byte) (h : Arena s k Q) (hk : k + vs.length ≤ 256) :
    ∃ t k', k' ≤ 256 ∧ buildLeaves vs s = .done t ∧ Arena t k' (insertLeaves s.ft vs Q) := by
  induction vs generalizing s k Q with
  | nil => exact ⟨s, k, hk, rfl, h⟩
  | cons v vs ih =>
    rw [List.length_cons] at hk
    by_cases hv : s.count v = 0#32
    · have hskip : insertLeaves s.ft (v :: vs) Q = insertLeaves s.ft vs Q := by
        have : tableGet s.ft v = 0#32 := hv
        simp [insertLeaves, this]
      rw [buildLeaves, if_pos hv, hskip]
      exact ih h (by omega)
    · have hadd : insertLeaves s.ft (v :: vs) Q =
          insertLeaves s.ft vs (insertTree ((s.count v).toNat, .leaf v ((s.count v).setWidth 64)) Q) := by
        have : tableGet s.ft v ≠ 0#32 := hv
        simp [insertLeaves, this, State.count]
      obtain ⟨t, ht, hft, hA⟩ := addLeaf_arena h (by omega) v
      rw [buildLeaves, if_neg hv, ht, Res.andThen_done, hadd, ← hft]
      exact ih hA (by omega)

/-- A merge before its node is made (R142, R146): the two children are out of the queue and owned. -/
def takeChildren (a b : NodeIx) (q : List NodeIx) (s : State) : State :=
  { s with pq := q, nm := setOwned (setOwned s.nm a) b }

theorem storeGrows_takeChildren (a b : NodeIx) (q : List NodeIx) (s : State) :
    StoreGrows s (takeChildren a b q s) := by
  have ha : StoreGrows s { s with nm := setOwned s.nm a } := storeGrows_setOwned rfl
  exact ha.trans (storeGrows_setOwned rfl)

theorem mergeStep_eq {a b : NodeIx} {q : List NodeIx} {na nb : Node} (hpq : s.pq = a :: b :: q) (hab : a ≠ b)
    (hna : s.node? a = some na) (hnb : s.node? b = some nb) :
    mergeStep s = enqueue (takeChildren a b q s).nextIx
      ((takeChildren a b q s).pushNode (.internal a b (na.body.weight + nb.body.weight))) := by
  have hix : (takeChildren a b q s).nextIx = s.nextIx := by simp [takeChildren, State.nextIx]
  rw [mergeStep, dequeue_cons hpq, dequeue_cons rfl, if_neg hab, hix]
  have hna : ({ s with pq := q } : State).node? a = some na := hna
  have hnb : ({ s with pq := q } : State).node? b = some nb := hnb
  exact (withNode_some hna _).trans (withNode_some hnb _)

/-- Step 3 of R146, one merge. -/
theorem mergeStep_arena {x y : Nat × TreeVal} (h : Arena s k (x :: y :: Q)) (hk : k ≤ 256) :
    ∃ t, mergeStep s = .done t ∧ Arena t k (insertTree (x.1 + y.1, .node x.2 y.2) Q) := by
  obtain ⟨hq, hnd, hsize, hfew, hlight⟩ := h
  obtain ⟨a, pq, ha, hq', hpq⟩ := List.forall₂_cons_right_iff.1 hq
  obtain ⟨b, q, hb, hq'', rfl⟩ := List.forall₂_cons_right_iff.1 hq'
  rw [hpq] at hnd
  obtain ⟨ha_new, hnd⟩ := List.nodup_cons.1 hnd
  obtain ⟨-, hnd⟩ := List.nodup_cons.1 hnd
  have hab : a ≠ b := fun e => ha_new (by simp [e])
  obtain ⟨na, hna⟩ := ha.1.exists_node
  obtain ⟨nb, hnb⟩ := hb.1.exists_node
  have hwa : na.body.weight.toNat = x.1 := by rw [← State.weightOf_eq hna, ha.2]
  have hwb : nb.body.weight.toNat = y.1 := by rw [← State.weightOf_eq hnb, hb.2]
  have hlen : q.length = Q.length := hq''.length_eq
  simp only [List.length_cons, List.map_cons, List.sum_cons] at hsize hfew hlight
  have hnm : (takeChildren a b q s).nm.length = s.nm.length := by simp [takeChildren]
  have hweight : (na.body.weight + nb.body.weight).toNat = x.1 + y.1 := by
    rw [BitVec.toNat_add, hwa, hwb]
    omega
  have hlt : (takeChildren a b q s).nm.length < 511 := by omega
  have hgrow := storeGrows_takeChildren a b q s
  have hgrow' := hgrow.trans (storeGrows_pushNode _ (.internal a b (na.body.weight + nb.body.weight)))
  obtain ⟨t, ht, hQ, hnd', hnm', -⟩ := enqueue_pushNode (s := takeChildren a b q s)
    (b := .internal a b (na.body.weight + nb.body.weight)) (x := (x.1 + y.1, .node x.2 y.2)) (holds_mono hgrow hq'')
    hnd
    (by change q.length < 256; omega) hlt
    (.node (State.node?_pushNode_new hlt) (ha.1.mono hgrow') (hb.1.mono hgrow')) hweight
  refine ⟨t, (mergeStep_eq hpq hab hna hnb).trans ht, hQ, hnd', ?_, ?_, ?_⟩
  · rw [length_insertTree]; omega
  · rw [length_insertTree]; omega
  · rw [sum_insertTree]; dsimp only; omega

/-- Step 3 of R146: the loop in the arena and the merge of weighted trees end in one tree. -/
theorem mergeLoop_arena (turns fuel : Nat) (h : Arena s k Q) (hk : k ≤ 256) (hQ : Q ≠ [])
    (hturns : Q.length ≤ turns + 1) (hfuel : Q.length ≤ fuel + 1) :
    ∃ T t r, mergeTrees fuel Q = some T ∧ mergeLoop turns s = .done t ∧ t.pq = [r] ∧ TreeIs t r T := by
  induction turns generalizing s Q fuel with
  | zero =>
    match Q, hQ with
    | [x], _ =>
      obtain ⟨r, pq, hr, hnil, hpq⟩ := List.forall₂_cons_right_iff.1 h.queue
      cases hnil
      exact ⟨x.2, s, r, by cases fuel <;> rfl, rfl, hpq, hr.1⟩
  | succ turns ih =>
    match Q, hQ with
    | [x], _ =>
      obtain ⟨r, pq, hr, hnil, hpq⟩ := List.forall₂_cons_right_iff.1 h.queue
      cases hnil
      refine ⟨x.2, s, r, by cases fuel <;> rfl, ?_, hpq, hr.1⟩
      rw [mergeLoop, if_neg (by simp [hpq])]
    | x :: y :: Q, _ =>
      obtain ⟨t, ht, hA⟩ := mergeStep_arena h hk
      have hlen : s.pq.length = Q.length + 2 := h.queue.length_eq
      have hins := length_insertTree (x.1 + y.1, .node x.2 y.2) Q
      simp only [List.length_cons] at hturns hfuel
      obtain ⟨fuel, rfl⟩ : ∃ f, fuel = f + 1 := ⟨fuel - 1, by omega⟩
      rw [mergeTrees, mergeLoop, if_pos (by omega), ht]
      exact ih fuel hA (by rw [← List.length_pos_iff]; omega) (by omega) (by omega)

/-- `TR.BUILD` makes the tree of the stable merge, or raises on an empty table (R146). -/
theorem buildBody_cases (s : State) :
    (leafQueue s.ft = [] ∧ ∃ t, buildBody s = .raised .emptyQueue 0#64 t) ∨
    ∃ T t, mergeTrees 256 (leafQueue s.ft) = some T ∧ buildBody s = .done t ∧ TreeIs t t.root T ∧
      t.rootValid = true ∧ t.pq = [] := by
  obtain ⟨t, k, hk, ht, hA⟩ := buildLeaves_arena allBytes (arena_clearTree s) (by simp)
  rw [State.clearTree_ft, ← leafQueue_eq] at hA
  have hlen : t.pq.length = (leafQueue s.ft).length := hA.queue.length_eq
  rw [buildBody, ht, Res.andThen_done]
  by_cases hQ : leafQueue s.ft = []
  · have hpq : t.pq = [] := by simpa [hQ] using hlen
    exact .inl ⟨hQ, t, if_pos hpq⟩
  · have hpq : t.pq ≠ [] := by rw [← List.length_pos_iff, hlen]; exact List.length_pos_iff.2 hQ
    have hfew := hA.few
    obtain ⟨T, u, r, hT, hu, hr, htree⟩ := mergeLoop_arena t.pq.length 256 hA hk hQ (by omega) (by omega)
    refine .inr ⟨T, { u with pq := [], root := r, rootValid := true, res0 := r.setWidth 64 }, hT, ?_,
      htree.of_nm_eq rfl, rfl, rfl⟩
    rw [if_neg hpq, hu, Res.andThen_done, takeRoot, dequeue_cons hr, result_eq]

end

/-! ### What `TR.BUILD` leaves alone -/

/-- Two states that agree in every part are one. -/
theorem eq_of_kept {s t : State} (h : ∀ p : StatePart, p.Kept s t) : t = s := by
  obtain ⟨hft, htl, hdc, hdv, hhv⟩ := h .header
  obtain ⟨hfa, hei⟩ := h .fault
  obtain ⟨hro, hrv⟩ := h .root
  obtain ⟨hbb, hbc⟩ := h .buffer
  obtain ⟨hdb, hbp, hem⟩ := h .decoder
  obtain ⟨hcu, hcv⟩ := h .cur
  obtain ⟨hsrc, hsl, hho⟩ := h .host
  cases s
  cases t
  exact State.mk.injEq .. ▸ ⟨h .arg0, h .res0, h .occ, h .err, hfa, hei, hft, htl, hdc, hdv, hhv, h .ft, h .nm, hro,
    hrv, h .pq, h .codes, h .ct, hbb, hbc, hdb, hbp, hcu, hcv, hem, h .srcPos, hsl, h .snkPos, h .sink, hsrc, hho⟩

theorem buildBody_within_clearTree (s : State) : (buildBody s).Within [.nm, .root, .pq, .res0] s.clearTree := by
  refine ((buildLeaves_within _ _).mono (by decide)).andThen fun t => guard_within ?_
  exact ((mergeLoop_within t _).mono (by decide)).andThen fun u => (takeRoot_within u).mono (by decide)

/-- `TR.BUILD` writes the store, the root, the queue, `CUR_VALID` and `RES0` (R146). -/
theorem buildBody_frame {s t : State} (h : buildBody s = .done t) :
    t = { s with
      nm := t.nm, root := t.root, rootValid := t.rootValid, pq := t.pq, curValid := false, res0 := t.res0 } := by
  have hw := buildBody_within_clearTree s
  rw [h] at hw
  refine eq_of_kept fun p => ?_
  specialize hw p
  cases p with
  | nm | pq | res0 => rfl
  | root => exact ⟨rfl, rfl⟩
  | _ => exact hw (by decide)

/-- `TR.BUILD` on counts whose stable merge gives a tree makes that tree (R146). -/
theorem buildBody_of_mergeTrees {s : State} {tree : TreeVal} (h : mergeTrees 256 (leafQueue s.ft) = some tree) :
    ∃ t, buildBody s = .done t ∧ TreeIs t t.root tree ∧ t = { s with
      nm := t.nm, root := t.root, rootValid := true, pq := [], curValid := false, res0 := t.res0 } := by
  rcases buildBody_cases s with ⟨hnil, -⟩ | ⟨tree', t, htree, ht, hroot, hvalid, hpq⟩
  · rw [hnil] at h
    cases h
  · cases htree.symm.trans h
    have hframe := buildBody_frame ht
    rw [hvalid, hpq] at hframe
    exact ⟨t, ht, hroot, hframe⟩

/-- A `TR.BUILD` that succeeds has made the tree of the stable merge (R146). -/
theorem treeIs_of_exec_trBuild {s t : State} (h : exec .trBuild s = .next t) (herr : t.err = .ok) :
    ∃ tree, mergeTrees 256 (leafQueue s.ft) = some tree ∧ TreeIs t t.root tree := by
  have hexec : (buildBody s).finish = .next t := h
  rcases buildBody_cases s with ⟨-, u, hu⟩ | ⟨tree, u, htree, hu, hroot, -, -⟩
  · rw [hu] at hexec
    cases hexec
    cases herr
  · rw [hu] at hexec
    cases hexec
    exact ⟨tree, htree, hroot.of_nm_eq rfl⟩

/-! ### The bits ahead of the decoder (R35, R208) -/

/-- From bit `p` of a byte on: that bit, and then the bits after it, of which there are none when `p` was the last. -/
theorem drop_byteBits (b : Byte) (p : BitVec 3) :
    (byteBits b).drop p.toNat =
      b.getLsbD p.toNat :: (if p + 1#3 = 0#3 then [] else (byteBits b).drop (p + 1#3).toNat) := by
  have hp : p.toNat < (byteBits b).length := by simpa [byteBits] using p.isLt
  have hbit : (byteBits b)[p.toNat] = b.getLsbD p.toNat := by simp [byteBits]
  rw [List.drop_eq_getElem_cons hp, hbit]
  congr 1
  by_cases h : p + 1#3 = 0#3
  · have hlast : p = 7#3 := by bv_omega
    subst hlast
    rfl
  · have hnext : (p + 1#3).toNat = p.toNat + 1 := by bv_omega
    rw [if_neg h, hnext]

theorem byteBits_length (b : Byte) : (byteBits b).length = 8 := by simp [byteBits]

theorem bitsAhead_length_le (s : State) : s.bitsAhead.length ≤ bitsLeft s := by
  have hunread : (s.unread.flatMap byteBits).length = 8 * s.unread.length := by
    simp [List.length_flatMap, byteBits_length, Nat.mul_comm]
  have hle := s.unread_length_le
  have hbyte : (if s.bitPos = 0#3 then [] else (byteBits s.dbyte).drop s.bitPos.toNat).length =
      if s.bitPos = 0#3 then 0 else 8 - s.bitPos.toNat := by
    split <;> simp [byteBits_length]
  rw [State.bitsAhead, List.length_append, hunread, hbyte, bitsLeft]
  omega

/-- With no bit of `DBYTE` left, the bits ahead are those of the unread source. -/
theorem State.bitsAhead_of_bitPos_zero {s : State} (h : s.bitPos = 0#3) :
    s.bitsAhead = s.unread.flatMap byteBits := by
  rw [State.bitsAhead, if_pos h, List.nil_append]

/-- A descent step's input: the next bit ahead is bit `BITPOS` of the byte the step reads (R208). -/
theorem withDescentByte_of_bitsAhead {s : State} {bit : Bool} {bits : List Bool} (h : s.bitsAhead = bit :: bits)
    (k : State → Res) :
    ∃ b pos, withDescentByte s k = k { s with dbyte := b, srcPos := pos } ∧ b.getLsbD s.bitPos.toNat = bit ∧
      ({ s with dbyte := b, srcPos := pos, bitPos := s.bitPos + 1#3 } : State).bitsAhead = bits := by
  unfold withDescentByte
  by_cases hp : s.bitPos = 0#3
  · rw [if_pos hp]
    rw [State.bitsAhead_of_bitPos_zero hp] at h
    cases hun : s.unread with
    | nil => simp [hun] at h
    | cons b bs =>
      have hrest : (s.passed 1).unread = bs := State.unread_passed (front := [b]) hun rfl
      have hb := drop_byteBits b 0#3
      rw [hun, List.flatMap_cons, ← List.drop_zero (l := byteBits b)] at h
      obtain ⟨hbit, hbits⟩ := List.cons.inj ((congrArg (· ++ bs.flatMap byteBits) hb).symm.trans h)
      refine ⟨b, s.srcPos + 1, withByte_of_unread hun _, by rw [hp]; exact hbit, ?_⟩
      rw [← hbits, ← hrest, hp]
      rfl
  · rw [if_neg hp]
    rw [State.bitsAhead, if_neg hp, drop_byteBits] at h
    obtain ⟨hbit, hbits⟩ := List.cons.inj h
    exact ⟨s.dbyte, s.srcPos, rfl, hbit, hbits⟩

/-! ### One descent step (R208) -/

section
variable {s u : State} {n c : NodeIx} {o : Bool} {l r : NodeIx} {v : Byte} {w : Word64}

theorem arrive_leaf (hc : s.node? c = some ⟨o, .leaf v w⟩) (u : State) :
    arrive c s u = .done { u.sinkWrite v with curValid := false, emitted := u.emitted + 1#32, res0 := 1#64 } :=
  withNode_some hc _

theorem arrive_internal (hc : s.node? c = some ⟨o, .internal l r w⟩) (u : State) :
    arrive c s u = .done { u with cur := c, curValid := true, res0 := 0#64 } :=
  withNode_some hc _

/-- A descent step from an internal node with a bit ahead goes to the child the bit names. -/
theorem bitBody_of_bitsAhead {bit : Bool} {bits : List Bool} (hroot : s.rootValid = true)
    (hn : s.node? s.standsAt = some ⟨o, .internal l r w⟩) (h : s.bitsAhead = bit :: bits) :
    ∃ b pos, bitBody s = arrive (if bit then r else l) s
        { s with dbyte := b, srcPos := pos, bitPos := s.bitPos + 1#3 } ∧
      ({ s with dbyte := b, srcPos := pos, bitPos := s.bitPos + 1#3 } : State).bitsAhead = bits := by
  obtain ⟨b, pos, hk, hbit, hbits⟩ := withDescentByte_of_bitsAhead h fun s' =>
    arrive (if s'.dbyte.getLsbD s'.bitPos.toNat then r else l) s { s' with bitPos := s'.bitPos + 1#3 }
  refine ⟨b, pos, ?_, hbits⟩
  rw [bitBody, if_neg (by simp [hroot])]
  refine (withNode_some hn _).trans (hk.trans ?_)
  simp only [hbit]

/-- The bits to a leaf begin with the bit to a child. -/
theorem LeadsTo.of_cons {bit : Bool} {p : BinaryCode} (h : LeadsTo s n (bit :: p) v) :
    ∃ o l r w, s.node? n = some ⟨o, .internal l r w⟩ ∧ LeadsTo s (if bit then r else l) p v := by
  obtain ⟨m, o', w', hp, hm⟩ := h
  cases hp with
  | left hn hp => exact ⟨_, _, _, _, hn, m, o', w', hp, hm⟩
  | right hn hp => exact ⟨_, _, _, _, hn, m, o', w', hp, hm⟩

theorem LeadsTo.of_nil (h : LeadsTo s n [] v) : ∃ o w, s.node? n = some ⟨o, .leaf v w⟩ := by
  obtain ⟨m, o', w', hp, hm⟩ := h
  cases hp
  exact ⟨o', w', hm⟩

theorem Path.of_nm_eq {m : NodeIx} {p : BinaryCode} (h : Path s n p m) (hnm : u.nm = s.nm) : Path u n p m := by
  have hnode (x : NodeIx) : u.node? x = s.node? x := by rw [State.node?, State.node?, hnm]
  induction h with
  | here n => exact .here n
  | left hn _ ih => exact .left ((hnode _).trans hn) ih
  | right hn _ ih => exact .right ((hnode _).trans hn) ih

theorem LeadsTo.of_nm_eq {p : BinaryCode} (h : LeadsTo s n p v) (hnm : u.nm = s.nm) : LeadsTo u n p v := by
  obtain ⟨m, o', w', hp, hm⟩ := h
  exact ⟨m, o', w', hp.of_nm_eq hnm, by rw [← hm, State.node?, State.node?, hnm]⟩

end

/-! ### Whole codes (R209, R211)

`Emits s t bs rest`: from `s` to `t` the decoder has taken the bits before `rest`, and written the bytes `bs`. -/

structure Emits (s t : State) (bs : List Byte) (rest : List Bool) : Prop where
  appended : Appended s t bs
  ahead : t.bitsAhead = rest
  frame : t = { s with
    snk := t.snk, snkPos := t.snkPos, dbyte := t.dbyte, bitPos := t.bitPos, srcPos := t.srcPos, cur := t.cur,
    curValid := false, emitted := s.emitted + BitVec.ofNat 32 bs.length, res0 := t.res0 }

theorem Appended.trans {s t u : State} {bs cs : List Byte} (h : Appended s t bs) (h' : Appended t u cs) :
    Appended s u (bs ++ cs) := by
  obtain ⟨hpos, hin, hout⟩ := h
  obtain ⟨hpos', hin', hout'⟩ := h'
  refine ⟨by rw [hpos', hpos, List.length_append]; omega, fun i b hi => ?_, fun a ha => ?_⟩
  · by_cases hlt : i < bs.length
    · rw [hout' _ (.inl (by omega))]
      exact hin i b (by rwa [List.getElem?_append_left hlt] at hi)
    · have hle : bs.length ≤ i := by omega
      rw [List.getElem?_append_right hle] at hi
      have := hin' _ b hi
      rwa [hpos, Nat.add_assoc, Nat.add_sub_cancel' hle] at this
  · rw [List.length_append] at ha
    rw [hout' a (by omega), hout a (by omega)]

section
variable {s t u : State} {bs cs : List Byte} {rest rest' : List Bool}

theorem Emits.nm (h : Emits s t bs rest) : t.nm = s.nm := by rw [h.frame]

theorem Emits.root (h : Emits s t bs rest) : t.root = s.root := by rw [h.frame]

theorem Emits.rootValid (h : Emits s t bs rest) : t.rootValid = s.rootValid := by rw [h.frame]

theorem Emits.curValid (h : Emits s t bs rest) : t.curValid = false := by rw [h.frame]

theorem Emits.emitted (h : Emits s t bs rest) : t.emitted = s.emitted + BitVec.ofNat 32 bs.length := by rw [h.frame]

theorem Emits.trans (h : Emits s t bs rest) (h' : Emits t u cs rest') : Emits s u (bs ++ cs) rest' := by
  refine ⟨h.appended.trans h'.appended, h'.ahead, ?_⟩
  have hcount : t.emitted + BitVec.ofNat 32 cs.length = s.emitted + BitVec.ofNat 32 (bs ++ cs).length := by
    rw [h.emitted, List.length_append, BitVec.ofNat_add, ← BitVec.add_assoc]
  have hframe := h'.frame
  rw [hcount] at hframe
  rw [h.frame] at hframe
  exact hframe

/-- The bits that lead from where the descent stands to a leaf emit that leaf's byte (R209). -/
theorem symbolLoop_of_leadsTo {c : BinaryCode} {v : Byte} {turns : Nat} (hroot : s.rootValid = true) (hc : c ≠ [])
    (hturns : c.length ≤ turns) (hlead : LeadsTo s s.standsAt c v) (h : s.bitsAhead = c ++ rest) :
    ∃ t, symbolLoop turns s = .done t ∧ Emits s t [v] rest ∧ t.res0 = 1#64 := by
  induction c generalizing s turns with
  | nil => exact absurd rfl hc
  | cons bit c ih =>
    obtain ⟨turns, rfl⟩ : ∃ k, turns = k + 1 := ⟨turns - 1, by simp at hturns; omega⟩
    obtain ⟨o, l, r, w, hn, hnext⟩ := hlead.of_cons
    obtain ⟨b, pos, hbit, hahead⟩ := bitBody_of_bitsAhead hroot hn h
    rw [symbolLoop, hbit]
    cases c with
    | nil =>
      obtain ⟨o', w', hleaf⟩ := hnext.of_nil
      rw [arrive_leaf hleaf, Res.andThen_done]
      refine ⟨_, if_pos rfl, ⟨?_, hahead, rfl⟩, rfl⟩
      exact State.sinkWrites_appended s [v]
    | cons bit' c =>
      obtain ⟨o', l', r', w', hint, -⟩ := hnext.of_cons
      have hgo : (0#64 : Word64) ≠ 1#64 := by decide
      rw [arrive_internal hint, Res.andThen_done, if_neg hgo]
      have hstep := ih (s := { s with
        dbyte := b, srcPos := pos, bitPos := s.bitPos + 1#3, cur := if bit then r else l, curValid := true,
        res0 := 0#64 })
        hroot (by simp) (by simpa using hturns) (hnext.of_nm_eq rfl) hahead
      obtain ⟨t, ht, ⟨happ, hrest, hframe⟩, hres⟩ := hstep
      exact ⟨t, ht, ⟨happ, hrest, hframe⟩, hres⟩

theorem symbolBody_of_leadsTo {c : BinaryCode} {v : Byte} (hroot : s.rootValid = true) (hc : c ≠ [])
    (hlead : LeadsTo s s.standsAt c v) (h : s.bitsAhead = c ++ rest) :
    ∃ t, symbolBody s = .done t ∧ Emits s t [v] rest ∧ t.res0 = 1#64 := by
  refine symbolLoop_of_leadsTo hroot hc ?_ hlead h
  have hle := bitsAhead_length_le s
  rw [h, List.length_append] at hle
  omega

/-- A sequence of codes from the root emits their bytes (R211). -/
theorem symbolsLoop_of_leadsTo {codes : List (BinaryCode × Byte)} (hroot : s.rootValid = true)
    (hcur : s.curValid = false) (hcodes : ∀ c v, (c, v) ∈ codes → c ≠ [] ∧ LeadsTo s s.root c v)
    (h : s.bitsAhead = (codes.map Prod.fst).flatten ++ rest) :
    ∃ t, symbolsLoop codes.length s = .done t ∧ Emits s t (codes.map Prod.snd) rest := by
  induction codes generalizing s with
  | nil =>
    refine ⟨s, rfl, ⟨rfl, by simp, fun a _ => rfl⟩, h, ?_⟩
    simp [← hcur]
  | cons x codes ih =>
    obtain ⟨c, v⟩ := x
    obtain ⟨hc, hlead⟩ := hcodes c v (by simp)
    have hstands : s.standsAt = s.root := by simp [State.standsAt, hcur]
    rw [List.map_cons, List.flatten_cons, List.append_assoc] at h
    obtain ⟨t, ht, hemit, -⟩ := symbolBody_of_leadsTo hroot hc (hstands ▸ hlead) h
    have hcodes' : ∀ c v, (c, v) ∈ codes → c ≠ [] ∧ LeadsTo t t.root c v := fun c v hmem => by
      obtain ⟨hc, hlead⟩ := hcodes c v (by simp [hmem])
      exact ⟨hc, hemit.root ▸ hlead.of_nm_eq hemit.nm⟩
    obtain ⟨u, hu, hemits⟩ := ih (hemit.rootValid.trans hroot) hemit.curValid hcodes' hemit.ahead
    refine ⟨u, ?_, hemit.trans hemits⟩
    rw [List.length_cons, symbolsLoop, ht, Res.andThen_done, hu]

end

/-! ### The general record (R95, R205, R211) -/

/-- The state a general record's tree and body start from: the header registers and `FT` hold its operands. -/
def generalHeader (T : Word32) (ft : FreqTable) (s : State) : State :=
  { s with
    ft := ft, srcPos := s.srcPos + 1031, fileType := 2, totalLen := T, dgCount := 0, dgValue := 0,
    hdrValid := true, bitPos := 0, curValid := false, emitted := 0, res0 := 2, err := .ok }

theorem rebuildTree_of_general {s : State} (h : s.fileType = 2#8) : rebuildTree s = buildBody s := if_pos h

theorem exec_streamGeneral (T : Word32) (ft : FreqTable) (s : State) :
    exec (.streamGeneral T ft.toList) s = ((buildBody (generalHeader T ft s)).thenCommand decodeBody).finish := by
  have hheader : (recordHeader s (.streamGeneral T ft.toList)).complete = generalHeader T ft s := by
    rw [recordHeader, putCounts_allBytes]
    rfl
  rw [exec_eq_runRecord rfl, runRecord, Res.thenCommand_done, hheader, rebuildTree_of_general rfl]

/-- The general body takes as many codes off the bits ahead as the header says (R211). -/
theorem decodeBody_of_leadsTo {s : State} {codes : List (BinaryCode × Byte)} {rest : List Bool}
    (hhdr : s.hdrValid = true) (htype : s.fileType = 2#8) (hroot : s.rootValid = true) (hcur : s.curValid = false)
    (hlen : codes.length = s.totalLen.toNat - s.emitted.toNat)
    (hcodes : ∀ c v, (c, v) ∈ codes → c ≠ [] ∧ LeadsTo s s.root c v)
    (h : s.bitsAhead = (codes.map Prod.fst).flatten ++ rest) :
    ∃ t, decodeBody s = .done t ∧ Emits s t (codes.map Prod.snd) rest := by
  have hbody : decodeBody s = symbolsLoop codes.length s := by
    simp [decodeBody, bodyOfType, generalBody, hhdr, htype, hroot, hlen]
  rw [hbody]
  exact symbolsLoop_of_leadsTo hroot hcur hcodes h

/-- A general record completes when the bits after it are codes of the tree of its counts (R211, R214). -/
theorem streamGeneral_completes {s : State} {T : Word32} {ft : FreqTable} {tree : TreeVal}
    {codes : List (BinaryCode × Byte)} {rest : List Bool} (htree : mergeTrees 256 (leafQueue ft) = some tree)
    (hlen : codes.length = T.toNat) (hcodes : ∀ c v, (c, v) ∈ codes → c ≠ [] ∧ tree.follow c = some v)
    (h : (s.passed 1031).unread.flatMap byteBits = (codes.map Prod.fst).flatten ++ rest) :
    ∃ t, exec (.streamGeneral T ft.toList) s = .next t ∧ Appended s t (codes.map Prod.snd) ∧ t.bitsAhead = rest ∧
      TreeIs t t.root tree ∧
      t = { s with
        ft := ft, fileType := 2, totalLen := T, dgCount := 0, dgValue := 0, hdrValid := true, nm := t.nm,
        root := t.root, rootValid := true, pq := [], dbyte := t.dbyte, bitPos := t.bitPos, cur := t.cur,
        curValid := false, emitted := T, srcPos := t.srcPos, snk := t.snk, snkPos := t.snkPos, res0 := t.res0,
        err := .ok } := by
  obtain ⟨u, hu, hroot, hframe⟩ := buildBody_of_mergeTrees (s := generalHeader T ft s) htree
  have hhdr : u.hdrValid = true := by rw [hframe]; rfl
  have htype : u.fileType = 2#8 := by rw [hframe]; rfl
  have hvalid : u.rootValid = true := by rw [hframe]
  have hcur : u.curValid = false := by rw [hframe]
  have htotal : u.totalLen = T := by rw [hframe]; rfl
  have hemitted : u.emitted = 0#32 := by rw [hframe]; rfl
  have hbitPos : u.bitPos = 0#3 := by rw [hframe]; rfl
  have hunread : u.complete.unread = (s.passed 1031).unread := by rw [hframe]; rfl
  have hahead : u.complete.bitsAhead = (codes.map Prod.fst).flatten ++ rest := by
    rw [State.bitsAhead_of_bitPos_zero (s := u.complete) hbitPos, hunread, h]
  have hleads : ∀ c v, (c, v) ∈ codes → c ≠ [] ∧ LeadsTo u.complete u.root c v := fun c v hmem => by
    obtain ⟨hc, hfollow⟩ := hcodes c v hmem
    exact ⟨hc, (hroot.of_nm_eq (t := u.complete) rfl).follow_eq_some.1 hfollow⟩
  obtain ⟨t, ht, hemit⟩ := decodeBody_of_leadsTo (s := u.complete) hhdr htype hvalid hcur
    (by simp [htotal, hemitted, hlen]) hleads hahead
  refine ⟨t.complete, ?_, ?_, hemit.ahead, ?_, ?_⟩
  · rw [exec_streamGeneral, hu, Res.thenCommand_done, ht, Res.finish_done]
  · have happ := hemit.appended
    rw [hframe] at happ
    exact happ
  · have htree := hroot.of_nm_eq (t := t.complete) hemit.nm
    rwa [← State.complete_root u, ← hemit.root] at htree
  · have hT : u.complete.emitted + BitVec.ofNat 32 (codes.map Prod.snd).length = T := by
      simp [hemitted, hlen]
    have hframe' := hemit.frame
    rw [hT, hframe] at hframe'
    rw [hframe']
    rfl

/-- `STREAM.GENERAL` is its header, `TR.BUILD` and `DEC.BODY`, up to the first that fails (R212, R235). -/
theorem exec_streamGeneral_eq_steps (T : Word32) (ft : FreqTable) (s : State) :
    exec (.streamGeneral T ft.toList) s = thenOk (exec .trBuild (generalHeader T ft s)) (exec .decBody) := by
  rw [exec_streamGeneral, finish_thenCommand (buildBody_raises _)]
  rfl

theorem length_flatMap_be32 (counts : List Word32) : (counts.flatMap be32).length = 4 * counts.length := by
  induction counts with
  | nil => rfl
  | cons n counts ih => rw [List.flatMap_cons, List.length_append, ih, List.length_cons, be32]; simp; omega

/-- A record's bits are those of the source that `DEC.RUN` has left after the record's bytes. -/
theorem unread_of_decodeRecord_general {s : State} {T : Word32} {counts : List Word32} {rest : List Byte}
    (h : decodeRecord s.unread = .ok (.streamGeneral T counts, rest)) : (s.passed 1031).unread = rest := by
  obtain ⟨front, he, hun, hwf⟩ := encode_of_decodeRecord h
  cases he
  have hlen : counts.length = 256 := by simpa [Instr.wf] using hwf
  refine State.unread_passed hun ?_
  simp only [recordBytes, be32, List.length_cons, List.length_append, List.length_nil, length_flatMap_be32, hlen]

/-- Settles O42: the header reader's state, then the tree of the stable merge, then one symbol after another. The third
clause is the second one for the tree `TR.BUILD` has made of the counts. -/
theorem generalRecordDecodesItsBits : Obligations.GeneralRecordDecodesItsBits := by
  unfold Obligations.GeneralRecordDecodesItsBits
  intro s T counts hcounts
  refine ⟨?steps, ?completes, ?built⟩
  case steps =>
    rintro h rfl hh
    rw [exec_streamGeneral_eq_steps]
    exact congrArg (fun a => thenOk (exec .trBuild a) (exec .decBody)) hh.symm
  case completes =>
    rintro ft tree codes rest - rfl htree hlen hcodes hbits
    exact streamGeneral_completes htree hlen hcodes hbits
  case built =>
    rintro u₀ u codes rest - hlen rfl hbuild herr hcodes
    obtain ⟨tree, htree, hroot⟩ := treeIs_of_exec_trBuild hbuild herr
    have hfollow : ∀ c v, (c, v) ∈ codes → c ≠ [] ∧ tree.follow c = some v := fun c v hmem => by
      obtain ⟨hc, hlead⟩ := hcodes c v hmem
      exact ⟨hc, hroot.follow_eq_some.2 hlead⟩
    refine ⟨fun hbits => ?_, fun bits hdec hbits => ?_⟩
    · obtain ⟨t, ht, happ, hrest, -, hframe⟩ := streamGeneral_completes htree hlen hfollow hbits
      exact ⟨t, ht, by rw [hframe], by rw [hframe], happ, hrest, by rw [hframe], by rw [hframe]⟩
    · have hunread : ((rewind true true s).passed 1031).unread = bits :=
        unread_of_decodeRecord_general (by rw [State.unread_rewound]; exact hdec)
      obtain ⟨t, ht, happ, -, -, hframe⟩ := streamGeneral_completes (s := { s with srcPos := 0, snkPos := 0 })
        htree hlen hfollow (by rw [← hbits, ← hunread]; rfl)
      obtain ⟨t', ht', herr', hprod, hres⟩ := decRun_produces hdec ht (by rw [hframe]) happ
      refine ⟨t', ht', herr', hprod, ?_⟩
      rw [hres, List.length_map, hlen]
      simp
      omega

end Sys2Proof.Machine
end

section
/-! PROOFS. Family 41_frequency: the frequency table commands. -/

namespace Sys2Proof.Machine

/-! ### The single counter (R121, R122) -/

theorem toNat_count_setCount_succ {s : State} {v : Byte} (h : s.count v ≠ 0xFFFFFFFF#32) (u : Byte) :
    ((s.setCount v (s.count v + 1)).count u).toNat = (s.count u).toNat + if v == u then 1 else 0 := by
  by_cases huv : u = v
  · subst huv
    have hlt := (s.count u).isLt
    have hne : (s.count u).toNat ≠ 0xFFFFFFFF := fun e => h (BitVec.eq_of_toNat_eq e)
    rw [State.count_setCount_same, BitVec.toNat_add_of_lt (by simp; omega), if_pos (beq_self_eq_true u)]
    rfl
  · rw [State.count_setCount_other _ _ huv, if_neg (by simpa using Ne.symm huv), Nat.add_zero]

theorem toNat_count_setCount_succ_add {s : State} {v : Byte} (h : s.count v ≠ 0xFFFFFFFF#32) (u : Byte)
    (vs : List Byte) : ((s.setCount v (s.count v + 1)).count u).toNat + vs.count u =
      (s.count u).toNat + (v :: vs).count u := by
  rw [toNat_count_setCount_succ h, List.count_cons]
  omega

/-- Everything `FT.SET` can do: `ARG0` needs more than 32 bits, or the counter takes its value (R122). -/
theorem setCountFromArg_cases (v : Byte) (s : State) :
    (2 ^ 32 ≤ s.arg0.toNat ∧ setCountFromArg v s = .raised .operandRange s.arg0 s) ∨
    (s.arg0.toNat < 2 ^ 32 ∧ setCountFromArg v s = .done (s.setCount v (s.arg0.setWidth 32))) := by
  have hhigh : s.arg0.extractLsb' 32 32 = 0#32 ↔ s.arg0.toNat < 2 ^ 32 := by
    have := s.arg0.isLt
    rw [← BitVec.toNat_inj, BitVec.extractLsb'_toNat, Nat.shiftRight_eq_div_pow, BitVec.toNat_ofNat]
    omega
  by_cases h : s.arg0.toNat < 2 ^ 32
  · exact .inr ⟨h, if_neg (not_not.2 (hhigh.2 h))⟩
  · exact .inl ⟨by omega, if_pos (mt hhigh.1 h)⟩

/-- Settles O5: a cleared table, and for `FT.INC` and `FT.SET` the two outcomes of each. -/
theorem frequencyCommandEffects : Obligations.FrequencyCommandEffects := by
  unfold Obligations.FrequencyCommandEffects
  refine fun s => ⟨⟨rfl, _, rfl, fun v => tableGet_replicate 0#32 v, rfl⟩, fun v => ⟨rfl, ?inc⟩, fun v => ⟨rfl, ?set⟩,
    fun v => ⟨rfl, rfl⟩⟩
  case inc =>
    have hexec : exec (.ftInc v) s = (incCount v s).finish := rfl
    rcases incCount_cases v s with ⟨hfull, hinc⟩ | ⟨hroom, hinc⟩ <;> rw [hexec, hinc]
    · exact ⟨fun _ => rfl, absurd hfull⟩
    · refine ⟨fun h => absurd h hroom, fun _ => ⟨_, rfl, ?_, fun u hu => State.count_setCount_other s _ hu, rfl⟩⟩
      exact (toNat_count_setCount_succ hroom v).trans (by rw [if_pos (beq_self_eq_true v)])
  case set =>
    have hexec : exec (.ftSet v) s = (setCountFromArg v s).finish := rfl
    rcases setCountFromArg_cases v s with ⟨hbig, hset⟩ | ⟨hfits, hset⟩ <;> rw [hexec, hset]
    · exact ⟨fun _ => rfl, fun h => absurd h (by omega)⟩
    · refine ⟨fun h => absurd h (by omega), fun _ => ⟨_, rfl, ?_, fun u hu => State.count_setCount_other s _ hu, rfl⟩⟩
      calc ((s.setCount v (s.arg0.setWidth 32)).count v).toNat
          = (s.arg0.setWidth 32).toNat := by rw [State.count_setCount_same]
        _ = s.arg0.toNat := by rw [BitVec.toNat_setWidth, Nat.mod_eq_of_lt hfits]

/-! ### The map of the occupied values (R124) -/

theorem testBit_occBits {cs : List Word32} {i : Nat} (h : i < cs.length) :
    (occBits cs).testBit i = (cs[i] != 0#32) := by
  induction cs generalizing i with
  | nil => cases h
  | cons c cs ih =>
    cases i with
    | zero => by_cases hc : c = 0#32 <;> simp [occBits, hc, Nat.testBit_zero, Nat.add_mod]
    | succ i =>
      have hdiv : occBits (c :: cs) / 2 = occBits cs := by
        rw [occBits]
        split <;> omega
      rw [Nat.testBit_succ, hdiv, ih (by simpa using h), List.getElem_cons_succ]

theorem length_occupied (ft : FreqTable) :
    (occupied ft).length = (List.range 256).countP (fun v => tableGet ft (BitVec.ofNat 8 v) != 0#32) := by
  rw [occupied, ← List.countP_eq_length_filter, allBytes, List.countP_map]
  rfl

/-- Settles O6: each bit of the map, and the length of `occupied`, which fits `RES0`. -/
theorem occupiedMapIsExact : Obligations.OccupiedMapIsExact := by
  unfold Obligations.OccupiedMapIsExact
  refine ⟨rfl, fun s => ⟨_, rfl, fun v => ?map, ?number, rfl⟩⟩
  case map =>
    change (BitVec.ofNat 256 (occBits s.ft.toList)).getLsbD v.toNat = (s.count v != 0#32)
    have hv : v.toNat < s.ft.toList.length := by simpa using v.isLt
    rw [BitVec.getLsbD_ofNat, testBit_occBits hv, decide_eq_true (show v.toNat < 256 from v.isLt), Bool.true_and]
    rfl
  case number =>
    have hle : (occupied s.ft).length ≤ 256 := by
      have := List.length_filter_le (fun v => tableGet s.ft v != 0#32) allBytes
      rwa [allBytes_length] at this
    calc (BitVec.ofNat 64 (occupied s.ft).length).toNat
        = (occupied s.ft).length := by rw [BitVec.toNat_ofNat, Nat.mod_eq_of_lt (by omega)]
      _ = _ := length_occupied s.ft

/-! ### The scan (R125)

The state after some bytes are counted and passed, and the loop over them. -/

/-- The state with the bytes `vs` counted and passed. -/
def State.counted (vs : List Byte) (s : State) : State :=
  vs.foldl (fun s v => (s.setCount v (s.count v + 1)).passed 1) s

theorem State.counted_cons (s : State) (v : Byte) (vs : List Byte) :
    s.counted (v :: vs) = ((s.setCount v (s.count v + 1)).passed 1).counted vs := rfl

/-- Counting writes the counters and moves `SRC_POS`. -/
theorem State.counted_frame (s : State) (vs : List Byte) :
    s.counted vs = { s with ft := (s.counted vs).ft, srcPos := s.srcPos + vs.length } := by
  induction vs generalizing s with
  | nil => rfl
  | cons v vs ih =>
    rw [State.counted_cons, ih, List.length_cons, Nat.add_comm vs.length, ← Nat.add_assoc]
    rfl

section
variable {s u : State} {v : Byte} {vs rest : List Byte} {left k : Nat}

/-- What one turn of the loop does with the byte at `SRC_POS`. -/
theorem scanLoop_succ_cases (h : s.srcPeek = some v) (left k : Nat) :
    (s.count v = 0xFFFFFFFF#32 ∧ scanLoop (left + 1) k s = .raised .countOverflow (v.setWidth 64) s) ∨
    (s.count v ≠ 0xFFFFFFFF#32 ∧
      scanLoop (left + 1) k s = scanLoop left (k + 1) ((s.setCount v (s.count v + 1)).passed 1)) := by
  have hturn : scanLoop (left + 1) k s = (incCount v s).andThen fun t => scanLoop left (k + 1) (t.passed 1) := by
    simp only [scanLoop, h, State.passed]
  rcases incCount_cases v s with ⟨hfull, hinc⟩ | ⟨hroom, hinc⟩ <;> rw [hturn, hinc]
  · exact .inl ⟨hfull, rfl⟩
  · exact .inr ⟨hroom, rfl⟩

/-- The loop counts bytes whose counters have room for them, and goes on with the rest. -/
theorem scanLoop_of_unread (hun : s.unread = vs ++ rest) (hroom : ∀ u, (s.count u).toNat + vs.count u < 2 ^ 32) :
    scanLoop (vs.length + left) k s = scanLoop left (k + vs.length) (s.counted vs) ∧
      ∀ u, ((s.counted vs).count u).toNat = (s.count u).toNat + vs.count u := by
  induction vs generalizing s k with
  | nil => exact ⟨by rw [List.length_nil, Nat.zero_add]; rfl, fun _ => rfl⟩
  | cons v vs ih =>
    have hv : s.count v ≠ 0xFFFFFFFF#32 := fun hfull => by
      have := hroom v
      rw [hfull, List.count_cons_self, BitVec.toNat_ofNat] at this
      omega
    have hstep := fun u => toNat_count_setCount_succ_add hv u vs
    obtain ⟨hloop, hcount⟩ := @ih ((s.setCount v (s.count v + 1)).passed 1) (k + 1)
      (State.unread_passed (s := s) (front := [v]) hun rfl) fun u => (hstep u).trans_lt (hroom u)
    constructor
    · obtain ⟨hfull, -⟩ | ⟨-, hturn⟩ := scanLoop_succ_cases (State.srcPeek_eq hun) (vs.length + left) k
      · exact absurd hfull hv
      · rw [List.length_cons, Nat.add_right_comm, hturn, hloop, Nat.add_assoc, Nat.add_comm 1]
        rfl
    · exact fun u => (hcount u).trans (hstep u)

/-- A loop that reaches its end has found all its bytes and counted them. -/
theorem counts_of_scanLoop_eq_done (h : scanLoop left k s = .done u) :
    ((s.src.drop s.srcPos).take left).length = left ∧
      ∀ v, (u.count v).toNat = (s.count v).toNat + ((s.src.drop s.srcPos).take left).count v := by
  induction left generalizing s k with
  | zero =>
    cases h
    exact ⟨rfl, fun _ => rfl⟩
  | succ left ih =>
    cases hpeek : s.srcPeek with
    | none =>
      rw [scanLoop, hpeek] at h
      cases h
    | some v =>
      obtain ⟨-, hturn⟩ | ⟨hroom, hturn⟩ := scanLoop_succ_cases hpeek left k <;> rw [hturn] at h
      · cases h
      · obtain ⟨hlt, hget⟩ := List.getElem?_eq_some_iff.1 hpeek
        have htake : (s.src.drop s.srcPos).take (left + 1) = v :: (s.src.drop (s.srcPos + 1)).take left := by
          rw [List.drop_eq_getElem_cons hlt, hget, List.take_succ_cons]
        obtain ⟨hlen, hcount⟩ := ih h
        rw [htake]
        exact ⟨congrArg (· + 1) hlen, fun w => (hcount w).trans (toNat_count_setCount_succ_add hroom w _)⟩

end

theorem exec_ftScan (s : State) : exec .ftScan s = (scanLoop s.srcLeft 0 s).finish := rfl

/-- Settles O7: the loop over the whole unread source, or over the bytes before the one whose counter is full. -/
theorem scanCountsTheUnreadSource : Obligations.ScanCountsTheUnreadSource := by
  unfold Obligations.ScanCountsTheUnreadSource
  refine ⟨rfl, fun s hthere => ⟨fun hroom => ?complete, fun pre post v hun hroom hfull => ?overflow⟩⟩
  case complete =>
    have hlen : s.unread.length = s.srcLeft := State.unread_length hthere
    obtain ⟨hloop, hcount⟩ := scanLoop_of_unread (left := 0) (k := 0) (List.append_nil s.unread).symm hroom
    have hpos : (s.counted s.unread).srcPos = s.srcPos + s.unread.length := by rw [State.counted_frame]
    rw [exec_ftScan, ← hlen, ← Nat.add_zero s.unread.length, hloop]
    refine ⟨_, rfl, hcount, hpos, ?res0, fun hle => ?atEnd, ?frame⟩
    case res0 =>
      change (BitVec.ofNat 64 (0 + s.unread.length)).toNat = s.unread.length
      have := s.srcLen.isLt
      rw [Nat.zero_add, BitVec.toNat_ofNat, Nat.mod_eq_of_lt (by rw [hlen, State.srcLeft]; omega)]
    case atEnd =>
      refine hpos.trans ?_
      rw [hlen, State.srcLeft]
      omega
    case frame =>
      rw [State.counted_frame]
      rfl
  case overflow =>
    have hlen : s.srcLeft = pre.length + (post.length + 1) := by
      rw [← State.unread_length hthere, hun, List.length_append, List.length_cons]
    obtain ⟨hloop, hcount⟩ := scanLoop_of_unread (left := post.length + 1) (k := 0) hun hroom
    have hpos : (s.counted pre).srcPos = s.srcPos + pre.length := by rw [State.counted_frame]
    have hpeek : (s.counted pre).srcPeek = some v := by
      rw [State.counted_frame]
      exact State.srcPeek_eq (s := s.passed pre.length) (State.unread_passed hun rfl)
    have hmax : (s.counted pre).count v = 0xFFFFFFFF#32 := BitVec.eq_of_toNat_eq ((hcount v).trans hfull)
    obtain ⟨-, hraise⟩ | ⟨hne, -⟩ := scanLoop_succ_cases hpeek post.length (0 + pre.length)
    · rw [exec_ftScan, hlen, hloop, hraise]
      refine ⟨_, rfl, rfl, rfl, hcount, hpos, ?_⟩
      rw [State.counted_frame]
      rfl
    · exact absurd hmax hne

/-! ### The law of the counts (R126) -/

theorem incCount_raises {P : Err → Prop} (hover : P .countOverflow) (v : Byte) (s : State) :
    (incCount v s).Raises P := by
  rcases incCount_cases v s with ⟨-, hinc⟩ | ⟨-, hinc⟩ <;> rw [hinc]
  · exact raised_raises hover
  · trivial

theorem scanLoop_raises {P : Err → Prop} (hover : P .countOverflow) (left k : Nat) (s : State) :
    (scanLoop left k s).Raises P := by
  induction left generalizing k s with
  | zero => trivial
  | succ left ih =>
    unfold scanLoop
    split
    · trivial
    · exact (incCount_raises hover _ s).andThen fun t => ih _ _

/-- A command whose `STATUS.ERR` is 0 has reached the end of its body (R233). -/
theorem Res.Raises.done_of_finish {r : Res} {t : State} (hr : r.Raises (· ≠ .ok)) (h : r.finish = .next t)
    (hok : t.err = .ok) : ∃ u, r = .done u ∧ t = u.complete := by
  obtain hdone | ⟨k, info, u, rfl, rfl⟩ := Res.finish_eq_next.1 h
  · exact hdone
  · exact absurd hok hr

/-- Every byte of a list is counted under exactly one byte value. -/
theorem sum_count_allBytes (vs : List Byte) : (allBytes.map fun v => vs.count v).sum = vs.length := by
  have h := Multiset.sum_count_eq_card (s := allBytes.toFinset) (m := (vs : Multiset Byte))
    fun v _ => List.mem_toFinset.2 (mem_allBytes v)
  simpa [List.sum_toFinset _ allBytes_nodup] using h

/-- Settles O8: a scan that ends without an error has counted every byte of the source, each from 0. -/
theorem scannedCountsSumToTheLength : Obligations.ScannedCountsSumToTheLength := by
  unfold Obligations.ScannedCountsSumToTheLength
  intro s t u hpos hclr hscan hok
  cases hclr
  obtain ⟨w, hdone, rfl⟩ := (scanLoop_raises (by decide) _ _ _).done_of_finish ((exec_ftScan _).symm.trans hscan) hok
  obtain ⟨hlen, hcounts⟩ := counts_of_scanLoop_eq_done hdone
  have hunread : (clearCounts s).complete.unread = s.src.take s.srcLen.toNat := by
    simp [State.unread, State.srcLeft, clearCounts, hpos]
  have hleft : (clearCounts s).complete.srcLeft = s.srcLen.toNat := by simp [State.srcLeft, clearCounts, hpos]
  rw [← State.unread, hunread, hleft] at hlen
  have hcount : ∀ v, (w.count v).toNat = (s.src.take s.srcLen.toNat).count v := fun v => by
    have hzero : (clearCounts s).complete.count v = 0#32 := tableGet_replicate 0#32 v
    rw [hcounts v, hzero, ← State.unread, hunread]
    exact Nat.zero_add _
  constructor
  · calc ((List.range 256).map fun v => (w.count (BitVec.ofNat 8 v)).toNat).sum
        = (allBytes.map fun v => (w.count v).toNat).sum := by rw [allBytes, List.map_map]; rfl
      _ = (allBytes.map fun v => (s.src.take s.srcLen.toNat).count v).sum := by simp only [hcount]
      _ = (s.src.take s.srcLen.toNat).length := sum_count_allBytes _
      _ = s.srcLen.toNat := hlen
  · intro v hv
    exact BitVec.eq_of_toNat_eq ((hcount v).trans (List.count_eq_zero_of_not_mem hv))

end Sys2Proof.Machine
end

section
/-! PROOFS. Family 42_priority_queue: the priority queue commands. -/

namespace Sys2Proof.Machine

/-! ### `PQ.ENQ` (R131) -/

section
variable {s : State} {n : NodeIx}

theorem exec_pqEnq (n : NodeIx) (s : State) : exec (.pqEnq n) s = (enqueue n s).finish := rfl

theorem State.isSome_node?_iff : (s.node? n).isSome = true ↔ n.toNat ≤ 510 ∧ n.toNat < s.nmNext := by
  rw [← not_iff_not, ← State.node?_eq_none_iff, Option.not_isSome_iff_eq_none]

theorem enqueue_of_node?_eq_none (h : s.node? n = none) : enqueue n s = .raised .badNode (n.setWidth 64) s := by
  simp [enqueue, h]

theorem enqueue_of_full (h : (s.node? n).isSome = true) (hfull : 256 ≤ s.pq.length) :
    enqueue n s = .raised .queueFull (n.setWidth 64) s := by
  obtain ⟨nd, hnd⟩ := Option.isSome_iff_exists.1 h
  simp [enqueue, hnd, pqCap, hfull]

/-- Of the three outcomes of `enqueue`, the one for a node and a queue with room. -/
theorem exec_pqEnq_of_room (hn : (s.node? n).isSome = true) (hroom : s.pq.length < 256)
    (hq : ∀ m ∈ s.pq, (s.node? m).isSome = true) :
    ∃ pre post, s.pq = pre ++ post ∧ exec (.pqEnq n) s = .next { s with pq := pre ++ n :: post, err := .ok } ∧
      (∀ m ∈ pre, s.weightOf m ≤ s.weightOf n) ∧ ∀ m ∈ post.head?, s.weightOf n < s.weightOf m := by
  rcases enqueue_cases (n := n) hq with ⟨hnone, -⟩ | ⟨-, hfull, -⟩ | ⟨-, -, pre, post, hsplit, henq, hpre, hpost⟩
  · simp [hnone] at hn
  · omega
  · exact ⟨pre, post, hsplit, by rw [exec_pqEnq, henq]; rfl, hpre, hpost⟩

end

/-- Settles O9: the three outcomes of `enqueue`. The two errors need nothing of the queue's entries. -/
theorem enqueueInsertsStably : Obligations.EnqueueInsertsStably := by
  unfold Obligations.EnqueueInsertsStably
  refine fun s n => ⟨rfl, fun hbad => ?bad, fun hn hfull => ?full, fun hn => ?room⟩
  case bad => rw [exec_pqEnq, enqueue_of_node?_eq_none (State.node?_eq_none_iff.2 hbad), Res.finish_raised]
  case full => rw [exec_pqEnq, enqueue_of_full (State.isSome_node?_iff.2 hn) hfull, Res.finish_raised]
  case room => exact exec_pqEnq_of_room (State.isSome_node?_iff.2 hn)

/-! ### Stable sorting by insertion (R135) -/

/-- `q` is the stable sort of `ns` by the weights `w`: the same entries, weights non-decreasing, entries of one weight
in the order of `ns`. -/
structure StableSortOf (w : NodeIx → Nat) (q ns : List NodeIx) : Prop where
  perm : q.Perm ns
  sorted : q.Pairwise fun m n => w m ≤ w n
  ties : ∀ x, q.filter (fun n => w n == x) = ns.filter fun n => w n == x

section
variable {w : NodeIx → Nat} {pre post ns : List NodeIx} {n : NodeIx}

theorem StableSortOf.nil : StableSortOf w [] [] := ⟨.refl _, .nil, fun _ => rfl⟩

/-- In a sorted list whose first entry outweighs a bound, every entry does. -/
theorem lt_weight_of_lt_head {x : Nat} (hsorted : post.Pairwise fun m n => w m ≤ w n)
    (hhead : ∀ m ∈ post.head?, x < w m) : ∀ m ∈ post, x < w m := by
  cases post with
  | nil => simp
  | cons p post =>
    have hp : x < w p := hhead p rfl
    exact List.forall_mem_cons.2 ⟨hp, fun m hm => hp.trans_le (List.rel_of_pairwise_cons hsorted hm)⟩

/-- Inserting the next arrival at the place R131 gives it sorts the arrivals stably: no entry behind that place has its
weight, so it comes last of its weight. -/
theorem StableSortOf.insert (h : StableSortOf w (pre ++ post) ns) (hpre : ∀ m ∈ pre, w m ≤ w n)
    (hpost : ∀ m ∈ post.head?, w n < w m) : StableSortOf w (pre ++ n :: post) (ns ++ [n]) := by
  obtain ⟨hsortedPre, hsortedPost, hcross⟩ := List.pairwise_append.1 h.sorted
  have hbehind : ∀ m ∈ post, w n < w m := lt_weight_of_lt_head hsortedPost hpost
  refine ⟨?perm, ?sorted, fun x => ?ties⟩
  case perm => exact List.perm_middle.trans ((h.perm.cons n).trans (List.perm_append_singleton n ns).symm)
  case sorted =>
    refine List.pairwise_append.2 ⟨hsortedPre, .cons (fun m hm => (hbehind m hm).le) hsortedPost, fun m hm => ?_⟩
    exact List.forall_mem_cons.2 ⟨hpre m hm, hcross m hm⟩
  case ties =>
    rw [List.filter_append, List.filter_append, ← h.ties x, List.filter_append]
    by_cases hx : w n = x
    · have hnone : post.filter (fun m => w m == x) = [] :=
        List.filter_eq_nil_iff.2 fun m hm => by simpa [← hx] using (hbehind m hm).ne'
      simp [hx, hnone]
    · simp [hx]

end

/-- Enqueuing valid nodes into the queue of the arrivals so far, sorted stably, sorts all arrivals stably. -/
theorem runCommands_pqEnq_stableSort {s : State} (ns : List NodeIx) {arrived q : List NodeIx} {e : Err}
    (h : StableSortOf s.weightOf q arrived) (hlen : arrived.length + ns.length ≤ 256)
    (hvalid : ∀ n ∈ arrived ++ ns, (s.node? n).isSome = true) :
    ∃ q' e', runCommands (ns.map Instr.pqEnq) { s with pq := q, err := e } = .next { s with pq := q', err := e' } ∧
      StableSortOf s.weightOf q' (arrived ++ ns) := by
  induction ns generalizing arrived q e with
  | nil => exact ⟨q, e, rfl, by rwa [List.append_nil]⟩
  | cons n ns ih =>
    rw [List.length_cons] at hlen
    obtain ⟨pre, post, hsplit, hexec, hpre, hpost⟩ :=
      exec_pqEnq_of_room (s := { s with pq := q, err := e }) (n := n) (hvalid n (by simp))
        (by change q.length < 256; rw [h.perm.length_eq]; omega)
        fun m hm => hvalid m (List.mem_append_left _ (h.perm.mem_iff.1 hm))
    obtain rfl : q = pre ++ post := hsplit
    rw [List.append_cons] at hvalid ⊢
    rw [List.map_cons, runCommands, hexec]
    exact ih (h.insert hpre hpost) (by simp; omega) hvalid

/-- Settles O11: from the empty queue, the stable sort of no arrivals. -/
theorem enqueuesSortStably : Obligations.EnqueuesSortStably := by
  unfold Obligations.EnqueuesSortStably
  intro s ns hempty hlen hvalid
  have hs : s = { s with pq := [], err := s.err } := by rw [← hempty]
  obtain ⟨q, e, hrun, hsort⟩ := runCommands_pqEnq_stableSort (e := s.err) ns (.nil (w := s.weightOf)) (by simpa) hvalid
  exact ⟨_, (congrArg _ hs).trans hrun, hsort.perm, hsort.sorted, hsort.ties, rfl⟩

/-! ### The other commands (R130, R132 to R134) -/

/-- Settles O10: `PQ.DEQ` and `PQ.PEEK` by whether the queue has a front entry. -/
theorem queueCommandEffects : Obligations.QueueCommandEffects := by
  unfold Obligations.QueueCommandEffects
  refine ⟨rfl, rfl, rfl, rfl, fun s => ⟨rfl, fun hempty => ?empty, fun q qs hfront => ?front, fun hlen => ?len⟩⟩
  case empty =>
    constructor
    · exact congrArg Res.finish (dequeue_nil hempty _)
    · exact congrArg Res.finish (dequeue_nil hempty _)
  case front =>
    constructor
    · exact congrArg Res.finish (dequeue_cons hfront _)
    · exact congrArg Res.finish (dequeue_cons hfront _)
  case len =>
    refine ⟨_, rfl, ?_, rfl⟩
    change (BitVec.ofNat 64 s.pq.length).toNat = s.pq.length
    rw [BitVec.toNat_ofNat, Nat.mod_eq_of_lt (by omega)]

end Sys2Proof.Machine
end

section
/-! PROOFS. Family 43_tree: the node store's invariants as it grows, the trees in it, `TR.BUILD`, what every step keeps. -/

namespace Sys2Proof.Machine

/-! ### One more node in the store (R28, R141, R142) -/

/-- Whether the index is a child of the node body (R28). -/
def NodeBody.isChild : NodeBody → NodeIx → Bool
  | .leaf _ _, _ => false
  | .internal l r _, n => n == l || n == r

theorem Node.hasChild_iff {nd : Node} {n : NodeIx} : nd.hasChild n ↔ nd.body.isChild n = true := by
  unfold Node.hasChild
  cases nd.body <;> simp [NodeBody.isChild]

/-- `t` holds the nodes of `s` and one more, of body `b`, which owns its children. -/
structure AddsNode (s t : State) (b : NodeBody) : Prop where
  length : t.nm.length = s.nm.length + 1
  node : ∀ n, t.node? n =
    if n = s.nextIx then some ⟨false, b⟩ else (s.node? n).map fun nd => ⟨nd.owned || b.isChild n, nd.body⟩

section
variable {s t : State} {b : NodeBody} {n : NodeIx} {nd : Node}

theorem State.toNat_lt_length (h : s.node? n = some nd) : n.toNat < s.nm.length := by
  obtain ⟨-, hget⟩ := State.node?_eq_some_iff.1 h
  exact (List.getElem?_eq_some_iff.1 hget).1

theorem State.ne_nextIx (hroom : s.nm.length < 511) (h : s.node? n = some nd) : n ≠ s.nextIx := by
  rintro rfl
  have := State.toNat_lt_length h
  rw [toNat_nextIx hroom] at this
  omega

theorem State.node?_pushNode (hroom : s.nm.length < 511) :
    (s.pushNode b).node? n = if n = s.nextIx then some ⟨false, b⟩ else s.node? n := by
  split
  · next h => rw [h, State.node?_pushNode_new hroom]
  · next h =>
    have hne : n.toNat ≠ s.nm.length := fun e =>
      h (BitVec.eq_of_toNat_eq (e.trans (toNat_nextIx hroom).symm))
    simp only [State.node?, State.pushNode_nm]
    split
    · rcases Nat.lt_or_gt_of_ne hne with hlt | hgt
      · rw [List.getElem?_append_left hlt]
      · rw [List.getElem?_eq_none hgt.le, List.getElem?_eq_none (by simp; omega)]
    · rfl

theorem State.node?_setOwned (s : State) (a n : NodeIx) : ({ s with nm := setOwned s.nm a } : State).node? n =
    (s.node? n).map fun nd => ⟨nd.owned || n == a, nd.body⟩ := by
  simp only [State.node?, getElem?_setOwned]
  split
  · congr 1
    funext nd
    by_cases h : n = a
    · simp [h]
    · have : n.toNat ≠ a.toNat := fun e => h (BitVec.eq_of_toNat_eq e)
      simp [this, beq_false_of_ne h]
  · rfl

theorem addsNode_pushLeaf (hroom : s.nm.length < 511) (v : Byte) (w : Word64) :
    AddsNode s (s.pushNode (.leaf v w)) (.leaf v w) := by
  refine ⟨by simp, fun n => ?_⟩
  rw [State.node?_pushNode hroom]
  simp [NodeBody.isChild]

/-- Joining two nodes, whatever the queue holds (R142, R146). -/
theorem addsNode_joinNodes (hroom : s.nm.length < 511) (l r : NodeIx) (nl nr : Node) (q : List NodeIx) :
    AddsNode s (joinNodes l r nl nr { s with pq := q }) (.internal l r (nl.body.weight + nr.body.weight)) := by
  refine ⟨by simp [joinNodes], fun n => ?_⟩
  have hix : State.nextIx { s with pq := q, nm := setOwned (setOwned s.nm l) r } = s.nextIx := by simp [State.nextIx]
  have hl : State.node? { s with pq := q, nm := setOwned s.nm l } n = _ := State.node?_setOwned s l n
  have hr := State.node?_setOwned { s with pq := q, nm := setOwned s.nm l } r n
  rw [joinNodes, State.node?_pushNode (by simpa using hroom), hix]
  refine if_congr Iff.rfl rfl (hr.trans ?_)
  rw [hl, Option.map_map]
  simp [Function.comp_def, NodeBody.isChild, Bool.or_assoc]

namespace AddsNode

theorem new (h : AddsNode s t b) : t.node? s.nextIx = some ⟨false, b⟩ := by rw [h.node, if_pos rfl]

theorem old (h : AddsNode s t b) (hroom : s.nm.length < 511) (hn : s.node? n = some nd) :
    t.node? n = some ⟨nd.owned || b.isChild n, nd.body⟩ := by
  rw [h.node, if_neg (State.ne_nextIx hroom hn), hn]
  rfl

/-- A node of the larger store is the new one or one of those before. -/
theorem cases (h : AddsNode s t b) (hn : t.node? n = some nd) :
    (n = s.nextIx ∧ nd = ⟨false, b⟩) ∨
    ∃ nd₀, s.node? n = some nd₀ ∧ nd = ⟨nd₀.owned || b.isChild n, nd₀.body⟩ := by
  rw [h.node] at hn
  split at hn
  · next e => exact .inl ⟨e, (Option.some.inj hn).symm⟩
  · obtain ⟨nd₀, hn₀, rfl⟩ := Option.map_eq_some_iff.1 hn
    exact .inr ⟨nd₀, hn₀, rfl⟩

theorem storeGrows (h : AddsNode s t b) (hroom : s.nm.length < 511) : StoreGrows s t := fun _ _ _ hn =>
  ⟨_, h.old hroom hn⟩

end AddsNode

/-! ### The store's invariants (R145) -/

theorem State.node?_of_getElem? {m : Nat} (hbound : s.nm.length ≤ 511) (h : s.nm[m]? = some nd) :
    (BitVec.ofNat 9 m).toNat = m ∧ s.node? (BitVec.ofNat 9 m) = some nd := by
  obtain ⟨hlt, -⟩ := List.getElem?_eq_some_iff.1 h
  have hm : (BitVec.ofNat 9 m).toNat = m := by simp; omega
  exact ⟨hm, State.node?_eq_some_iff.2 ⟨by omega, by rwa [hm]⟩⟩

theorem State.getElem?_of_node? (h : s.node? n = some nd) : s.nm[n.toNat]? = some nd :=
  (State.node?_eq_some_iff.1 h).2

/-- The two children of a node: nodes below it, distinct, owned, of which the node has the weight (R145(b), (c)). -/
structure GoodChildren (s : State) (n l r : NodeIx) (w : Word64) : Prop where
  left_lt : l.toNat < n.toNat
  right_lt : r.toNat < n.toNat
  distinct : l ≠ r
  nodes : ∃ nl nr : Node, s.node? l = some nl ∧ s.node? r = some nr ∧ nl.owned = true ∧ nr.owned = true ∧
    w.toNat = nl.body.weight.toNat + nr.body.weight.toNat

theorem StoreInv.goodChildren {o : Bool} {l r : NodeIx} {w : Word64} (h : StoreInv s)
    (hn : s.node? n = some ⟨o, .internal l r w⟩) : GoodChildren s n l r w := by
  obtain ⟨hl, hr, hne, hnodes⟩ := h.children _ _ _ _ _ (State.getElem?_of_node? hn)
  exact ⟨hl, hr, hne, hnodes⟩

theorem StoreInv.eq_of_isChild {m c : NodeIx} {ndm ndn : Node} (h : StoreInv s) (hm : s.node? m = some ndm)
    (hn : s.node? n = some ndn) (hcm : ndm.body.isChild c = true) (hcn : ndn.body.isChild c = true) : m = n :=
  BitVec.eq_of_toNat_eq (h.oneParent _ _ c _ _ (State.getElem?_of_node? hm) (State.getElem?_of_node? hn)
    (Node.hasChild_iff.2 hcm) (Node.hasChild_iff.2 hcn))

/-- A node's child is an owned node below it. -/
theorem StoreInv.child_node {c : NodeIx} (h : StoreInv s) (hn : s.node? n = some nd)
    (hc : nd.body.isChild c = true) : c.toNat < n.toNat ∧ ∃ ndc, s.node? c = some ndc ∧ ndc.owned = true := by
  obtain ⟨o, ⟨v, w⟩ | ⟨l, r, w⟩⟩ := nd
  · cases hc
  · obtain ⟨hl, hr, -, nl, nr, hnl, hnr, hol, hor, -⟩ := h.goodChildren hn
    simp only [NodeBody.isChild, Bool.or_eq_true, beq_iff_eq] at hc
    rcases hc with rfl | rfl
    · exact ⟨hl, nl, hnl, hol⟩
    · exact ⟨hr, nr, hnr, hor⟩

theorem StoreInv.exists_parent (h : StoreInv s) (hn : s.node? n = some nd) (ho : nd.owned = true) :
    ∃ m p, s.node? m = some p ∧ p.body.isChild n = true := by
  obtain ⟨p, hp, hchild⟩ := h.ownedIsChild n nd hn ho
  obtain ⟨m, hm⟩ := List.mem_iff_getElem?.1 hp
  exact ⟨_, p, (State.node?_of_getElem? h.bound hm).2, Node.hasChild_iff.1 hchild⟩

/-- The invariants told of the indices that name nodes. -/
theorem StoreInv.of_node? (hbound : s.nm.length ≤ 511)
    (hchildren : ∀ n o l r w, s.node? n = some ⟨o, .internal l r w⟩ → GoodChildren s n l r w)
    (hparent : ∀ m n c ndm ndn, s.node? m = some ndm → s.node? n = some ndn → ndm.body.isChild c = true →
      ndn.body.isChild c = true → m = n)
    (howned : ∀ n nd, s.node? n = some nd → nd.owned = true → ∃ m p, s.node? m = some p ∧ p.body.isChild n = true) :
    StoreInv s := by
  refine ⟨hbound, fun n o l r w hn => ?_, fun m n c ndm ndn hm hn hcm hcn => ?_, fun n nd hn ho => ?_⟩
  · obtain ⟨hix, hnode⟩ := State.node?_of_getElem? hbound hn
    obtain ⟨hl, hr, hne, hnodes⟩ := hchildren _ _ _ _ _ hnode
    exact ⟨by rwa [hix] at hl, by rwa [hix] at hr, hne, hnodes⟩
  · obtain ⟨hixm, hnodem⟩ := State.node?_of_getElem? hbound hm
    obtain ⟨hixn, hnoden⟩ := State.node?_of_getElem? hbound hn
    have := hparent _ _ c _ _ hnodem hnoden (Node.hasChild_iff.1 hcm) (Node.hasChild_iff.1 hcn)
    rw [← hixm, this, hixn]
  · obtain ⟨m, p, hp, hchild⟩ := howned n nd hn ho
    exact ⟨p, List.mem_of_getElem? (State.getElem?_of_node? hp), Node.hasChild_iff.2 hchild⟩

/-- The children a new node may have: two distinct roots, whose weights do not overflow (R142). -/
def Joinable (s : State) : NodeBody → Prop
  | .leaf _ _ => True
  | .internal l r w => l ≠ r ∧ ∃ nl nr, s.node? l = some nl ∧ s.node? r = some nr ∧ nl.owned = false ∧
      nr.owned = false ∧ w.toNat = nl.body.weight.toNat + nr.body.weight.toNat

theorem Joinable.child_node (h : Joinable s b) (hn : b.isChild n = true) :
    ∃ nd, s.node? n = some nd ∧ nd.owned = false := by
  cases b with
  | leaf v w => cases hn
  | internal l r w =>
    obtain ⟨-, nl, nr, hl, hr, hol, hor, -⟩ := h
    simp only [NodeBody.isChild, Bool.or_eq_true, beq_iff_eq] at hn
    rcases hn with rfl | rfl
    · exact ⟨nl, hl, hol⟩
    · exact ⟨nr, hr, hor⟩

/-- A node over roots of the store keeps the invariants: its children had no parent. -/
theorem StoreInv.add (h : StoreInv s) (hadd : AddsNode s t b) (hroom : s.nm.length < 511) (hb : Joinable s b) :
    StoreInv t := by
  have hparentless : ∀ m p c, s.node? m = some p → p.body.isChild c = true → b.isChild c ≠ true := by
    intro m p c hm hp hc
    obtain ⟨-, ndc, hndc, howned⟩ := h.child_node hm hp
    obtain ⟨ndc', hndc', hroot⟩ := hb.child_node hc
    cases hndc.symm.trans hndc'
    simp [howned] at hroot
  refine .of_node? (by rw [hadd.length]; omega) (fun n o l r w hn => ?children)
    (fun m n c ndm ndn hm hn hcm hcn => ?parent) (fun n nd hn ho => ?owned)
  case children =>
    rcases hadd.cases hn with ⟨rfl, heq⟩ | ⟨⟨o₀, b₀⟩, hn₀, heq⟩
    · cases heq
      obtain ⟨hne, nl, nr, hl, hr, -, -, hw⟩ := hb
      refine ⟨?_, ?_, hne, _, _, hadd.old hroom hl, hadd.old hroom hr, ?_, ?_, hw⟩
      · rw [toNat_nextIx hroom]; exact State.toNat_lt_length hl
      · rw [toNat_nextIx hroom]; exact State.toNat_lt_length hr
      · simp [NodeBody.isChild]
      · simp [NodeBody.isChild]
    · cases heq
      obtain ⟨hl, hr, hne, nl, nr, hnl, hnr, hol, hor, hw⟩ := h.goodChildren hn₀
      exact ⟨hl, hr, hne, _, _, hadd.old hroom hnl, hadd.old hroom hnr, by simp [hol], by simp [hor], hw⟩
  case parent =>
    rcases hadd.cases hm with ⟨rfl, rfl⟩ | ⟨p, hm₀, rfl⟩ <;> rcases hadd.cases hn with ⟨rfl, rfl⟩ | ⟨q, hn₀, rfl⟩
    · rfl
    · exact absurd hcm (hparentless _ _ _ hn₀ hcn)
    · exact absurd hcn (hparentless _ _ _ hm₀ hcm)
    · exact h.eq_of_isChild hm₀ hn₀ hcm hcn
  case owned =>
    rcases hadd.cases hn with ⟨-, rfl⟩ | ⟨nd₀, hn₀, rfl⟩
    · cases ho
    · rcases Bool.or_eq_true _ _ ▸ ho with ho | hc
      · obtain ⟨m, p, hm, hp⟩ := h.exists_parent hn₀ ho
        exact ⟨m, _, hadd.old hroom hm, hp⟩
      · exact ⟨_, _, hadd.new, hc⟩

theorem StoreInv.of_nm_eq (h : StoreInv s) (hnm : t.nm = s.nm) : StoreInv t := by
  have hnode (n : NodeIx) : t.node? n = s.node? n := by rw [State.node?, State.node?, hnm]
  obtain ⟨hbound, hchildren, hparent, howned⟩ := h
  constructor <;> simpa only [hnm, hnode]

/-! ### Queue and pointers while the store grows -/

theorem weightOf_mono (hg : StoreGrows s t) (hn : (s.node? n).isSome = true) : t.weightOf n = s.weightOf n := by
  obtain ⟨⟨o, b⟩, hn⟩ := Option.isSome_iff_exists.1 hn
  obtain ⟨o', hn'⟩ := hg n o b hn
  rw [State.weightOf_eq hn, State.weightOf_eq hn']

theorem isSome_mono (hg : StoreGrows s t) (hn : (s.node? n).isSome = true) : (t.node? n).isSome = true := by
  obtain ⟨⟨o, b⟩, hn⟩ := Option.isSome_iff_exists.1 hn
  obtain ⟨o', hn'⟩ := hg n o b hn
  rw [hn']
  rfl

/-- Entries taken out of the queue, and nodes made, leave a good queue. -/
theorem QueueInv.mono (h : QueueInv s) (hg : StoreGrows s t) (hpq : t.pq.Sublist s.pq) : QueueInv t := by
  obtain ⟨hbound, hnamed, hsorted⟩ := h
  refine ⟨hpq.length_le.trans hbound, fun n hn => isSome_mono hg (hnamed n (hpq.subset hn)), ?_⟩
  refine (hsorted.sublist hpq).imp_of_mem fun {m n} hm hn hle => ?_
  rw [weightOf_mono hg (hnamed m (hpq.subset hm)), weightOf_mono hg (hnamed n (hpq.subset hn))]
  exact hle

/-- Everything `enqueue` can do to a good queue (R131). -/
theorem QueueInv.enqueue_cases (h : QueueInv s) (n : NodeIx) :
    (∃ k, enqueue n s = .raised k (n.setWidth 64) s) ∨
    ∃ q, enqueue n s = .done { s with pq := q } ∧ q.Perm (n :: s.pq) ∧ QueueInv { s with pq := q } := by
  obtain ⟨hbound, hnamed, hsorted⟩ := h
  rcases Machine.enqueue_cases (n := n) hnamed with ⟨-, henq⟩ | ⟨-, -, henq⟩ |
    ⟨hn, hroom, pre, post, hsplit, henq, hpre, hpost⟩
  · exact .inl ⟨_, henq⟩
  · exact .inl ⟨_, henq⟩
  · have hperm : (pre ++ n :: post).Perm (n :: s.pq) := hsplit ▸ List.perm_middle
    have hsort : StableSortOf s.weightOf (pre ++ post) s.pq :=
      ⟨hsplit ▸ .refl _, hsplit ▸ hsorted, fun _ => by rw [hsplit]⟩
    refine .inr ⟨_, henq, hperm, ?_, fun m hm => ?_, (hsort.insert hpre hpost).sorted⟩
    · rw [hperm.length_eq, List.length_cons]
      exact hroom
    · rcases List.mem_cons.1 (hperm.mem_iff.1 hm) with rfl | hm
      · exact Option.isSome_iff_ne_none.2 hn
      · exact hnamed m hm

theorem PointersInv.mono (h : PointersInv s) (hg : StoreGrows s t) (hroot : StatePart.root.Kept s t)
    (hcur : StatePart.cur.Kept s t) : PointersInv t := by
  obtain ⟨hr, hrv⟩ := hroot
  obtain ⟨hc, hcv⟩ := hcur
  refine ⟨fun hvalid => ?_, fun hvalid => ?_⟩
  · rw [hr]
    exact isSome_mono hg (h.root (hrv.symm.trans hvalid))
  · obtain ⟨o, l, r, w, hn⟩ := h.cur (hcv.symm.trans hvalid)
    obtain ⟨o', hn'⟩ := hg _ _ _ hn
    exact ⟨o', l, r, w, hc.symm ▸ hn'⟩

end


/-! ### Trees in a good store (R145, R152, R153) -/

section
variable {s : State} {n : NodeIx} {nd : Node}

/-- Every node is the root of a tree, since a child's index is below its parent's (R28). -/
theorem StoreInv.exists_treeIs (h : StoreInv s) (hn : s.node? n = some nd) : ∃ T, TreeIs s n T := by
  induction hk : n.toNat using Nat.strong_induction_on generalizing n nd with
  | _ k ih =>
    subst hk
    obtain ⟨o, ⟨v, w⟩ | ⟨l, r, w⟩⟩ := nd
    · exact ⟨_, .leaf hn⟩
    · obtain ⟨hl, hr, -, nl, nr, hnl, hnr, -, -, -⟩ := h.goodChildren hn
      obtain ⟨L, hL⟩ := ih _ hl hnl rfl
      obtain ⟨R, hR⟩ := ih _ hr hnr rfl
      exact ⟨_, .node hn hL hR⟩

/-- A walk with more fuel than its node's index ends. -/
theorem StoreInv.heightFrom_ends {T : TreeVal} (h : StoreInv s) (ht : TreeIs s n T) {fuel : Nat}
    (hfuel : n.toNat < fuel) : ∃ k, heightFrom s fuel n = .ok k := by
  induction ht generalizing fuel with
  | leaf hn =>
    obtain ⟨fuel, rfl⟩ : ∃ f, fuel = f + 1 := ⟨fuel - 1, by omega⟩
    exact ⟨0, by simp only [heightFrom, hn]⟩
  | node hn _ _ ihl ihr =>
    obtain ⟨fuel, rfl⟩ : ∃ f, fuel = f + 1 := ⟨fuel - 1, by omega⟩
    have hc := h.goodChildren hn
    obtain ⟨kl, hkl⟩ := ihl (fuel := fuel) (by have := hc.left_lt; omega)
    obtain ⟨kr, hkr⟩ := ihr (fuel := fuel) (by have := hc.right_lt; omega)
    exact ⟨1 + max kl kr, by simp only [heightFrom, hn, hkl, hkr]⟩

/-- `TR.EQ`'s walk compares the two tree values (R153). -/
theorem StoreInv.equivFrom_eq (h : StoreInv s) {m : NodeIx} {T U : TreeVal} (ht : TreeIs s n T) (hu : TreeIs s m U)
    {fuel : Nat} (hfuel : n.toNat < fuel) : equivFrom s fuel n m = .ok (decide (T = U)) := by
  induction ht generalizing m U fuel with
  | leaf hn =>
    obtain ⟨fuel, rfl⟩ : ∃ f, fuel = f + 1 := ⟨fuel - 1, by omega⟩
    cases hu with
    | leaf hm => simp only [equivFrom, hn, hm, TreeVal.leaf.injEq, Bool.decide_and]; rfl
    | node hm _ _ => simp [equivFrom, hn, hm]
  | node hn _ _ ihl ihr =>
    obtain ⟨fuel, rfl⟩ : ∃ f, fuel = f + 1 := ⟨fuel - 1, by omega⟩
    have hc := h.goodChildren hn
    cases hu with
    | leaf hm => simp [equivFrom, hn, hm]
    | @node _ l' r' _ _ L' R' hm hL hR =>
      have hl := ihl hL (fuel := fuel) (by have := hc.left_lt; omega)
      have hr := ihr hR (fuel := fuel) (by have := hc.right_lt; omega)
      simp only [equivFrom, hn, hm, hl, hr, TreeVal.node.injEq, Bool.decide_and]
      split <;> simp_all

/-! ### No tree is higher than 255 (R145(e))

Each internal node has two children of its own, all below the last node, so at most 255 of 511 nodes are internal. -/

/-- The indices of a body's children. -/
def NodeBody.children : NodeBody → List NodeIx
  | .leaf _ _ => []
  | .internal l r _ => [l, r]

theorem NodeBody.mem_children {b : NodeBody} {c : NodeIx} : c ∈ b.children ↔ b.isChild c = true := by
  cases b <;> simp [NodeBody.children, NodeBody.isChild]

def Node.isInternal (nd : Node) : Bool := !nd.body.isLeaf

theorem length_flatMap_children (nm : List Node) :
    (nm.flatMap fun nd => nd.body.children).length = 2 * nm.countP Node.isInternal := by
  induction nm with
  | nil => rfl
  | cons nd nm ih =>
    rw [List.flatMap_cons, List.length_append, ih, List.countP_cons]
    obtain ⟨o, ⟨v, w⟩ | ⟨l, r, w⟩⟩ := nd
    · simp [NodeBody.children, Node.isInternal, NodeBody.isLeaf]
    · simp [NodeBody.children, Node.isInternal, NodeBody.isLeaf]
      omega

theorem StoreInv.nodup_children (h : StoreInv s) : (s.nm.flatMap fun nd => nd.body.children).Nodup := by
  refine List.nodup_flatMap.2 ⟨fun nd hnd => ?_, List.pairwise_iff_getElem.2 fun i j hi hj hij c hci hcj => ?_⟩
  · obtain ⟨i, hi⟩ := List.mem_iff_getElem?.1 hnd
    obtain ⟨o, ⟨v, w⟩ | ⟨l, r, w⟩⟩ := nd
    · exact .nil
    · have := (h.goodChildren (State.node?_of_getElem? h.bound hi).2).distinct
      simpa [NodeBody.children] using this
  · have := h.oneParent i j c _ _ (List.getElem?_eq_getElem hi) (List.getElem?_eq_getElem hj)
      (Node.hasChild_iff.2 (NodeBody.mem_children.1 hci)) (Node.hasChild_iff.2 (NodeBody.mem_children.1 hcj))
    omega

theorem StoreInv.internals_le (h : StoreInv s) : s.nm.countP Node.isInternal ≤ 255 := by
  have hsub : ((s.nm.flatMap fun nd => nd.body.children).map BitVec.toNat) ⊆ List.range (s.nm.length - 1) := by
    intro k hk
    obtain ⟨c, hmem, rfl⟩ := List.mem_map.1 hk
    obtain ⟨nd, hnd, hc⟩ := List.mem_flatMap.1 hmem
    obtain ⟨i, hi⟩ := List.mem_iff_getElem?.1 hnd
    obtain ⟨hix, hnode⟩ := State.node?_of_getElem? h.bound hi
    obtain ⟨hlt, -⟩ := h.child_node hnode (NodeBody.mem_children.1 hc)
    have := State.toNat_lt_length hnode
    exact List.mem_range.2 (by omega)
  have hnodup := h.nodup_children.map (f := BitVec.toNat) fun a b => BitVec.eq_of_toNat_eq
  have hle := (List.subperm_of_subset hnodup hsub).length_le
  rw [List.length_map, length_flatMap_children, List.length_range] at hle
  have := h.bound
  rw [nodeMax] at this
  omega

/-- A tree is no higher than there are internal nodes at or below its root's index. -/
theorem StoreInv.height_le_internals (h : StoreInv s) {k : Nat} (hk : HeightIs s n k) :
    k ≤ (s.nm.take (n.toNat + 1)).countP Node.isInternal := by
  induction hk with
  | leaf _ => exact Nat.zero_le _
  | @internal n l r o w kl kr hn _ _ ihl ihr =>
    obtain ⟨hl, hr, -, -⟩ := h.goodChildren hn
    have hbelow : ∀ c : NodeIx, c.toNat < n.toNat → (s.nm.take (c.toNat + 1)).countP Node.isInternal ≤
        (s.nm.take n.toNat).countP Node.isInternal := fun c hc =>
      (List.take_sublist_take_left (by omega)).countP_le
    have hself : (s.nm.take (n.toNat + 1)).countP Node.isInternal =
        (s.nm.take n.toNat).countP Node.isInternal + 1 := by
      rw [List.take_add_one, State.getElem?_of_node? hn, List.countP_append]
      rfl
    have := hbelow l hl
    have := hbelow r hr
    omega

theorem StoreInv.height_le (h : StoreInv s) {k : Nat} (hk : HeightIs s n k) : k ≤ 255 :=
  (h.height_le_internals hk).trans ((List.take_sublist _ _).countP_le.trans h.internals_le)

theorem StoreInv.exists_height (h : StoreInv s) (hn : s.node? n = some nd) :
    ∃ k, heightFrom s (walkFuel s) n = .ok k ∧ HeightIs s n k ∧ k ≤ 255 := by
  obtain ⟨T, hT⟩ := h.exists_treeIs hn
  have hfuel : n.toNat < walkFuel s := Nat.lt_succ_of_lt (State.toNat_lt_length hn)
  obtain ⟨k, hk⟩ := h.heightFrom_ends hT hfuel
  exact ⟨k, hk, heightFrom_sound hk, h.height_le (heightFrom_sound hk)⟩

/-- No path is longer than the tree is high (R181). -/
theorem HeightIs.path_length_le {k : Nat} (hk : HeightIs s n k) {p : BinaryCode} {m : NodeIx} (hp : Path s n p m) :
    p.length ≤ k := by
  induction hk generalizing p with
  | leaf hn =>
    obtain ⟨rfl, -⟩ := hp.of_leaf hn
    exact Nat.zero_le _
  | internal hn _ _ ihl ihr =>
    rcases hp.of_internal hn with ⟨rfl, -⟩ | ⟨q, rfl, hq⟩ | ⟨q, rfl, hq⟩
    · exact Nat.zero_le _
    · have := ihl hq
      rw [List.length_cons]
      omega
    · have := ihr hq
      rw [List.length_cons]
      omega

theorem StoreInv.leadsTo_length_le (h : StoreInv s) (hn : s.node? n = some nd) {p : BinaryCode} {v : Byte}
    (hp : LeadsTo s n p v) : p.length ≤ 255 := by
  obtain ⟨k, -, hk, hle⟩ := h.exists_height hn
  obtain ⟨m, o, w, hpath, -⟩ := hp
  exact (hk.path_length_le hpath).trans hle

end


/-! ### The forest `TR.BUILD` works on (R146) -/

/-- A good store and queue, the queue holding exactly the roots: the nodes that are no node's child. -/
structure Forest (s : State) : Prop where
  store : StoreInv s
  queue : QueueInv s
  roots : ∀ n nd, s.node? n = some nd → (nd.owned = false ↔ n ∈ s.pq)

theorem forest_clearTree (s : State) : Forest s.clearTree := by
  have hnode (n : NodeIx) : s.clearTree.node? n = none := by simp [State.node?]
  exact {
    store := ⟨Nat.zero_le _, by simp, by simp, by simp [hnode]⟩
    queue := ⟨Nat.zero_le _, by simp, by simp⟩
    roots := by simp [hnode] }

section
variable {s t u : State} {b : NodeBody}

/-- A node put over some of the roots and then enqueued is a root in their place. -/
theorem Forest.add (h : Forest s) (hadd : AddsNode s u b) (hroom : s.nm.length < 511) (hb : Joinable s b)
    (hsub : u.pq.Sublist s.pq) (hpq : ∀ n, n ∈ u.pq ↔ n ∈ s.pq ∧ b.isChild n = false)
    (henq : enqueue s.nextIx u = .done t) : ∃ q, t = { u with pq := q } ∧ Forest t := by
  have hqueue : QueueInv u := h.queue.mono (hadd.storeGrows hroom) hsub
  rcases hqueue.enqueue_cases s.nextIx with ⟨k, hraise⟩ | ⟨q, hdone, hperm, hq⟩
  · cases hraise.symm.trans henq
  · cases hdone.symm.trans henq
    refine ⟨q, rfl, (h.store.add hadd hroom hb).of_nm_eq rfl, hq, fun n nd hn => ?_⟩
    rw [show n ∈ q ↔ n = s.nextIx ∨ n ∈ u.pq from hperm.mem_iff.trans List.mem_cons, hpq]
    rcases hadd.cases (show u.node? n = some nd from hn) with ⟨rfl, rfl⟩ | ⟨nd₀, hn₀, rfl⟩
    · simp
    · rw [← h.roots n nd₀ hn₀]
      simp [State.ne_nextIx hroom hn₀]

/-- A leaf made and enqueued (R146 step 1). -/
theorem addLeaf_forest {v : Byte} (h : Forest s) (hroom : s.nm.length < 511) (hadd : addLeaf v s = .done t) :
    ∃ q, t = { s.pushNode (.leaf v ((s.count v).setWidth 64)) with pq := q } ∧ Forest t :=
  h.add (addsNode_pushLeaf hroom v _) hroom trivial (.refl _) (by simp [NodeBody.isChild]) hadd

theorem mergeStep_eq_enqueue {l r : NodeIx} {q : List NodeIx} {nl nr : Node} (hpq : s.pq = l :: r :: q) (hlr : l ≠ r)
    (hl : s.node? l = some nl) (hr : s.node? r = some nr) :
    mergeStep s = enqueue s.nextIx (joinNodes l r nl nr { s with pq := q }) := by
  have hix : (takeChildren l r q s).nextIx = s.nextIx := by simp [takeChildren, State.nextIx]
  rw [mergeStep_eq hpq hlr hl hr, hix]
  rfl

/-- The first two roots joined (R146 step 3). -/
theorem mergeStep_forest {l r : NodeIx} {q : List NodeIx} {nl nr : Node} (h : Forest s) (hroom : s.nm.length < 511)
    (hnodup : s.pq.Nodup) (hpq : s.pq = l :: r :: q) (hl : s.node? l = some nl) (hr : s.node? r = some nr)
    (hlight : nl.body.weight.toNat + nr.body.weight.toNat < 2 ^ 64) (hstep : mergeStep s = .done t) :
    ∃ q', t = { joinNodes l r nl nr { s with pq := q } with pq := q' } ∧ Forest t := by
  have hnodup' := hpq ▸ hnodup
  simp only [List.nodup_cons, List.mem_cons, not_or] at hnodup'
  obtain ⟨⟨hlr, hlq⟩, hrq, -⟩ := hnodup'
  rw [mergeStep_eq_enqueue hpq hlr hl hr] at hstep
  refine h.add (addsNode_joinNodes hroom l r nl nr q) hroom ⟨hlr, nl, nr, hl, hr, ?_, ?_, ?_⟩
    ?_ (fun n => ?_) hstep
  · exact (h.roots l nl hl).2 (by simp [hpq])
  · exact (h.roots r nr hr).2 (by simp [hpq])
  · rw [BitVec.toNat_add, Nat.mod_eq_of_lt hlight]
  · rw [hpq]
    exact (List.sublist_cons_self r q).trans (List.sublist_cons_self l _)
  · rw [hpq]
    simp only [joinNodes, State.pushNode_pq, List.mem_cons, NodeBody.isChild, Bool.or_eq_false_iff, beq_eq_false_iff_ne]
    constructor
    · intro hn
      exact ⟨.inr (.inr hn), fun e => hlq (e ▸ hn), fun e => hrq (e ▸ hn)⟩
    · rintro ⟨rfl | rfl | hn, hnl, hnr⟩
      · exact absurd rfl hnl
      · exact absurd rfl hnr
      · exact hn

/-- The node made last is a root: a child lies below its parent. -/
theorem StoreInv.last_root (h : StoreInv s) {n : NodeIx} {nd : Node} (hn : s.node? n = some nd)
    (hlast : n.toNat + 1 = s.nm.length) : nd.owned = false := by
  by_contra howned
  obtain ⟨m, p, hm, hchild⟩ := h.exists_parent hn (by simpa using howned)
  obtain ⟨hlt, -⟩ := h.child_node hm hchild
  have := State.toNat_lt_length hm
  omega

/-! ### The leaves (R146 step 1) -/

/-- The leaves of the occupied values among `vs`. -/
def leafBodies (ft : FreqTable) (vs : List Byte) : List NodeBody :=
  (vs.filter fun v => tableGet ft v != 0#32).map fun v => .leaf v ((tableGet ft v).setWidth 64)

theorem buildLeaves_forest {vs : List Byte} (h : Forest s) (hroom : s.nm.length + vs.length ≤ 511)
    (hbuild : buildLeaves vs s = .done t) :
    Forest t ∧ t.nm.map Node.body = s.nm.map Node.body ++ leafBodies s.ft vs := by
  induction vs generalizing s with
  | nil =>
    cases hbuild
    exact ⟨h, (List.append_nil _).symm⟩
  | cons v vs ih =>
    rw [List.length_cons] at hroom
    by_cases hv : s.count v = 0#32
    · rw [buildLeaves, if_pos hv] at hbuild
      have hskip : leafBodies s.ft (v :: vs) = leafBodies s.ft vs := by
        have : tableGet s.ft v = 0#32 := hv
        simp [leafBodies, this]
      rw [hskip]
      exact ih h (by omega) hbuild
    · rw [buildLeaves, if_neg hv] at hbuild
      obtain ⟨u, hadd, hrest⟩ := Res.andThen_eq_done.1 hbuild
      obtain ⟨q, rfl, hforest⟩ := addLeaf_forest h (by omega) hadd
      obtain ⟨hforest', hbodies⟩ := ih hforest (by simp; omega) hrest
      refine ⟨hforest', hbodies.trans ?_⟩
      have : tableGet s.ft v ≠ 0#32 := hv
      simp [leafBodies, this, State.count]

theorem buildLeaves_of_unoccupied {vs : List Byte} (h : ∀ v ∈ vs, s.count v = 0#32) : buildLeaves vs s = .done s := by
  induction vs with
  | nil => rfl
  | cons v vs ih =>
    obtain ⟨hv, hvs⟩ := List.forall_mem_cons.1 h
    rw [buildLeaves, if_pos hv, ih hvs]

theorem length_insertLeaves (ft : FreqTable) (vs : List Byte) (Q : List (Nat × TreeVal)) :
    (insertLeaves ft vs Q).length = (leafBodies ft vs).length + Q.length := by
  unfold insertLeaves leafBodies
  rw [List.length_map]
  induction vs.filter (fun v => tableGet ft v != 0#32) generalizing Q with
  | nil => simp
  | cons v vs ih =>
    rw [List.foldl_cons, ih, length_insertTree, List.length_cons]
    omega

/-- The leaves weigh the counts; a value with no leaf counts 0. -/
theorem sum_insertLeaves (ft : FreqTable) (vs : List Byte) (Q : List (Nat × TreeVal)) :
    ((insertLeaves ft vs Q).map Prod.fst).sum = (vs.map fun v => (tableGet ft v).toNat).sum + (Q.map Prod.fst).sum := by
  induction vs generalizing Q with
  | nil => simp [insertLeaves]
  | cons v vs ih =>
    rw [List.map_cons, List.sum_cons]
    by_cases hv : tableGet ft v = 0#32
    · have hskip : insertLeaves ft (v :: vs) Q = insertLeaves ft vs Q := by simp [insertLeaves, hv]
      rw [hskip, ih, hv]
      simp
    · have hins : insertLeaves ft (v :: vs) Q =
          insertLeaves ft vs (insertTree ((tableGet ft v).toNat, .leaf v ((tableGet ft v).setWidth 64)) Q) := by
        simp [insertLeaves, hv]
      rw [hins, ih, sum_insertTree]
      dsimp only
      omega

/-! ### The merges (R146 step 3) -/

/-- During the merges: the leaves stand first, internal nodes follow, and the roots weigh `total` together. -/
structure Merging (leaves : List NodeBody) (k total : Nat) (s : State) : Prop where
  forest : Forest s
  arena : ∃ Q, Arena s k Q ∧ (Q.map Prod.fst).sum = total
  bodies : ∃ inner, s.nm.map Node.body = leaves ++ inner ∧ ∀ b ∈ inner, b.isLeaf = false

theorem map_body_setOwned (nm : List Node) (n : NodeIx) : (setOwned nm n).map Node.body = nm.map Node.body := by
  refine List.ext_getElem? fun i => ?_
  rw [List.getElem?_map, List.getElem?_map, getElem?_setOwned, Option.map_map]
  congr 1
  funext nd
  simp only [Function.comp_apply]
  split <;> rfl

theorem map_body_joinNodes (l r : NodeIx) (nl nr : Node) (s : State) : (joinNodes l r nl nr s).nm.map Node.body =
    s.nm.map Node.body ++ [.internal l r (nl.body.weight + nr.body.weight)] := by
  simp [joinNodes, map_body_setOwned]

variable {leaves : List NodeBody} {k total : Nat}

theorem mergeStep_merging (h : Merging leaves k total s) (hk : k ≤ 256) (hlen : 1 < s.pq.length) :
    ∃ t, mergeStep s = .done t ∧ Merging leaves k total t := by
  obtain ⟨hforest, ⟨Q, harena, hsum⟩, inner, hbodies, hinner⟩ := h
  match Q, harena.queue.length_eq with
  | [], e | [_], e => simp [e] at hlen
  | x :: y :: Q, _ =>
    obtain ⟨l, pq, hl, hq, hpq⟩ := List.forall₂_cons_right_iff.1 harena.queue
    obtain ⟨r, q, hr, -, rfl⟩ := List.forall₂_cons_right_iff.1 hq
    obtain ⟨nl, hnl⟩ := hl.1.exists_node
    obtain ⟨nr, hnr⟩ := hr.1.exists_node
    have hwl : nl.body.weight.toNat = x.1 := by rw [← State.weightOf_eq hnl, hl.2]
    have hwr : nr.body.weight.toNat = y.1 := by rw [← State.weightOf_eq hnr, hr.2]
    have hlight := harena.light
    have hsize := harena.size
    simp only [List.map_cons, List.sum_cons, List.length_cons] at hlight hsize hsum
    obtain ⟨t, hstep, harena'⟩ := mergeStep_arena harena hk
    obtain ⟨q', rfl, hforest'⟩ :=
      mergeStep_forest hforest (by omega) harena.nodup hpq hnl hnr (by omega) hstep
    refine ⟨_, hstep, hforest', ⟨_, harena', ?_⟩,
      inner ++ [.internal l r (nl.body.weight + nr.body.weight)], ?_, ?_⟩
    · rw [sum_insertTree]
      dsimp only
      omega
    · rw [← List.append_assoc, ← hbodies]
      exact map_body_joinNodes l r nl nr { s with pq := q }
    · exact List.forall_mem_append.2 ⟨hinner, by simp [NodeBody.isLeaf]⟩

theorem mergeLoop_merging {turns : Nat} (h : Merging leaves k total s) (hk : k ≤ 256)
    (hloop : mergeLoop turns s = .done t) : Merging leaves k total t := by
  induction turns generalizing s with
  | zero =>
    cases hloop
    exact h
  | succ turns ih =>
    rw [mergeLoop] at hloop
    split at hloop
    · next hlen =>
      obtain ⟨u, hstep, hu⟩ := mergeStep_merging h hk hlen
      rw [hstep] at hloop
      exact ih hu hloop
    · cases hloop
      exact h

namespace Merging
variable {r : NodeIx}

/-- With one root left there are one fewer internal nodes than leaves (R146). -/
theorem length_of_single (h : Merging leaves k total s) (hr : s.pq = [r]) : s.nm.length + 1 = 2 * k := by
  obtain ⟨Q, harena, -⟩ := h.arena
  have hlen := harena.queue.length_eq
  rw [hr, List.length_singleton] at hlen
  rw [hlen]
  exact harena.size

theorem weightOf_single (h : Merging leaves k total s) (hr : s.pq = [r]) : s.weightOf r = total := by
  obtain ⟨Q, harena, hsum⟩ := h.arena
  have hqueue := harena.queue
  rw [hr] at hqueue
  obtain ⟨x, _, hx, hnil, rfl⟩ := List.forall₂_cons_left_iff.1 hqueue
  cases hnil
  rw [hx.2, ← hsum]
  simp

/-- The one root left is the last node. -/
theorem toNat_single (h : Merging leaves k total s) (hr : s.pq = [r]) : r.toNat + 1 = s.nm.length := by
  have hlen := h.length_of_single hr
  have hbound : s.nm.length ≤ 511 := h.forest.store.bound
  have hlt : s.nm.length - 1 < s.nm.length := by omega
  obtain ⟨hix, hnode⟩ := State.node?_of_getElem? hbound (List.getElem?_eq_getElem hlt)
  have hroot := (h.forest.roots _ _ hnode).1 (h.forest.store.last_root hnode (by rw [hix]; omega))
  rw [hr, List.mem_singleton] at hroot
  rw [← hroot, hix]
  omega

theorem leaf_node (h : Merging leaves k total s) {i : Nat} {b : NodeBody} (hb : leaves[i]? = some b) :
    ∃ o, s.nm[i]? = some ⟨o, b⟩ := by
  obtain ⟨inner, hbodies, -⟩ := h.bodies
  obtain ⟨hlt, -⟩ := List.getElem?_eq_some_iff.1 hb
  have hbody : (s.nm[i]?).map Node.body = some b := by
    rw [← List.getElem?_map, hbodies, List.getElem?_append_left hlt, hb]
  obtain ⟨⟨o, b'⟩, hnode, rfl⟩ := Option.map_eq_some_iff.1 hbody
  exact ⟨o, hnode⟩

theorem internal_node (h : Merging leaves k total s) {i : Nat} (hle : leaves.length ≤ i) (hlt : i < s.nm.length) :
    ∃ o l r w, s.nm[i]? = some ⟨o, .internal l r w⟩ := by
  obtain ⟨inner, hbodies, hinner⟩ := h.bodies
  obtain ⟨⟨o, b⟩, hget⟩ : ∃ nd, s.nm[i]? = some nd := ⟨_, List.getElem?_eq_getElem hlt⟩
  have hbody : inner[i - leaves.length]? = some b := by
    rw [← List.getElem?_append_right hle, ← hbodies, List.getElem?_map, hget, Option.map_some]
  have hnot_leaf := hinner b (List.mem_of_getElem? hbody)
  cases b with
  | leaf v w => cases hnot_leaf
  | internal l r w => exact ⟨o, l, r, w, hget⟩

/-- Every node but the one root left is owned. -/
theorem owned_iff (h : Merging leaves k total s) (hr : s.pq = [r]) {i : Nat} {nd : Node} (hn : s.nm[i]? = some nd) :
    nd.owned = true ↔ i ≠ r.toNat := by
  obtain ⟨hix, hnode⟩ := State.node?_of_getElem? h.forest.store.bound hn
  rw [← Bool.not_eq_false, h.forest.roots _ nd hnode, hr, List.mem_singleton, ← BitVec.toNat_inj, hix]

end Merging

/-! ### `TR.BUILD` (R146) -/

theorem buildBody_of_empty (h : ∀ v, s.count v = 0#32) : buildBody s = .raised .emptyQueue 0#64 s.clearTree := by
  rw [buildBody, buildLeaves_of_unoccupied (s := s.clearTree) fun v _ => h v, Res.andThen_done,
    if_pos (State.clearTree_pq s), raise_eq]

theorem count_eq_zero (h : occupied s.ft = []) (v : Byte) : s.count v = 0#32 := by
  by_contra hv
  simpa [h] using mem_occupied.2 hv

/-- What step 4 does when one tree is left. -/
def State.crown (r : NodeIx) (s : State) : State :=
  { s with pq := [], root := r, rootValid := true, res0 := r.setWidth 64 }

/-- With an occupied value, `TR.BUILD` merges the leaves until one root is left, and takes it. -/
theorem buildBody_of_occupied (h : occupied s.ft ≠ []) : ∃ u r,
    Merging (leafBodies s.ft allBytes) (occupied s.ft).length (allBytes.map fun v => (s.count v).toNat).sum u ∧
    u.pq = [r] ∧ buildBody s = .done (u.crown r) := by
  obtain ⟨t, k, hk, hleaves, harena⟩ := buildLeaves_arena allBytes (arena_clearTree s) (by simp)
  obtain ⟨hforest, hbodies⟩ := buildLeaves_forest (forest_clearTree s) (by simp) hleaves
  rw [State.clearTree_ft] at harena hbodies
  have hnum : (leafBodies s.ft allBytes).length = (occupied s.ft).length := by
    rw [leafBodies, List.length_map, occupied]
  have hQ : (insertLeaves s.ft allBytes []).length = (occupied s.ft).length := by
    rw [length_insertLeaves, hnum, List.length_nil, Nat.add_zero]
  have hnm : t.nm.length = (occupied s.ft).length := by
    rw [← List.length_map (f := Node.body), hbodies, ← hnum]
    simp
  have hk' : k = (occupied s.ft).length := by
    have := harena.size
    omega
  have hpos : 0 < (occupied s.ft).length := List.length_pos_iff.2 h
  have hpq : t.pq.length = (occupied s.ft).length := harena.queue.length_eq.trans hQ
  have hstart : Merging (leafBodies s.ft allBytes) k (allBytes.map fun v => (s.count v).toNat).sum t := by
    refine ⟨hforest, ⟨_, harena, ?_⟩, [], by simpa using hbodies, by simp⟩
    simp only [sum_insertLeaves, List.map_nil, List.sum_nil, Nat.add_zero, State.count]
  obtain ⟨T, u, r, -, hloop, hr, -⟩ := mergeLoop_arena t.pq.length 256 harena hk
    (List.length_pos_iff.1 (hQ ▸ hpos)) (by omega) (by omega)
  refine ⟨u, r, hk' ▸ mergeLoop_merging hstart hk hloop, hr, ?_⟩
  rw [buildBody, hleaves, Res.andThen_done, if_neg (List.length_pos_iff.1 (hpq ▸ hpos)), hloop, Res.andThen_done,
    takeRoot, dequeue_cons hr, result_eq]
  rfl

end


/-! ### What the invariants rest on -/

section
variable {s t : State} {ps : List StatePart}

/-- The invariants after a change of the parts `ps`: only those that speak of a changed part are to be shown. -/
theorem Inv.of_changesOnly (h : Inv s) (hc : ChangesOnly ps s t) (hstore : .nm ∈ ps → StoreInv t := by simp)
    (hqueue : .nm ∈ ps ∨ .pq ∈ ps → QueueInv t := by simp)
    (hpointers : .nm ∈ ps ∨ .root ∈ ps ∨ .cur ∈ ps → PointersInv t := by simp)
    (hcodes : .codes ∈ ps ∨ .ct ∈ ps → CodesInv t := by simp) (hbuffer : .buffer ∈ ps → BufferInv t := by simp)
    (hsink : .sink ∈ ps → t.snk.wf = true := by simp) : Inv t := by
  have hnm (hnm : .nm ∉ ps) : t.nm = s.nm := hc .nm hnm
  refine ⟨?store, ?queue, ?pointers, ?codes, ?buffer, ?sink⟩
  case store => exact (em _).elim hstore fun hn => h.store.of_nm_eq (hnm hn)
  case queue =>
    refine (em _).elim hqueue fun hn => ?_
    obtain ⟨hn, hp⟩ := not_or.1 hn
    have hpq : t.pq = s.pq := hc .pq hp
    exact h.queue.mono (.of_nm_eq (hnm hn)) (hpq ▸ .refl _)
  case pointers =>
    refine (em _).elim hpointers fun hn => ?_
    obtain ⟨hn, hr, hcur⟩ := not_or.1 hn |>.imp_right not_or.1
    exact h.pointers.mono (.of_nm_eq (hnm hn)) (hc .root hr) (hc .cur hcur)
  case codes =>
    refine (em _).elim hcodes fun hn => ?_
    obtain ⟨hregs, htable⟩ := not_or.1 hn
    have hregs : t.codes = s.codes := hc .codes hregs
    have htable : t.ct = s.ct := hc .ct htable
    obtain ⟨h, h'⟩ := h.codes
    exact ⟨by simpa only [State.codeAt, hregs] using h, by simpa only [htable] using h'⟩
  case buffer =>
    refine (em _).elim hbuffer fun hn => ?_
    obtain ⟨hbits, hcnt⟩ : StatePart.buffer.Kept s t := hc .buffer hn
    obtain ⟨h, h'⟩ := h.buffer
    exact ⟨by rwa [hcnt], by rwa [hcnt, hbits]⟩
  case sink =>
    refine (em _).elim hsink fun hn => ?_
    have hsnk : t.snk = s.snk := hc .sink hn
    rw [hsnk]
    exact h.sink

/-- The parts of the state no invariant speaks of. -/
abbrev freeParts : List StatePart :=
  [.arg0, .res0, .occ, .err, .fault, .header, .ft, .decoder, .srcPos, .snkPos, .host]

theorem Inv.of_free (h : Inv s) (hc : ChangesOnly ps s t) (hps : ps ⊆ freeParts) : Inv t :=
  h.of_changesOnly (hc.mono hps)

theorem Inv.complete (h : Inv s) : Inv s.complete := h.of_free (changesOnly_complete s) (by decide)

theorem Inv.raise (h : Inv s) (k : Err) (info : Word64) : Inv (s.raise k info) :=
  h.of_free (changesOnly_raise s k info) (by decide)

theorem Inv.with_res0 (h : Inv s) (x : Word64) : Inv { s with res0 := x } :=
  h.of_free (changesOnly_res0 s x) (by decide)

theorem Inv.with_srcPos (h : Inv s) (n : Nat) : Inv { s with srcPos := n } :=
  h.of_free (changesOnly_srcPos s n) (by decide)

end

/-! ### Bodies that end where the invariants hold -/

section
variable {P : State → Prop} {s t : State} {r : Res}

theorem Inv.of_finish (h : r.Ends Inv) (ht : r.finish = .next t) : Inv t := by
  rcases Res.finish_eq_next.1 ht with ⟨u, rfl, rfl⟩ | ⟨k, info, u, rfl, rfl⟩
  · exact Inv.complete h
  · exact Inv.raise h k info

theorem Res.Ends.thenCommand_inv {f : State → Res} (h : r.Ends Inv) (hf : ∀ t, Inv t → (f t).Ends Inv) :
    (r.thenCommand f).Ends Inv :=
  h.andThen fun _ ht => hf _ ht.complete

theorem Res.Within.ends_inv {ps : List StatePart} (h : r.Within ps s) (hs : Inv s) (hps : ps ⊆ freeParts) :
    r.Ends Inv :=
  Res.Ends.mono h fun _ ht => hs.of_free ht hps

theorem result_inv (hs : Inv s) (x : Word64) : (result x s).Ends Inv := hs.with_res0 x

theorem guard_ends {failed : Prop} [Decidable failed] {k : Err} {info : Word64} (hs : P s)
    (h : ¬ failed → r.Ends P) : (if failed then Machine.raise k info s else r).Ends P := by
  split
  · exact hs
  · next hok => exact h hok

theorem withNode_ends_of_node {n : NodeIx} {k : Node → Res} (hs : P s)
    (hk : ∀ nd, s.node? n = some nd → (k nd).Ends P) : (withNode n s k).Ends P := by
  unfold withNode
  split
  · exact hs
  · next nd hnd => exact hk nd hnd

theorem withCode_ends_of_code {n : CodeReg} {k : BinaryCode → Res} (hs : P s)
    (hk : ∀ c, s.codeAt n = some c → (k c).Ends P) : (withCode n s k).Ends P := by
  unfold withCode
  split
  · exact hs
  · next c hc => exact hk c hc

theorem withCtEntry_ends_of_code {v : Byte} {k : BinaryCode → Res} (hs : P s)
    (hk : ∀ c, tableGet s.ct v = some c → (k c).Ends P) : (withCtEntry v s k).Ends P := by
  unfold withCtEntry
  split
  · exact hs
  · next c hc => exact hk c hc

end

/-! ### Store, queue and pointers -/

section
variable {s t : State}

theorem enqueue_inv (h : Inv s) (n : NodeIx) : (enqueue n s).Ends Inv := by
  rcases h.queue.enqueue_cases n with ⟨k, henq⟩ | ⟨q, henq, -, hq⟩ <;> rw [henq]
  · exact h
  · exact h.of_changesOnly (changesOnly_pq s q) (hqueue := fun _ => hq)

theorem Inv.with_pq (h : Inv s) {q : List NodeIx} (hq : q.Sublist s.pq) : Inv { s with pq := q } :=
  h.of_changesOnly (changesOnly_pq s q) (hqueue := fun _ => h.queue.mono (.of_nm_eq rfl) hq)

theorem dequeue_inv (h : Inv s) : (dequeue s fun n t => result (n.setWidth 64) t).Ends Inv := by
  cases hpq : s.pq with
  | nil =>
    rw [dequeue_nil hpq]
    exact h
  | cons q qs =>
    rw [dequeue_cons hpq]
    exact result_inv (h.with_pq (hpq ▸ List.sublist_cons_self q qs)) _

theorem Inv.clearTree (h : Inv s) : Inv s.clearTree :=
  h.of_changesOnly (changesOnly_clearTree s) (fun _ => (forest_clearTree s).store) (fun _ => (forest_clearTree s).queue)
    (fun _ => ⟨by simp, by simp⟩)

theorem Inv.addNode {b : NodeBody} (h : Inv s) (hc : ChangesOnly [.nm] s t) (hadd : AddsNode s t b)
    (hroom : s.nm.length < 511) (hb : Joinable s b) : Inv t := by
  have hg := hadd.storeGrows hroom
  have hpq : t.pq = s.pq := hc .pq (by decide)
  exact h.of_changesOnly hc (fun _ => h.store.add hadd hroom hb) (fun _ => h.queue.mono hg (hpq ▸ .refl _))
    (fun _ => h.pointers.mono hg (hc .root (by decide)) (hc .cur (by decide)))

theorem leafBody_inv (h : Inv s) (v : Byte) : (leafBody v s).Ends Inv :=
  guard_ends h fun hroom => by
    have hroom : s.nm.length < 511 := Nat.not_le.1 hroom
    exact result_inv (h.addNode (changesOnly_pushNode s _) (addsNode_pushLeaf hroom v _) hroom trivial) _

theorem mergeBody_inv (h : Inv s) (n1 n2 : NodeIx) : (mergeBody n1 n2 s).Ends Inv := by
  refine withNode_ends_of_node h fun nd1 hnd1 => withNode_ends_of_node h fun nd2 hnd2 => ?_
  refine guard_ends h fun hne => guard_ends h fun ho1 => guard_ends h fun ho2 => guard_ends h fun hlight =>
    guard_ends h fun hroom => ?_
  have hroom : s.nm.length < 511 := Nat.not_le.1 hroom
  refine result_inv (h.addNode (changesOnly_joinNodes s _ _ _ _) (addsNode_joinNodes hroom n1 n2 nd1 nd2 s.pq) hroom
    ⟨hne, nd1, nd2, hnd1, hnd2, by simpa using ho1, by simpa using ho2, ?_⟩) _
  rw [BitVec.toNat_add, Nat.mod_eq_of_lt (Nat.not_le.1 hlight)]

theorem setroot_inv (h : Inv s) (n : NodeIx) :
    (withNode n s fun _ => .done { s with root := n, rootValid := true, curValid := false }).Ends Inv := by
  refine withNode_ends_of_node h fun nd hnd => ?_
  have hc : ChangesOnly [.root, .cur] s { s with root := n, rootValid := true, curValid := false } := by
    intro p
    cases p <;> simp [StatePart.Kept]
  exact h.of_changesOnly hc (hpointers := fun _ => ⟨fun _ => Option.isSome_iff_exists.2 ⟨nd, hnd⟩, by simp⟩)

/-- `TR.BUILD` makes store, queue and pointers anew. -/
theorem buildBody_inv (h : Inv s) : (buildBody s).Ends Inv := by
  by_cases hocc : occupied s.ft = []
  · rw [buildBody_of_empty (count_eq_zero hocc)]
    exact h.clearTree
  · obtain ⟨u, r, hmerging, hr, hbuild⟩ := buildBody_of_occupied hocc
    have hw := buildBody_within_clearTree s
    rw [hbuild] at hw ⊢
    have hroot : (u.node? r).isSome = true := hmerging.forest.queue.named r (by simp [hr])
    have hcur : u.curValid = false := (hw .cur (by decide)).2
    exact h.clearTree.of_changesOnly hw (fun _ => hmerging.forest.store.of_nm_eq rfl)
      (fun _ => hmerging.forest.queue.mono (.of_nm_eq rfl) (List.nil_sublist _))
      (fun _ => ⟨fun _ => hroot, fun hvalid => by simp [State.crown, hcur] at hvalid⟩)

end

/-! ### Codes (R174(a)) -/

section
variable {s : State}

theorem Inv.setCode (h : Inv s) (k : CodeReg) {c : BinaryCode} (hc : 1 ≤ c.length) (hc' : c.length ≤ 255) :
    Inv (s.setCode k c) := by
  refine h.of_changesOnly (changesOnly_setCode s k c) (hcodes := fun _ => ⟨fun j d hd => ?_, h.codes.table⟩)
  by_cases hj : j = k
  · rw [hj, State.codeAt_setCode_same] at hd
    cases hd
    exact ⟨hc, hc'⟩
  · rw [State.codeAt_setCode_other s c hj] at hd
    exact h.codes.regs j d hd

theorem Inv.with_ct (h : Inv s) {t : CodeTable}
    (ht : ∀ v c, tableGet t v = some c → 1 ≤ c.length ∧ c.length ≤ 255) : Inv { s with ct := t } :=
  h.of_changesOnly (changesOnly_ct s t) (hcodes := fun _ => ⟨h.codes.regs, ht⟩)

theorem storeCode_inv (h : Inv s) (cd : CodeReg) {c : BinaryCode} (hc : 1 ≤ c.length) :
    (storeCode cd c s).Ends Inv := by
  rcases storeCode_cases cd c s with ⟨-, he⟩ | ⟨hle, he⟩ <;> rw [he]
  · exact h
  · exact h.setCode cd hc hle

theorem length_codeSlice {c : BinaryCode} {a b : Nat} (hb : b ≤ c.length) : (codeSlice c a b).length = b - a := by
  rw [codeSlice, List.length_drop, List.length_take, Nat.min_eq_left hb]

theorem length_codeReplace {c : BinaryCode} {a b : Nat} (bits : List Bool) (ha : a ≤ c.length) :
    (codeReplace c a b bits).length = a + bits.length + (c.length - b) := by
  rw [codeReplace, List.length_append, List.length_append, List.length_take, List.length_drop, Nat.min_eq_left ha]

theorem sliceBody_inv (h : Inv s) (cd cs : CodeReg) (a b : Byte) : (sliceBody cd cs a b s).Ends Inv := by
  refine withCode_ends_of_code h fun c hc => guard_ends h fun hspan => guard_ends h fun hne => ?_
  obtain ⟨hab, hb⟩ := spanOk_iff.1 (by simpa using hspan)
  have hne : a.toNat ≠ b.toNat := fun e => hne (BitVec.eq_of_toNat_eq e)
  obtain ⟨-, hlen⟩ : _ ∧ c.length ≤ 255 := h.codes.regs cs c hc
  exact h.setCode cd (by rw [length_codeSlice hb]; omega) (by rw [length_codeSlice hb]; omega)

theorem setBody_inv (h : Inv s) (cd : CodeReg) (a : Byte) (bit : Bool) : (setBody cd a bit s).Ends Inv := by
  refine withCode_ends_of_code h fun c hc => guard_ends h fun _ => ?_
  obtain ⟨hpos, hlen⟩ := h.codes.regs cd c hc
  exact h.setCode cd (by rwa [List.length_set]) (by rwa [List.length_set])

theorem spliceBody_inv (h : Inv s) (cd cs : CodeReg) (a b : Byte) : (spliceBody cd cs a b s).Ends Inv := by
  refine withCode_ends_of_code h fun d _ => withCode_ends_of_code h fun c hc => guard_ends h fun hspan => ?_
  obtain ⟨hab, hb⟩ := spanOk_iff.1 (by simpa using hspan)
  obtain ⟨hpos, -⟩ := h.codes.regs cs c hc
  exact storeCode_inv h cd (by rw [length_codeReplace c (by omega)]; omega)

theorem insBody_inv (h : Inv s) (cd : CodeReg) (a : Byte) (bit : Bool) : (insBody cd a bit s).Ends Inv := by
  refine withCode_ends_of_code h fun c hc => guard_ends h fun hlt => ?_
  exact storeCode_inv h cd (by rw [length_codeReplace [bit] (by omega), List.length_singleton]; omega)

theorem delBody_inv (h : Inv s) (cd : CodeReg) (a b : Byte) : (delBody cd a b s).Ends Inv := by
  refine withCode_ends_of_code h fun c hc => guard_ends h fun hspan => guard_ends h fun hall => ?_
  obtain ⟨hab, hb⟩ := spanOk_iff.1 (by simpa using hspan)
  obtain ⟨-, hlen⟩ : _ ∧ c.length ≤ 255 := h.codes.regs cd c hc
  have hdel := length_codeReplace (a := a.toNat) (b := b.toNat) [] (hab.trans hb)
  rw [List.length_nil] at hdel
  exact h.setCode cd (by omega) (by omega)

/-- What the walk of R181 adds to the table: paths to leaves behind the path to its node. -/
theorem walkCodes_paths {fuel : Nat} {n : NodeIx} {p : BinaryCode} {t t' : CodeTable}
    (hwalk : walkCodes s fuel n p t = .ok t') {v : Byte} {c : BinaryCode} (hc : tableGet t' v = some c) :
    tableGet t v = some c ∨ ∃ q, c = p ++ q ∧ LeadsTo s n q v := by
  induction fuel generalizing n p t t' with
  | zero => cases hwalk
  | succ fuel ih =>
    rw [walkCodes] at hwalk
    split at hwalk
    · cases hwalk
    · next o u w hn =>
      cases hwalk
      by_cases huv : v = u
      · rw [huv, tableGet_tableSet_same] at hc
        cases hc
        exact .inr ⟨[], by simp, (LeadsTo.of_leaf hn).2 ⟨rfl, huv⟩⟩
      · rw [tableGet_tableSet_other _ _ huv] at hc
        exact .inl hc
    · next o l r w hn =>
      split at hwalk
      · next t₁ hleft =>
        rcases ih hwalk hc with hc | ⟨q, rfl, hq⟩
        · rcases ih hleft hc with hc | ⟨q, rfl, hq⟩
          · exact .inl hc
          · exact .inr ⟨false :: q, by simp, (LeadsTo.of_internal hn).2 (.inl ⟨q, rfl, hq⟩)⟩
        · exact .inr ⟨true :: q, by simp, (LeadsTo.of_internal hn).2 (.inr ⟨q, rfl, hq⟩)⟩
      · cases hwalk

/-- Every code `CG.RUN` makes is a path of at least one bit from the root to a leaf (R181). -/
theorem rootCodes_paths {n l r : NodeIx} {o : Bool} {w : Word64} {t : CodeTable}
    (hn : s.node? n = some ⟨o, .internal l r w⟩) (hroot : rootCodes s l r = .ok t) {v : Byte} {c : BinaryCode}
    (hc : tableGet t v = some c) : c ≠ [] ∧ LeadsTo s n c v := by
  rw [rootCodes] at hroot
  split at hroot
  · next t₁ hleft =>
    rcases walkCodes_paths hroot hc with hc | ⟨q, rfl, hq⟩
    · rcases walkCodes_paths hleft hc with hc | ⟨q, rfl, hq⟩
      · rw [emptyTable, tableGet_replicate] at hc
        cases hc
      · exact ⟨by simp, (LeadsTo.of_internal hn).2 (.inl ⟨q, rfl, hq⟩)⟩
    · exact ⟨by simp, (LeadsTo.of_internal hn).2 (.inr ⟨q, rfl, hq⟩)⟩
  · cases hroot

theorem codegenBody_inv (h : Inv s) : (codegenBody s).Ends Inv := by
  refine guard_ends h fun _ => withNode_ends_of_node h fun nd hnd => ?_
  obtain ⟨o, ⟨v, w⟩ | ⟨l, r, w⟩⟩ := nd
  · exact h
  · dsimp only
    split
    · next t hroot =>
      refine h.with_ct fun v c hc => ?_
      obtain ⟨hne, hlead⟩ := rootCodes_paths hnd hroot hc
      exact ⟨List.length_pos_iff.2 hne, h.store.leadsTo_length_le hnd hlead⟩
    · exact WalkErr.toRes_ends h _

end


/-! ### Bit buffer and sink (R190, R74) -/

section
variable {s t : State}

theorem Inv.sinkWrites (h : Inv s) (bs : List Byte) : Inv (s.sinkWrites bs) :=
  h.of_changesOnly (changesOnly_sinkWrites s bs) (hsink := fun _ => s.sinkWrites_wf bs h.sink)

theorem Inv.with_emptyBuffer (h : Inv s) : Inv { s with bbBits := 0#8, bbCnt := 0#4 } :=
  h.of_changesOnly (changesOnly_buffer s _ _) (hbuffer := fun _ => ⟨by simp, by simp⟩)

theorem getLsbD_setBit_of_lt {x : BitVec 8} {i j : Nat} (v : Bool) (hij : i < j) :
    (setBit x i v).getLsbD j = x.getLsbD j := by
  have hbit : (1#8 <<< i).getLsbD j = false := by
    have : j - i ≠ 0 := by omega
    simp [BitVec.getLsbD_one, this]
  cases v
  · simp only [setBit, Bool.false_eq_true, if_false, BitVec.getLsbD_and, BitVec.getLsbD_not, hbit, Bool.not_false,
      Bool.and_true]
    by_cases hj : j < 8
    · simp [hj]
    · simp [hj, BitVec.getLsbD_of_ge x j (by omega)]
  · simp only [setBit, if_true, BitVec.getLsbD_or, hbit, Bool.or_false]

theorem Inv.bbAppend (h : Inv s) (bit : Bool) : Inv (bbAppend s bit) := by
  rcases bbAppend_cases s bit with ⟨hcnt, he⟩ | ⟨-, he⟩ <;> rw [he]
  · refine h.of_changesOnly (changesOnly_buffer s _ _) (hbuffer := fun _ => ?_)
    obtain ⟨hle, hzeros⟩ := h.buffer
    have hlt : s.bbCnt.toNat ≠ 7 := fun e => hcnt (BitVec.eq_of_toNat_eq e)
    have hnext : (s.bbCnt + 1#4).toNat = s.bbCnt.toNat + 1 := by
      rw [BitVec.toNat_add, BitVec.toNat_ofNat]
      omega
    refine ⟨by rw [hnext]; omega, fun i hi => ?_⟩
    rw [hnext] at hi
    exact (getLsbD_setBit_of_lt bit (by omega)).trans (hzeros i (by omega))
  · exact (h.sinkWrites [_]).with_emptyBuffer

theorem Inv.bbAppends (h : Inv s) (bits : List Bool) : Inv (bbAppends s bits) := by
  induction bits generalizing s with
  | nil => exact h
  | cons b bits ih => exact ih (h.bbAppend b)

theorem Inv.bbFlush (h : Inv s) : Inv (bbFlush s) := by
  rcases bbFlush_cases s with ⟨-, he⟩ | ⟨-, he⟩ <;> rw [he]
  · exact h
  · exact (h.sinkWrites [_]).with_emptyBuffer

theorem Inv.setHeader (h : Inv s) (t : Byte) (total dgCount : Word32) (dgValue : Byte) :
    Inv (setHeader t total dgCount dgValue s) :=
  h.of_free (changesOnly_setHeader s t total dgCount dgValue) (by decide)

/-! ### The encoder -/

theorem headerBody_inv (h : Inv s) : (headerBody s).Ends Inv := by
  refine guard_ends h fun _ => ?_
  have hclear : ChangesOnly [.header, .buffer] s { s with hdrValid := false, bbBits := 0#8, bbCnt := 0#4 } := by
    intro p
    cases p <;> simp [StatePart.Kept]
  have hbuffer := h.of_changesOnly hclear (hbuffer := fun _ => ⟨by simp, by simp⟩)
  exact (hbuffer.sinkWrites _).setHeader _ _ _ _

theorem putBody_inv (h : Inv s) (v : Byte) : (putBody v s).Ends Inv := withCtEntry_ends h fun c => h.bbAppends c

theorem encodeLoop_inv (h : Inv s) (left : Nat) : (encodeLoop left s).Ends Inv := by
  induction left generalizing s with
  | zero => exact h
  | succ left ih =>
    unfold encodeLoop
    split
    · trivial
    · exact (putBody_inv h _).andThen fun t ht => ih (ht.with_srcPos _)

theorem encodeBody_inv (h : Inv s) : (encodeBody s).Ends Inv := (encodeLoop_inv h _).andThen fun _ ht => ht.bbFlush

theorem encodeGeneral_inv (h : Inv s) : (encodeGeneral s).Ends Inv :=
  (buildBody_inv h).thenCommand_inv fun _ ht => (codegenBody_inv ht).thenCommand_inv fun _ hu =>
    encodeBody_inv (hu.with_srcPos 0)

theorem Inv.rewind (h : Inv s) (src snk : Bool) : Inv (rewind src snk s) :=
  h.of_free (changesOnly_rewind s src snk) (by decide)

theorem scanBody_inv (h : Inv s) : (scanBody s).Ends Inv := (scanLoop_within s _ _).ends_inv h (by decide)

theorem encodePass_inv (h : Inv s) : (encodePass s).Ends Inv := by
  have hstart : Inv (clearCounts (Machine.rewind true true s)) :=
    (h.rewind true true).of_free (changesOnly_clearCounts _) (by decide)
  refine Res.Ends.thenCommand_inv (r := .done _) hstart fun t ht => ?_
  refine (scanBody_inv ht).thenCommand_inv fun u hu => (headerBody_inv hu).thenCommand_inv fun v hv => ?_
  refine Res.Ends.andThen (P := Inv) ?_ fun w hw => result_inv hw _
  split
  · exact encodeGeneral_inv hv
  · exact hv

/-! ### The decoder -/

theorem Inv.beginDecode (h : Inv s) : Inv (beginDecode s) :=
  h.of_changesOnly (changesOnly_beginDecode s)
    (hpointers := fun _ => ⟨h.pointers.root, fun hvalid => by simp at hvalid⟩)

/-- After the decoder's registers are cleared the header reader changes nothing the invariants speak of (R205). -/
theorem decodeHeader_within_beginDecode (s : State) :
    (decodeHeader s).Within [.header, .ft, .srcPos, .res0] (beginDecode s) := by
  have hset (t : Byte) (total dgc : Word32) (dgv : Byte) (u : State) :
      (Res.done (setHeader t total dgc dgv u)).Within [.header, .ft, .srcPos, .res0] u :=
    (changesOnly_setHeader u t total dgc dgv).mono (by decide)
  refine withMagic_within (by decide) fun s => withByte_within (by decide) fun t s => ?_
  split
  · exact hset _ _ _ _ s
  split
  · exact withField_within (by decide) fun c s => withByte_within (by decide) fun p s => hset _ _ _ _ s
  split
  · refine withField_within (by decide) fun total s => ?_
    exact ((loadCounts_within s _).mono (by decide)).andThen fun s => hset _ _ _ _ s
  · exact raise_within _ _

theorem decodeHeader_inv (h : Inv s) : (decodeHeader s).Ends Inv :=
  (decodeHeader_within_beginDecode s).ends_inv h.beginDecode (by decide)

/-- A descent arrives at a leaf, which it emits, or stands at an internal node (R208). -/
theorem arrive_inv (c : NodeIx) (hs : Inv s) (ht : Inv t) (hnm : t.nm = s.nm) : (arrive c s t).Ends Inv := by
  refine withNode_ends_of_node hs fun nd hnd => ?_
  obtain ⟨o, ⟨v, w⟩ | ⟨l, r, w⟩⟩ := nd
  · have hc : ChangesOnly [.cur, .decoder, .res0] (t.sinkWrite v)
        { t.sinkWrite v with curValid := false, emitted := t.emitted + 1#32, res0 := 1#64 } := by
      intro p
      cases p <;> simp [StatePart.Kept]
    have hsink : Inv (t.sinkWrite v) := ht.sinkWrites [v]
    exact hsink.of_changesOnly hc
      (hpointers := fun _ => ⟨hsink.pointers.root, fun hvalid => by simp at hvalid⟩)
  · have hnode : t.node? c = some ⟨o, .internal l r w⟩ := by rw [← hnd, State.node?, State.node?, hnm]
    exact result_inv (ht.of_changesOnly (changesOnly_cur t c true)
      (hpointers := fun _ => ⟨ht.pointers.root, fun _ => ⟨o, l, r, w, hnode⟩⟩)) _

theorem bitBody_inv (h : Inv s) : (bitBody s).Ends Inv := by
  refine guard_ends h fun _ => withNode_ends h fun nd => ?_
  split
  · exact h
  · refine withDescentByte_ends s h (arrive_inv _ h ?_ rfl) fun b => arrive_inv _ h ?_ rfl
    · exact h.of_free (changesOnly_decoder s _ _ _) (by decide)
    · exact (h.with_srcPos _).of_free (changesOnly_decoder _ _ _ _) (by decide)

theorem symbolLoop_inv (h : Inv s) (turns : Nat) : (symbolLoop turns s).Ends Inv := by
  induction turns generalizing s with
  | zero => exact h
  | succ turns ih =>
    refine (bitBody_inv h).andThen fun t ht => ?_
    split
    · exact ht
    · exact ih ht

theorem symbolsLoop_inv (h : Inv s) (turns : Nat) : (symbolsLoop turns s).Ends Inv := by
  induction turns generalizing s with
  | zero => exact h
  | succ turns ih => exact (symbolLoop_inv h _).andThen fun t ht => ih ht

theorem decodeBody_inv (h : Inv s) : (decodeBody s).Ends Inv := by
  refine guard_ends h fun _ => ?_
  unfold bodyOfType
  split
  · exact h
  split
  · change Inv (degenerateBody s)
    rw [degenerateBody_eq]
    exact h.sinkWrites _
  split
  · exact guard_ends h fun _ => symbolsLoop_inv h _
  · exact h

theorem rebuildTree_inv (h : Inv s) : (rebuildTree s).Ends Inv := by
  unfold rebuildTree
  split
  · exact buildBody_inv h
  · exact h

theorem decodePass_inv (h : Inv s) : (decodePass s).Ends Inv :=
  (decodeHeader_inv (h.rewind true true)).thenCommand_inv fun _ ht => (rebuildTree_inv ht).thenCommand_inv fun _ hu =>
    (decodeBody_inv hu).andThen fun _ hv => result_inv hv _

theorem runRecord_inv (h : Inv s) : (runRecord s).Ends Inv :=
  Res.Ends.thenCommand_inv (r := .done s) h fun _ ht => (rebuildTree_inv ht).thenCommand_inv fun _ hu =>
    decodeBody_inv hu

theorem Inv.takeRecord (h : Inv s) (size : Nat) (t : Byte) (total dgCount : Word32) (dgValue : Byte) :
    Inv (takeRecord size t total dgCount dgValue s) :=
  (h.beginDecode.with_srcPos _).setHeader _ _ _ _

/-! ### Every step -/

theorem Inv.softReset (h : Inv s) : Inv (softReset s) := by
  have hreset : Inv State.reset := resetMeetsTheInvariants
  have hc : ChangesOnly [.host, .sink] State.reset (Machine.softReset s) := by
    intro p
    cases p <;> simp [StatePart.Kept, Machine.softReset]
  exact hreset.of_changesOnly hc (hsink := fun _ => h.sink)

/-- An instruction whose tables let it write no part the invariants speak of. -/
theorem exec_inv_of_free {i : Instr} (h : Inv s) (he : exec i s = .next t)
    (hi : [StatePart.nm, .root, .pq, .cur, .codes, .ct, .buffer, .sink].all (fun p => !p.writtenBy i) = true) :
    Inv t := by
  have hc : ChangesOnly freeParts s t := fun p hp => by
    have hmem : p ∈ [StatePart.nm, .root, .pq, .cur, .codes, .ct, .buffer, .sink] := by
      revert hp
      cases p <;> decide
    exact exec_keeps he (by simpa using List.all_eq_true.1 hi p hmem) fun e => hp (by rw [e]; decide)
  exact h.of_free hc (List.Subset.refl _)

theorem exec_inv {i : Instr} (h : Inv s) (he : exec i s = .next t) : Inv t := by
  have code {k : CodeReg} {f : BinaryCode → Res}
      (hf : ∀ c, s.codeAt k = some c → 1 ≤ c.length ∧ c.length ≤ 255 → (f c).Ends Inv) : (withCode k s f).Ends Inv :=
    withCode_ends_of_code h fun c hc => hf c hc (h.codes.regs k c hc)
  cases i with
  | nop | rew src snk | ftClr | ftInc v | ftSet v | ftCnt v | ftOcc | ftScan | pqPeek | pqLen | trRoot | trIsleaf n
  | trValue n | trLeft n | trRight n | trWeight n | trHeight n | trEq n1 n2 | bcLen cs | bcGet cs a | bcEq cs ct =>
    exact exec_inv_of_free h he rfl
  | rst => exact Inv.of_finish (r := .done _) h.softReset he
  | pqClr => exact Inv.of_finish (r := .done _) (h.with_pq (List.nil_sublist _)) he
  | pqEnq n => exact Inv.of_finish (enqueue_inv h n) he
  | pqDeq => exact Inv.of_finish (dequeue_inv h) he
  | trClr => exact Inv.of_finish (r := .done _) h.clearTree he
  | trLeaf v => exact Inv.of_finish (leafBody_inv h v) he
  | trMerge n1 n2 => exact Inv.of_finish (mergeBody_inv h n1 n2) he
  | trBuild => exact Inv.of_finish (buildBody_inv h) he
  | trSetroot n => exact Inv.of_finish (setroot_inv h n) he
  | bcNew cd bit => exact Inv.of_finish (r := .done _) (h.setCode cd (c := [bit]) (by simp) (by simp)) he
  | bcPush cd bit => exact Inv.of_finish (code fun c _ _ => storeCode_inv h cd (by simp)) he
  | bcSlice cd cs a b => exact Inv.of_finish (sliceBody_inv h cd cs a b) he
  | bcSet cd a bit => exact Inv.of_finish (setBody_inv h cd a bit) he
  | bcSplice cd cs a b => exact Inv.of_finish (spliceBody_inv h cd cs a b) he
  | bcIns cd a bit => exact Inv.of_finish (insBody_inv h cd a bit) he
  | bcDel cd a b => exact Inv.of_finish (delBody_inv h cd a b) he
  | bcCat cd cs ct =>
    refine Inv.of_finish (code fun c _ ⟨hpos, _⟩ => code fun d _ _ => storeCode_inv h cd ?_) he
    rw [List.length_append]
    omega
  | ctClr =>
    refine Inv.of_finish (r := .done _) (h.with_ct fun v c hc => ?_) he
    rw [emptyTable, tableGet_replicate] at hc
    cases hc
  | ctSt a cs =>
    refine Inv.of_finish (code (f := fun c => .done { s with ct := tableSet s.ct a (some c) })
      fun c _ hlen => h.with_ct fun v d hd => ?_) he
    by_cases hv : v = a
    · rw [hv, tableGet_tableSet_same] at hd
      cases hd
      exact hlen
    · rw [tableGet_tableSet_other _ _ hv] at hd
      exact h.codes.table v d hd
  | ctLd cd a =>
    refine Inv.of_finish (withCtEntry_ends_of_code h fun c hc => ?_) he
    obtain ⟨hpos, hlen⟩ := h.codes.table a c hc
    exact h.setCode cd hpos hlen
  | cgRun => exact Inv.of_finish (codegenBody_inv h) he
  | encHdr => exact Inv.of_finish (headerBody_inv h) he
  | encPut v => exact Inv.of_finish (putBody_inv h v) he
  | encFlush => exact Inv.of_finish (r := .done _) h.bbFlush he
  | encBody => exact Inv.of_finish (encodeBody_inv h) he
  | encRun => exact Inv.of_finish (encodePass_inv h) he
  | decHdr => exact Inv.of_finish (decodeHeader_inv h) he
  | decBit => exact Inv.of_finish (bitBody_inv h) he
  | decSym => exact Inv.of_finish (symbolLoop_inv h _) he
  | decBody => exact Inv.of_finish (decodeBody_inv h) he
  | decRun => exact Inv.of_finish (decodePass_inv h) he
  | streamEmpty => exact Inv.of_finish (runRecord_inv (h.takeRecord 3 0#8 0#32 0#32 0#8)) he
  | streamDegen count value => exact Inv.of_finish (runRecord_inv (h.takeRecord 8 1#8 0#32 count value)) he
  | streamGeneral total counts =>
    have hft : Inv (putCounts allBytes counts s) := h.of_free (changesOnly_putCounts s allBytes counts) (by decide)
    exact Inv.of_finish (runRecord_inv (hft.takeRecord 1031 2#8 total 0#32 0#8)) he

theorem Inv.with_host (h : Inv s) (moves : List HostMove) (len : Word64) (src : List Byte) :
    Inv { s with host := moves, srcLen := len, src := src } := by
  have hc : ChangesOnly [.host] s { s with host := moves, srcLen := len, src := src } := by
    intro p
    cases p <;> simp [StatePart.Kept]
  exact h.of_free hc (by decide)

theorem hostMove_inv (h : Inv s) (m : HostMove) : Inv (hostMove m s) := by
  cases m with
  | write offset width value =>
    simp only [hostMove, mapWrite]
    split
    · have hc : ChangesOnly [.arg0] s { s with arg0 := value } := by
        intro p
        cases p <;> simp [StatePart.Kept]
      exact h.of_free hc (by decide)
    · split
      · exact h.with_host s.host value s.src
      · exact h
  | connectSource bytes => exact h.with_host s.host s.srcLen bytes
  | connectSink bytes =>
    have hc : ChangesOnly [.sink] s { s with snk := Memory.ofBytes 0 bytes } := by
      intro p
      cases p <;> simp [StatePart.Kept]
    exact h.of_changesOnly hc (hsink := fun _ => Memory.wf_ofBytes 0 bytes)
  | hardwareReset => exact h.softReset.with_host s.host 0#64 s.src

end

/-- Settles O59, by the host's move: each instruction's body ends in a state that meets the invariants, and so does each
move that runs none. -/
theorem everyStepKeepsTheInvariants : Obligations.EveryStepKeepsTheInvariants := by
  unfold Obligations.EveryStepKeepsTheInvariants
  intro s t h hstep
  rcases step_cases hstep with ⟨-, rfl⟩ | ⟨m, rest, -, hmove⟩
  · exact h
  have hrest : Inv { s with host := rest } := h.with_host rest s.srcLen s.src
  rcases hmove with ⟨-, rfl⟩ | ⟨w, -, ⟨i, -, he⟩ | ⟨e, -, rfl⟩⟩
  · exact hostMove_inv hrest m
  · exact exec_inv hrest he
  · exact hrest.raise _ _


/-! ### `TR.HEIGHT` and `TR.EQ` (R152, R153) -/

section
variable {s : State} {n : NodeIx}

theorem exec_trHeight (n : NodeIx) (s : State) : exec (.trHeight n) s = (heightBody n s).finish := rfl

theorem exec_trEq (n1 n2 : NodeIx) (s : State) : exec (.trEq n1 n2) s = (eqBody n1 n2 s).finish := rfl

end

/-- Settles O15: the walk ends, and no node of the store is higher than there are internal nodes. -/
theorem heightIsAtMost255 : Obligations.HeightIsAtMost255 := by
  unfold Obligations.HeightIsAtMost255
  refine fun s n => ⟨rfl, fun hbad => ?bad, fun h hn => ?height⟩
  case bad => rw [exec_trHeight, heightBody, withNode_none hbad, Res.finish_raised]
  case height =>
    obtain ⟨nd, hnd⟩ := Option.ne_none_iff_exists'.1 hn
    obtain ⟨k, hwalk, hk, hle⟩ := h.exists_height hnd
    refine ⟨k, hk, hle, ?_⟩
    rw [exec_trHeight, heightBody, withNode_some hnd, hwalk]
    rfl

theorem boolWord_decide (p : Prop) [Decidable p] : boolWord (decide p) = if p then 1 else 0 := by
  simp [boolWord]

/-- Settles O16: both nodes have a tree value in a good store, and the walk compares the two. -/
theorem equalityIsOfTreeValues : Obligations.EqualityIsOfTreeValues := by
  unfold Obligations.EqualityIsOfTreeValues
  refine fun s n1 n2 => ⟨rfl, fun hbad => ?bad1, fun hn hbad => ?bad2, fun h hn1 hn2 => ?equal⟩
  case bad1 => rw [exec_trEq, eqBody, withNode_none hbad, Res.finish_raised]
  case bad2 =>
    obtain ⟨nd, hnd⟩ := Option.ne_none_iff_exists'.1 hn
    rw [exec_trEq, eqBody, withNode_some hnd, withNode_none hbad, Res.finish_raised]
  case equal =>
    obtain ⟨nd1, hnd1⟩ := Option.ne_none_iff_exists'.1 hn1
    obtain ⟨nd2, hnd2⟩ := Option.ne_none_iff_exists'.1 hn2
    obtain ⟨T, hT⟩ := h.exists_treeIs hnd1
    obtain ⟨U, hU⟩ := h.exists_treeIs hnd2
    have hfuel : n1.toNat < walkFuel s := Nat.lt_succ_of_lt (State.toNat_lt_length hnd1)
    refine ⟨T, U, hT, hU, ?_⟩
    rw [exec_trEq, eqBody, withNode_some hnd1, withNode_some hnd2, h.equivFrom_eq hT hU hfuel, ← boolWord_decide]
    rfl

/-! ### `TR.BUILD` (R146, R154, R155) -/

theorem exec_trBuild (s : State) : exec .trBuild s = (buildBody s).finish := rfl

theorem exec_trBuild_of_empty {s : State} (h : ∀ v, s.count v = 0#32) :
    exec .trBuild s = .next (s.clearTree.raise .emptyQueue 0) := by
  rw [exec_trBuild, buildBody_of_empty h, Res.finish_raised]
  rfl

/-- A `TR.BUILD` that succeeds has taken the one root the merges leave. -/
theorem merging_of_exec_trBuild {s t : State} (h : exec .trBuild s = .next t) (herr : t.err = .ok) : ∃ u r,
    Merging (leafBodies s.ft allBytes) (occupied s.ft).length (allBytes.map fun v => (s.count v).toNat).sum u ∧
    u.pq = [r] ∧ t = (u.crown r).complete := by
  by_cases hocc : occupied s.ft = []
  · cases (exec_trBuild_of_empty (count_eq_zero hocc)).symm.trans h
    cases herr
  · obtain ⟨u, r, hmerging, hr, hbuild⟩ := buildBody_of_occupied hocc
    rw [exec_trBuild, hbuild] at h
    cases h
    exact ⟨u, r, hmerging, hr, rfl⟩

/-- Settles O18: `treeIs_of_exec_trBuild`, the commuting of the arena with the queue of weighted trees. -/
theorem buildIsTheStableMerge : Obligations.BuildIsTheStableMerge := by
  unfold Obligations.BuildIsTheStableMerge
  exact fun s t => treeIs_of_exec_trBuild

/-- Settles O20: the roots weigh the counts together at every merge, and the last one alone. -/
theorem builtRootWeighsTheSum : Obligations.BuiltRootWeighsTheSum := by
  unfold Obligations.BuiltRootWeighsTheSum
  intro s t h herr
  obtain ⟨u, r, hmerging, hr, rfl⟩ := merging_of_exec_trBuild h herr
  have hweight : (u.crown r).complete.weightOf r = (allBytes.map fun v => (s.count v).toNat).sum :=
    hmerging.weightOf_single hr
  have hsum : (allBytes.map fun v => (s.count v).toNat).sum ≤ 256 * (2 ^ 32 - 1) := by
    have hle : ∀ x ∈ allBytes.map fun v => (s.count v).toNat, x ≤ 2 ^ 32 - 1 := fun x hx => by
      obtain ⟨v, -, rfl⟩ := List.mem_map.1 hx
      exact Nat.le_sub_one_of_lt (s.count v).isLt
    simpa using List.sum_le_card_nsmul _ _ hle
  refine ⟨hweight.trans ?_, (hweight.trans_le hsum).trans_lt (by decide), hmerging.forest.store.bound⟩
  rw [allBytes, List.map_map]
  rfl

/-- Settles O17: on no occupied value the cleared tree stays; else the leaves stand in front, the merges' nodes behind
them, and the one root left is the last node. -/
theorem buildMakesTheWholeTree : Obligations.BuildMakesTheWholeTree := by
  unfold Obligations.BuildMakesTheWholeTree
  refine ⟨rfl, fun s hzero => exec_trBuild_of_empty hzero, fun s values hvalues hne => ?_⟩
  obtain rfl : values = occupied s.ft := hvalues
  obtain ⟨u, r, hmerging, hr, hbuild⟩ := buildBody_of_occupied hne
  have hlen := hmerging.length_of_single hr
  have hlast := hmerging.toNat_single hr
  have hnum : (leafBodies s.ft allBytes).length = (occupied s.ft).length := by
    rw [leafBodies, List.length_map, occupied]
  have hframe := buildBody_frame hbuild
  refine ⟨(u.crown r).complete, by rw [exec_trBuild, hbuild, Res.finish_done], ?size, ?root, rfl, rfl, ?cur, rfl,
    fun k v hv => hmerging.leaf_node ?leaf, fun k hk => hmerging.internal_node (hnum.trans_le hk),
    fun k nd => hmerging.owned_iff hr, congrArg State.complete hframe⟩
  case size =>
    change u.nm.length = _
    omega
  case root =>
    change r.toNat = _
    omega
  case cur => rw [hframe]; rfl
  case leaf =>
    rw [leafBodies, List.getElem?_map]
    exact congrArg (Option.map _) hv

/-! ### What `TR.BUILD` reads (R154) -/

/-- Two states agree in what `TR.BUILD` reads, and in what it leaves behind. -/
structure BuildAgree (s s' : State) : Prop where
  ft : s.ft = s'.ft
  nm : s.nm = s'.nm
  pq : s.pq = s'.pq
  rootValid : s.rootValid = s'.rootValid
  root : s.rootValid = true → s.root = s'.root

/-- Two bodies come to ends that agree. -/
inductive Res.Agree : Res → Res → Prop
  | done {s s' : State} : BuildAgree s s' → Agree (.done s) (.done s')
  | raised {k : Err} {info info' : Word64} {s s' : State} : BuildAgree s s' →
      Agree (.raised k info s) (.raised k info' s')
  | stopped (f f' : Fault) : Agree (.stopped f) (.stopped f')

section
variable {s s' : State}

theorem Res.Agree.andThen {r r' : Res} {f f' : State → Res} (h : r.Agree r')
    (hf : ∀ s s', BuildAgree s s' → (f s).Agree (f' s')) : (r.andThen f).Agree (r'.andThen f') := by
  cases h with
  | done h => exact hf _ _ h
  | raised h => exact .raised h
  | stopped g g' => exact .stopped g g'

theorem BuildAgree.node? (h : BuildAgree s s') (n : NodeIx) : s.node? n = s'.node? n := by
  rw [State.node?, State.node?, h.nm]

theorem BuildAgree.nextIx (h : BuildAgree s s') : s.nextIx = s'.nextIx := by rw [State.nextIx, State.nextIx, h.nm]

theorem BuildAgree.count (h : BuildAgree s s') (v : Byte) : s.count v = s'.count v := by
  rw [State.count, State.count, h.ft]

theorem BuildAgree.with_pq (h : BuildAgree s s') (q : List NodeIx) :
    BuildAgree { s with pq := q } { s' with pq := q } := ⟨h.ft, h.nm, rfl, h.rootValid, h.root⟩

theorem BuildAgree.pushNode (h : BuildAgree s s') (b : NodeBody) : BuildAgree (s.pushNode b) (s'.pushNode b) :=
  ⟨h.ft, by rw [State.pushNode_nm, State.pushNode_nm, h.nm], h.pq, h.rootValid, h.root⟩

theorem BuildAgree.joinNodes (h : BuildAgree s s') (l r : NodeIx) (nl nr : Node) :
    BuildAgree (joinNodes l r nl nr s) (joinNodes l r nl nr s') := by
  have hown : BuildAgree { s with nm := setOwned (setOwned s.nm l) r }
      { s' with nm := setOwned (setOwned s'.nm l) r } :=
    ⟨h.ft, congrArg (fun nm => setOwned (setOwned nm l) r) h.nm, h.pq, h.rootValid, h.root⟩
  exact hown.pushNode _

theorem insertByWeight_congr (h : BuildAgree s s') (w : Word64) (n : NodeIx) (q : List NodeIx) :
    insertByWeight s w n q = insertByWeight s' w n q := by
  induction q with
  | nil => rfl
  | cons m q ih => rw [insertByWeight, insertByWeight, h.node?, ih]

theorem enqueue_agree (h : BuildAgree s s') (n : NodeIx) : (enqueue n s).Agree (enqueue n s') := by
  unfold enqueue
  rw [h.node?, h.pq]
  cases s'.node? n with
  | none => exact .raised h
  | some nd =>
    dsimp only
    rw [insertByWeight_congr h]
    split
    · exact .raised h
    · split
      · exact .done (h.with_pq _)
      · exact .raised h

theorem dequeue_agree {k k' : NodeIx → State → Res} (h : BuildAgree s s')
    (hk : ∀ n s s', BuildAgree s s' → (k n s).Agree (k' n s')) : (dequeue s k).Agree (dequeue s' k') := by
  unfold dequeue
  rw [h.pq]
  cases s'.pq with
  | nil => exact .raised h
  | cons q qs => exact hk _ _ _ (h.with_pq qs)

theorem withNode_agree {n : NodeIx} {k k' : Node → Res} (h : BuildAgree s s') (hk : ∀ nd, (k nd).Agree (k' nd)) :
    (withNode n s k).Agree (withNode n s' k') := by
  unfold withNode
  rw [h.node?]
  cases s'.node? n with
  | none => exact .raised h
  | some nd => exact hk nd

theorem buildLeaves_agree (h : BuildAgree s s') (vs : List Byte) : (buildLeaves vs s).Agree (buildLeaves vs s') := by
  induction vs generalizing s s' with
  | nil => exact .done h
  | cons v vs ih =>
    rw [buildLeaves, buildLeaves, h.count]
    split
    · exact ih h
    · refine Res.Agree.andThen ?_ fun _ _ => ih
      rw [addLeaf, addLeaf, h.count, h.nextIx]
      exact enqueue_agree (h.pushNode _) _

theorem mergeStep_agree (h : BuildAgree s s') : (mergeStep s).Agree (mergeStep s') := by
  refine dequeue_agree h fun l s s' h => dequeue_agree h fun r s s' h => ?_
  split
  · exact .raised h
  · refine withNode_agree h fun nl => withNode_agree h fun nr => ?_
    rw [h.nextIx]
    exact enqueue_agree (h.joinNodes _ _ _ _) _

theorem mergeLoop_agree (h : BuildAgree s s') (turns : Nat) : (mergeLoop turns s).Agree (mergeLoop turns s') := by
  induction turns generalizing s s' with
  | zero => exact .done h
  | succ turns ih =>
    rw [mergeLoop, mergeLoop, h.pq]
    split
    · exact (mergeStep_agree h).andThen fun _ _ => ih
    · exact .done h

theorem takeRoot_agree (h : BuildAgree s s') : (takeRoot s).Agree (takeRoot s') :=
  dequeue_agree h fun _ _ _ h => .done ⟨h.ft, h.nm, h.pq, rfl, fun _ => rfl⟩

theorem buildBody_agree (h : s.ft = s'.ft) : (buildBody s).Agree (buildBody s') := by
  have hclear : BuildAgree s.clearTree s'.clearTree := ⟨h, rfl, rfl, rfl, fun hvalid => by cases hvalid⟩
  refine (buildLeaves_agree hclear allBytes).andThen fun s s' h => ?_
  rw [h.pq]
  split
  · exact .raised h
  · exact (mergeLoop_agree h _).andThen fun _ _ => takeRoot_agree

end

/-- Settles O19: from two states with one table the two runs go on alike, step by step. -/
theorem buildReadsNothingButTheCounts : Obligations.BuildReadsNothingButTheCounts := by
  unfold Obligations.BuildReadsNothingButTheCounts
  intro s s' t t' hft ht ht'
  have hagree := buildBody_agree hft
  rw [exec_trBuild] at ht ht'
  generalize buildBody s = r at ht hagree
  generalize buildBody s' = r' at ht' hagree
  cases hagree with
  | done h | raised h =>
    cases ht
    cases ht'
    exact ⟨h.nm, congrArg List.length h.nm, h.rootValid, h.root, h.pq, rfl⟩
  | stopped f f' => cases ht

/-! ### Making nodes (R140 to R142) -/

section
variable {s : State} {n1 n2 : NodeIx} {a b : Node}

theorem exec_trLeaf (v : Byte) (s : State) : exec (.trLeaf v) s = (leafBody v s).finish := rfl

theorem exec_trMerge (n1 n2 : NodeIx) (s : State) : exec (.trMerge n1 n2) s = (mergeBody n1 n2 s).finish := rfl

theorem setWidth_nextIx (h : s.nmNext < 511) : s.nextIx.setWidth 64 = BitVec.ofNat 64 s.nmNext := by
  refine BitVec.eq_of_toNat_eq ?_
  rw [BitVec.toNat_setWidth, toNat_nextIx h, BitVec.toNat_ofNat]
  rfl

/-- The checks of `TR.MERGE` on two nodes, in their order (R142). -/
theorem mergeBody_of_nodes (ha : s.node? n1 = some a) (hb : s.node? n2 = some b) : mergeBody n1 n2 s =
    if n1 = n2 then .raised .selfMerge (n1.setWidth 64) s
    else if a.owned then .raised .badNode (n1.setWidth 64) s
    else if b.owned then .raised .badNode (n2.setWidth 64) s
    else if 2 ^ 64 ≤ s.weightOf n1 + s.weightOf n2 then .raised .weightOverflow (n1.setWidth 64) s
    else if 511 ≤ s.nmNext then .raised .arenaFull 511#64 s
    else .done { joinNodes n1 n2 a b s with res0 := s.nextIx.setWidth 64 } := by
  rw [mergeBody, withNode_some ha, withNode_some hb, State.weightOf_eq ha, State.weightOf_eq hb]
  rfl

/-- What `TR.MERGE` makes of two roots (R142). -/
theorem joinNodes_effect (ha : s.node? n1 = some a) (hb : s.node? n2 = some b)
    (hlight : s.weightOf n1 + s.weightOf n2 < 2 ^ 64) : ∃ w : Word64,
      (joinNodes n1 n2 a b s).nmNext = s.nmNext + 1 ∧
      (joinNodes n1 n2 a b s).nm[s.nmNext]? = some ⟨false, .internal n1 n2 w⟩ ∧
      w.toNat = s.weightOf n1 + s.weightOf n2 ∧
      ∀ m, m < s.nmNext → (joinNodes n1 n2 a b s).nm[m]? =
        (s.nm[m]?).map fun nd => if m = n1.toNat ∨ m = n2.toNat then { nd with owned := true } else nd := by
  rw [State.weightOf_eq ha, State.weightOf_eq hb] at *
  refine ⟨a.body.weight + b.body.weight, ?_, ?_, ?_, fun m hm => ?_⟩
  · simp [joinNodes, State.nmNext]
  · simp [joinNodes, State.nmNext]
  · rw [BitVec.toNat_add, Nat.mod_eq_of_lt hlight]
  · have hm : m < (setOwned (setOwned s.nm n1) n2).length := by simpa [State.nmNext] using hm
    rw [joinNodes, State.pushNode_nm, List.getElem?_append_left hm, getElem?_setOwned, getElem?_setOwned,
      Option.map_map]
    congr 1
    funext nd
    by_cases h2 : m = n2.toNat
    · rw [if_pos (.inr h2), Function.comp_apply, if_pos h2]
      split <;> rfl
    · simp [h2]

end

/-- Settles O12: the checks of `TR.MERGE` one after another, and the node it makes when all pass. -/
theorem nodeMakingEffects : Obligations.NodeMakingEffects := by
  unfold Obligations.NodeMakingEffects
  refine fun s => ⟨⟨rfl, rfl⟩, fun v => ⟨rfl, fun hfull => ?full, fun hroom => ?leaf⟩, fun n1 n2 =>
    ⟨rfl, fun hbad => ?bad1, fun a ha => ⟨fun hbad => ?bad2, fun b hb => ?merge⟩⟩⟩
  case full => rw [exec_trLeaf, leafBody, if_pos (show nodeMax ≤ s.nmNext from hfull)]; rfl
  case leaf =>
    rw [exec_trLeaf, leafBody, if_neg (show ¬ nodeMax ≤ s.nmNext from Nat.not_le.2 hroom), setWidth_nextIx hroom]
    rfl
  case bad1 => rw [exec_trMerge, mergeBody, withNode_none hbad, Res.finish_raised]
  case bad2 => rw [exec_trMerge, mergeBody, withNode_some ha, withNode_none hbad, Res.finish_raised]
  case merge =>
    rw [exec_trMerge, mergeBody_of_nodes ha hb]
    refine ⟨fun he => ?_, fun hne ho => ?_, fun hne ho ho' => ?_, fun hne ho ho' hheavy => ?_,
      fun hne ho ho' hlight hfull => ?_, fun hne ho ho' hlight hroom => ?_⟩
    · simp only [if_pos he, Res.finish_raised]
    · simp only [if_neg hne, if_pos ho, Res.finish_raised]
    · simp only [if_neg hne, ho, if_pos ho', Res.finish_raised, Bool.false_eq_true, if_false]
    · simp only [if_neg hne, ho, ho', if_pos hheavy, Res.finish_raised, Bool.false_eq_true, if_false]
    · simp only [if_neg hne, ho, ho', if_neg (Nat.not_le.2 hlight), if_pos hfull, Res.finish_raised,
        Bool.false_eq_true, if_false]
      rfl
    · obtain ⟨w, hnext, hnew, hw, hold⟩ := joinNodes_effect ha hb hlight
      simp only [if_neg hne, ho, ho', if_neg (Nat.not_le.2 hlight), if_neg (Nat.not_le.2 hroom),
        setWidth_nextIx hroom, Bool.false_eq_true, if_false]
      exact ⟨_, w, rfl, hnext, hnew, hw, hold, rfl⟩

/-! ### Root and accessors (R143, R144, R147 to R151) -/

/-- Settles O13: `TR.ROOT` by `ROOT_VALID`, `TR.SETROOT` by whether the index names a node. -/
theorem rootCommandEffects : Obligations.RootCommandEffects := by
  unfold Obligations.RootCommandEffects
  refine fun s => ⟨⟨rfl, fun hinvalid => ?invalid, fun hvalid => ?valid⟩, fun n =>
    ⟨rfl, fun hbad => congrArg Res.finish (withNode_none hbad _), fun hn => ?set⟩⟩
  case invalid => rw [exec, execTrRoot, if_neg (by simp [hinvalid])]; rfl
  case valid => rw [exec, execTrRoot, if_pos hvalid]; rfl
  case set =>
    obtain ⟨nd, hnd⟩ := Option.ne_none_iff_exists'.1 hn
    exact congrArg Res.finish (withNode_some hnd _)

/-- Settles O14: each accessor is `withNode`, and what it does with a node is settled by the node's kind. -/
theorem accessorEffects : Obligations.AccessorEffects := by
  unfold Obligations.AccessorEffects
  refine fun s n => ⟨⟨rfl, rfl, rfl, rfl, rfl⟩, State.node?_eq_none_iff, fun hbad => ?bad, fun o v w hn => ?leaf,
    fun o l r w hn => ?internal⟩
  case bad =>
    have hraise (k : Node → Res) : (withNode n s k).finish = .next (s.raise .badNode (n.setWidth 64)) :=
      congrArg Res.finish (withNode_none hbad k)
    simp only [List.forall_mem_cons, List.not_mem_nil, IsEmpty.forall_iff, implies_true, and_true]
    exact ⟨hraise _, hraise _, hraise _, hraise _, hraise _⟩
  case leaf =>
    have hfinish (k : Node → Res) : (withNode n s k).finish = (k ⟨o, .leaf v w⟩).finish :=
      congrArg Res.finish (withNode_some hn k)
    exact ⟨hfinish _, hfinish _, hfinish _, hfinish _, hfinish _⟩
  case internal =>
    have hfinish (k : Node → Res) : (withNode n s k).finish = (k ⟨o, .internal l r w⟩).finish :=
      congrArg Res.finish (withNode_some hn k)
    exact ⟨hfinish _, hfinish _, hfinish _, hfinish _, hfinish _⟩

end Sys2Proof.Machine
end

section
/-! PROOFS. Family 44_binary_code: the code commands and the code table commands. -/

namespace Sys2Proof

/-! ### The words of the code commands (R91, format C)

The fields a command does not use join the reserved bit above them; a word whose used fields are all at one end needs no
lemma, as its other bits are a constant. -/

section
variable (op : Byte) (cd cs : CodeReg) (bit : Bool) (a b : Byte)

theorem wordC_cd_cs_a_b : wordC op cd cs 0 false a b = op ++ b ++ a ++ 0#4 ++ cs ++ cd := by
  apply BitVec.eq_of_toNat_eq
  simp only [wordC, BitVec.ofNat_eq_ofNat, BitVec.ofBool_false, BitVec.toNat_append, BitVec.toNat_zero, Nat.or_zero,
    ← Nat.shiftLeft_add]

theorem wordC_cd_a_b : wordC op cd 0 0 false a b = op ++ b ++ a ++ 0#6 ++ cd := by
  apply BitVec.eq_of_toNat_eq
  simp only [wordC, BitVec.ofNat_eq_ofNat, BitVec.ofBool_false, BitVec.toNat_append, BitVec.toNat_zero, Nat.or_zero,
    ← Nat.shiftLeft_add]

theorem wordC_cd_a_bit : wordC op cd 0 0 bit a 0 = op ++ 0#8 ++ a ++ 0#1 ++ BitVec.ofBool bit ++ 0#4 ++ cd := by
  apply BitVec.eq_of_toNat_eq
  simp only [wordC, BitVec.ofNat_eq_ofNat, BitVec.toNat_append, BitVec.toNat_zero, Nat.or_zero, ← Nat.shiftLeft_add]

end

end Sys2Proof

namespace Sys2Proof.Machine

/-! ### The checks of the code commands (R175) -/

section
variable {s : State} {k cd cs : CodeReg} {c d : BinaryCode} {a b : Byte}

theorem finish_withCode_none (h : s.codeAt k = none) (f : BinaryCode → Res) :
    (withCode k s f).finish = .next (s.raise .noCode (k.setWidth 64)) :=
  congrArg Res.finish (withCode_none h f)

theorem finish_withCode_some (h : s.codeAt k = some c) (f : BinaryCode → Res) :
    (withCode k s f).finish = (f c).finish :=
  congrArg Res.finish (withCode_some h f)

theorem finish_rangeError {i : Instr} {w : Word32} (h : encode i = .command w) :
    (rangeError i s).finish = .next (s.raise .operandRange (w.setWidth 64)) := by
  rw [rangeError, commandWord, h]
  rfl

theorem if_not_spanOk (h : ¬ (a.toNat ≤ b.toNat ∧ b.toNat ≤ c.length)) (bad ok : Res) :
    (if !spanOk a b c then bad else ok) = bad :=
  if_pos (by simpa using mt spanOk_iff.1 h)

theorem if_spanOk (hab : a.toNat ≤ b.toNat) (hb : b.toNat ≤ c.length) (bad ok : Res) :
    (if !spanOk a b c then bad else ok) = ok :=
  if_neg (by simpa using spanOk_iff.2 ⟨hab, hb⟩)

theorem finish_storeCode_of_lt (h : 255 < c.length) :
    (storeCode cd c s).finish = .next (s.raise .codeOverflow (cd.setWidth 64)) :=
  congrArg Res.finish (if_pos (show codeMax < c.length from h))

theorem finish_storeCode_of_le (h : c.length ≤ 255) :
    (storeCode cd c s).finish = .next (s.setCode cd c).complete :=
  congrArg Res.finish (if_neg (show ¬ codeMax < c.length from Nat.not_lt.2 h))

/-! ### Slices (R7) -/

theorem getElem?_codeSlice {a b k : Nat} (h : k < b - a) : (codeSlice d a b)[k]? = d[a + k]? := by
  rw [codeSlice, List.getElem?_drop, List.getElem?_take_of_lt (by omega)]

/-- R174(c), on codes: a slice put back where it was taken from. -/
theorem codeReplace_codeSlice {a b : Nat} (hab : a ≤ b) : codeReplace c a b (codeSlice c a b) = c := by
  calc codeReplace c a b (codeSlice c a b)
      = (c.take b).take a ++ (c.take b).drop a ++ c.drop b := by
        rw [codeReplace, codeSlice, List.take_take, Nat.min_eq_left hab]
    _ = c := by rw [List.take_append_drop, List.take_append_drop]

/-- Putting bits in, at a position and in place of nothing (R167). -/
theorem codeReplace_insert {x z bits : List Bool} {a : Nat} (ha : x.length = a) :
    codeReplace (x ++ z) a a bits = x ++ bits ++ z := by
  simpa using codeReplace_eq (y := []) (z := z) (bits := bits) ha (by simpa using ha)

/-! ### Span commands on operands that pass their checks -/

/-- `BC.SLICE` on a non-empty span of a code (R164). -/
theorem exec_bcSlice_of_span (hc : s.codeAt cs = some c) (hab : a.toNat < b.toNat) (hb : b.toNat ≤ c.length) :
    exec (.bcSlice cd cs a b) s = .next (s.setCode cd (codeSlice c a.toNat b.toNat)).complete := by
  have hne : a ≠ b := fun h => absurd (congrArg BitVec.toNat h) (Nat.ne_of_lt hab)
  refine (finish_withCode_some hc _).trans ?_
  rw [if_spanOk hab.le hb, if_neg hne]
  rfl

/-- `BC.SPLICE` over a span of a code is left with the size of the result (R166). -/
theorem exec_bcSplice_of_span (hd : s.codeAt cd = some d) (hc : s.codeAt cs = some c) (hab : a.toNat ≤ b.toNat)
    (hb : b.toNat ≤ d.length) :
    exec (.bcSplice cd cs a b) s = (storeCode cd (codeReplace d a.toNat b.toNat c) s).finish := by
  refine (finish_withCode_some hd _).trans ((finish_withCode_some hc _).trans ?_)
  rw [if_spanOk hab hb]

end

/-- Settles O24: the slice leaves the source's register alone, and the splice puts back the bits it took. -/
theorem sliceWrittenBackRestoresTheCode : Obligations.SliceWrittenBackRestoresTheCode := by
  unfold Obligations.SliceWrittenBackRestoresTheCode
  intro s k j c a b hkj hc hlen hab hb
  set u := (s.setCode j (codeSlice c a.toNat b.toNat)).complete
  have hslice : exec (.bcSlice j k a b) s = .next u := exec_bcSlice_of_span hc hab hb
  have hk : u.codeAt k = some c := (State.codeAt_setCode_other s _ hkj).trans hc
  have hj : u.codeAt j = some (codeSlice c a.toNat b.toNat) := State.codeAt_setCode_same s j _
  have hsplice : exec (.bcSplice k j a b) u = .next (u.setCode k c).complete := by
    rw [exec_bcSplice_of_span hk hj hab.le hb, codeReplace_codeSlice hab.le, finish_storeCode_of_le hlen]
  refine ⟨(u.setCode k c).complete, ?_, rfl, State.codeAt_setCode_same u k c⟩
  simp only [runCommands, hslice, hsplice]

/-- Settles O21: each command is its `NoCode` checks, then one test of the length or the index. -/
theorem codeReadingEffects : Obligations.CodeReadingEffects := by
  unfold Obligations.CodeReadingEffects
  refine fun s => ⟨fun cd bit => ⟨congrArg _ (wordC_cd_a_bit 0x40#8 cd bit 0), rfl⟩,
    fun cd bit => ⟨congrArg _ (wordC_cd_a_bit 0x41#8 cd bit 0), fun h => finish_withCode_none h _, ?push⟩,
    fun cs => ⟨rfl, fun h => finish_withCode_none h _, fun c hc => finish_withCode_some hc _⟩,
    fun cs i => ⟨congrArg _ (wordC_cd_cs_a_b 0x43#8 0 cs i 0), fun h => finish_withCode_none h _, ?get⟩,
    fun cs ct => ⟨rfl, fun h => finish_withCode_none h _, ?eqSecond, ?eq⟩⟩
  case push =>
    intro c hc
    have hexec : exec (.bcPush cd bit) s = (storeCode cd (c ++ [bit]) s).finish := finish_withCode_some hc _
    have hlen : (c ++ [bit]).length = c.length + 1 := List.length_append
    exact ⟨fun hfull => hexec.trans (finish_storeCode_of_lt (by omega)),
      fun hroom => hexec.trans (finish_storeCode_of_le (by omega))⟩
  case get =>
    intro c hc
    refine ⟨fun hout => (finish_withCode_some hc _).trans ?_, fun b hb => (finish_withCode_some hc _).trans ?_⟩
    · simp only [List.getElem?_eq_none hout]
      exact finish_rangeError (congrArg _ (wordC_cd_cs_a_b 0x43#8 0 cs i 0))
    · simp only [hb]
      rfl
  case eqSecond => exact fun c hc hnone => (finish_withCode_some hc _).trans (finish_withCode_none hnone _)
  case eq =>
    intro c d hc hd
    have hexec : exec (.bcEq cs ct) s = (result (boolWord (c == d)) s).finish :=
      (finish_withCode_some hc _).trans (finish_withCode_some hd _)
    rw [hexec, beq_eq_decide, boolWord_decide]
    rfl

/-- Settles O22: after `NoCode` the span or the index is checked, then what the result would be. -/
theorem sliceSetSpliceEffects : Obligations.SliceSetSpliceEffects := by
  unfold Obligations.SliceSetSpliceEffects
  intro s cd cs a b bit
  have hslice : encode (.bcSlice cd cs a b) = .command _ := congrArg _ (wordC_cd_cs_a_b 0x44#8 cd cs a b)
  have hset : encode (.bcSet cd a bit) = .command _ := congrArg _ (wordC_cd_a_bit 0x45#8 cd bit a)
  have hsplice : encode (.bcSplice cd cs a b) = .command _ := congrArg _ (wordC_cd_cs_a_b 0x46#8 cd cs a b)
  refine ⟨⟨hslice, fun h => finish_withCode_none h _, fun c hc => ⟨fun hspan => ?sliceRange, fun he hb => ?sliceEmpty,
      fun hab hb => ?slice⟩⟩,
    ⟨hset, fun h => finish_withCode_none h _, fun c hc => ⟨fun hout => ?setRange, fun hin => ?set⟩⟩,
    hsplice, fun h => finish_withCode_none h _, fun d hd =>
      ⟨fun h => (finish_withCode_some hd _).trans (finish_withCode_none h _), fun c hc =>
        ⟨fun hspan => ?spliceRange, ?splice⟩⟩⟩
  case sliceRange =>
    refine (finish_withCode_some hc _).trans ?_
    rw [if_not_spanOk hspan, finish_rangeError hslice]
  case sliceEmpty =>
    refine (finish_withCode_some hc _).trans ?_
    rw [if_spanOk (congrArg BitVec.toNat he).le hb, if_pos he]
    rfl
  case slice =>
    have hlen := length_codeSlice (a := a.toNat) hb
    exact ⟨_, hlen, fun k hk => getElem?_codeSlice (hk.trans_eq hlen), exec_bcSlice_of_span hc hab hb⟩
  case setRange =>
    refine (finish_withCode_some hc _).trans ?_
    rw [if_pos (by simpa using mt indexOk_iff.1 (Nat.not_lt.2 hout)), finish_rangeError hset]
  case set =>
    refine (finish_withCode_some hc _).trans ?_
    rw [if_neg (by simpa using indexOk_iff.2 hin)]
    rfl
  case spliceRange =>
    refine (finish_withCode_some hd _).trans ((finish_withCode_some hc _).trans ?_)
    rw [if_not_spanOk hspan, finish_rangeError hsplice]
  case splice =>
    rintro x y z rfl ha hb
    have hexec : exec (.bcSplice cd cs a b) s = (storeCode cd (x ++ c ++ z) s).finish := by
      rw [exec_bcSplice_of_span hd hc (by omega) (by simp; omega), codeReplace_eq ha hb]
    have hlen : (x ++ c ++ z).length = x.length + c.length + z.length := by simp only [List.length_append]
    exact ⟨fun hbig => hexec.trans (finish_storeCode_of_lt (by omega)),
      fun hfits => hexec.trans (finish_storeCode_of_le (by omega))⟩

/-- Settles O23: as O22; of a deletion the span is the whole code exactly when nothing is left of it. -/
theorem insertDeleteConcatEffects : Obligations.InsertDeleteConcatEffects := by
  unfold Obligations.InsertDeleteConcatEffects
  intro s cd cs ct a b bit
  have hins : encode (.bcIns cd a bit) = .command _ := congrArg _ (wordC_cd_a_bit 0x47#8 cd bit a)
  have hdel : encode (.bcDel cd a b) = .command _ := congrArg _ (wordC_cd_a_b 0x48#8 cd a b)
  refine ⟨⟨hins, fun h => finish_withCode_none h _, fun c hc => ⟨fun hout => ?insRange, ?insOverflow, ?ins⟩⟩,
    ⟨hdel, fun h => finish_withCode_none h _, fun c hc => ⟨fun hspan => ?delRange, ?del⟩⟩,
    rfl, fun h => finish_withCode_none h _, fun c hc =>
      ⟨fun h => (finish_withCode_some hc _).trans (finish_withCode_none h _), ?cat⟩⟩
  case insRange =>
    refine (finish_withCode_some hc _).trans ?_
    rw [if_pos hout, finish_rangeError hins]
  case insOverflow =>
    intro hin hfull
    have hlen := length_codeReplace (b := a.toNat) [bit] hin
    rw [List.length_singleton] at hlen
    refine (finish_withCode_some hc _).trans ?_
    rw [if_neg (Nat.not_lt.2 hin), finish_storeCode_of_lt (by omega)]
  case ins =>
    rintro x z rfl ha hroom
    rw [List.length_append] at hroom
    refine (finish_withCode_some hc _).trans ?_
    rw [if_neg (by simp; omega), codeReplace_insert ha, List.append_assoc, List.singleton_append,
      finish_storeCode_of_le (by simp; omega)]
    rfl
  case delRange =>
    refine (finish_withCode_some hc _).trans ?_
    rw [if_not_spanOk hspan, finish_rangeError hdel]
  case del =>
    rintro x y z rfl ha hb
    have hall : b.toNat - a.toNat = (x ++ y ++ z).length ↔ x ++ z = [] := by
      rw [List.append_eq_nil_iff, ← List.length_eq_zero_iff, ← List.length_eq_zero_iff]
      simp only [List.length_append]
      omega
    refine ⟨fun hnil => (finish_withCode_some hc _).trans ?_, fun hne => (finish_withCode_some hc _).trans ?_⟩ <;>
      rw [if_spanOk (by omega) (by simp; omega)]
    · rw [if_pos (hall.2 hnil)]
      rfl
    · rw [if_neg (mt hall.1 hne), codeReplace_eq ha hb, List.append_nil]
      rfl
  case cat =>
    intro d hd
    have hexec : exec (.bcCat cd cs ct) s = (storeCode cd (c ++ d) s).finish :=
      (finish_withCode_some hc _).trans (finish_withCode_some hd _)
    have hlen : (c ++ d).length = c.length + d.length := List.length_append
    exact ⟨fun hbig => hexec.trans (finish_storeCode_of_lt (by omega)),
      fun hfits => hexec.trans (finish_storeCode_of_le (by omega))⟩

/-! ### The code table (R171 to R173) -/

theorem ctEntryInfo_eq (v : Byte) : 0x100#64 + v.setWidth 64 = BitVec.ofNat 64 (256 + v.toNat) := by
  rw [BitVec.ofNat_add, BitVec.ofNat_toNat]

/-- Settles O25: the table is emptied, one entry of it is set, or one is read. -/
theorem codeTableEffects : Obligations.CodeTableEffects := by
  unfold Obligations.CodeTableEffects
  refine fun s v k => ⟨⟨rfl, _, rfl, fun u => ?clr, rfl⟩,
    ⟨congrArg _ (wordC_cd_cs_a_b 0x4D#8 0 k v 0), fun h => finish_withCode_none h _, fun c hc =>
      ⟨_, finish_withCode_some hc _, tableGet_tableSet_same s.ct v _, fun u hu => tableGet_tableSet_other s.ct _ hu,
        rfl⟩⟩,
    congrArg _ (wordC_cd_a_b 0x4E#8 k v 0), fun hnone => ?ldNone,
    fun c hc => congrArg Res.finish (withCtEntry_some hc _)⟩
  case clr => exact congrArg Option.isSome (tableGet_replicate none u)
  case ldNone =>
    rw [← ctEntryInfo_eq]
    exact congrArg Res.finish (withCtEntry_none hnone _)

end Sys2Proof.Machine
end

section
/-! PROOFS. Family 45_codegen: the code generator. -/

namespace Sys2Proof.Machine

/-! ### The order of the walk (R181: left before right) -/

theorem VisitedAfter.cons {p q : BinaryCode} (b : Bool) (h : VisitedAfter q p) : VisitedAfter (b :: q) (b :: p) := by
  obtain ⟨c, p', q', rfl, rfl⟩ := h
  exact ⟨b :: c, p', q', rfl, rfl⟩

theorem visitedAfter_right_left (q p : BinaryCode) : VisitedAfter (true :: q) (false :: p) := ⟨[], p, q, rfl, rfl⟩

/-- Later in the walk is greater in the lexicographic order of the bits. -/
theorem VisitedAfter.lt {p q : BinaryCode} (h : VisitedAfter q p) : p < q := by
  obtain ⟨c, p', q', rfl, rfl⟩ := h
  exact List.append_left_lt (List.Lex.rel rfl)

theorem VisitedAfter.asymm {p q : BinaryCode} (h : VisitedAfter q p) : ¬ VisitedAfter p q := fun h' =>
  lt_asymm h.lt h'.lt

/-! ### The code of a byte value in a tree value (R181) -/

/-- The bits to the leaf of value `v` that the walk of R181 visits last. -/
def TreeVal.lastPath : TreeVal → Byte → Option BinaryCode
  | .leaf u _, v => if v = u then some [] else none
  | .node l r, v => ((r.lastPath v).map (true :: ·)).or ((l.lastPath v).map (false :: ·))

section
variable {T : TreeVal} {v : Byte} {c d : BinaryCode}

theorem TreeVal.follow_of_lastPath (h : T.lastPath v = some c) : T.follow c = some v := by
  induction T generalizing c with
  | leaf u w =>
    obtain ⟨rfl, rfl⟩ : v = u ∧ [] = c := by simpa [lastPath] using h
    rfl
  | node l r ihl ihr =>
    rcases Option.or_eq_some_iff.1 h with h | ⟨-, h⟩ <;> obtain ⟨q, hq, rfl⟩ := Option.map_eq_some_iff.1 h
    · exact ihr hq
    · exact ihl hq

/-- Bits that lead to the value are its last path, or are visited before it. -/
theorem TreeVal.exists_lastPath (h : T.follow d = some v) :
    ∃ c, T.lastPath v = some c ∧ (d = c ∨ VisitedAfter c d) := by
  induction T generalizing d with
  | leaf u w =>
    cases d with
    | nil => exact ⟨[], by simpa [lastPath, follow, eq_comm] using h, .inl rfl⟩
    | cons b d => cases h
  | node l r ihl ihr =>
    match d, h with
    | true :: d, h =>
      obtain ⟨c, hc, hlast⟩ := ihr h
      exact ⟨true :: c, by simp [lastPath, hc], hlast.imp (congrArg _) (.cons true)⟩
    | false :: d, h =>
      obtain ⟨c, hc, hlast⟩ := ihl h
      cases hr : r.lastPath v with
      | none => exact ⟨false :: c, by simp [lastPath, hc, hr], hlast.imp (congrArg _) (.cons false)⟩
      | some q => exact ⟨true :: q, by simp [lastPath, hr], .inr (visitedAfter_right_left q d)⟩

theorem TreeVal.lastPath_eq_some_iff :
    T.lastPath v = some c ↔ T.follow c = some v ∧ ∀ d, T.follow d = some v → d ≠ c → VisitedAfter c d := by
  constructor
  · refine fun h => ⟨follow_of_lastPath h, fun d hd hne => ?_⟩
    obtain ⟨c', hc', hlast⟩ := exists_lastPath hd
    obtain rfl : c = c' := Option.some.inj (h.symm.trans hc')
    exact hlast.resolve_left hne
  · rintro ⟨hc, hafter⟩
    obtain ⟨d, hd, rfl | hlast⟩ := exists_lastPath hc
    · exact hd
    · have hne : d ≠ c := by rintro rfl; exact hlast.asymm hlast
      exact absurd (hafter d (follow_of_lastPath hd) hne) hlast.asymm

end

/-! ### The walk (R181) -/

section
variable {s t : State} {n l r : NodeIx} {o : Bool} {u v : Byte} {w : Word64} {c e : BinaryCode}

/-- The walk ends in a good store, and gives each byte value of the tree the path to its last leaf, behind the path to the
tree; the other entries stay. -/
theorem StoreInv.walkCodes_eq (h : StoreInv s) {T : TreeVal} (ht : TreeIs s n T) {fuel : Nat} (hfuel : n.toNat < fuel)
    (p : BinaryCode) (tab : CodeTable) : ∃ tab', walkCodes s fuel n p tab = .ok tab' ∧
      ∀ v, tableGet tab' v = ((T.lastPath v).map (p ++ ·)).or (tableGet tab v) := by
  induction ht generalizing fuel p tab with
  | @leaf n o u w hn =>
    obtain ⟨fuel, rfl⟩ : ∃ f, fuel = f + 1 := ⟨fuel - 1, by omega⟩
    refine ⟨tableSet tab u (some p), by simp only [walkCodes, hn], fun v => ?_⟩
    by_cases hv : v = u
    · simp [hv, TreeVal.lastPath]
    · simp [hv, TreeVal.lastPath, tableGet_tableSet_other]
  | @node n l r o w L R hn _ _ ihl ihr =>
    obtain ⟨fuel, rfl⟩ : ∃ f, fuel = f + 1 := ⟨fuel - 1, by omega⟩
    have hc := h.goodChildren hn
    obtain ⟨tabl, hwalkl, hl⟩ := ihl (fuel := fuel) (by have := hc.left_lt; omega) (p ++ [false]) tab
    obtain ⟨tabr, hwalkr, hr⟩ := ihr (fuel := fuel) (by have := hc.right_lt; omega) (p ++ [true]) tabl
    refine ⟨tabr, by simp only [walkCodes, hn, hwalkl, hwalkr], fun v => ?_⟩
    rw [hr, hl, ← Option.or_assoc]
    simp [TreeVal.lastPath, Option.map_or, Function.comp_def]

/-- The two walks from the root's children are the walk from the root with no bits before it. -/
theorem rootCodes_eq_walkCodes (hn : s.node? n = some ⟨o, .internal l r w⟩) :
    rootCodes s l r = walkCodes s (walkFuel s + 1) n [] emptyTable := by
  simp only [rootCodes, walkCodes, hn, List.nil_append]

theorem StoreInv.rootCodes_eq (h : StoreInv s) (hn : s.node? n = some ⟨o, .internal l r w⟩) :
    ∃ tab, rootCodes s l r = .ok tab ∧ ∀ v c, tableGet tab v = some c ↔
      LeadsTo s n c v ∧ ∀ d, LeadsTo s n d v → d ≠ c → VisitedAfter c d := by
  obtain ⟨T, hT⟩ := h.exists_treeIs hn
  have hfuel : n.toNat < walkFuel s + 1 := Nat.lt_add_right 2 (State.toNat_lt_length hn)
  obtain ⟨tab, hwalk, htab⟩ := h.walkCodes_eq hT hfuel [] emptyTable
  refine ⟨tab, (rootCodes_eq_walkCodes hn).trans hwalk, fun v c => ?_⟩
  have hget : tableGet tab v = T.lastPath v := by simp [htab, emptyTable]
  simp only [hget, TreeVal.lastPath_eq_some_iff, hT.follow_eq_some]

/-! ### `CG.RUN` (R180, R181) -/

theorem exec_cgRun_noTree (h : s.rootValid = false) : exec .cgRun s = .next (s.raise .noTree 0) :=
  congrArg Res.finish (if_pos (by simp [h]))

theorem exec_cgRun_badNode (h : s.rootValid = true) (hn : s.node? s.root = none) :
    exec .cgRun s = .next (s.raise .badNode (s.root.setWidth 64)) :=
  congrArg Res.finish ((if_neg (by simp [h])).trans (withNode_none hn _))

theorem exec_cgRun_leaf (h : s.rootValid = true) (hn : s.node? s.root = some ⟨o, .leaf v w⟩) :
    exec .cgRun s = .next (s.raise .emptyCode (s.root.setWidth 64)) :=
  congrArg Res.finish ((if_neg (by simp [h])).trans (withNode_some hn _))

theorem exec_cgRun_internal (h : s.rootValid = true) (hn : s.node? s.root = some ⟨o, .internal l r w⟩) {tab : CodeTable}
    (htab : rootCodes s l r = .ok tab) : exec .cgRun s = .next { s with ct := tab, err := .ok } := by
  have hbody : codegenBody s = .done { s with ct := tab } := by
    rw [codegenBody, if_neg (by simp [h]), withNode_some hn]
    simp only [htab]
  exact congrArg Res.finish hbody

/-- `CG.RUN` succeeds only below a valid root that is an internal node (R180). -/
theorem internalRoot_of_cgRun_ok (hexec : exec .cgRun s = .next t) (hok : t.err = .ok) :
    s.rootValid = true ∧ ∃ o l r w, s.node? s.root = some ⟨o, .internal l r w⟩ := by
  have hraise {k : Err} {info : Word64} (hk : k ≠ .ok) : exec .cgRun s ≠ .next (s.raise k info) := fun he => by
    cases hexec.symm.trans he
    exact hk hok
  cases hv : s.rootValid with
  | false => exact absurd (exec_cgRun_noTree hv) (hraise (by decide))
  | true =>
    refine ⟨rfl, ?_⟩
    match hn : s.node? s.root with
    | none => exact absurd (exec_cgRun_badNode hv hn) (hraise (by decide))
    | some ⟨o, .leaf v w⟩ => exact absurd (exec_cgRun_leaf hv hn) (hraise (by decide))
    | some ⟨o, .internal l r w⟩ => exact ⟨o, l, r, w, rfl⟩

/-- Bits that lead to a leaf and go on to a leaf go on by none, as no path leaves a leaf. -/
theorem LeadsTo.eq_of_append (hc : LeadsTo s n c u) (he : LeadsTo s n (c ++ e) v) : u = v := by
  induction c generalizing n with
  | nil =>
    obtain ⟨o, w, hn⟩ := hc.of_nil
    exact ((LeadsTo.of_leaf hn).1 he).2.symm
  | cons b c ih =>
    obtain ⟨o, l, r, w, hn, hc⟩ := hc.of_cons
    obtain ⟨o', l', r', w', hn', he⟩ := he.of_cons
    cases hn.symm.trans hn'
    exact ih hc he

end

/-- Settles O26: the walk gives each byte value the last path to it in the root's tree value, and a last path is one that
every other path to the value precedes. -/
theorem codesAreTheRootPaths : Obligations.CodesAreTheRootPaths := by
  unfold Obligations.CodesAreTheRootPaths
  refine ⟨rfl, fun s => ⟨exec_cgRun_noTree, fun hv o v w hn => exec_cgRun_leaf hv hn, fun h hv o l r w hn => ?_⟩⟩
  obtain ⟨tab, htab, hpaths⟩ := h.rootCodes_eq hn
  exact ⟨_, exec_cgRun_internal hv hn htab, hpaths, rfl⟩

/-- Settles O27: two codes of the table lead to leaves, and no path goes on from a leaf. That the leaf values are distinct
is not needed: of several leaves of one value the table holds one path. -/
theorem codesArePrefixFree : Obligations.CodesArePrefixFree := by
  unfold Obligations.CodesArePrefixFree
  rintro s t h - hexec hok u v c d hc hd hne ⟨e, rfl⟩
  obtain ⟨hv, o, l, r, w, hn⟩ := internalRoot_of_cgRun_ok hexec hok
  obtain ⟨tab, htab, hpaths⟩ := h.rootCodes_eq hn
  cases hexec.symm.trans (exec_cgRun_internal hv hn htab)
  obtain ⟨hleadc, -⟩ := (hpaths u c).1 hc
  obtain ⟨hleadd, -⟩ := (hpaths v _).1 hd
  exact hne (hleadc.eq_of_append hleadd)

end Sys2Proof.Machine
end

section
/-! PROOFS. Family 46_encoder: the header writer, the bit-pack encoder, the whole pass. -/

namespace Sys2Proof.Machine

/-! ### `ENC.RUN` as its steps (R197, R235) -/

section
variable {P : Err → Prop} (s : State)

theorem WalkErr.toRes_raises (hbad : P .badNode) (e : WalkErr) : (e.toRes s).Raises P := by
  cases e with
  | badNode n => exact hbad
  | endless => trivial

theorem codegenBody_raises (htree : P .noTree) (hempty : P .emptyCode) (hbad : P .badNode) :
    (codegenBody s).Raises P := by
  refine guard_raises htree (withNode_raises hbad fun nd => ?_)
  split
  · exact hempty
  · split
    · trivial
    · exact WalkErr.toRes_raises s hbad _

theorem scanBody_raises : (scanBody s).Raises Err.IsError := scanLoop_raises (by decide) _ _ s

theorem headerBody_raises (hlength : P .lengthOverflow) : (headerBody s).Raises P := guard_raises hlength trivial

theorem putBody_raises (hcode : P .noCode) (v : Byte) : (putBody v s).Raises P := by
  rcases putBody_cases v s with ⟨-, hput⟩ | ⟨c, -, hput⟩ <;> rw [hput]
  · exact raised_raises hcode
  · trivial

theorem encodeLoop_raises (hcode : P .noCode) (left : Nat) : (encodeLoop left s).Raises P := by
  induction left generalizing s with
  | zero => trivial
  | succ left ih =>
    unfold encodeLoop
    split
    · trivial
    · exact (putBody_raises s hcode _).andThen fun t => ih _

theorem encodeBody_raises (hcode : P .noCode) : (encodeBody s).Raises P :=
  (encodeLoop_raises s hcode _).andThen fun _ => trivial

theorem encodeGeneral_raises : (encodeGeneral s).Raises Err.IsError :=
  (buildBody_raises s).andThen fun t =>
  (codegenBody_raises t.complete (by decide) (by decide) (by decide)).andThen fun u =>
  encodeBody_raises _ (by decide)

end

section
variable {o : Host.Outcome State Fault Refusal} {f g : State → Host.Outcome State Fault Refusal}

theorem thenOk_assoc : thenOk (thenOk o f) g = thenOk o fun t => thenOk (f t) g := by
  cases o with
  | next t => by_cases h : t.err = .ok <;> simp [thenOk, h]
  | fault r => rfl
  | refused r => rfl

theorem thenOk_next_right : thenOk o .next = o := by
  cases o with
  | next t => exact ite_self _
  | fault r => rfl
  | refused r => rfl

/-- What follows a command matters only for the states in which the command succeeded. -/
theorem thenOk_congr (h : ∀ t, t.err = .ok → f t = g t) : thenOk o f = thenOk o g := by
  cases o with
  | next t => exact if_ctx_congr Iff.rfl (h t) fun _ => rfl
  | fault r => rfl
  | refused r => rfl

end

theorem State.complete_eq_self {s : State} (h : s.err = .ok) : s.complete = s := by
  rw [State.complete, ← h]

/-- The commands of step 5 of R197. -/
abbrev generalSteps : List Instr := [.trBuild, .cgRun, .rew true false, .encBody]

theorem finish_encodeGeneral (s : State) : (encodeGeneral s).finish = runSteps generalSteps s := by
  rw [encodeGeneral, finish_thenCommand (buildBody_raises s)]
  refine thenOk_congr fun t ht => ?_
  rw [finish_thenCommand (codegenBody_raises t (by decide) (by decide) (by decide))]
  refine thenOk_congr fun u hu => ?_
  have hrewound : (rewind true false u).complete = u.rewindSrc := State.complete_eq_self hu
  have hrew : exec (.rew true false) u = .next u.rewindSrc := congrArg Host.Outcome.next hrewound
  rw [runSteps, hrew, thenOk_next (t := u.rewindSrc) hu, runSteps]
  exact thenOk_next_right.symm

/-- Steps 5 and 6 of R197, on a state that steps 1 to 4 have left. -/
theorem finish_encodeLast {s : State} (h : s.err = .ok) :
    ((if s.fileType = 2#8 then encodeGeneral s else .done s).andThen fun t =>
      result (BitVec.ofNat 64 t.snkPos) t).finish =
    producedToRes0 (if s.fileType = 2#8 then runSteps generalSteps s else .next s) := by
  by_cases htype : s.fileType = 2#8
  · rw [if_pos htype, if_pos htype, finish_andThen_result (encodeGeneral_raises s), finish_encodeGeneral]
  · rw [if_neg htype, if_neg htype, finish_andThen_result (r := .done s) trivial, Res.finish_done,
      State.complete_eq_self h]

/-- `ENC.RUN` from its scan on. -/
theorem exec_encRun (s : State) : exec .encRun s =
    thenOk (runSteps [.ftScan, .encHdr] (clearCounts (rewind true true s)).complete) fun a =>
      producedToRes0 (if a.fileType = 2#8 then runSteps generalSteps a else .next a) := by
  change (encodePass s).finish = _
  rw [encodePass, Res.thenCommand_done, finish_thenCommand (scanBody_raises _), runSteps, thenOk_assoc]
  refine thenOk_congr fun t _ => ?_
  rw [finish_thenCommand (headerBody_raises t (by decide)), runSteps, thenOk_assoc]
  refine thenOk_congr fun a ha => ?_
  rw [runSteps, thenOk_next ha]
  exact finish_encodeLast ha

/-- Settles O31: a body's `thenCommand` is `thenOk` of the commands, pass by pass; the two rewinds and `FT.CLR` always
succeed. -/
theorem compressIsItsSteps : Obligations.CompressIsItsSteps := by
  unfold Obligations.CompressIsItsSteps
  exact ⟨rfl, exec_encRun⟩

/-! ### Bits in bytes (R67, R190) -/

theorem getLsbD_setBit_same (x : BitVec 8) {i : Nat} (hi : i < 8) (v : Bool) : (setBit x i v).getLsbD i = v := by
  cases v <;> simp [setBit, hi]

theorem getLsbD_setBit_of_gt (x : BitVec 8) {i j : Nat} (hi : i < 8) (v : Bool) (hji : j < i) :
    (setBit x i v).getLsbD j = x.getLsbD j := by
  have hj : j < 8 := hji.trans hi
  cases v <;> simp [setBit, hji, hj]

/-- The first bits of a byte grow by the bit set behind them. -/
theorem map_getLsbD_setBit (x : BitVec 8) {n : Nat} (hn : n < 8) (v : Bool) :
    (List.range (n + 1)).map (setBit x n v).getLsbD = (List.range n).map x.getLsbD ++ [v] := by
  have hold : ∀ i ∈ List.range n, (setBit x n v).getLsbD i = x.getLsbD i := fun i hi =>
    getLsbD_setBit_of_gt x hn v (List.mem_range.1 hi)
  rw [List.range_succ, List.map_append, List.map_congr_left hold, List.map_singleton, getLsbD_setBit_same x hn]

theorem length_flatMap_byteBits (bytes : List Byte) : (bytes.flatMap byteBits).length = 8 * bytes.length := by
  simp [List.length_flatMap, byteBits_length, Nat.mul_comm]

/-- Bit `j` of a byte sequence is bit `j mod 8` of byte `j / 8`, the lowest bit first (R67). -/
theorem getElem?_flatMap_byteBits {bytes : List Byte} {j : Nat} {b : Byte} (h : bytes[j / 8]? = some b) :
    (bytes.flatMap byteBits)[j]? = some (b.getLsbD (j % 8)) := by
  induction bytes generalizing j with
  | nil => simp at h
  | cons c bytes ih =>
    rw [List.flatMap_cons]
    by_cases hj : j < 8
    · rw [Nat.div_eq_of_lt hj, List.getElem?_cons_zero, Option.some.injEq] at h
      rw [List.getElem?_append_left (by rwa [byteBits_length]), h, Nat.mod_eq_of_lt hj]
      simp [byteBits, hj]
    · have hdiv : j / 8 = (j - 8) / 8 + 1 := by omega
      rw [hdiv, List.getElem?_cons_succ] at h
      rw [List.getElem?_append_right (by rw [byteBits_length]; omega), byteBits_length, ih h]
      congr 2
      omega

/-- Bytes whose bits are the given ones and then fewer than 8 zeros pack them (R67, R194). -/
theorem packs_of_flatMap {bytes : List Byte} {bits : List Bool} {m : Nat} (hm : m < 8)
    (h : bytes.flatMap byteBits = bits ++ List.replicate m false) : Packs bytes bits := by
  constructor
  · have hlen := congrArg List.length h
    rw [length_flatMap_byteBits, List.length_append, List.length_replicate] at hlen
    omega
  · intro k b hb
    have hk := getElem?_flatMap_byteBits hb
    rw [h, List.getElem?_append] at hk
    rw [List.getD_eq_getElem?_getD]
    split at hk
    · rw [hk]; rfl
    · next hge =>
      rw [List.getElem?_eq_none (by omega)]
      exact List.eq_of_mem_replicate (List.mem_of_getElem? hk)

/-! ### Appending bits (R190, R192) -/

/-- What the encoder's body changes (R196). -/
abbrev bodyParts : List StatePart := [.buffer, .srcPos, .snkPos, .sink]

/-- From `s` to `t` the encoder takes `bits` behind its pending ones and writes `bytes`: what is written and what is
then pending are together what was pending and what came. -/
structure PutsBits (s t : State) (bits : List Bool) (bytes : List Byte) : Prop where
  appended : Appended s t bytes
  bits : bytes.flatMap byteBits ++ t.pendingBits = s.pendingBits ++ bits
  buffer : BufferInv t
  frame : ChangesOnly bodyParts s t

theorem State.pendingBits_length (s : State) : s.pendingBits.length = s.bbCnt.toNat := by simp [State.pendingBits]

theorem State.pendingBits_eq_nil {s : State} (h : s.bbCnt = 0#4) : s.pendingBits = [] := by
  simp [State.pendingBits, h]

theorem Appended.refl (s : State) : Appended s s [] := ⟨rfl, by simp, fun _ _ => rfl⟩

theorem bufferInv_empty {s : State} (hbits : s.bbBits = 0#8) (hcnt : s.bbCnt = 0#4) : BufferInv s :=
  ⟨by simp [hcnt], by simp [hbits]⟩

section
variable {s t u : State} {bits bits' : List Bool} {bytes bytes' : List Byte}

theorem PutsBits.refl (h : BufferInv s) : PutsBits s s [] [] :=
  ⟨.refl s, (List.append_nil _).symm, h, .refl _ s⟩

theorem PutsBits.trans (h : PutsBits s t bits bytes) (h' : PutsBits t u bits' bytes') :
    PutsBits s u (bits ++ bits') (bytes ++ bytes') := by
  refine ⟨h.appended.trans h'.appended, ?_, h'.buffer, h.frame.trans h'.frame⟩
  rw [List.flatMap_append, List.append_assoc, h'.bits, ← List.append_assoc, h.bits, List.append_assoc]

theorem putsBits_bbAppend (h : BufferInv s) (bit : Bool) : ∃ bytes, PutsBits s (bbAppend s bit) [bit] bytes := by
  have hbit := map_getLsbD_setBit s.bbBits (Nat.lt_succ_of_le h.count) bit
  have hframe := (changesOnly_bbAppend s bit).mono (qs := bodyParts) (by decide)
  obtain ⟨hcnt, he⟩ | ⟨hcnt, he⟩ := bbAppend_cases s bit
  · have hlt : s.bbCnt.toNat ≠ 7 := fun e => hcnt (BitVec.eq_of_toNat_eq e)
    have hle := h.count
    have hnext : (s.bbCnt + 1#4).toNat = s.bbCnt.toNat + 1 := by
      rw [BitVec.toNat_add, BitVec.toNat_ofNat]
      omega
    rw [he] at hframe ⊢
    refine ⟨[], .refl s, ?_, ⟨by rw [hnext]; omega, fun i hi => ?_⟩, hframe⟩
    · rw [List.flatMap_nil, List.nil_append, State.pendingBits, hnext, hbit]
      rfl
    · rw [hnext] at hi
      exact (getLsbD_setBit_of_lt bit (by omega)).trans (h.zeros i (by omega))
  · rw [he] at hframe ⊢
    refine ⟨[setBit s.bbBits 7 bit], State.sinkWrites_appended s [_], ?_, bufferInv_empty rfl rfl, hframe⟩
    rw [hcnt] at hbit
    rw [List.flatMap_singleton, State.pendingBits_eq_nil rfl, List.append_nil, State.pendingBits, hcnt]
    exact hbit

theorem putsBits_bbAppends (h : BufferInv s) (bits : List Bool) :
    ∃ bytes, PutsBits s (bbAppends s bits) bits bytes := by
  induction bits generalizing s with
  | nil => exact ⟨[], .refl h⟩
  | cons bit bits ih =>
    obtain ⟨bytes, hbit⟩ := putsBits_bbAppend h bit
    obtain ⟨bytes', hbits⟩ := ih hbit.buffer
    exact ⟨_, hbit.trans hbits⟩

/-- Of the pending bits and the new ones, the full bytes are written. -/
theorem PutsBits.length_eq (h : PutsBits s t bits bytes) : bytes.length = (s.pendingBits ++ bits).length / 8 := by
  have hle := h.buffer.count
  rw [← h.bits, List.length_append, length_flatMap_byteBits, State.pendingBits_length]
  omega

theorem PutsBits.getElem? (h : PutsBits s t bits bytes) {j : Nat} {b : Byte} (hb : bytes[j / 8]? = some b) :
    (s.pendingBits ++ bits)[j]? = some (b.getLsbD (j % 8)) := by
  have hj := getElem?_flatMap_byteBits hb
  have hlt := (List.getElem?_eq_some_iff.1 hj).1
  rw [← h.bits, List.getElem?_append_left hlt, hj]

theorem PutsBits.pendingBits_eq (h : PutsBits s t bits bytes) :
    t.pendingBits = (s.pendingBits ++ bits).drop (8 * bytes.length) := by
  rw [← h.bits, ← length_flatMap_byteBits, List.drop_left]

end

theorem srcPos_bbAppends (s : State) (bits : List Bool) : (bbAppends s bits).srcPos = s.srcPos :=
  changesOnly_bbAppends s bits .srcPos (by decide)

/-- The fields that a change within the encoder's body leaves alone, written out. -/
theorem ChangesOnly.body_eq {s t : State} (h : ChangesOnly bodyParts s t) : t = { s with
    snk := t.snk, snkPos := t.snkPos, bbBits := t.bbBits, bbCnt := t.bbCnt, srcPos := t.srcPos } := by
  refine eq_of_kept fun p => ?_
  specialize h p
  cases p with
  | buffer => exact ⟨rfl, rfl⟩
  | srcPos | snkPos | sink => rfl
  | _ => exact h (by decide)

/-! ### The final flush (R193) -/

section
variable {s : State}

/-- A pending byte holds the pending bits and then zeros (R34). -/
theorem BufferInv.byteBits_bbBits (h : BufferInv s) :
    byteBits s.bbBits = s.pendingBits ++ List.replicate (8 - s.bbCnt.toNat) false := by
  have hle := h.count
  refine List.ext_getElem (by simp [byteBits, State.pendingBits]; omega) fun i hi _ => ?_
  rw [List.getElem_append]
  split
  · simp [byteBits, State.pendingBits]
  · next hge =>
    rw [State.pendingBits_length] at hge
    simpa [byteBits] using h.zeros i (by omega)

theorem BufferInv.bbBits_eq_zero (h : BufferInv s) (hcnt : s.bbCnt = 0#4) : s.bbBits = 0#8 :=
  BitVec.eq_of_getLsbD_eq fun i _ => by simpa using h.zeros i (by simp [hcnt])

/-- The flush writes what is pending, filled up with zeros, and leaves the buffer empty. -/
theorem bbFlush_spec (h : BufferInv s) : ∃ bytes m, m < 8 ∧ Appended s (bbFlush s) bytes ∧
    bytes.flatMap byteBits = s.pendingBits ++ List.replicate m false ∧
    (bbFlush s).bbBits = 0#8 ∧ (bbFlush s).bbCnt = 0#4 := by
  obtain ⟨hcnt, he⟩ | ⟨hcnt, he⟩ := bbFlush_cases s <;> rw [he]
  · exact ⟨[], 0, by decide, .refl s, by simp [State.pendingBits_eq_nil hcnt], h.bbBits_eq_zero hcnt, hcnt⟩
  · have hpos : s.bbCnt.toNat ≠ 0 := fun e => hcnt (BitVec.eq_of_toNat_eq e)
    refine ⟨[s.bbBits], 8 - s.bbCnt.toNat, by omega, State.sinkWrites_appended s [_], ?_, rfl, rfl⟩
    rw [List.flatMap_singleton, h.byteBits_bbBits]

end

/-- Settles O29: by the pending bits as they grow, bit by bit; a full byte's bits are those that were pending before it
was written. -/
theorem putAndFlushPackBits : Obligations.PutAndFlushPackBits := by
  unfold Obligations.PutAndFlushPackBits
  refine ⟨rfl, fun v => rfl, fun s v => ⟨fun hnone => ?noCode, fun c hc hbuf => ?put, fun hcnt => ?idle,
    fun hcnt => ?flush⟩⟩
  case noCode =>
    rw [← ctEntryInfo_eq]
    exact congrArg Res.finish (withCtEntry_none hnone _)
  case put =>
    obtain ⟨bytes, hput⟩ := putsBits_bbAppends hbuf c
    have hlen := hput.length_eq
    have hpending := s.pendingBits_length
    have hle := hbuf.count
    refine ⟨_, bytes, congrArg Res.finish (withCtEntry_some hc _), hput.appended, hlen, fun hshort => ?_,
      fun j b => hput.getElem?, hput.pendingBits_eq, ⟨hput.buffer.count, hput.buffer.zeros⟩, ?_⟩
    · rw [hlen, List.length_append]
      omega
    · have hframe := congrArg State.complete hput.frame.body_eq
      rw [srcPos_bbAppends] at hframe
      exact hframe
  case idle => exact congrArg (fun t => (Res.done t).finish) (if_pos hcnt)
  case flush =>
    exact ⟨_, congrArg (fun t => (Res.done t).finish) (if_neg hcnt), State.sinkWrites_appended s [s.bbBits], rfl⟩

/-! ### The loop of `ENC.BODY` (R196) -/

/-- The codes of some byte values, one after another; a value with no code gives no bit. -/
def codeBits (ct : CodeTable) (vs : List Byte) : List Bool := vs.flatMap fun v => (tableGet ct v).getD []

section
variable {s t : State} {v : Byte} {vs rest : List Byte} {bits : List Bool} {bytes : List Byte}

theorem PutsBits.passed (h : PutsBits s t bits bytes) (n : Nat) : PutsBits s (t.passed n) bits bytes :=
  ⟨h.appended, h.bits, ⟨h.buffer.count, h.buffer.zeros⟩, h.frame.trans ((changesOnly_srcPos t _).mono (by decide))⟩

theorem PutsBits.ct (h : PutsBits s t bits bytes) : t.ct = s.ct := h.frame .ct (by decide)

/-- What is unread depends on the host's part and on how far `SRC_POS` has come. -/
theorem State.unread_eq_drop {n : Nat} (hhost : StatePart.host.Kept s t) (hpos : t.srcPos = s.srcPos + n) :
    t.unread = s.unread.drop n := by
  obtain ⟨hsrc, hlen, -⟩ := hhost
  rw [← State.unread_passed_eq_drop, State.unread, State.srcLeft, hsrc, hlen, hpos]
  rfl

theorem encodeLoop_succ (h : s.srcPeek = some v) (left : Nat) :
    encodeLoop (left + 1) s = (putBody v s).andThen fun t => encodeLoop left (t.passed 1) := by
  simp only [encodeLoop, h, State.passed]

/-- The loop puts the codes of bytes that have one, and goes on with the rest. -/
theorem encodeLoop_of_unread (hbuf : BufferInv s) (hun : s.unread = vs ++ rest)
    (hcodes : ∀ v ∈ vs, tableGet s.ct v ≠ none) (left : Nat) :
    ∃ t bytes, encodeLoop (vs.length + left) s = encodeLoop left t ∧ PutsBits s t (codeBits s.ct vs) bytes ∧
      t.srcPos = s.srcPos + vs.length := by
  induction vs generalizing s with
  | nil => exact ⟨s, [], by rw [List.length_nil, Nat.zero_add], .refl hbuf, rfl⟩
  | cons v vs ih =>
    obtain ⟨hv, hvs⟩ := List.forall_mem_cons.1 hcodes
    obtain ⟨c, hc⟩ := Option.ne_none_iff_exists'.1 hv
    obtain ⟨bytes, hput⟩ := putsBits_bbAppends hbuf c
    have hput := hput.passed 1
    have hpos₁ : ((bbAppends s c).passed 1).srcPos = s.srcPos + 1 := congrArg (· + 1) (srcPos_bbAppends s c)
    have hunread : ((bbAppends s c).passed 1).unread = vs ++ rest :=
      (State.unread_eq_drop (hput.frame .host (by decide)) hpos₁).trans (congrArg (List.drop 1) hun)
    obtain ⟨t, bytes', hloop, hputs, hpos⟩ := ih hput.buffer hunread fun u hu => by rw [hput.ct]; exact hvs u hu
    refine ⟨t, bytes ++ bytes', ?_, ?_, ?_⟩
    · rw [List.length_cons, Nat.add_right_comm, encodeLoop_succ (State.srcPeek_eq hun), putBody, withCtEntry_some hc,
        Res.andThen_done, hloop]
    · have hbits : codeBits s.ct (v :: vs) = c ++ codeBits s.ct vs := by simp [codeBits, hc]
      rw [hbits, ← hput.ct]
      exact hput.trans hputs
    · rw [hpos, hpos₁, List.length_cons]
      omega

/-- `ENC.BODY` on bytes that all have a code. -/
theorem encodeBody_of_codes (hthere : SourceThere s) (hbuf : BufferInv s)
    (hcodes : ∀ v ∈ s.unread, tableGet s.ct v ≠ none) :
    ∃ t bytes, encodeBody s = .done t ∧ Appended s t bytes ∧ Packs bytes (s.pendingBits ++ codeBits s.ct s.unread) ∧
      t.srcPos = s.srcPos + s.unread.length ∧ t.bbBits = 0#8 ∧ t.bbCnt = 0#4 ∧ ChangesOnly bodyParts s t := by
  obtain ⟨t, bytes, hloop, hputs, hpos⟩ := encodeLoop_of_unread hbuf (List.append_nil _).symm hcodes 0
  obtain ⟨last, m, hm, happ, hlast, hbits, hcnt⟩ := bbFlush_spec hputs.buffer
  have hflush : ChangesOnly [.buffer, .snkPos, .sink] t (bbFlush t) := changesOnly_bbFlush t
  refine ⟨bbFlush t, bytes ++ last, ?_, hputs.appended.trans happ, packs_of_flatMap hm ?_, ?_, hbits, hcnt,
    hputs.frame.trans (hflush.mono (by decide))⟩
  · rw [encodeBody, ← State.unread_length hthere, ← Nat.add_zero s.unread.length, hloop]
    rfl
  · rw [List.flatMap_append, hlast, ← List.append_assoc, hputs.bits]
  · exact Eq.trans (hflush .srcPos (by decide)) hpos

/-- `ENC.BODY` on a source with a first byte that has no code. -/
theorem encodeBody_of_noCode {pre post : List Byte} (hthere : SourceThere s) (hbuf : BufferInv s)
    (hun : s.unread = pre ++ v :: post) (hpre : ∀ u ∈ pre, tableGet s.ct u ≠ none) (hv : tableGet s.ct v = none) :
    ∃ t bytes, encodeBody s = .raised .noCode (BitVec.ofNat 64 (256 + v.toNat)) t ∧
      PutsBits s t (codeBits s.ct pre) bytes ∧ t.srcPos = s.srcPos + pre.length := by
  obtain ⟨t, bytes, hloop, hputs, hpos⟩ := encodeLoop_of_unread hbuf hun hpre (post.length + 1)
  have hunread : t.unread = v :: post := by
    rw [State.unread_eq_drop (hputs.frame .host (by decide)) hpos, hun, List.drop_left]
  refine ⟨t, bytes, ?_, hputs, hpos⟩
  have hlen : s.srcLeft = pre.length + (post.length + 1) := by
    rw [← State.unread_length hthere, hun, List.length_append, List.length_cons]
  rw [encodeBody, hlen, hloop, encodeLoop_succ (State.srcPeek_eq hunread), putBody,
    withCtEntry_none (by rw [hputs.ct, hv]), ctEntryInfo_eq]
  rfl

end

/-- Settles O30: the loop puts code after code, and the flush fills up the last byte; at a byte with no code the loop
stops with the codes before it put. -/
theorem bodyPacksTheCodes : Obligations.BodyPacksTheCodes := by
  unfold Obligations.BodyPacksTheCodes
  refine ⟨rfl, fun s hthere hbuf => ⟨fun hcodes => ?complete, fun pre post v hun hpre hv => ?noCode⟩⟩
  case complete =>
    obtain ⟨t, bytes, hbody, happ, hpacks, hpos, hbits, hcnt, hframe⟩ := encodeBody_of_codes hthere hbuf hcodes
    have heq := congrArg State.complete hframe.body_eq
    rw [hbits, hcnt] at heq
    exact ⟨t.complete, bytes, congrArg Res.finish hbody, happ, hpacks, hpos, heq⟩
  case noCode =>
    obtain ⟨t, bytes, hbody, hputs, hpos⟩ := encodeBody_of_noCode hthere hbuf hun hpre hv
    refine ⟨t.raise .noCode (BitVec.ofNat 64 (256 + v.toNat)), bytes, congrArg Res.finish hbody, hputs.appended, rfl,
      rfl, hpos, ?_, congrArg (State.raise _ _) hputs.frame.body_eq⟩
    rintro bits rfl
    exact ⟨hputs.length_eq, fun j b => hputs.getElem?, hputs.pendingBits_eq⟩

/-! ### The header (R191) -/

theorem toList_eq_map_range {α : Type} (t : Vector α 256) :
    t.toList = (List.range 256).map fun v => tableGet t (BitVec.ofNat 8 v) := by
  refine List.ext_getElem (by simp) fun i hi _ => ?_
  have hi : i < 256 := by simpa using hi
  simp [tableGet, Nat.mod_eq_of_lt hi]

theorem countSum_eq (ft : FreqTable) :
    countSum ft = ((List.range 256).map fun v => (tableGet ft (BitVec.ofNat 8 v)).toNat).sum := by
  rw [countSum, toList_eq_map_range, List.map_map]
  rfl

section
variable {ft : FreqTable}

theorem headerOf_of_empty (h : (occupied ft).length = 0) :
    headerOf ft = (recordBytes 0#8 [], 0#8, 0#32, 0#32, 0#8) := if_pos h

theorem headerOf_of_degenerate (h0 : (occupied ft).length ≠ 0) (h2 : (occupied ft).length ≤ 2) :
    headerOf ft = (recordBytes 1#8 (be32 (tableGet ft (degenPick ft)) ++ [degenPick ft]), 1#8, 0#32,
      tableGet ft (degenPick ft), degenPick ft) := (if_neg h0).trans (if_pos h2)

theorem headerOf_of_general (h : 3 ≤ (occupied ft).length) :
    headerOf ft = (recordBytes 2#8 (be32 (BitVec.ofNat 32 (countSum ft)) ++ ft.toList.flatMap be32), 2#8,
      BitVec.ofNat 32 (countSum ft), 0#32, 0#8) := (if_neg (by omega)).trans (if_neg (by omega))

end

section
variable {s : State}

theorem exec_encHdr_of_overflow (hk : 3 ≤ (occupied s.ft).length) (hT : 2 ^ 32 ≤ countSum s.ft) :
    exec .encHdr s = .next (s.raise .lengthOverflow (BitVec.ofNat 64 (countSum s.ft))) :=
  congrArg Res.finish (if_pos ⟨hk, hT⟩)

/-- `ENC.HDR` appends the header's bytes and loads the header registers, when the length fits. -/
theorem exec_encHdr_of_headerOf {bytes : List Byte} {fileType dgValue : Byte} {total dgCount : Word32}
    (hfits : (occupied s.ft).length < 3 ∨ countSum s.ft < 2 ^ 32)
    (h : headerOf s.ft = (bytes, fileType, total, dgCount, dgValue)) :
    ∃ t, exec .encHdr s = .next t ∧ Appended s t bytes ∧
      t.fileType = fileType ∧ t.totalLen = total ∧ t.dgCount = dgCount ∧ t.dgValue = dgValue ∧ t = { s with
        snk := t.snk, snkPos := t.snkPos, bbBits := 0, bbCnt := 0, hdrValid := true, fileType := t.fileType,
        totalLen := t.totalLen, dgCount := t.dgCount, dgValue := t.dgValue, res0 := t.fileType.setWidth 64,
        err := .ok } := by
  have hbody : headerBody s = .done (setHeader fileType total dgCount dgValue
      (State.sinkWrites bytes { s with hdrValid := false, bbBits := 0#8, bbCnt := 0#4 })) := by
    rw [headerBody, if_neg (by omega), h]
  refine ⟨_, congrArg Res.finish hbody,
    State.sinkWrites_appended { s with hdrValid := false, bbBits := 0#8, bbCnt := 0#4 } bytes, rfl, rfl, rfl, rfl, ?_⟩
  rw [State.sinkWrites_frame]
  rfl

end

/-- Settles O28: the three classes of `headerOf`, and the check before them. -/
theorem headerWriterEffects : Obligations.HeaderWriterEffects := by
  unfold Obligations.HeaderWriterEffects
  refine ⟨rfl, fun s k T hk hT => ?_⟩
  obtain rfl : k = (occupied s.ft).length := hk.trans (length_occupied s.ft).symm
  obtain rfl : T = countSum s.ft := hT.trans (countSum_eq s.ft).symm
  refine ⟨exec_encHdr_of_overflow, fun hfits => ?_⟩
  by_cases h0 : (occupied s.ft).length = 0
  · obtain ⟨t, hexec, happ, htype, htotal, hcount, hvalue, ht⟩ :=
      exec_encHdr_of_headerOf hfits (headerOf_of_empty h0)
    exact ⟨t, _, hexec, happ, fun _ => ⟨rfl, htype, htotal, hcount, hvalue⟩, by omega, by omega, ht⟩
  by_cases h2 : (occupied s.ft).length ≤ 2
  · obtain ⟨t, hexec, happ, htype, htotal, hcount, hvalue, ht⟩ :=
      exec_encHdr_of_headerOf hfits (headerOf_of_degenerate h0 h2)
    have hpick : s.count (degenPick s.ft) ≠ 0#32 := degenPick_occupied (mt List.length_eq_zero_iff.2 h0)
    exact ⟨t, _, hexec, happ, by omega,
      fun _ => ⟨degenPick s.ft, hpick, fun _ => rfl, rfl, htype, hcount, hvalue, htotal⟩, by omega, ht⟩
  · have h3 : 3 ≤ (occupied s.ft).length := by omega
    obtain ⟨t, hexec, happ, htype, htotal, hcount, hvalue, ht⟩ :=
      exec_encHdr_of_headerOf hfits (headerOf_of_general h3)
    refine ⟨t, _, hexec, happ, by omega, by omega, fun _ => ⟨?_, htype, ?_, hcount, hvalue⟩, ht⟩
    · rw [toList_eq_map_range, List.flatMap_map]
      rfl
    · rw [htotal, BitVec.toNat_ofNat, Nat.mod_eq_of_lt (by omega)]

/-! ### Every occupied value gets a code (R146, R181) -/

section
variable {s : State} {n m k : NodeIx} {p q : BinaryCode}

theorem Path.trans (h : Path s n p m) (h' : Path s m q k) : Path s n (p ++ q) k := by
  induction h with
  | here => exact h'
  | left hn _ ih => exact .left hn (ih h')
  | right hn _ ih => exact .right hn (ih h')

theorem exists_path_of_isChild {nd : Node} (hm : s.node? m = some nd) (hc : nd.body.isChild n = true) :
    ∃ p, Path s m p n := by
  obtain ⟨o, ⟨v, w⟩ | ⟨l, r, w⟩⟩ := nd
  · cases hc
  · simp only [NodeBody.isChild, Bool.or_eq_true, beq_iff_eq] at hc
    rcases hc with rfl | rfl
    · exact ⟨_, .left hm (.here _)⟩
    · exact ⟨_, .right hm (.here _)⟩

/-- With one root left, every node is below it: an owned node has a parent, which stands higher in the store. -/
theorem Merging.exists_path {leaves : List NodeBody} {turns total : Nat} {r : NodeIx} {nd : Node}
    (h : Merging leaves turns total s) (hr : s.pq = [r]) (hn : s.node? n = some nd) : ∃ p, Path s r p n := by
  induction hd : s.nm.length - n.toNat using Nat.strong_induction_on generalizing n nd with
  | _ d ih =>
    cases ho : nd.owned with
    | false =>
      have hroot := (h.forest.roots n nd hn).1 ho
      rw [hr, List.mem_singleton] at hroot
      exact ⟨[], hroot ▸ .here n⟩
    | true =>
      obtain ⟨m, parent, hm, hchild⟩ := h.forest.store.exists_parent hn ho
      obtain ⟨hlt, -⟩ := h.forest.store.child_node hm hchild
      have := State.toNat_lt_length hm
      obtain ⟨p, hp⟩ := ih (s.nm.length - m.toNat) (by omega) hm rfl
      obtain ⟨q, hq⟩ := exists_path_of_isChild hm hchild
      exact ⟨p ++ q, hp.trans hq⟩

theorem Merging.exists_leadsTo {ft : FreqTable} {turns total : Nat} {r : NodeIx} {v : Byte}
    (h : Merging (leafBodies ft allBytes) turns total s) (hr : s.pq = [r]) (hv : tableGet ft v ≠ 0#32) :
    ∃ p, LeadsTo s r p v := by
  obtain ⟨i, hi⟩ := List.mem_iff_getElem?.1 (mem_occupied.2 hv)
  have hleaf : (leafBodies ft allBytes)[i]? = some (.leaf v ((tableGet ft v).setWidth 64)) := by
    rw [leafBodies, List.getElem?_map]
    exact congrArg (Option.map _) hi
  obtain ⟨o, hget⟩ := h.leaf_node hleaf
  obtain ⟨-, hnode⟩ := State.node?_of_getElem? h.forest.store.bound hget
  obtain ⟨p, hp⟩ := h.exists_path hr hnode
  exact ⟨p, _, o, _, hp, hnode⟩

/-- Of the paths to a byte value one is visited last. -/
theorem StoreInv.exists_last_leadsTo {nd : Node} {v : Byte} (h : StoreInv s) (hn : s.node? n = some nd)
    (hp : LeadsTo s n p v) : ∃ c, LeadsTo s n c v ∧ ∀ d, LeadsTo s n d v → d ≠ c → VisitedAfter c d := by
  obtain ⟨T, hT⟩ := h.exists_treeIs hn
  obtain ⟨c, hc, -⟩ := TreeVal.exists_lastPath (hT.follow_eq_some.2 hp)
  have hlast := TreeVal.lastPath_eq_some_iff.1 hc
  simp only [hT.follow_eq_some] at hlast
  exact ⟨c, hlast⟩

end

/-- What `TR.BUILD` and `CG.RUN` change (R146, R181). -/
abbrev codeParts : List StatePart := [.nm, .root, .pq, .cur, .res0, .err, .ct]

/-- With at least two occupied values, `TR.BUILD` and then `CG.RUN` succeed and give each of them a code. -/
theorem trBuild_cgRun {s : State} (h : 2 ≤ (occupied s.ft).length) : ∃ t u,
    exec .trBuild s = .next t ∧ t.err = .ok ∧ exec .cgRun t = .next u ∧ u.err = .ok ∧
    (∀ v, s.count v ≠ 0#32 → tableGet u.ct v ≠ none) ∧ ChangesOnly codeParts s u := by
  have hne : occupied s.ft ≠ [] := List.length_pos_iff.1 (by omega)
  obtain ⟨t, r, hmerging, hr, hbuild⟩ := buildBody_of_occupied hne
  have hnum : (leafBodies s.ft allBytes).length = (occupied s.ft).length := by
    rw [leafBodies, List.length_map, occupied]
  have hlen := hmerging.length_of_single hr
  have hlast := hmerging.toNat_single hr
  obtain ⟨o, left, right, w, hget⟩ := hmerging.internal_node (i := r.toNat) (by omega) (by omega)
  have hbound : t.nm.length ≤ 511 := hmerging.forest.store.bound
  have hstore : StoreInv (t.crown r).complete := hmerging.forest.store.of_nm_eq rfl
  have hroot : (t.crown r).complete.node? r = some ⟨o, .internal left right w⟩ :=
    State.node?_eq_some_iff.2 ⟨by omega, hget⟩
  obtain ⟨tab, htab, hpaths⟩ := hstore.rootCodes_eq hroot
  have hbuilt : ChangesOnly [.nm, .root, .pq, .cur, .res0] s (t.crown r) := by
    have := buildBody_within s
    rwa [hbuild] at this
  refine ⟨_, _, by rw [exec_trBuild, hbuild, Res.finish_done], rfl, exec_cgRun_internal rfl hroot htab, rfl,
    fun v hv => ?codes, ?frame⟩
  case codes =>
    obtain ⟨p, hp⟩ := hmerging.exists_leadsTo hr hv
    obtain ⟨c, hc⟩ := hstore.exists_last_leadsTo hroot (hp.of_nm_eq rfl)
    exact Option.ne_none_iff_exists'.2 ⟨c, (hpaths v c).2 hc⟩
  case frame =>
    exact ((hbuilt.mono (by decide)).trans ((changesOnly_complete _).mono (by decide))).trans
      ((changesOnly_ct (t.crown r).complete tab).mono (by decide))

/-! ### The second pass (R197 step 5) -/

theorem length_codeBits (ct : CodeTable) (vs : List Byte) :
    (codeBits ct vs).length = (vs.map fun v => ((tableGet ct v).getD []).length).sum := List.length_flatMap

theorem SourceThere.of_kept {s t : State} (h : SourceThere s) (hhost : StatePart.host.Kept s t) : SourceThere t := by
  obtain ⟨hsrc, hlen, -⟩ := hhost
  rwa [SourceThere, hsrc, hlen]

/-- `TR.BUILD`, `CG.RUN`, the rewind and `ENC.BODY` succeed when the counts cover the source. -/
theorem runSteps_generalSteps {s : State} {S : List Byte} (hthere : SourceThere s)
    (hS : S = s.src.take s.srcLen.toNat) (hbits : s.bbBits = 0#8) (hcnt : s.bbCnt = 0#4)
    (h : 2 ≤ (occupied s.ft).length) (hcounted : ∀ v ∈ S, s.count v ≠ 0#32) :
    ∃ t, runSteps generalSteps s = .next t ∧ t.err = .ok ∧ t.faulted = s.faulted ∧ t.ft = s.ft ∧
      t.srcPos = S.length ∧
      t.snkPos = s.snkPos + ((S.map fun v => ((tableGet t.ct v).getD []).length).sum + 7) / 8 := by
  obtain ⟨a, b, hbuild, ha, hcodegen, hb, hcodes, hframe⟩ := trBuild_cgRun h
  have hhost : StatePart.host.Kept s b := hframe .host (by decide)
  have hthere' : SourceThere b.rewindSrc := hthere.of_kept hhost
  obtain ⟨hsrc, hlen, -⟩ := hhost
  obtain ⟨hbufBits, hbufCnt⟩ : StatePart.buffer.Kept s b := hframe .buffer (by decide)
  have hunread : b.rewindSrc.unread = S := by
    rw [hS, ← hsrc, ← hlen]
    simp [State.unread, State.srcLeft]
  have hcnt' : b.rewindSrc.bbCnt = 0#4 := hbufCnt.trans hcnt
  obtain ⟨t, bytes, hbody, ⟨hpos, -⟩, ⟨hsize, -⟩, hsrcPos, -, -, hframe'⟩ :=
    encodeBody_of_codes hthere' (bufferInv_empty (hbufBits.trans hbits) hcnt')
      (by rw [hunread]; exact fun v hv => hcodes v (hcounted v hv))
  have hct : t.ct = b.ct := hframe' .ct (by decide)
  refine ⟨t.complete, ?run, rfl, ?faulted, ?ft, ?srcPos, ?snkPos⟩
  case run =>
    have hrew : exec (.rew true false) b = .next b.rewindSrc := congrArg Host.Outcome.next (State.complete_eq_self hb)
    have hexec : exec .encBody b.rewindSrc = .next t.complete := congrArg Res.finish hbody
    rw [generalSteps, runSteps, hbuild, thenOk_next ha, runSteps, hcodegen, thenOk_next hb, runSteps, hrew,
      thenOk_next (t := b.rewindSrc) hb, runSteps, hexec, thenOk_next rfl, runSteps]
  case faulted =>
    have hfault : StatePart.fault.Kept s t := (hframe .fault (by decide)).trans (hframe' .fault (by decide))
    exact hfault.1
  case ft => exact Eq.trans (hframe' .ft (by decide)) (hframe .ft (by decide))
  case srcPos => rw [State.complete_srcPos, hsrcPos, hunread, State.rewindSrc_srcPos, Nat.zero_add]
  case snkPos =>
    have hsnk : b.snkPos = s.snkPos := hframe .snkPos (by decide)
    rw [hunread, State.pendingBits_eq_nil hcnt', List.nil_append, length_codeBits, State.rewindSrc_ct] at hsize
    rw [State.complete_snkPos, hpos, hsize, State.rewindSrc_snkPos, hsnk, State.complete_ct, hct]

/-! ### The first pass (R197 steps 1 to 4) -/

section
variable {ft : FreqTable} {S : List Byte}

/-- Counted from 0, the occupied values are the values that occur. -/
theorem length_occupied_of_counts (h : ∀ v, (tableGet ft v).toNat = S.count v) :
    (occupied ft).length = S.dedup.length := by
  have hmem (v : Byte) : v ∈ occupied ft ↔ v ∈ S.dedup := by
    rw [mem_occupied, List.mem_dedup, ← List.count_pos_iff, ← h v, Nat.pos_iff_ne_zero, Ne, Ne, ← BitVec.toNat_inj]
    rfl
  exact ((List.perm_ext_iff_of_nodup (allBytes_nodup.filter _) S.nodup_dedup).2 hmem).length_eq

theorem countSum_of_counts (h : ∀ v, (tableGet ft v).toNat = S.count v) : countSum ft = S.length := by
  calc countSum ft = (allBytes.map fun v => (tableGet ft v).toNat).sum := by
        rw [countSum_eq, allBytes, List.map_map]
        rfl
    _ = S.length := by simp only [h, sum_count_allBytes]

theorem length_headerOf (ft : FreqTable) : (headerOf ft).1.length =
    if (occupied ft).length = 0 then 3 else if (occupied ft).length ≤ 2 then 8 else 1031 := by
  unfold headerOf
  split
  · rfl
  · split
    · rfl
    · have hcounts : (ft.toList.flatMap be32).length = 1024 := by rw [length_flatMap_be32, Vector.length_toList]
      simp only [recordBytes, List.length_cons, List.length_append, hcounts]
      rfl

theorem headerOf_fileType_eq_two_iff : (headerOf ft).2.1 = 2#8 ↔ 3 ≤ (occupied ft).length := by
  unfold headerOf
  split
  · exact iff_of_false (show 0#8 ≠ 2#8 by decide) (by omega)
  · split
    · exact iff_of_false (show 1#8 ≠ 2#8 by decide) (by omega)
    · exact iff_of_true rfl (by omega)

end

section
variable {s : State} {S : List Byte}

/-- Steps 1 and 2 of R197, written out. -/
theorem clearCounts_rewind_complete (s : State) : (clearCounts (rewind true true s)).complete =
    { s with ft := Vector.replicate 256 0#32, srcPos := 0, snkPos := 0, err := .ok } := rfl

/-- The rewinds, `FT.CLR` and `FT.SCAN` count the source. -/
theorem exec_ftScan_cleared (hthere : SourceThere s) (hS : S = s.src.take s.srcLen.toNat) (hlen : S.length < 2 ^ 32) :
    ∃ a, exec .ftScan (clearCounts (rewind true true s)).complete = .next a ∧ (∀ v, (a.count v).toNat = S.count v) ∧
      a = { s with ft := a.ft, srcPos := S.length, snkPos := 0, res0 := a.res0, err := .ok } := by
  have hunread : (clearCounts (rewind true true s)).complete.unread = S := s.unread_rewound.trans hS.symm
  have hzero (v : Byte) : (clearCounts (rewind true true s)).complete.count v = 0#32 := tableGet_replicate 0#32 v
  obtain ⟨-, hscan⟩ := scanCountsTheUnreadSource
  obtain ⟨a, hexec, hcount, hpos, -, -, ha⟩ := (hscan (clearCounts (rewind true true s)).complete hthere).1 fun v => by
    rw [hzero, hunread, BitVec.toNat_ofNat, Nat.zero_mod, Nat.zero_add]
    exact List.count_le_length.trans_lt hlen
  refine ⟨a, hexec, fun v => ?_, ?_⟩
  · rw [hcount, hzero, hunread, BitVec.toNat_ofNat, Nat.zero_mod, Nat.zero_add]
  · have hpos' : a.srcPos = S.length := by rw [hpos, hunread]; exact Nat.zero_add _
    rw [hpos'] at ha
    simpa only [clearCounts_rewind_complete] using ha

/-- The first pass, up to the header: what the second pass starts from, and what is left when there is none. -/
theorem runSteps_firstPass (hthere : SourceThere s) (hS : S = s.src.take s.srcLen.toNat) (hlen : S.length < 2 ^ 32) :
    ∃ b, runSteps [.ftScan, .encHdr] (clearCounts (rewind true true s)).complete = .next b ∧ b.err = .ok ∧
      (∀ v, (b.count v).toNat = S.count v) ∧ b.snkPos = (headerOf b.ft).1.length ∧
      b.fileType = (headerOf b.ft).2.1 ∧ b.bbBits = 0#8 ∧ b.bbCnt = 0#4 ∧ b.srcPos = S.length ∧
      b.faulted = s.faulted ∧ StatePart.host.Kept s b := by
  obtain ⟨a, hscan, hcounts, ha⟩ := exec_ftScan_cleared hthere hS hlen
  have hfits : countSum a.ft < 2 ^ 32 := by rwa [countSum_of_counts hcounts]
  obtain ⟨b, hhdr, ⟨hpos, -⟩, htype, -, -, -, hb⟩ := exec_encHdr_of_headerOf (s := a) (.inr hfits) rfl
  have haerr : a.err = .ok := by rw [ha]
  have hberr : b.err = .ok := by rw [hb]
  have hft : b.ft = a.ft := by rw [hb]
  have hsnk : a.snkPos = 0 := by rw [ha]
  rw [hsnk, Nat.zero_add, ← hft] at hpos
  rw [← hft] at htype
  have hcounts' : ∀ v, (b.count v).toNat = S.count v := fun v => by rw [State.count, hft]; exact hcounts v
  refine ⟨b, ?_, hberr, hcounts', hpos, htype, ?_⟩
  · rw [runSteps, hscan, thenOk_next haerr, runSteps, hhdr, thenOk_next hberr, runSteps]
  · rw [hb, ha]
    exact ⟨rfl, rfl, rfl, rfl, rfl, rfl, rfl⟩

end

/-- Settles O32: the first pass counts the source, so the header's check passes; with at least three values every
byte of the source has a code for the second pass. -/
theorem compressSucceeds : Obligations.CompressSucceeds := by
  unfold Obligations.CompressSucceeds
  intro s S hthere hS hlen
  obtain ⟨b, hfirst, hberr, hcounts, hsnk, htype, hbits, hcnt, hpos, hfault, hhost⟩ :=
    runSteps_firstPass hthere hS hlen
  have hexec : exec .encRun s = producedToRes0 (if b.fileType = 2#8 then runSteps generalSteps b else .next b) := by
    rw [exec_encRun, hfirst, thenOk_next hberr]
  have hthere' : SourceThere b := hthere.of_kept hhost
  obtain ⟨hsrc, hsrcLen, -⟩ := hhost
  have hnum : (occupied b.ft).length = S.dedup.length := length_occupied_of_counts hcounts
  rw [length_headerOf, hnum] at hsnk
  have htype : b.fileType = 2#8 ↔ 3 ≤ S.dedup.length := by rw [htype, headerOf_fileType_eq_two_iff, hnum]
  by_cases hk : 3 ≤ S.dedup.length
  · have hcounted : ∀ v ∈ S, b.count v ≠ 0#32 := fun v hv hzero => by
      have := hcounts v
      rw [hzero] at this
      exact (List.count_pos_iff.2 hv).ne this
    obtain ⟨t, hsecond, hterr, htfault, hft, htpos, htsnk⟩ := runSteps_generalSteps hthere'
      (show S = b.src.take b.srcLen.toNat by rw [hsrc, hsrcLen, hS]) hbits hcnt (by omega) hcounted
    refine ⟨{ t with res0 := BitVec.ofNat 64 t.snkPos }, ?_, hterr, htfault.trans hfault, htpos, rfl, fun v => ?_,
      by omega, by omega, fun _ => ?_⟩
    · rw [hexec, if_pos (htype.2 hk), hsecond]
      exact thenOk_next hterr _
    · rw [← hcounts v, State.count, State.count, ← hft]
    · rw [htsnk, hsnk, if_neg (by omega), if_neg (by omega)]
  · refine ⟨{ b with res0 := BitVec.ofNat 64 b.snkPos }, ?_, hberr, hfault, hpos, rfl, hcounts, fun h0 => ?_,
      fun h12 => ?_, fun h3 => absurd h3 hk⟩
    · rw [hexec, if_neg (mt htype.1 hk)]
      exact thenOk_next hberr _
    · exact hsnk.trans (if_pos h0)
    · rw [if_neg (by omega), if_pos (by omega)] at hsnk
      exact hsnk

end Sys2Proof.Machine
end

section
/-! PROOFS. Family 47_decoder: the descent, the bodies, the header reader, the whole pass and the round trip. -/

namespace Sys2Proof.Machine

/-! ### One descent step and its errors (R208) -/

section
variable {s u : State} {o : Bool} {l r : NodeIx} {v : Byte} {w : Word64}

theorem bitBody_noTree (h : s.rootValid = false) : bitBody s = .raised .noTree 0#64 s := if_pos (by simp [h])

/-- The check of the tag: a descent cannot go on from a leaf (R208). -/
theorem bitBody_leaf (hroot : s.rootValid = true) (hn : s.node? s.standsAt = some ⟨o, .leaf v w⟩) :
    bitBody s = .raised .isALeaf (s.standsAt.setWidth 64) s :=
  (if_neg (by simp [hroot])).trans (withNode_some hn _)

theorem bitBody_internal (hroot : s.rootValid = true) (hn : s.node? s.standsAt = some ⟨o, .internal l r w⟩) :
    bitBody s = withDescentByte s fun s' =>
      arrive (if s'.dbyte.getLsbD s'.bitPos.toNat then r else l) s { s' with bitPos := s'.bitPos + 1#3 } :=
  (if_neg (by simp [hroot])).trans (withNode_some hn _)

/-- With no bit of the current byte left and none of the source, the step underruns. -/
theorem bitBody_underrun (hroot : s.rootValid = true) (hn : s.node? s.standsAt = some ⟨o, .internal l r w⟩)
    (hpos : s.bitPos = 0#3) (hleft : s.srcLeft = 0) :
    bitBody s = .raised .streamUnderrun (BitVec.ofNat 64 s.srcPos) s := by
  rw [bitBody_internal hroot hn, withDescentByte, if_pos hpos]
  exact if_pos (by omega)

/-- The byte a descent step looks at: the current one, or the next of the source when no bit of that is left (D13). -/
theorem withDescentByte_of_byte {x : Byte} (hthere : SourceThere s)
    (hx : s.bitPos ≠ 0 ∧ x = s.dbyte ∨ s.bitPos = 0 ∧ s.srcPos < s.srcLen.toNat ∧ s.src[s.srcPos]? = some x)
    (k : State → Res) : withDescentByte s k =
      k { s with dbyte := x, srcPos := if s.bitPos = 0 then s.srcPos + 1 else s.srcPos } := by
  rcases hx with ⟨hpos, rfl⟩ | ⟨hpos, hlt, hget⟩
  · rw [if_neg hpos]
    exact if_neg hpos
  · have hleft : s.srcLeft ≠ 0 := by rw [State.srcLeft]; omega
    rcases withDescentByte_cases hthere k with ⟨hne, -⟩ | ⟨-, hzero, -⟩ | ⟨-, b, bs, hun, he⟩
    · exact absurd hpos hne
    · exact absurd hzero hleft
    · cases hget.symm.trans (State.srcPeek_eq hun)
      rw [he, if_pos hpos]

end

/-- Settles O35, check by check; with a bit to take, by the kind of the child it leads to. -/
theorem descentStepEffects : Obligations.DescentStepEffects := by
  unfold Obligations.DescentStepEffects
  refine ⟨rfl, fun s hthere => ⟨fun h => congrArg Res.finish (bitBody_noTree h),
    fun hroot o v w hn => congrArg Res.finish (bitBody_leaf hroot hn),
    fun hroot o l r w hn => ⟨fun hpos hend => ?_, ?_⟩⟩⟩
  · exact congrArg Res.finish (bitBody_underrun hroot hn hpos (Nat.sub_eq_zero_of_le hend))
  · rintro x hx c rfl u rfl
    have hbody := (bitBody_internal hroot hn).trans (withDescentByte_of_byte hthere hx _)
    refine ⟨fun oc vc wc hc => ?_, fun oc lc rc wc hc => ?_⟩
    · exact ⟨_, congrArg Res.finish (hbody.trans (arrive_leaf hc _)), State.sinkWrites_appended s [vc], rfl⟩
    · exact congrArg Res.finish (hbody.trans (arrive_internal hc _))

/-! ### Bits that end before a leaf (R209) -/

section
variable {s t : State}

/-- What a symbol that underruns changes: it writes nothing and emits nothing (R209). -/
structure Underruns (s t : State) (m : NodeIx) : Prop where
  ahead : t.bitsAhead = []
  stands : t.standsAt = m
  frame : t = { s with
    dbyte := t.dbyte, bitPos := t.bitPos, srcPos := t.srcPos, cur := t.cur, curValid := t.curValid, res0 := t.res0 }

/-- With no bit ahead, none is left of the current byte nor of the source. -/
theorem bitPos_srcLeft_of_bitsAhead_nil (hthere : SourceThere s) (h : s.bitsAhead = []) :
    s.bitPos = 0#3 ∧ s.srcLeft = 0 := by
  by_cases hpos : s.bitPos = 0#3
  · rw [State.bitsAhead_of_bitPos_zero hpos] at h
    have hlen := congrArg List.length h
    rw [length_flatMap_byteBits, State.unread_length hthere, List.length_nil] at hlen
    exact ⟨hpos, by omega⟩
  · rw [State.bitsAhead, if_neg hpos, drop_byteBits] at h
    cases h

/-- A path of at least one bit begins at an internal node and goes on from the child the bit names. -/
theorem Path.of_cons {n m : NodeIx} {bit : Bool} {p : BinaryCode} (h : Path s n (bit :: p) m) :
    ∃ o l r w, s.node? n = some ⟨o, .internal l r w⟩ ∧ Path s (if bit then r else l) p m := by
  cases h with
  | left hn hp => exact ⟨_, _, _, _, hn, hp⟩
  | right hn hp => exact ⟨_, _, _, _, hn, hp⟩

/-- A path that ends at an internal node begins at one. -/
theorem Path.internal_of_end {n m : NodeIx} {p : BinaryCode} {o : Bool} {l r : NodeIx} {w : Word64}
    (h : Path s n p m) (hm : s.node? m = some ⟨o, .internal l r w⟩) :
    ∃ o l r w, s.node? n = some ⟨o, .internal l r w⟩ := by
  cases h with
  | here => exact ⟨_, _, _, _, hm⟩
  | left hn _ => exact ⟨_, _, _, _, hn⟩
  | right hn _ => exact ⟨_, _, _, _, hn⟩

/-- Bits that all lead to an internal node are consumed, and then the step after them underruns (R209). -/
theorem symbolLoop_of_path {turns : Nat} {bits : BinaryCode} {m : NodeIx} {o : Bool} {l r : NodeIx} {w : Word64}
    (hthere : SourceThere s) (hroot : s.rootValid = true) (hturns : bits.length < turns)
    (hpath : Path s s.standsAt bits m) (hm : s.node? m = some ⟨o, .internal l r w⟩) (h : s.bitsAhead = bits) :
    ∃ t, symbolLoop turns s = .raised .streamUnderrun (BitVec.ofNat 64 t.srcPos) t ∧ Underruns s t m := by
  induction bits generalizing s turns with
  | nil =>
    obtain ⟨turns, rfl⟩ : ∃ k, turns = k + 1 := ⟨turns - 1, by simp at hturns; omega⟩
    cases hpath
    obtain ⟨hpos, hleft⟩ := bitPos_srcLeft_of_bitsAhead_nil hthere h
    exact ⟨s, by rw [symbolLoop, bitBody_underrun hroot hm hpos hleft, Res.andThen_raised], h, rfl, rfl⟩
  | cons bit bits ih =>
    obtain ⟨turns, rfl⟩ : ∃ k, turns = k + 1 := ⟨turns - 1, by simp at hturns; omega⟩
    obtain ⟨o', l', r', w', hn, hnext⟩ := hpath.of_cons
    obtain ⟨b, pos, hbit, hahead⟩ := bitBody_of_bitsAhead hroot hn h
    obtain ⟨oc, lc, rc, wc, hc⟩ := hnext.internal_of_end hm
    have hgo : (0#64 : Word64) ≠ 1#64 := by decide
    obtain ⟨t, ht, hu⟩ := ih (s := { s with
      dbyte := b, srcPos := pos, bitPos := s.bitPos + 1#3, cur := if bit then r' else l', curValid := true,
      res0 := 0#64 }) hthere hroot (by simpa using hturns) (hnext.of_nm_eq rfl) hm hahead
    refine ⟨t, ?_, hu.ahead, hu.stands, hu.frame⟩
    rw [symbolLoop, hbit, arrive_internal hc, Res.andThen_done, if_neg hgo, ht]

theorem symbolBody_of_path {m : NodeIx} {o : Bool} {l r : NodeIx} {w : Word64}
    (hthere : SourceThere s) (hroot : s.rootValid = true)
    (hpath : Path s s.standsAt s.bitsAhead m) (hm : s.node? m = some ⟨o, .internal l r w⟩) :
    ∃ t, symbolBody s = .raised .streamUnderrun (BitVec.ofNat 64 t.srcPos) t ∧ Underruns s t m :=
  symbolLoop_of_path hthere hroot (Nat.lt_succ_of_le (bitsAhead_length_le s)) hpath hm rfl

/-- A symbol's first step that raises ends the symbol (R209). -/
theorem symbolBody_of_raised {k : Err} {info : Word64} (h : bitBody s = .raised k info t) :
    symbolBody s = .raised k info t := by
  rw [symbolBody, symbolLoop, h, Res.andThen_raised]

end

/-- Settles O36: the first step's error ends the symbol; else the bits ahead are followed one by one. -/
theorem symbolDecodesOneCode : Obligations.SymbolDecodesOneCode := by
  unfold Obligations.SymbolDecodesOneCode
  refine ⟨rfl, fun s hthere => ⟨fun t hexec herr => ?first, fun hroot c rest v hc hlead h => ?leaf,
    fun hroot m o l r w hpath hm => ?ends⟩⟩
  case first =>
    rcases Res.finish_eq_next.1 hexec with ⟨u, -, rfl⟩ | ⟨k, info, u, hu, rfl⟩
    · exact absurd rfl herr
    · exact congrArg Res.finish (symbolBody_of_raised hu)
  case leaf =>
    obtain ⟨t, ht, hemit, hres⟩ := symbolBody_of_leadsTo hroot hc hlead h
    have hframe := hemit.frame
    rw [hres] at hframe
    exact ⟨t.complete, congrArg Res.finish ht, hemit.appended, hemit.ahead, congrArg State.complete hframe⟩
  case ends =>
    obtain ⟨t, ht, hu⟩ := symbolBody_of_path hthere hroot hpath hm
    exact ⟨_, congrArg Res.finish ht, hu.ahead, hu.stands, congrArg (State.raise _ _) hu.frame⟩

/-! ### The bodies (R206, R207, R211) -/

section
variable {s : State}

theorem decodeBody_noHeader (h : s.hdrValid = false) : decodeBody s = .raised .noHeader 0#64 s :=
  if_pos (by simp [h])

theorem decodeBody_of_hdrValid (h : s.hdrValid = true) : decodeBody s = bodyOfType s := if_neg (by simp [h])

theorem bodyOfType_empty (h : s.fileType = 0#8) : bodyOfType s = .done s := if_pos h

theorem bodyOfType_degenerate (h : s.fileType = 1#8) : bodyOfType s = .done (degenerateBody s) := by
  rw [bodyOfType, if_neg (by rw [h]; decide), if_pos h]

theorem bodyOfType_general (h : s.fileType = 2#8) : bodyOfType s = generalBody s := by
  rw [bodyOfType, if_neg (by rw [h]; decide), if_neg (by rw [h]; decide), if_pos h]

theorem generalBody_noTree (h : s.rootValid = false) : generalBody s = .raised .noTree 0#64 s := if_pos (by simp [h])

theorem generalBody_of_rootValid (h : s.rootValid = true) :
    generalBody s = symbolsLoop (s.totalLen.toNat - s.emitted.toNat) s := if_neg (by simp [h])

end

/-- Settles O37, by the check of the header and the file type. -/
theorem emptyAndDegenerateBodies : Obligations.EmptyAndDegenerateBodies := by
  unfold Obligations.EmptyAndDegenerateBodies
  refine ⟨rfl, fun s => ⟨fun h => congrArg Res.finish (decodeBody_noHeader h), fun h htype => ?empty,
    fun h htype => ?degenerate, fun h htype hroot => ?noTree⟩⟩
  case empty => exact congrArg Res.finish ((decodeBody_of_hdrValid h).trans (bodyOfType_empty htype))
  case degenerate =>
    have hbody := (decodeBody_of_hdrValid h).trans (bodyOfType_degenerate htype)
    rw [degenerateBody_eq] at hbody
    refine ⟨_, congrArg Res.finish hbody, State.sinkWrites_appended s _, ?_⟩
    rw [State.sinkWrites_frame]
    rfl
  case noTree =>
    exact congrArg Res.finish
      ((decodeBody_of_hdrValid h).trans ((bodyOfType_general htype).trans (generalBody_noTree hroot)))

/-! ### A sequence of codes, the first from where the descent stands (R211) -/

/-- The fields that a descent leaves alone, written out. -/
theorem ChangesOnly.descent_eq {s t : State} (h : ChangesOnly descentParts s t) : t = { s with
    snk := t.snk, snkPos := t.snkPos, dbyte := t.dbyte, bitPos := t.bitPos, srcPos := t.srcPos, cur := t.cur,
    curValid := t.curValid, emitted := t.emitted, res0 := t.res0 } := by
  refine eq_of_kept fun p => ?_
  specialize h p
  cases p with
  | decoder => exact ⟨rfl, rfl, rfl⟩
  | cur => exact ⟨rfl, rfl⟩
  | srcPos | snkPos | sink | res0 => rfl
  | _ => exact h (by decide)

theorem symbolsLoop_add (m n : Nat) (s : State) :
    symbolsLoop (m + n) s = (symbolsLoop m s).andThen (symbolsLoop n) := by
  induction m generalizing s with
  | zero => rw [Nat.zero_add, symbolsLoop, Res.andThen_done]
  | succ m ih =>
    rw [Nat.succ_add, symbolsLoop, symbolsLoop, Res.andThen_assoc]
    exact congrArg _ (funext ih)

section
variable {s t u : State} {bs : List Byte} {m : NodeIx}

theorem decodeBody_general (hhdr : s.hdrValid = true) (htype : s.fileType = 2#8) (hroot : s.rootValid = true) :
    decodeBody s = symbolsLoop (s.totalLen.toNat - s.emitted.toNat) s :=
  (decodeBody_of_hdrValid hhdr).trans ((bodyOfType_general htype).trans (generalBody_of_rootValid hroot))

theorem Emits.standsAt {rest : List Bool} (h : Emits s t bs rest) : t.standsAt = s.root := by
  rw [State.standsAt, h.curValid, ← h.root]
  rfl

/-- A symbol that underruns leaves the sink as the symbols before it did. -/
theorem Appended.underruns (h : Appended s t bs) (hu : Underruns t u m) : Appended s u bs := by
  rw [hu.frame]
  exact h

/-- Ahead of the decoder are some codes of the tree, with the bytes they lead to, and then `rest`; the first code may
continue a descent under way. -/
structure CodesAhead (s : State) (codes : List (BinaryCode × Byte)) (rest : List Bool) : Prop where
  leads : ∀ k c v, codes[k]? = some (c, v) → c ≠ [] ∧ LeadsTo s (if k = 0 then s.standsAt else s.root) c v
  ahead : s.bitsAhead = (codes.map Prod.fst).flatten ++ rest

/-- The loop over the codes ahead emits their bytes. -/
theorem symbolsLoop_of_codes {codes : List (BinaryCode × Byte)} {rest : List Bool} (hroot : s.rootValid = true)
    (h : CodesAhead s codes rest) :
    ∃ t, symbolsLoop codes.length s = .done t ∧ Appended s t (codes.map Prod.snd) ∧ t.bitsAhead = rest ∧
      t.standsAt = (if codes = [] then s.standsAt else s.root) ∧
      t.emitted = s.emitted + BitVec.ofNat 32 codes.length := by
  obtain ⟨hcodes, h⟩ := h
  cases codes with
  | nil => exact ⟨s, rfl, .refl s, h, rfl, (BitVec.add_zero _).symm⟩
  | cons x codes =>
    obtain ⟨c, v⟩ := x
    obtain ⟨hc, hlead⟩ := hcodes 0 c v rfl
    rw [List.map_cons, List.flatten_cons, List.append_assoc] at h
    obtain ⟨t, ht, hemit, -⟩ := symbolBody_of_leadsTo hroot hc hlead h
    have hcodes' : ∀ c v, (c, v) ∈ codes → c ≠ [] ∧ LeadsTo t t.root c v := fun c v hmem => by
      obtain ⟨k, hk⟩ := List.mem_iff_getElem?.1 hmem
      obtain ⟨hc, hlead⟩ := hcodes (k + 1) c v hk
      exact ⟨hc, hemit.root ▸ hlead.of_nm_eq hemit.nm⟩
    obtain ⟨u, hu, hemits⟩ := symbolsLoop_of_leadsTo (hemit.rootValid.trans hroot) hemit.curValid hcodes' hemit.ahead
    have hall := hemit.trans hemits
    refine ⟨u, ?_, hall.appended, hall.ahead, hall.standsAt, ?_⟩
    · rw [List.length_cons, symbolsLoop, ht, Res.andThen_done, hu]
    · rw [hall.emitted]
      simp

/-- Where the bits after the codes end at an internal node, the codes' bytes are emitted and the symbol after them
underruns. -/
theorem symbolsLoop_of_codes_of_path {codes : List (BinaryCode × Byte)} {rest : List Bool} {o : Bool} {l r : NodeIx}
    {w : Word64} (hthere : SourceThere s) (hroot : s.rootValid = true) (h : CodesAhead s codes rest)
    (hpath : Path s (if codes = [] then s.standsAt else s.root) rest m)
    (hm : s.node? m = some ⟨o, .internal l r w⟩) (more : Nat) :
    ∃ u, symbolsLoop (codes.length + (more + 1)) s = .raised .streamUnderrun (BitVec.ofNat 64 u.srcPos) u ∧
      Appended s u (codes.map Prod.snd) ∧ u.bitsAhead = [] ∧ u.standsAt = m ∧
      u.emitted = s.emitted + BitVec.ofNat 32 codes.length := by
  obtain ⟨t, ht, happ, hahead, hstands, hemitted⟩ := symbolsLoop_of_codes hroot h
  have hkeeps : ChangesOnly descentParts s t := by
    have := symbolsLoop_within s codes.length
    rwa [ht] at this
  obtain ⟨-, hvalid⟩ : StatePart.root.Kept s t := hkeeps .root (by decide)
  have hnm : t.nm = s.nm := hkeeps .nm (by decide)
  have hm' : t.node? m = some ⟨o, .internal l r w⟩ := by rw [← hm, State.node?, State.node?, hnm]
  have hpath' : Path t t.standsAt t.bitsAhead m := by
    rw [hstands, hahead]
    exact hpath.of_nm_eq hnm
  obtain ⟨u, hu, hunder⟩ := symbolBody_of_path (hthere.of_kept (hkeeps .host (by decide))) (hvalid.trans hroot)
    hpath' hm'
  refine ⟨u, ?_, happ.underruns hunder, hunder.ahead, hunder.stands, ?_⟩
  · rw [symbolsLoop_add, ht, Res.andThen_done, symbolsLoop, hu, Res.andThen_raised]
  · rw [hunder.frame]
    exact hemitted

/-- Below 2^32 symbols `EMITTED` counts without wrapping. -/
theorem toNat_emitted {n : Nat} (h : t.emitted = s.emitted + BitVec.ofNat 32 n) (hn : s.emitted.toNat + n < 2 ^ 32) :
    t.emitted.toNat = s.emitted.toNat + n := by
  rw [h, BitVec.toNat_add, BitVec.toNat_ofNat]
  omega

end

/-- Settles O38: the loop turns once for each symbol still to be emitted. -/
theorem generalBodyDecodesTheCodes : Obligations.GeneralBodyDecodesTheCodes := by
  unfold Obligations.GeneralBodyDecodesTheCodes
  intro s hthere hhdr htype hroot
  have hbody := decodeBody_general hhdr htype hroot
  have hwithin := decodeBody_within s
  have hbound := s.totalLen.isLt
  refine ⟨fun hle => ?nothing, fun hlt o v w hn => ?leaf, fun codes rest hcodes h =>
    ⟨fun hlen => ?complete, fun hlen m o l r w hpath hm => ?underrun⟩⟩
  case nothing =>
    rw [Nat.sub_eq_zero_of_le hle] at hbody
    exact congrArg Res.finish hbody
  case leaf =>
    obtain ⟨k, hk⟩ : ∃ k, s.totalLen.toNat - s.emitted.toNat = k + 1 := Nat.exists_eq_add_one.2 (by omega)
    rw [hk, symbolsLoop, symbolBody_of_raised (bitBody_leaf hroot hn), Res.andThen_raised] at hbody
    exact congrArg Res.finish hbody
  case complete =>
    obtain ⟨t, ht, happ, hahead, -, hemitted⟩ := symbolsLoop_of_codes hroot ⟨hcodes, h⟩
    rw [Nat.sub_eq_of_eq_add' hlen.symm, ht] at hbody
    rw [hbody] at hwithin
    have hall : t.emitted = s.totalLen :=
      BitVec.eq_of_toNat_eq ((toNat_emitted hemitted (by omega)).trans hlen)
    exact ⟨t.complete, congrArg Res.finish hbody, happ, hahead, hall,
      congrArg State.complete (ChangesOnly.descent_eq hwithin)⟩
  case underrun =>
    obtain ⟨k, hk⟩ : ∃ k, s.totalLen.toNat - s.emitted.toNat - codes.length = k + 1 :=
      Nat.exists_eq_add_one.2 (by omega)
    obtain ⟨u, hu, happ, hahead, hstands, hemitted⟩ := symbolsLoop_of_codes_of_path hthere hroot ⟨hcodes, h⟩ hpath hm k
    have hturns : s.totalLen.toNat - s.emitted.toNat = codes.length + (k + 1) := by omega
    rw [hturns, hu] at hbody
    rw [hbody] at hwithin
    exact ⟨u.raise .streamUnderrun (BitVec.ofNat 64 u.srcPos), congrArg Res.finish hbody, happ, hahead, hstands,
      toNat_emitted hemitted (by omega), congrArg (State.raise _ _) (ChangesOnly.descent_eq hwithin)⟩

/-! ### A whole record (R95, R205) -/

/-- How many bytes a record of each kind takes (R65, R205); no other instruction stands in a stream. -/
def recordSize : Instr → Nat
  | .streamEmpty => 3
  | .streamDegen _ _ => 8
  | .streamGeneral _ _ => 1031
  | _ => 0

theorem length_record {i : Instr} {bytes : List Byte} (he : encode i = .record bytes) (hwf : i.wf = true) :
    bytes.length = recordSize i := by
  cases i with
  | streamEmpty | streamDegen count value => cases he; rfl
  | streamGeneral total counts =>
    cases he
    have hlen : counts.length = 256 := by simpa [Instr.wf] using hwf
    simp only [recordBytes, be32, List.length_cons, List.length_append, List.length_nil, length_flatMap_be32, hlen]
    rfl
  | _ => cases he

/-- What `DEC.HDR` leaves of the state, by the kind of the record (R205). -/
theorem recordHeader_complete {i : Instr} {bytes : List Byte} (he : encode i = .record bytes) (hwf : i.wf = true)
    (s : State) : ∃ (ft : FreqTable) (t : Byte) (total dgCount : Word32) (dgValue : Byte),
      (i = .streamEmpty ∧ t = 0 ∧ total = 0 ∧ dgCount = 0 ∧ dgValue = 0 ∧ ft = s.ft ∨
       (∃ c p, i = .streamDegen c p ∧ t = 1 ∧ total = 0 ∧ dgCount = c ∧ dgValue = p ∧ ft = s.ft) ∨
       (∃ T counts, i = .streamGeneral T counts ∧ t = 2 ∧ total = T ∧ dgCount = 0 ∧ dgValue = 0 ∧
         ft.toList = counts)) ∧
      (recordHeader s i).complete = { s.passed (recordSize i) with
        ft := ft, fileType := t, totalLen := total, dgCount := dgCount, dgValue := dgValue, hdrValid := true,
        bitPos := 0, curValid := false, emitted := 0, res0 := t.setWidth 64, err := .ok } := by
  cases i with
  | streamEmpty => exact ⟨s.ft, 0, 0, 0, 0, .inl ⟨rfl, rfl, rfl, rfl, rfl, rfl⟩, rfl⟩
  | streamDegen count value =>
    exact ⟨s.ft, 1, 0, count, value, .inr (.inl ⟨count, value, rfl, rfl, rfl, rfl, rfl, rfl⟩), rfl⟩
  | streamGeneral total counts =>
    obtain ⟨ft, rfl⟩ := exists_table_of_length (by simpa [Instr.wf] using hwf)
    refine ⟨ft, 2, total, 0, 0, .inr (.inr ⟨total, _, rfl, rfl, rfl, rfl, rfl, rfl⟩), ?_⟩
    rw [recordHeader, putCounts_allBytes]
    rfl
  | _ => cases he

/-- Settles O33: the header reader passes the record's bytes and loads its operands. -/
theorem headerReaderDecodesTheRecord : Obligations.HeaderReaderDecodesTheRecord := by
  unfold Obligations.HeaderReaderDecodesTheRecord
  refine ⟨rfl, fun s i rest _ hdec => ?_⟩
  obtain ⟨front, he, hun, hwf⟩ := encode_of_decodeRecord hdec
  have hsize := length_record he hwf
  obtain ⟨ft, t, total, dgCount, dgValue, hkind, hstate⟩ := recordHeader_complete he hwf s
  refine ⟨(recordHeader s i).complete, congrArg Res.finish (decodeHeader_of_decodeRecord hdec), ?_⟩
  rw [hstate]
  refine ⟨State.unread_passed hun hsize, ?_, rfl, hkind, rfl⟩
  rw [hun, List.length_append, hsize, ← Nat.add_assoc]
  rfl

/-! ### Starts that are no whole record (R205) -/

section
variable {s : State}

/-- The magic test on the bytes that are there, be they two or fewer. -/
theorem withMagic_bad (hthere : SourceThere s) {m : List Byte} (hm : s.unread.take 2 = m) (hne : m ≠ [magic0, magic1])
    (k : State → Res) : withMagic s k = .raised .badMagic
      (BitVec.ofNat 64 (m.length * 65536 + (m.getD 0 0#8).toNat * 256 + (m.getD 1 0#8).toNat)) s := by
  have hlen : m.length = min 2 s.srcLeft := by rw [← hm, List.length_take, State.unread_length hthere]
  have hrun : s.srcRun (min 2 s.srcLeft) = some m := by
    rw [← hlen]
    exact srcRun_of_unread (rest := s.unread.drop 2) (by rw [← hm, List.take_append_drop])
  have hbad : min 2 s.srcLeft < 2 ∨ m.getD 0 0#8 ≠ magic0 ∨ m.getD 1 0#8 ≠ magic1 := by
    rw [← hlen]
    match m with
    | [] | [_] => exact .inl (by simp)
    | [a, b] =>
      by_cases ha : a = magic0
      · exact .inr (.inr fun hb => hne (by rw [ha, show b = magic1 from hb]))
      · exact .inr (.inl ha)
    | _ :: _ :: _ :: _ => simp at hlen; omega
  simp only [withMagic, hrun, if_pos hbad, hlen]
  rfl

/-- A field that is not wholly there underruns, and nothing of it is consumed. -/
theorem withBytes_short {n : Nat} (hthere : SourceThere s) (h : s.unread.length < n) (k : List Byte → State → Res) :
    withBytes n s k = .raised .streamUnderrun (BitVec.ofNat 64 s.srcPos) s :=
  if_pos (by rwa [← State.unread_length hthere])

theorem withByte_short (hthere : SourceThere s) (h : s.unread = []) (k : Byte → State → Res) :
    withByte s k = .raised .streamUnderrun (BitVec.ofNat 64 s.srcPos) s :=
  withBytes_short hthere (by rw [h]; exact Nat.zero_lt_one) _

theorem withField_short (hthere : SourceThere s) (h : s.unread.length < 4) (k : Word32 → State → Res) :
    withField s k = .raised .streamUnderrun (BitVec.ofNat 64 s.srcPos) s := withBytes_short hthere h _

/-- Counts that end before the table is full: those that are there are written (R205). -/
theorem loadCounts_short {vs : List Byte} {ns : List Word32} {tail : List Byte} (hthere : SourceThere s)
    (hlen : ns.length < vs.length) (h : s.unread = ns.flatMap be32 ++ tail) (htail : tail.length < 4) :
    loadCounts vs s = .raised .streamUnderrun (BitVec.ofNat 64 (s.srcPos + 4 * ns.length))
      (putCounts vs ns (s.passed (4 * ns.length))) := by
  induction vs generalizing s ns with
  | nil => cases hlen
  | cons v vs ih =>
    cases ns with
    | nil => exact withField_short hthere (by rwa [h]) _
    | cons n ns =>
      rw [List.flatMap_cons, List.append_assoc] at h
      have hpos : s.passed (4 * (n :: ns).length) = (s.passed 4).passed (4 * ns.length) := by
        rw [State.passed_passed, List.length_cons]
        congr 1
        omega
      have hinfo : s.srcPos + 4 * (n :: ns).length = (s.passed 4).srcPos + 4 * ns.length :=
        congrArg State.srcPos hpos
      rw [loadCounts, withField_of_unread h, hpos, hinfo]
      exact ih (s := (s.passed 4).setCount v n) hthere (by simpa using hlen) (State.unread_passed h rfl)

theorem State.setCount_self (s : State) (v : Byte) : s.setCount v (s.count v) = s := by
  have hft : tableSet s.ft v (s.count v) = s.ft := table_ext fun u => by
    by_cases hu : u = v
    · rw [hu, tableGet_tableSet_same]
      rfl
    · rw [tableGet_tableSet_other _ _ hu]
  rw [State.setCount, hft]

/-- Writing no more counts is writing those that stand there again. -/
theorem putCounts_append_self {vs : List Byte} (hvs : vs.Nodup) (ns : List Word32) (s : State) :
    putCounts vs (ns ++ (vs.drop ns.length).map s.count) s = putCounts vs ns s := by
  induction vs generalizing s ns with
  | nil => rfl
  | cons v vs ih =>
    obtain ⟨hv, hvs⟩ := List.nodup_cons.1 hvs
    cases ns with
    | nil =>
      refine (congrArg _ (s.setCount_self v)).trans ?_
      exact (ih hvs [] s).trans (by cases vs <;> rfl)
    | cons n ns =>
      have hrest : (vs.drop ns.length).map s.count = (vs.drop ns.length).map (s.setCount v n).count :=
        List.map_congr_left fun u hu =>
          (State.count_setCount_other s n fun h => hv (List.mem_of_mem_drop (h ▸ hu))).symm
      refine Eq.trans ?_ (ih hvs ns (s.setCount v n))
      rw [← hrest]
      rfl

/-- After the first counts are written the table is those, and then what it was. -/
theorem toList_ft_putCounts {counts : List Word32} (hlen : counts.length ≤ 256) (s : State) :
    (putCounts allBytes counts s).ft.toList = counts ++ s.ft.toList.drop counts.length := by
  have htable : s.ft.toList = allBytes.map s.count := by
    rw [toList_eq_map_range, allBytes, List.map_map]
    rfl
  obtain ⟨ft, hft⟩ := exists_table_of_length (counts := counts ++ s.ft.toList.drop counts.length) (by simp; omega)
  rw [← putCounts_append_self allBytes_nodup counts s, List.map_drop, ← htable, ← hft, putCounts_allBytes]

/-! ### The header reader after a good magic -/

/-- What the header reader does from the file_type byte on (R205). -/
theorem decodeHeader_of_magic {t : Byte} {rest : List Byte} (h : s.unread = magic0 :: magic1 :: t :: rest) :
    ((beginDecode s).passed 3).unread = rest ∧ decodeHeader s =
      if t = 0#8 then .done (setHeader 0#8 0#32 0#32 0#8 ((beginDecode s).passed 3))
      else if t = 1#8 then
        withField ((beginDecode s).passed 3) fun c s => withByte s fun p s => .done (setHeader 1#8 0#32 c p s)
      else if t = 2#8 then
        withField ((beginDecode s).passed 3) fun total s =>
          (loadCounts allBytes s).andThen fun s => .done (setHeader 2#8 total 0#32 0#8 s)
      else raise .badFileType (t.setWidth 64) ((beginDecode s).passed 3) := by
  have h0 : (beginDecode s).unread = [magic0, magic1] ++ t :: rest := h
  have h2 := State.unread_passed h0 (n := 2) rfl
  refine ⟨State.unread_passed (front := [magic0, magic1, t]) h rfl, ?_⟩
  rw [decodeHeader, withMagic_of_unread h0, withByte_of_unread h2, State.passed_passed]

/-- A record cut off in `occurrence_count`, `byte_value` or `total_length` underruns at the field that is not there. -/
theorem decodeHeader_of_cutField {t : Byte} {rest : List Byte} {p : Nat} (hthere : SourceThere s)
    (h : s.unread = magic0 :: magic1 :: t :: rest)
    (hcut : (t = 1#8 ∨ t = 2#8) ∧ rest.length < 4 ∧ p = s.srcPos + 3 ∨ t = 1#8 ∧ rest.length = 4 ∧ p = s.srcPos + 7) :
    decodeHeader s = .raised .streamUnderrun (BitVec.ofNat 64 p) { beginDecode s with srcPos := p } := by
  obtain ⟨hrest, hhdr⟩ := decodeHeader_of_magic h
  have hthere' : SourceThere ((beginDecode s).passed 3) := hthere
  rw [hhdr]
  rcases hcut with ⟨rfl | rfl, hlen, rfl⟩ | ⟨rfl, hlen, rfl⟩
  · rw [if_neg (by decide), if_pos rfl]
    exact withField_short hthere' (by rwa [hrest]) _
  · rw [if_neg (by decide), if_neg (by decide), if_pos rfl]
    exact withField_short hthere' (by rwa [hrest]) _
  · match rest, hlen with
    | [b0, b1, b2, b3], _ =>
      have hfield : ((beginDecode s).passed 3).unread = be32 (unbe32 b0 b1 b2 b3) ++ [] := by
        rw [hrest, be32_unbe32, List.append_nil]
      rw [if_neg (by decide), if_pos rfl, withField_of_unread hfield]
      exact withByte_short (s := ((beginDecode s).passed 3).passed 4) hthere' (State.unread_passed hfield rfl) _

/-- A general record cut off in its counts underruns at the first count that is not there, with those before it
written. -/
theorem decodeHeader_of_cutCounts {T : Word32} {counts : List Word32} {tail : List Byte} (hthere : SourceThere s)
    (h : s.unread = magic0 :: magic1 :: 2#8 :: (be32 T ++ counts.flatMap be32 ++ tail))
    (hlen : counts.length < 256) (htail : tail.length < 4) :
    decodeHeader s = .raised .streamUnderrun (BitVec.ofNat 64 (s.srcPos + 7 + 4 * counts.length))
      (putCounts allBytes counts { beginDecode s with srcPos := s.srcPos + 7 + 4 * counts.length }) := by
  obtain ⟨hrest, hhdr⟩ := decodeHeader_of_magic h
  rw [List.append_assoc] at hrest
  rw [hhdr, if_neg (by decide), if_neg (by decide), if_pos rfl, withField_of_unread hrest,
    loadCounts_short (s := ((beginDecode s).passed 3).passed 4) hthere (by rwa [allBytes_length])
      (State.unread_passed hrest rfl) htail]
  rfl

end

/-- Settles O34, by how much of a record stands at `SRC_POS`. -/
theorem headerReaderRejectsBadStarts : Obligations.HeaderReaderRejectsBadStarts := by
  unfold Obligations.HeaderReaderRejectsBadStarts
  rintro s hthere base rfl
  refine ⟨fun m hm hne => ?magic, fun h => ?magicOnly, fun t rest h ht => ?fileType, fun t rest p h hcut => ?field,
    fun T counts tail h hlen htail => ?counts⟩
  case magic => exact congrArg Res.finish (withMagic_bad (s := beginDecode s) hthere hm hne _)
  case magicOnly =>
    have h0 : (beginDecode s).unread = magic0 :: magic1 :: [] := h
    have h2 : ((beginDecode s).passed 2).unread = [] := State.unread_passed (front := [magic0, magic1]) h0 rfl
    have hhdr : decodeHeader s =
        .raised .streamUnderrun (BitVec.ofNat 64 (s.srcPos + 2)) ((beginDecode s).passed 2) := by
      rw [decodeHeader, withMagic_of_unread h0]
      exact withByte_short (s := (beginDecode s).passed 2) hthere h2 _
    exact congrArg Res.finish hhdr
  case fileType =>
    obtain ⟨-, hhdr⟩ := decodeHeader_of_magic h
    have hne (n : Byte) (hn : n.toNat ≤ 2) : t ≠ n := by
      rintro rfl
      omega
    rw [if_neg (hne 0#8 (by decide)), if_neg (hne 1#8 (by decide)), if_neg (hne 2#8 (by decide))] at hhdr
    exact congrArg Res.finish hhdr
  case field => exact congrArg Res.finish (decodeHeader_of_cutField hthere h hcut)
  case counts =>
    refine ⟨_, congrArg Res.finish (decodeHeader_of_cutCounts hthere h hlen htail), ?_, ?_, ?_⟩
    · exact toList_ft_putCounts hlen.le _
    · rw [putCounts_frame]
      rfl
    · rw [putCounts_frame]
      rfl

/-! ### The header reader does not look at `STATUS.ERR`

`DEC.RUN` goes from the rewinds to the header reader with `STATUS.ERR` as it stands (R212), the commands `REW` and
`DEC.HDR` with it cleared (R233): the outcome is the same. -/

/-- The body's end with `STATUS.ERR` cleared. -/
def Res.completed : Res → Res
  | .done s => .done s.complete
  | .raised k info s => .raised k info s.complete
  | .stopped f => .stopped f

theorem Res.finish_completed (r : Res) : r.completed.finish = r.finish := by cases r <;> rfl

section
variable (s : State)

theorem State.srcLeft_complete : s.complete.srcLeft = s.srcLeft := rfl

theorem State.srcRun_complete (n : Nat) : s.complete.srcRun n = s.srcRun n := rfl

theorem guard_complete {failed failed' : Prop} [Decidable failed] [Decidable failed'] (hiff : failed' ↔ failed)
    {k : Err} {info : Word64} {r r' : Res} (h : r' = r.completed) :
    (if failed' then raise k info s.complete else r') = (if failed then raise k info s else r).completed := by
  by_cases hf : failed
  · rw [if_pos hf, if_pos (hiff.2 hf)]
    rfl
  · rw [if_neg hf, if_neg (mt hiff.1 hf), h]

theorem withBytes_complete (n : Nat) {k : List Byte → State → Res} (hk : ∀ bs t, k bs t.complete = (k bs t).completed) :
    withBytes n s.complete k = (withBytes n s k).completed := by
  refine guard_complete s Iff.rfl ?_
  simp only [State.srcRun_complete]
  cases s.srcRun n with
  | none => rfl
  | some bs => exact hk bs { s with srcPos := s.srcPos + n }

theorem withByte_complete {k : Byte → State → Res} (hk : ∀ b t, k b t.complete = (k b t).completed) :
    withByte s.complete k = (withByte s k).completed := by
  refine withBytes_complete s 1 fun bs t => ?_
  split
  · exact hk _ t
  · rfl

theorem withField_complete {k : Word32 → State → Res} (hk : ∀ x t, k x t.complete = (k x t).completed) :
    withField s.complete k = (withField s k).completed := by
  refine withBytes_complete s 4 fun bs t => ?_
  split
  · exact hk _ t
  · rfl

theorem withMagic_complete {k : State → Res} (hk : ∀ t, k t.complete = (k t).completed) :
    withMagic s.complete k = (withMagic s k).completed := by
  simp only [withMagic, State.srcLeft_complete, State.srcRun_complete]
  cases s.srcRun (min 2 s.srcLeft) with
  | none => rfl
  | some bs => exact guard_complete s Iff.rfl (hk { s with srcPos := s.srcPos + 2 })

theorem loadCounts_complete (vs : List Byte) : loadCounts vs s.complete = (loadCounts vs s).completed := by
  induction vs generalizing s with
  | nil => rfl
  | cons v vs ih => exact withField_complete s fun n t => ih (t.setCount v n)

theorem decodeHeader_complete : decodeHeader s.complete = (decodeHeader s).completed := by
  refine withMagic_complete (beginDecode s) fun t => withByte_complete t fun b t => ?_
  split
  · rfl
  split
  · exact withField_complete t fun c t => withByte_complete t fun p t => rfl
  split
  · refine withField_complete t fun total t => ?_
    rw [loadCounts_complete]
    cases loadCounts allBytes t <;> rfl
  · rfl

theorem exec_decHdr_complete : exec .decHdr s.complete = exec .decHdr s := by
  change (decodeHeader s.complete).finish = (decodeHeader s).finish
  rw [decodeHeader_complete, Res.finish_completed]

end

/-! ### The steps of R212 -/

section
variable {P : Err → Prop} {s : State}

theorem withField_raises {k : Word32 → State → Res} (hunder : P .streamUnderrun) (hk : ∀ x t, (k x t).Raises P) :
    (withField s k).Raises P := by
  refine withBytes_raises hunder fun bs t => ?_
  split
  · exact hk _ _
  · trivial

theorem withMagic_raises {k : State → Res} (hmagic : P .badMagic) (hk : ∀ t, (k t).Raises P) :
    (withMagic s k).Raises P := by
  unfold withMagic
  dsimp only
  split
  · trivial
  · exact guard_raises hmagic (hk _)

theorem loadCounts_raises (hunder : P .streamUnderrun) (vs : List Byte) (s : State) : (loadCounts vs s).Raises P := by
  induction vs generalizing s with
  | nil => trivial
  | cons v vs ih => exact withField_raises hunder fun n t => ih _

theorem decodeHeader_raises (hmagic : P .badMagic) (hunder : P .streamUnderrun) (htype : P .badFileType) (s : State) :
    (decodeHeader s).Raises P := by
  refine withMagic_raises hmagic fun t => withByte_raises hunder fun b t => ?_
  split
  · trivial
  split
  · exact withField_raises hunder fun c t => withByte_raises hunder fun p t => trivial
  split
  · exact withField_raises hunder fun total t => (loadCounts_raises hunder _ t).andThen fun t => trivial
  · exact raised_raises htype

end

/-- `REW` and `DEC.HDR` are the header reader on the rewound streams. -/
theorem runSteps_rew_decHdr (s : State) :
    runSteps [.rew true true, .decHdr] s = exec .decHdr (rewind true true s) := by
  have hrew : exec (.rew true true) s = .next (rewind true true s).complete := rfl
  rw [runSteps, hrew, thenOk_next rfl, runSteps, exec_decHdr_complete]
  exact thenOk_next_right

/-- Step 3 of R212 as a command, on a state that step 2 has left. -/
theorem finish_rebuildTree {s : State} (h : s.err = .ok) :
    (rebuildTree s).finish = if s.fileType = 2#8 then exec .trBuild s else .next s := by
  unfold rebuildTree
  split
  · rfl
  · rw [Res.finish_done, State.complete_eq_self h]

/-- Settles O39: each `thenCommand` of the pass is `thenOk` of the commands. -/
theorem decompressIsItsSteps : Obligations.DecompressIsItsSteps := by
  unfold Obligations.DecompressIsItsSteps
  refine ⟨rfl, fun s => ?_⟩
  change (decodePass s).finish = _
  rw [decodePass, runSteps_rew_decHdr, finish_thenCommand (decodeHeader_raises (by decide) (by decide) (by decide) _)]
  refine thenOk_congr fun a ha => ?_
  rw [finish_thenCommand (rebuildTree_raises a), finish_rebuildTree ha]
  exact thenOk_congr fun b _ => finish_andThen_result (decodeBody_raises b)

/-! ### What `ENC.RUN` has written when its first pass ends (R191, R197) -/

theorem Appended.of_start_eq {s s' t : State} {bs : List Byte} (h : Appended s t bs) (hpos : s.snkPos = s'.snkPos)
    (hsnk : s.snk = s'.snk) : Appended s' t bs := by
  rwa [Appended, hpos, hsnk] at h

/-- The first pass writes the header of the counts of the source, from position 0 on. -/
theorem firstPass_appended {s b : State} {S : List Byte} (hthere : SourceThere s)
    (hS : S = s.src.take s.srcLen.toNat) (hlen : S.length < 2 ^ 32)
    (hrun : runSteps [.ftScan, .encHdr] (clearCounts (rewind true true s)).complete = .next b) :
    Appended s.rewindSnk b (headerOf b.ft).1 := by
  obtain ⟨a, hscan, hcounts, ha⟩ := exec_ftScan_cleared hthere hS hlen
  have hfits : countSum a.ft < 2 ^ 32 := by rwa [countSum_of_counts hcounts]
  obtain ⟨b', hhdr, happ, -, -, -, -, hb⟩ := exec_encHdr_of_headerOf (s := a) (.inr hfits) rfl
  have haerr : a.err = .ok := by rw [ha]
  have hberr : b'.err = .ok := by rw [hb]
  rw [runSteps, hscan, thenOk_next haerr, runSteps, hhdr, thenOk_next hberr, runSteps] at hrun
  cases hrun
  have hft : b.ft = a.ft := by rw [hb]
  rw [hft]
  exact happ.of_start_eq (by rw [ha]; rfl) (by rw [ha]; rfl)

/-- With fewer than three values `ENC.RUN` is its first pass. -/
theorem exec_encRun_of_small {s : State} {S : List Byte} (hthere : SourceThere s)
    (hS : S = s.src.take s.srcLen.toNat) (hlen : S.length < 2 ^ 32) (hk : S.dedup.length ≤ 2) :
    ∃ t, exec .encRun s = .next t ∧ t.err = .ok ∧ (∀ v, (t.count v).toNat = S.count v) ∧
      Produced t (headerOf t.ft).1 := by
  obtain ⟨b, hfirst, hberr, hcounts, -, htype, -⟩ := runSteps_firstPass hthere hS hlen
  obtain ⟨hprod, -⟩ := (firstPass_appended hthere hS hlen hfirst).produced rfl
  have hne : b.fileType ≠ 2#8 := by
    rw [htype, Ne, headerOf_fileType_eq_two_iff, length_occupied_of_counts hcounts]
    omega
  refine ⟨{ b with res0 := BitVec.ofNat 64 b.snkPos }, ?_, hberr, hcounts, hprod⟩
  rw [exec_encRun, hfirst, thenOk_next hberr, if_neg hne]
  exact thenOk_next hberr _

/-- A source of which the host gives the whole length (R263). -/
theorem sourceThere_of_length {s : State} {bytes : List Byte} (hsrc : s.src = bytes)
    (hlen : s.srcLen = BitVec.ofNat 64 bytes.length) (hsize : bytes.length < 2 ^ 64) :
    SourceThere s ∧ s.srcLen.toNat = bytes.length ∧ s.src.take s.srcLen.toNat = bytes := by
  have heq : s.srcLen.toNat = bytes.length := by
    rw [hlen, BitVec.toNat_ofNat, Nat.mod_eq_of_lt hsize]
  exact ⟨by rw [SourceThere, heq, hsrc], heq, by rw [heq, hsrc, List.take_length]⟩

/-- Settles O43: what `ENC.RUN` writes is one small record, and `DEC.RUN` runs it. -/
theorem roundTripOfSmallAlphabets : Obligations.RoundTripOfSmallAlphabets := by
  unfold Obligations.RoundTripOfSmallAlphabets
  intro s s' S hsrc hsrcLen hlen hk
  obtain ⟨hthere, -, hS⟩ := sourceThere_of_length hsrc hsrcLen (by omega)
  obtain ⟨t, hexec, herr, hcounts, hprod⟩ := exec_encRun_of_small hthere hS.symm hlen hk
  have hnum : (occupied t.ft).length = S.dedup.length := length_occupied_of_counts hcounts
  have hsize := length_headerOf t.ft
  refine ⟨t, _, hexec, herr, hprod, fun hsrc' hlen' => ?_⟩
  obtain ⟨hthere', -, hbytes⟩ := sourceThere_of_length hsrc' hlen' (by rw [hsize]; split_ifs <;> decide)
  obtain ⟨-, -, hsmall⟩ := smallRecordsComplete
  by_cases hempty : S = []
  · have h0 : (occupied t.ft).length = 0 := by rw [hnum, hempty]; rfl
    rw [headerOf_of_empty h0] at hbytes
    obtain ⟨hrun, -⟩ := hsmall s' .streamEmpty [] hthere' (by rw [hbytes]; rfl)
    obtain ⟨t', ht', herr', hprod', -⟩ := hrun rfl
    exact ⟨t', ht', herr', fun _ => hprod', fun hne => absurd hempty hne⟩
  · have h0 : (occupied t.ft).length ≠ 0 := by
      rw [hnum, Ne, List.length_eq_zero_iff, List.dedup_eq_nil]
      exact hempty
    rw [headerOf_of_degenerate h0 (by omega)] at hbytes
    have hdec := decodeRecord_of_encode (i := .streamDegen (t.count (degenPick t.ft)) (degenPick t.ft)) rfl rfl []
    rw [List.append_nil] at hdec
    obtain ⟨-, hrun⟩ := hsmall s' _ [] hthere' ((congrArg decodeRecord hbytes).trans hdec)
    obtain ⟨t', ht', herr', hprod', -⟩ := hrun _ _ rfl
    have hpick : t.count (degenPick t.ft) ≠ 0#32 := degenPick_occupied (mt List.length_eq_zero_iff.2 h0)
    have hmem : degenPick t.ft ∈ S := by
      rw [← List.count_pos_iff, ← hcounts, Nat.pos_iff_ne_zero]
      exact fun h => hpick (BitVec.eq_of_toNat_eq h)
    rw [hcounts] at hprod'
    exact ⟨t', ht', herr', fun he => absurd he hempty, fun _ => ⟨_, hmem, hprod'⟩⟩

/-! ### The encoder's tree and codes (R146, R181) -/

theorem storeInv_of_exec_trBuild {s t : State} (hne : occupied s.ft ≠ []) (h : exec .trBuild s = .next t) :
    StoreInv t := by
  obtain ⟨u, r, hmerging, -, hbuild⟩ := buildBody_of_occupied hne
  rw [exec_trBuild, hbuild] at h
  cases h
  exact hmerging.forest.store.of_nm_eq rfl

/-- `code` is the path of at most 255 bits, and at least one, to the leaf of value `v` in the tree value. -/
structure CodeIn (tree : TreeVal) (v : Byte) (code : BinaryCode) : Prop where
  nonempty : code ≠ []
  short : code.length ≤ 255
  follow : tree.follow code = some v

/-- The codes `CG.RUN` makes after `TR.BUILD` are those of the stable merge of the counts. -/
theorem codeIn_of_trBuild_cgRun {s t u : State} (hne : occupied s.ft ≠ []) (hbuild : exec .trBuild s = .next t)
    (hterr : t.err = .ok) (hcodegen : exec .cgRun t = .next u) (huerr : u.err = .ok) :
    ∃ tree, mergeTrees 256 (leafQueue s.ft) = some tree ∧ ∀ v c, tableGet u.ct v = some c → CodeIn tree v c := by
  obtain ⟨tree, htree, hroot⟩ := treeIs_of_exec_trBuild hbuild hterr
  have hstore := storeInv_of_exec_trBuild hne hbuild
  obtain ⟨hvalid, o, l, r, w, hn⟩ := internalRoot_of_cgRun_ok hcodegen huerr
  obtain ⟨tab, htab, hpaths⟩ := hstore.rootCodes_eq hn
  cases hcodegen.symm.trans (exec_cgRun_internal hvalid hn htab)
  refine ⟨tree, htree, fun v c hc => ?_⟩
  obtain ⟨hlead, -⟩ := (hpaths v c).1 hc
  refine ⟨?_, hstore.leadsTo_length_le hn hlead, hroot.follow_eq_some.2 hlead⟩
  rintro rfl
  obtain ⟨o', w', hleaf⟩ := hlead.of_nil
  cases hn.symm.trans hleaf

/-! ### The second pass (R197 step 5) -/

section
variable {s : State} {S : List Byte}

/-- After a tree and its codes are made, the second pass is `ENC.BODY` on the rewound source. -/
theorem runSteps_generalSteps_eq {a b : State} (hbuild : exec .trBuild s = .next a) (ha : a.err = .ok)
    (hcodegen : exec .cgRun a = .next b) (hb : b.err = .ok) :
    runSteps generalSteps s = exec .encBody b.rewindSrc := by
  have hrew : exec (.rew true false) b = .next b.rewindSrc := congrArg Host.Outcome.next (State.complete_eq_self hb)
  rw [generalSteps, runSteps, hbuild, thenOk_next ha, runSteps, hcodegen, thenOk_next hb, runSteps, hrew,
    thenOk_next (t := b.rewindSrc) hb, runSteps]
  exact thenOk_next_right

/-- The second pass writes the packed codes of the source, in the tree of the counts. -/
theorem secondPass_packs (hthere : SourceThere s) (hS : S = s.src.take s.srcLen.toNat) (hbits : s.bbBits = 0#8)
    (hcnt : s.bbCnt = 0#4) (h : 2 ≤ (occupied s.ft).length) (hcounted : ∀ v ∈ S, s.count v ≠ 0#32) :
    ∃ t body tree, runSteps generalSteps s = .next t ∧ t.err = .ok ∧ t.ft = s.ft ∧ Appended s t body ∧
      Packs body (codeBits t.ct S) ∧ mergeTrees 256 (leafQueue s.ft) = some tree ∧
      ∀ v ∈ S, ∃ c, tableGet t.ct v = some c ∧ CodeIn tree v c := by
  obtain ⟨a, b, hbuild, ha, hcodegen, hb, hcodes, hframe⟩ := trBuild_cgRun h
  obtain ⟨tree, htree, hin⟩ := codeIn_of_trBuild_cgRun (List.length_pos_iff.1 (by omega)) hbuild ha hcodegen hb
  have hhost : StatePart.host.Kept s b := hframe .host (by decide)
  have hthere' : SourceThere b.rewindSrc := hthere.of_kept hhost
  obtain ⟨hsrc, hlen, -⟩ := hhost
  obtain ⟨hbufBits, hbufCnt⟩ : StatePart.buffer.Kept s b := hframe .buffer (by decide)
  have hunread : b.rewindSrc.unread = S := by
    rw [hS, ← hsrc, ← hlen]
    simp [State.unread, State.srcLeft]
  have hcnt' : b.rewindSrc.bbCnt = 0#4 := hbufCnt.trans hcnt
  obtain ⟨t, body, hbody, happ, hpacks, -, -, -, hkeeps⟩ :=
    encodeBody_of_codes hthere' (bufferInv_empty (hbufBits.trans hbits) hcnt')
      (by rw [hunread]; exact fun v hv => hcodes v (hcounted v hv))
  have hct : t.ct = b.ct := hkeeps .ct (by decide)
  rw [hunread, State.pendingBits_eq_nil hcnt', List.nil_append, State.rewindSrc_ct, ← hct] at hpacks
  refine ⟨t.complete, body, tree, ?_, rfl, Eq.trans (hkeeps .ft (by decide)) (hframe .ft (by decide)),
    happ.of_start_eq (hframe .snkPos (by decide)) (hframe .sink (by decide)), hpacks, htree, fun v hv => ?_⟩
  · rw [runSteps_generalSteps_eq hbuild ha hcodegen hb]
    exact congrArg Res.finish hbody
  · obtain ⟨c, hc⟩ := Option.ne_none_iff_exists'.1 (hcodes v (hcounted v hv))
    exact ⟨c, by rw [State.complete_ct, hct, hc], hin v c hc⟩

/-- With at least three values `ENC.RUN` writes the header of the counts and the packed codes. -/
theorem exec_encRun_of_general (hthere : SourceThere s) (hS : S = s.src.take s.srcLen.toNat) (hlen : S.length < 2 ^ 32)
    (hk : 3 ≤ S.dedup.length) : ∃ t body tree, exec .encRun s = .next t ∧ t.err = .ok ∧
      (∀ v, (t.count v).toNat = S.count v) ∧ Produced t ((headerOf t.ft).1 ++ body) ∧
      Packs body (codeBits t.ct S) ∧ mergeTrees 256 (leafQueue t.ft) = some tree ∧
      ∀ v ∈ S, ∃ c, tableGet t.ct v = some c ∧ CodeIn tree v c := by
  obtain ⟨b, hfirst, hberr, hcounts, -, htype, hbits, hcnt, -, -, hhost⟩ := runSteps_firstPass hthere hS hlen
  have happ := firstPass_appended hthere hS hlen hfirst
  have hthere' : SourceThere b := hthere.of_kept hhost
  obtain ⟨hsrc, hsrcLen, -⟩ := hhost
  have hnum : (occupied b.ft).length = S.dedup.length := length_occupied_of_counts hcounts
  have hgeneral : b.fileType = 2#8 := by rw [htype, headerOf_fileType_eq_two_iff, hnum]; exact hk
  have hcounted : ∀ v ∈ S, b.count v ≠ 0#32 := fun v hv hzero => by
    have := hcounts v
    rw [hzero] at this
    exact (List.count_pos_iff.2 hv).ne this
  obtain ⟨t, body, tree, hsecond, hterr, hft, happ', hpacks, htree, hcodes⟩ := secondPass_packs hthere'
    (show S = b.src.take b.srcLen.toNat by rw [hsrc, hsrcLen, hS]) hbits hcnt (by omega) hcounted
  obtain ⟨hprod, -⟩ := (happ.trans happ').produced rfl
  rw [← hft] at hprod htree
  refine ⟨{ t with res0 := BitVec.ofNat 64 t.snkPos }, body, tree, ?_, hterr, fun v => ?_, hprod, hpacks, htree, hcodes⟩
  · rw [exec_encRun, hfirst, thenOk_next hberr, if_pos hgeneral, hsecond]
    exact thenOk_next hterr _
  · rw [← hcounts v, State.count, State.count, ← hft]

end

/-! ### The bits of packed bytes (R67, R194) -/

/-- Packed bytes hold the bits, and then fewer than 8 more. -/
theorem Packs.exists_padding {bytes : List Byte} {bits : List Bool} (h : Packs bytes bits) :
    ∃ rest, bytes.flatMap byteBits = bits ++ rest ∧ rest.length < 8 := by
  obtain ⟨hlen, hbit⟩ := h
  have hall := length_flatMap_byteBits bytes
  have htake : (bytes.flatMap byteBits).take bits.length = bits := by
    refine List.ext_getElem (by rw [List.length_take, hall]; omega) fun k hk hk' => ?_
    have hget : bytes[k / 8]? = some (bytes[k / 8]'(by omega)) := List.getElem?_eq_getElem _
    have hk'' := getElem?_flatMap_byteBits hget
    rw [hbit k _ hget, List.getD_eq_getElem _ _ hk'] at hk''
    rw [List.getElem_take]
    exact (List.getElem_eq_iff _).2 hk''
  refine ⟨(bytes.flatMap byteBits).drop bits.length, ?_, by rw [List.length_drop, hall]; omega⟩
  conv_lhs => rw [← List.take_append_drop bits.length (bytes.flatMap byteBits), htake]

/-! ### The decoder reads no byte beyond the source (R208) -/

/-- `SRC_POS` has not passed `SRC_LEN`. -/
abbrev InSource (s : State) : Prop := s.srcPos ≤ s.srcLen.toNat

section
variable {s : State}

theorem withDescentByte_inSource (h : InSource s) {k : State → Res}
    (hk : ∀ b pos, pos ≤ s.srcLen.toNat → (k { s with dbyte := b, srcPos := pos }).Ends InSource) :
    (withDescentByte s k).Ends InSource := by
  unfold withDescentByte
  split
  · by_cases hleft : s.srcLeft < 1
    · rw [withByte, withBytes, if_pos hleft]
      exact h
    · exact withByte_ends h fun b => hk b (s.srcPos + 1) (by rw [State.srcLeft] at hleft; omega)
  · exact hk s.dbyte s.srcPos h

theorem arrive_inSource (c : NodeIx) {s₀ : State} (h₀ : InSource s₀) (h : InSource s) :
    (arrive c s₀ s).Ends InSource :=
  withNode_ends h₀ fun nd => by split <;> exact h

theorem bitBody_inSource (h : InSource s) : (bitBody s).Ends InSource :=
  guard_ends h fun _ => withNode_ends h fun nd => by
    split
    · exact h
    · exact withDescentByte_inSource h fun b pos hpos => arrive_inSource _ h hpos

theorem symbolLoop_inSource (k : Nat) (h : InSource s) : (symbolLoop k s).Ends InSource := by
  induction k generalizing s with
  | zero => exact h
  | succ k ih =>
    refine (bitBody_inSource h).andThen fun t ht => ?_
    split
    · exact ht
    · exact ih ht

theorem symbolsLoop_inSource (k : Nat) (h : InSource s) : (symbolsLoop k s).Ends InSource := by
  induction k generalizing s with
  | zero => exact h
  | succ k ih => exact (symbolLoop_inSource _ h).andThen fun t ht => ih ht

theorem InSource.of_changesOnly {ps : List StatePart} {t : State} (h : InSource s) (hc : ChangesOnly ps s t)
    (hpos : .srcPos ∉ ps) (hhost : .host ∉ ps) : InSource t := by
  have hp : t.srcPos = s.srcPos := hc .srcPos hpos
  obtain ⟨-, hlen, -⟩ : StatePart.host.Kept s t := hc .host hhost
  rwa [InSource, hp, hlen]

theorem decodeBody_inSource (h : InSource s) : (decodeBody s).Ends InSource := by
  refine guard_ends h fun _ => ?_
  unfold bodyOfType
  split
  · exact h
  split
  · exact h.of_changesOnly (changesOnly_degenerateBody s) (by decide) (by decide)
  split
  · exact guard_ends h fun _ => symbolsLoop_inSource _ h
  · exact h

/-- A general record that is wholly in the source ends with `SRC_POS` in the source. -/
theorem exec_streamGeneral_inSource {T : Word32} {ft : FreqTable} {t : State} (h : InSource (s.passed 1031))
    (hexec : exec (.streamGeneral T ft.toList) s = .next t) : InSource t := by
  have hheader : InSource (generalHeader T ft s) := h
  have hends : ((buildBody (generalHeader T ft s)).thenCommand decodeBody).Ends InSource := by
    refine Res.Ends.andThen (P := InSource) ?_ fun u hu => decodeBody_inSource (s := u.complete) hu
    exact Res.Ends.mono (buildBody_within _) fun u hu => hheader.of_changesOnly hu (by decide) (by decide)
  rw [exec_streamGeneral] at hexec
  rcases Res.finish_eq_next.1 hexec with ⟨u, hu, rfl⟩ | ⟨k, info, u, hu, rfl⟩ <;> rw [hu] at hends <;> exact hends

/-- With fewer than 8 bits ahead in the source, every byte of it is read. -/
theorem srcPos_of_bitsAhead (hthere : SourceThere s) (h : InSource s) (hahead : s.bitsAhead.length < 8) :
    s.srcPos = s.srcLen.toNat := by
  have hunread : 8 * s.unread.length ≤ s.bitsAhead.length := by
    rw [State.bitsAhead, List.length_append, length_flatMap_byteBits]
    exact Nat.le_add_left _ _
  rw [State.unread_length hthere, State.srcLeft] at hunread
  have hle : s.srcPos ≤ s.srcLen.toNat := h
  omega

/-- `DEC.RUN` on a general record and its packed codes, in the tree of its counts. -/
theorem decRun_of_codes {T : Word32} {ft : FreqTable} {body : List Byte} {tree : TreeVal}
    {codes : List (BinaryCode × Byte)} {rest : List Bool} (hthere : SourceThere s)
    (hdec : decodeRecord (s.src.take s.srcLen.toNat) = .ok (.streamGeneral T ft.toList, body))
    (htree : mergeTrees 256 (leafQueue ft) = some tree) (hlen : codes.length = T.toNat)
    (hcodes : ∀ c v, (c, v) ∈ codes → c ≠ [] ∧ tree.follow c = some v)
    (hbits : body.flatMap byteBits = (codes.map Prod.fst).flatten ++ rest) (hrest : rest.length < 8) :
    ∃ t, exec .decRun s = .next t ∧ t.err = .ok ∧ Produced t (codes.map Prod.snd) ∧ t.srcPos = s.srcLen.toNat := by
  have hunread : ({ s with srcPos := 0, snkPos := 0 } : State).unread = s.src.take s.srcLen.toNat := s.unread_rewound
  have hpassed : (({ s with srcPos := 0, snkPos := 0 } : State).passed 1031).unread = body :=
    unread_of_decodeRecord_general (by rw [hunread]; exact hdec)
  obtain ⟨t, ht, happ, hahead, -, hframe⟩ := streamGeneral_completes (s := { s with srcPos := 0, snkPos := 0 })
    htree hlen hcodes (by rw [hpassed, hbits])
  have herr : t.err = .ok := by rw [hframe]
  have hsrcLen : t.srcLen = s.srcLen := by rw [hframe]
  have hsrc : t.src = s.src := by rw [hframe]
  have hsize : 1031 ≤ s.srcLen.toNat := by
    obtain ⟨front, he, hfront, hwf⟩ := encode_of_decodeRecord hdec
    have hfrontLen : front.length = 1031 := length_record he hwf
    have := congrArg List.length hfront
    rw [List.length_take, List.length_append, hfrontLen] at this
    omega
  have hin : InSource t := exec_streamGeneral_inSource (s := { s with srcPos := 0, snkPos := 0 })
    (show 0 + 1031 ≤ s.srcLen.toNat by omega) ht
  obtain ⟨hprod, -⟩ := happ.produced rfl
  refine ⟨{ t with res0 := BitVec.ofNat 64 t.snkPos }, ?_, herr, hprod, ?_⟩
  · rw [exec_decRun_of_decodeRecord hdec, ht]
    exact thenOk_next herr _
  · have hthere' : SourceThere t := by rwa [SourceThere, hsrcLen, hsrc]
    rw [← hsrcLen]
    exact srcPos_of_bitsAhead (s := t) hthere' hin (by rwa [hahead])

end

/-- The bytes of a source, each with its code in the table. -/
def codedBytes (ct : CodeTable) (S : List Byte) : List (BinaryCode × Byte) :=
  S.map fun v => ((tableGet ct v).getD [], v)

section
variable (ct : CodeTable) (S : List Byte)

theorem length_codedBytes : (codedBytes ct S).length = S.length := List.length_map _

theorem codedBytes_codes : ((codedBytes ct S).map Prod.fst).flatten = codeBits ct S := by
  rw [codedBytes, List.map_map, codeBits, List.flatMap]
  rfl

theorem codedBytes_values : (codedBytes ct S).map Prod.snd = S := by
  rw [codedBytes, List.map_map]
  exact List.map_id S

theorem mem_codedBytes {ct : CodeTable} {S : List Byte} {c : BinaryCode} {v : Byte} (h : (c, v) ∈ codedBytes ct S) :
    v ∈ S ∧ c = (tableGet ct v).getD [] := by
  obtain ⟨u, hu, heq⟩ := List.mem_map.1 h
  cases heq
  exact ⟨hu, rfl⟩

end

/-- Codes of at most 255 bits take at most 255 bits for each byte. -/
theorem length_codeBits_le {ct : CodeTable} {S : List Byte}
    (h : ∀ v ∈ S, ∃ c, tableGet ct v = some c ∧ c.length ≤ 255) : (codeBits ct S).length ≤ 255 * S.length := by
  rw [length_codeBits]
  refine (List.sum_le_card_nsmul _ 255 fun n hn => ?_).trans (by simp [Nat.mul_comm])
  obtain ⟨v, hv, rfl⟩ := List.mem_map.1 hn
  obtain ⟨c, hc, hlen⟩ := h v hv
  rwa [hc]

/-- Settles O44: the decoder builds the encoder's tree from the counts in the header, and in it the packed codes lead
back to the source's bytes. -/
theorem roundTripOfGeneralSources : Obligations.RoundTripOfGeneralSources := by
  unfold Obligations.RoundTripOfGeneralSources
  intro s s' S hsrc hsrcLen hlen hk
  obtain ⟨hthere, -, hS⟩ := sourceThere_of_length hsrc hsrcLen (by omega)
  obtain ⟨t, body, tree, hexec, herr, hcounts, hprod, hpacks, htree, hin⟩ :=
    exec_encRun_of_general hthere hS.symm hlen hk
  have hnum : (occupied t.ft).length = S.dedup.length := length_occupied_of_counts hcounts
  have hsum : countSum t.ft = S.length := countSum_of_counts hcounts
  obtain ⟨rest, hbits, hrest⟩ := hpacks.exists_padding
  obtain ⟨hbody, -⟩ := hpacks
  have hsize : ((headerOf t.ft).1 ++ body).length < 2 ^ 64 := by
    have hshort : (codeBits t.ct S).length ≤ 255 * S.length := length_codeBits_le fun v hv => by
      obtain ⟨c, hc, hcode⟩ := hin v hv
      exact ⟨c, hc, hcode.short⟩
    rw [List.length_append, length_headerOf, if_neg (by omega), if_neg (by omega)]
    omega
  refine ⟨t, _, hexec, herr, hprod, fun hsrc' hlen' => ?_⟩
  obtain ⟨hthere', hsrcLen', hbytes⟩ := sourceThere_of_length hsrc' hlen' hsize
  have hdec : decodeRecord (s'.src.take s'.srcLen.toNat) =
      .ok (.streamGeneral (BitVec.ofNat 32 (countSum t.ft)) t.ft.toList, body) := by
    rw [hbytes, headerOf_of_general (by omega)]
    exact decodeRecord_of_encode rfl (by simp [Instr.wf]) body
  have hcodes : ∀ c v, (c, v) ∈ codedBytes t.ct S → c ≠ [] ∧ tree.follow c = some v := fun c v hmem => by
    obtain ⟨hv, hcv⟩ := mem_codedBytes hmem
    obtain ⟨c', hc, hcode⟩ := hin v hv
    rw [hcv, hc]
    exact ⟨hcode.nonempty, hcode.follow⟩
  obtain ⟨t', ht', herr', hprod', hpos⟩ := decRun_of_codes hthere' hdec htree
    (by rw [length_codedBytes, BitVec.toNat_ofNat, hsum]; omega) hcodes (by rw [codedBytes_codes, hbits]) hrest
  rw [codedBytes_values] at hprod'
  exact ⟨t', ht', herr', hprod', hpos.trans hsrcLen'⟩

end Sys2Proof.Machine
end

section
/-! PROOFS. Family 48_system: the words and effects of `NOP`, `RST` and `REW`. -/

namespace Sys2Proof.Machine

/-- The two rewinds of R222 as one record update: nothing but the selected positions changes. -/
theorem rewind_eq (src snk : Bool) (s : State) :
    rewind src snk s =
      { s with srcPos := if src then 0 else s.srcPos, snkPos := if snk then 0 else s.snkPos } := by
  cases src <;> cases snk <;> rfl

theorem atReset_softReset (s : State) : AtReset (softReset s) :=
  AtReset.of_reset s.srcLen s.snk s.src s.host

theorem exec_rst (s : State) : exec .rst s = .next (softReset s) :=
  congrArg Host.Outcome.next (State.complete_eq_self rfl)

theorem exec_rew (src snk : Bool) (s : State) : exec (.rew src snk) s = .next (rewind src snk s).complete := rfl

/-- Settles O1: `NOP` only completes, `RST` comes to `softReset`, and `REW` to the rewinds it selects. -/
theorem nopRstRewEffects : Obligations.NopRstRewEffects := by
  unfold Obligations.NopRstRewEffects
  intro s
  refine ⟨⟨rfl, rfl⟩, ⟨rfl, softReset s, exec_rst s, atReset_softReset s, rfl, rfl, rfl, rfl⟩, fun src snk => ⟨rfl, ?_⟩⟩
  rw [exec_rew, rewind_eq]
  rfl

end Sys2Proof.Machine
end

section
/-! PROOFS. Families 60_exceptions and 70_reset_and_hazards: how a command ends, and what it can raise. -/

namespace Sys2Proof.Machine

/-! ### How a body ends

`r.Meets Q K stops`: the body comes to its end in a state of which `Q` holds, or raises a kind in a state of which `K`
holds, or the machine stops, and then `stops` holds. A precondition that keeps a body from a failure stands in the
lemmas below as "it holds, or the failure is allowed". -/

def Res.Meets (Q : State → Prop) (K : Err → State → Prop) (stops : Prop) : Res → Prop
  | .done t => Q t
  | .raised k _ t => K k t
  | .stopped _ => stops

section
variable {Q R : State → Prop} {K : Err → State → Prop} {stops : Prop} {s : State} {r : Res} {f : State → Res}

theorem Res.Meets.mono (h : r.Meets Q K stops) (hQ : ∀ t, Q t → R t) : r.Meets R K stops := by
  cases r with
  | done t => exact hQ t h
  | raised k info t => exact h
  | stopped g => exact h

theorem Res.Meets.and_ends (h : r.Meets Q K stops) (he : r.Ends R) : r.Meets (fun t => Q t ∧ R t) K stops := by
  cases r with
  | done t => exact ⟨h, he⟩
  | raised k info t => exact h
  | stopped g => exact h

theorem Res.Meets.andThen (h : r.Meets Q K stops) (hf : ∀ t, Q t → (f t).Meets R K stops) :
    (r.andThen f).Meets R K stops := by
  cases r with
  | done t => exact hf t h
  | raised k info t => exact h
  | stopped g => exact h

theorem Res.Meets.thenCommand (h : r.Meets Q K stops) (hf : ∀ t, Q t → (f t.complete).Meets R K stops) :
    (r.thenCommand f).Meets R K stops := h.andThen hf

/-! ### Checks and operand forms -/

theorem guard_meets {failed : Prop} [Decidable failed] {k : Err} {info : Word64} (hfail : failed → K k s)
    (hok : ¬ failed → r.Meets Q K stops) : (if failed then raise k info s else r).Meets Q K stops := by
  split
  · next h => exact hfail h
  · next h => exact hok h

theorem withNode_meets {n : NodeIx} {k : Node → Res} (hbad : s.node? n = none → K .badNode s)
    (hk : ∀ nd, s.node? n = some nd → (k nd).Meets Q K stops) : (withNode n s k).Meets Q K stops := by
  cases h : s.node? n with
  | none => rw [withNode_none h]; exact hbad h
  | some nd => rw [withNode_some h]; exact hk nd h

theorem withCode_meets {n : CodeReg} {k : BinaryCode → Res} (hcode : K .noCode s)
    (hk : ∀ c, (k c).Meets Q K stops) : (withCode n s k).Meets Q K stops := by
  cases h : s.codeAt n with
  | none => rw [withCode_none h]; exact hcode
  | some c => rw [withCode_some h]; exact hk c

theorem withCtEntry_meets {v : Byte} {k : BinaryCode → Res} (hcode : K .noCode s)
    (hk : ∀ c, (k c).Meets Q K stops) : (withCtEntry v s k).Meets Q K stops := by
  cases h : tableGet s.ct v with
  | none => rw [withCtEntry_none h]; exact hcode
  | some c => rw [withCtEntry_some h]; exact hk c

theorem childLeft_meets {n : NodeIx} {nd : Node} {k : NodeIx → Res} (hleaf : K .isALeaf s)
    (hk : ∀ l, (k l).Meets Q K stops) : (childLeft n nd s k).Meets Q K stops := by
  unfold childLeft
  split
  · exact hleaf
  · exact hk _

theorem childRight_meets {n : NodeIx} {nd : Node} {k : NodeIx → Res} (hleaf : K .isALeaf s)
    (hk : ∀ l, (k l).Meets Q K stops) : (childRight n nd s k).Meets Q K stops := by
  unfold childRight
  split
  · exact hleaf
  · exact hk _

theorem leafValue_meets {n : NodeIx} {nd : Node} {k : Byte → Res} (hinternal : K .notALeaf s)
    (hk : ∀ v, (k v).Meets Q K stops) : (leafValue n nd s k).Meets Q K stops := by
  unfold leafValue
  split
  · exact hk _
  · exact hinternal

theorem dequeue_meets {k : NodeIx → State → Res} (hempty : K .emptyQueue s)
    (hk : ∀ n q, (k n { s with pq := q }).Meets Q K stops) : (dequeue s k).Meets Q K stops := by
  unfold dequeue
  split
  · exact hempty
  · exact hk _ _

theorem enqueue_meets {n : NodeIx} (hbad : K .badNode s) (hfull : K .queueFull s) (hpq : ∀ q, Q { s with pq := q }) :
    (enqueue n s).Meets Q K stops := by
  unfold enqueue
  split
  · exact hbad
  · refine guard_meets (fun _ => hfull) fun _ => ?_
    split
    · exact hpq _
    · exact hbad

theorem WalkErr.toRes_meets (hbad : K .badNode s) (hstops : stops) (e : WalkErr) : (e.toRes s).Meets Q K stops := by
  cases e with
  | badNode n => exact hbad
  | endless => exact hstops

end

/-! ### The source is there (R62, R263) -/

section
variable {Q : State → Prop} {K : Err → State → Prop} {stops : Prop} {s t : State}

theorem SourceThere.srcRun_ne_none (h : SourceThere s) {n : Nat} (hn : n ≤ s.srcLeft) : s.srcRun n ≠ none := by
  have hlen : (s.unread.take n).length = n := by rw [List.length_take, State.unread_length h]; omega
  have hrun := srcRun_of_unread (List.take_append_drop n s.unread).symm
  rw [hlen] at hrun
  simp [hrun]

theorem SourceThere.srcPeek_ne_none (h : SourceThere s) (hleft : 0 < s.srcLeft) : s.srcPeek ≠ none := by
  obtain ⟨b, bs, hun⟩ := List.exists_cons_of_length_pos ((State.unread_length h).symm ▸ hleft)
  simp [State.srcPeek_eq hun]

theorem State.srcLeft_passed (n : Nat) (s : State) : (s.passed n).srcLeft = s.srcLeft - n := by
  simp only [State.srcLeft, State.passed]
  omega

theorem length_of_srcRun {n : Nat} {bs : List Byte} (h : s.srcRun n = some bs) : bs.length = n := by
  simp only [State.srcRun, Option.ite_none_right_eq_some, Option.some.injEq] at h
  obtain ⟨hlen, rfl⟩ := h
  exact hlen

theorem withBytes_meets {n : Nat} {k : List Byte → State → Res} (hunder : K .streamUnderrun s)
    (hsource : SourceThere s ∨ stops)
    (hk : ∀ bs t, bs.length = n → (SourceThere t ∨ stops) → (k bs t).Meets Q K stops) :
    (withBytes n s k).Meets Q K stops := by
  unfold withBytes
  split
  · exact hunder
  · next hleft =>
    split
    · next hnone => exact hsource.resolve_left fun hthere => hthere.srcRun_ne_none (Nat.le_of_not_lt hleft) hnone
    · next bs hbs => exact hk bs _ (length_of_srcRun hbs) hsource

theorem withField_meets {k : Word32 → State → Res} (hunder : K .streamUnderrun s) (hsource : SourceThere s ∨ stops)
    (hk : ∀ x t, (SourceThere t ∨ stops) → (k x t).Meets Q K stops) : (withField s k).Meets Q K stops := by
  refine withBytes_meets hunder hsource fun bs t hlen ht => ?_
  obtain ⟨b0, b1, b2, b3, rfl⟩ := List.length_eq_four.1 hlen
  exact hk _ t ht

theorem withByte_meets {k : Byte → State → Res} (hunder : K .streamUnderrun s) (hsource : SourceThere s ∨ stops)
    (hk : ∀ b t, (SourceThere t ∨ stops) → (k b t).Meets Q K stops) : (withByte s k).Meets Q K stops := by
  refine withBytes_meets hunder hsource fun bs t hlen ht => ?_
  obtain ⟨b, rfl⟩ := List.length_eq_one_iff.1 hlen
  exact hk b t ht

theorem withMagic_meets {k : State → Res} (hmagic : K .badMagic s) (hsource : SourceThere s ∨ stops)
    (hk : ∀ t, (SourceThere t ∨ stops) → (k t).Meets Q K stops) : (withMagic s k).Meets Q K stops := by
  unfold withMagic
  dsimp only
  split
  · next hnone => exact hsource.resolve_left fun hthere => hthere.srcRun_ne_none (Nat.min_le_right _ _) hnone
  · exact guard_meets (fun _ => hmagic) fun _ => hk _ hsource

end

/-! ### Walks in the node store (R28, R152, R153, R181) -/

section
variable {K : Err → State → Prop} {stops : Prop} {s : State}

theorem heightBody_meets (n : NodeIx) (hbad : K .badNode s) (hinv : Inv s ∨ stops) :
    (heightBody n s).Meets (fun _ => True) K stops := by
  refine withNode_meets (fun _ => hbad) fun nd hnd => ?_
  split
  · trivial
  · next e he =>
    refine WalkErr.toRes_meets hbad (hinv.resolve_left fun h => ?_) e
    obtain ⟨k, hk, -, -⟩ := h.store.exists_height hnd
    cases hk.symm.trans he

theorem eqBody_meets (n1 n2 : NodeIx) (hbad : K .badNode s) (hinv : Inv s ∨ stops) :
    (eqBody n1 n2 s).Meets (fun _ => True) K stops := by
  refine withNode_meets (fun _ => hbad) fun nd1 h1 => withNode_meets (fun _ => hbad) fun nd2 h2 => ?_
  split
  · trivial
  · next e he =>
    refine WalkErr.toRes_meets hbad (hinv.resolve_left fun h => ?_) e
    obtain ⟨T, hT⟩ := h.store.exists_treeIs h1
    obtain ⟨U, hU⟩ := h.store.exists_treeIs h2
    have hfuel : n1.toNat < walkFuel s := Nat.lt_succ_of_lt (State.toNat_lt_length h1)
    cases (h.store.equivFrom_eq hT hU hfuel).symm.trans he

theorem codegenBody_meets (htree : K .noTree s) (hempty : K .emptyCode s) (hbad : Inv s ∨ K .badNode s)
    (hinv : Inv s ∨ stops) : (codegenBody s).Meets (fun _ => True) K stops := by
  refine guard_meets (fun _ => htree) fun hroot => withNode_meets (fun hnone => ?named) fun nd hnd => ?walk
  case named =>
    refine hbad.resolve_left fun h => ?_
    simpa [hnone] using h.pointers.root (by simpa using hroot)
  case walk =>
    obtain ⟨o, ⟨v, w⟩ | ⟨l, r, w⟩⟩ := nd
    · exact hempty
    · dsimp only
      split
      · trivial
      · next e he =>
        have hno : ¬ Inv s := fun h => by
          obtain ⟨tab, htab, -⟩ := h.store.rootCodes_eq hnd
          cases htab.symm.trans he
        exact WalkErr.toRes_meets (hbad.resolve_left hno) (hinv.resolve_left hno) e

end

/-! ### Descents (R208, R209, R211) -/

section
variable {K : Err → State → Prop} {P : Err → Prop} {stops : Prop} {s t : State}

/-- The descent stands at a node: a valid `CUR` or `ROOT` names one (R23, R29). -/
theorem Inv.exists_standsAt (h : Inv s) (hroot : s.rootValid = true) : ∃ nd, s.node? s.standsAt = some nd := by
  unfold State.standsAt
  split
  · next hcur =>
    obtain ⟨o, l, r, w, hn⟩ := h.pointers.cur hcur
    exact ⟨_, hn⟩
  · exact Option.isSome_iff_exists.1 (h.pointers.root hroot)

theorem arrive_meets {c : NodeIx} (hbad : s.node? c = none → K .badNode s) (t : State) :
    (arrive c s t).Meets (fun _ => True) K stops :=
  withNode_meets hbad fun nd _ => by
    split
    · trivial
    · trivial

theorem bitBody_meets (hbad : Inv s ∨ K .badNode s) (htree : s.rootValid = true ∨ K .noTree s) (hleaf : K .isALeaf s)
    (hunder : K .streamUnderrun s) (hsource : SourceThere s ∨ stops) :
    (bitBody s).Meets (fun _ => True) K stops := by
  refine guard_meets (fun hno => htree.resolve_left (by simpa using hno)) fun hroot => ?_
  refine withNode_meets (fun hnone => hbad.resolve_left fun h => ?named) fun nd hnd => ?step
  case named =>
    obtain ⟨nd, hnd⟩ := h.exists_standsAt (by simpa using hroot)
    cases hnone.symm.trans hnd
  case step =>
    obtain ⟨o, ⟨v, w⟩ | ⟨l, r, w⟩⟩ := nd
    · exact hleaf
    · have hchild (bit : Bool) (hnone : s.node? (if bit then r else l) = none) : K .badNode s := by
        refine hbad.resolve_left fun h => ?_
        obtain ⟨-, -, -, nl, nr, hnl, hnr, -⟩ := h.store.goodChildren hnd
        cases bit
        · cases hnone.symm.trans hnl
        · cases hnone.symm.trans hnr
      dsimp only
      unfold withDescentByte
      split
      · exact withByte_meets hunder hsource fun b t _ => arrive_meets (hchild _) _
      · exact arrive_meets (hchild _) _

/-- A state from which symbols may be decoded: the invariants hold, and of what a descent step may meet beside, `P` and
`stops` allow each failure. -/
structure DescentAllowed (P : Err → Prop) (stops : Prop) (s : State) : Prop where
  inv : Inv s
  tree : s.rootValid = true ∨ P .noTree
  isALeaf : P .isALeaf
  underrun : P .streamUnderrun
  source : SourceThere s ∨ stops

theorem DescentAllowed.of_changesOnly {ps : List StatePart} (h : DescentAllowed P stops s) (hinv : Inv t)
    (hc : ChangesOnly ps s t) (hroot : .root ∉ ps) (hhost : .host ∉ ps) : DescentAllowed P stops t where
  inv := hinv
  tree := h.tree.imp_left fun hvalid => (hc .root hroot).2.trans hvalid
  isALeaf := h.isALeaf
  underrun := h.underrun
  source := h.source.imp_left fun hthere => hthere.of_kept (hc .host hhost)

theorem DescentAllowed.complete (h : DescentAllowed P stops s) : DescentAllowed P stops s.complete :=
  h.of_changesOnly h.inv.complete (changesOnly_complete s) (by decide) (by decide)

theorem symbolLoop_meets (h : DescentAllowed P stops s) (turns : Nat) :
    (symbolLoop turns s).Meets (DescentAllowed P stops) (fun k _ => P k) stops := by
  induction turns generalizing s with
  | zero => exact h
  | succ turns ih =>
    have hbit := bitBody_meets (K := fun k _ => P k) (.inl h.inv) h.tree h.isALeaf h.underrun h.source
    refine ((hbit.and_ends (bitBody_inv h.inv)).and_ends (bitBody_within s)).andThen fun t ⟨⟨_, hinv⟩, hw⟩ => ?_
    have ht : DescentAllowed P stops t := h.of_changesOnly hinv hw (by decide) (by decide)
    split
    · exact ht
    · exact ih ht

theorem symbolsLoop_meets (h : DescentAllowed P stops s) (turns : Nat) :
    (symbolsLoop turns s).Meets (DescentAllowed P stops) (fun k _ => P k) stops := by
  induction turns generalizing s with
  | zero => exact h
  | succ turns ih => exact (symbolLoop_meets h _).andThen fun t ht => ih ht

/-! ### The decoder (R205, R206, R207, R211, R212) -/

theorem loadCounts_meets (hunder : P .streamUnderrun) (hsource : SourceThere s ∨ stops) (vs : List Byte) :
    (loadCounts vs s).Meets (fun _ => True) (fun k _ => P k) stops := by
  induction vs generalizing s with
  | nil => trivial
  | cons v vs ih => exact withField_meets hunder hsource fun n t ht => ih ht

theorem decodeHeader_meets (hmagic : P .badMagic) (hunder : P .streamUnderrun) (htype : P .badFileType)
    (hsource : SourceThere s ∨ stops) :
    (decodeHeader s).Meets (fun t => t.hdrValid = true) (fun k _ => P k) stops := by
  refine withMagic_meets hmagic hsource fun t ht => withByte_meets hunder ht fun b t ht => ?_
  split
  · rfl
  split
  · exact withField_meets hunder ht fun c t ht => withByte_meets hunder ht fun p t _ => rfl
  split
  · refine withField_meets hunder ht fun total t ht => ?_
    exact (loadCounts_meets hunder ht _).andThen fun _ _ => rfl
  · exact htype

/-- A state from which `DEC.BODY` may run: what `DescentAllowed` says is needed of a general body alone. -/
structure BodyAllowed (P : Err → Prop) (stops : Prop) (s : State) : Prop where
  header : s.hdrValid = true ∨ P .noHeader
  general : s.fileType = 2#8 → DescentAllowed P stops s

theorem decodeBody_meets (h : BodyAllowed P stops s) :
    (decodeBody s).Meets (fun _ => True) (fun k _ => P k) stops := by
  refine guard_meets (fun hno => h.header.resolve_left (by simpa using hno)) fun _ => ?_
  unfold bodyOfType
  split
  · trivial
  split
  · trivial
  split
  · next hgeneral =>
    have hdescent := h.general hgeneral
    refine guard_meets (fun hno => hdescent.tree.resolve_left (by simpa using hno)) fun _ => ?_
    exact (symbolsLoop_meets hdescent _).mono fun _ _ => trivial
  · trivial

theorem buildBody_meets (hempty : P .emptyQueue) :
    (buildBody s).Meets (fun t => t.rootValid = true) (fun k _ => P k) stops := by
  rcases buildBody_cases s with ⟨-, t, hbuild⟩ | ⟨_, t, -, hbuild, -, hroot, -⟩ <;> rw [hbuild]
  · exact hempty
  · exact hroot

/-- Steps 3 and 4 of R212, and all that follows a record's header: with the header valid and the tree built, the body
meets no `NoHeader` and no `NoTree`. -/
theorem rebuildTree_decodeBody_meets (h : Inv s) (hheader : s.hdrValid = true) (hempty : P .emptyQueue)
    (hleaf : P .isALeaf) (hunder : P .streamUnderrun) (hsource : SourceThere s ∨ stops) :
    ((rebuildTree s).thenCommand decodeBody).Meets (fun _ => True) (fun k _ => P k) stops := by
  by_cases hgeneral : s.fileType = 2#8
  · rw [rebuildTree_of_general hgeneral]
    refine (((buildBody_meets hempty).and_ends (buildBody_inv h)).and_ends (buildBody_within s)).thenCommand
      fun t ⟨⟨hroot, hinv⟩, hw⟩ => decodeBody_meets ⟨.inl ?_, fun _ => DescentAllowed.complete ?_⟩
    · obtain ⟨-, -, -, -, hvalid⟩ : StatePart.header.Kept s t := hw .header (by decide)
      exact hvalid.trans hheader
    · exact ⟨hinv, .inl hroot, hleaf, hunder, hsource.imp_left fun hthere => hthere.of_kept (hw .host (by decide))⟩
  · rw [rebuildTree_of_fileType_ne hgeneral]
    exact decodeBody_meets ⟨.inl hheader, fun hno => absurd hno hgeneral⟩

/-- A record of type 0 or 1 makes no tree, and its body raises nothing (R206, R207). -/
theorem runRecord_meets_of_fileType_ne (hheader : s.hdrValid = true) (h : s.fileType ≠ 2#8) :
    (runRecord s).Meets (fun _ => True) (fun k _ => P k) stops := by
  rw [runRecord_of_fileType_ne h]
  exact decodeBody_meets ⟨.inl hheader, fun hgeneral => absurd hgeneral h⟩

theorem decodePass_meets (h : Inv s) (hmagic : P .badMagic) (hunder : P .streamUnderrun) (htype : P .badFileType)
    (hempty : P .emptyQueue) (hleaf : P .isALeaf) (hsource : SourceThere s ∨ stops) :
    (decodePass s).Meets (fun _ => True) (fun k _ => P k) stops := by
  have hpass : decodePass s = ((decodeHeader (rewind true true s)).thenCommand fun t =>
      (rebuildTree t).thenCommand decodeBody).andThen fun t => result (BitVec.ofNat 64 t.snkPos) t := by
    simp only [decodePass, Res.thenCommand, Res.andThen_assoc]
  rw [hpass]
  refine Res.Meets.andThen (Q := fun _ => True) ?_ fun _ _ => trivial
  have hheader := decodeHeader_meets (s := rewind true true s) hmagic hunder htype hsource
  refine ((hheader.and_ends (decodeHeader_inv (h.rewind true true))).and_ends (decodeHeader_within _)).thenCommand
    fun t ⟨⟨hvalid, hinv⟩, hw⟩ => ?_
  refine rebuildTree_decodeBody_meets hinv.complete hvalid hempty hleaf hunder (hsource.imp_left fun hthere => ?_)
  have hthere' : SourceThere (rewind true true s) := hthere
  exact hthere'.of_kept (hw .host (by decide))

end

/-! ### The encoder (R125, R191, R196, R197) -/

theorem Res.Raises.ne_ok {r : Res} (h : r.Raises Err.IsError) : r.Raises (· ≠ .ok) := by
  cases r with
  | done t => trivial
  | raised k info t => exact h.1
  | stopped g => trivial

section
variable {K : Err → State → Prop} {P : Err → Prop} {stops : Prop} {s : State}

theorem scanLoop_meets (hover : P .countOverflow) (hsource : SourceThere s ∨ stops) {left : Nat}
    (hleft : left ≤ s.srcLeft) (k : Nat) : (scanLoop left k s).Meets (fun _ => True) (fun k _ => P k) stops := by
  induction left generalizing s k with
  | zero => trivial
  | succ left ih =>
    cases hpeek : s.srcPeek with
    | none =>
      simp only [scanLoop, hpeek]
      exact hsource.resolve_left fun hthere => hthere.srcPeek_ne_none (by omega) hpeek
    | some v =>
      rcases scanLoop_succ_cases hpeek left k with ⟨-, hturn⟩ | ⟨-, hturn⟩ <;> rw [hturn]
      · exact hover
      · refine ih (s := (s.setCount v (s.count v + 1)).passed 1) hsource ?_ _
        have hrest : (s.setCount v (s.count v + 1)).srcLeft = s.srcLeft := rfl
        rw [State.srcLeft_passed, hrest]
        omega

theorem putBody_meets (hcode : K .noCode s) (v : Byte) : (putBody v s).Meets (fun _ => True) K stops :=
  withCtEntry_meets hcode fun _ => trivial

theorem encodeLoop_meets (hcode : P .noCode) (hsource : SourceThere s ∨ stops) {left : Nat} (hleft : left ≤ s.srcLeft) :
    (encodeLoop left s).Meets (fun _ => True) (fun k _ => P k) stops := by
  induction left generalizing s with
  | zero => trivial
  | succ left ih =>
    cases hpeek : s.srcPeek with
    | none =>
      simp only [encodeLoop, hpeek]
      exact hsource.resolve_left fun hthere => hthere.srcPeek_ne_none (by omega) hpeek
    | some v =>
      rw [encodeLoop_succ hpeek]
      refine ((putBody_meets (K := fun k _ => P k) hcode v).and_ends (putBody_within s v)).andThen fun t ⟨_, hw⟩ => ?_
      have hhost : StatePart.host.Kept s t := hw .host (by decide)
      have hpos : t.srcPos = s.srcPos := hw .srcPos (by decide)
      have hrest : t.srcLeft = s.srcLeft := by rw [State.srcLeft, State.srcLeft, hpos, hhost.2.1]
      refine ih (hsource.imp_left fun hthere => SourceThere.of_kept hthere hhost) ?_
      rw [State.srcLeft_passed, hrest]
      omega

theorem encodeBody_meets (hcode : P .noCode) (hsource : SourceThere s ∨ stops) :
    (encodeBody s).Meets (fun _ => True) (fun k _ => P k) stops :=
  (encodeLoop_meets hcode hsource le_rfl).andThen fun _ _ => trivial

/-- A header of type 2 is written for three or more occupied values (R96, R191). -/
theorem headerBody_meets (hlength : K .lengthOverflow s) :
    (headerBody s).Meets (fun t => t.fileType = 2#8 → 3 ≤ (occupied s.ft).length) K stops :=
  guard_meets (fun _ => hlength) fun _ => headerOf_fileType_eq_two_iff.1

theorem encodeGeneral_meets (h : 2 ≤ (occupied s.ft).length) (hcode : P .noCode) (hsource : SourceThere s ∨ stops) :
    (encodeGeneral s).Meets (fun _ => True) (fun k _ => P k) stops := by
  obtain ⟨t, u, hbuild, ht, hcodegen, hu, -, hframe⟩ := trBuild_cgRun h
  obtain ⟨built, hbuilt, rfl⟩ := Res.Raises.done_of_finish (buildBody_raises s).ne_ok hbuild ht
  obtain ⟨coded, hcoded, rfl⟩ :=
    Res.Raises.done_of_finish (codegenBody_raises _ (by decide) (by decide) (by decide)) hcodegen hu
  rw [encodeGeneral, hbuilt, Res.thenCommand_done, hcoded, Res.thenCommand_done]
  refine encodeBody_meets hcode (hsource.imp_left fun hthere => ?_)
  have hthere' : SourceThere coded.complete := hthere.of_kept (hframe .host (by decide))
  exact hthere'

/-- In `ENC.RUN` the tree and the codes are made for three or more occupied values, so only the scan, the header and the
body can raise (R197, R231). -/
theorem encodePass_meets (hover : P .countOverflow) (hlength : P .lengthOverflow) (hcode : P .noCode)
    (hsource : SourceThere s ∨ stops) : (encodePass s).Meets (fun _ => True) (fun k _ => P k) stops := by
  have hstart : SourceThere (clearCounts (rewind true true s)).complete ∨ stops := hsource
  rw [encodePass, Res.thenCommand_done]
  refine ((scanLoop_meets hover hstart le_rfl 0).and_ends (scanLoop_within _ _ _)).thenCommand fun t ⟨_, ht⟩ => ?_
  have hheader := headerBody_meets (K := fun k _ => P k) (stops := stops) (s := t.complete) hlength
  refine (hheader.and_ends (headerBody_within _)).thenCommand fun u ⟨hocc, hu⟩ => ?_
  refine Res.Meets.andThen (Q := fun _ => True) ?_ fun _ _ => trivial
  split
  · next hgeneral =>
    have hft : u.ft = t.complete.ft := hu .ft (by decide)
    have hthree := hocc hgeneral
    refine encodeGeneral_meets (by rw [State.complete_ft, hft]; omega) hcode (hstart.imp_left fun hthere => ?_)
    have hthere' : SourceThere t.complete := hthere.of_kept (ht .host (by decide))
    exact hthere'.of_kept (hu .host (by decide))
  · trivial

end
/-! ### Every instruction (R231, R233, R234, R276) -/

/-- No row of R231 lists `OK`, which is no error, or `NonComparable`, which no rule raises (R240). -/
theorem isError_of_mem_kindsOf {i : Instr} {k : Err} (h : k ∈ kindsOf i) : k.IsError := by
  have hrow : .ok ∉ kindsOf i ∧ .nonComparable ∉ kindsOf i := by cases i <;> simp [kindsOf]
  exact ⟨fun hk => hrow.1 (hk ▸ h), fun hk => hrow.2 (hk ▸ h)⟩

/-- What may be raised by `i` begun in `s`, in a state `t` of its body: a kind of its row if the invariants hold, and in
any case an error; and by an atomic command in the state it began in, so that nothing has changed yet. -/
structure MayRaise (i : Instr) (s : State) (k : Err) (t : State) : Prop where
  isError : k.IsError
  kind : Inv s → k ∈ kindsOf i
  unchanged : isSequenced i = false → t = s

/-- How the body of `i` begun in `s` may end: reaching its end it has kept `FAULTED` and `ERRINFO`, unless `i` is `RST`;
it raises as `MayRaise` says; and the machine stops only where the invariants or the host's duty fail. -/
abbrev Res.Conforms (i : Instr) (s : State) (r : Res) : Prop :=
  r.Meets (fun t => i ≠ .rst → StatePart.fault.Kept s t) (MayRaise i s) (¬ (Inv s ∧ SourceThere s))

section
variable {i : Instr} {s : State} {k : Err} {ps : List StatePart} {r : Res} {Q : State → Prop}

theorem MayRaise.of_mem (h : k ∈ kindsOf i := by simp [kindsOf]) : MayRaise i s k s :=
  ⟨isError_of_mem_kindsOf h, fun _ => h, fun _ => rfl⟩

theorem inv_or_mayRaise_badNode : Inv s ∨ MayRaise i s .badNode s :=
  or_iff_not_imp_left.2 fun hno => ⟨by decide, fun h => absurd h hno, fun _ => rfl⟩

theorem inv_or_stops : Inv s ∨ ¬ (Inv s ∧ SourceThere s) := or_iff_not_imp_left.2 fun hno h => hno h.1

theorem sourceThere_or_stops : SourceThere s ∨ ¬ (Inv s ∧ SourceThere s) := or_iff_not_imp_left.2 fun hno h => hno h.2

theorem done_conforms {t : State} (h : ChangesOnly ps s t) (hfault : .fault ∉ ps := by decide) :
    (Res.done t).Conforms i s :=
  fun _ => h .fault hfault

/-- An atomic body whose own lemma says what it raises. -/
theorem Res.Within.conforms (hw : r.Within ps s)
    (h : r.Meets Q (MayRaise i s) (¬ (Inv s ∧ SourceThere s))) (hfault : .fault ∉ ps := by decide) :
    r.Conforms i s :=
  (h.and_ends hw).mono fun _ ht _ => ht.2 .fault hfault

/-- A sequenced body: what it raises from any state is an error; from a state that meets the invariants it raises kinds
of its row and stops only where the source is not there. -/
theorem Res.Within.conforms_sequenced (hw : r.Within ps s) (herr : r.Raises Err.IsError)
    (h : Inv s → r.Meets Q (fun k _ => k ∈ kindsOf i) (¬ SourceThere s))
    (hseq : isSequenced i = true := by rfl) (hfault : .fault ∉ ps := by decide) : r.Conforms i s := by
  cases r with
  | done t => exact fun _ => hw .fault hfault
  | raised k info t => exact ⟨herr, h, fun hno => by simp [hseq] at hno⟩
  | stopped g => exact fun ⟨hinv, hthere⟩ => h hinv hthere

end

theorem encodePass_raises (s : State) : (encodePass s).Raises Err.IsError :=
  (scanBody_raises _).andThen fun _ => (headerBody_raises _ (by decide)).andThen fun t => by
    refine Res.Raises.andThen ?_ fun _ => trivial
    split
    · exact encodeGeneral_raises _
    · trivial

theorem decodePass_raises (s : State) : (decodePass s).Raises Err.IsError :=
  (decodeHeader_raises (by decide) (by decide) (by decide) _).andThen fun _ => (rebuildTree_raises _).andThen fun _ =>
    (decodeBody_raises _).andThen fun _ => trivial

theorem streamGeneral_conforms (total : Word32) (counts : List Word32) (s : State) :
    (runRecord (recordHeader s (.streamGeneral total counts))).Conforms (.streamGeneral total counts) s := by
  have hft := changesOnly_putCounts s allBytes counts
  have hhdr : ChangesOnly decodeParts s (recordHeader s (.streamGeneral total counts)) :=
    (hft.mono (by decide)).trans ((changesOnly_takeRecord _ 1031 _ _ _ _).mono (by decide))
  have hinv (h : Inv s) : Inv (recordHeader s (.streamGeneral total counts)) :=
    (h.of_free hft (by decide)).takeRecord _ _ _ _ _
  have hsource := (em (SourceThere s)).imp_left fun hthere => hthere.of_kept (hhdr .host (by decide))
  exact ((runRecord_within _).after hhdr).conforms_sequenced (runRecord_raises _) fun h =>
    rebuildTree_decodeBody_meets (hinv h).complete rfl (by simp [kindsOf]) (by simp [kindsOf]) (by simp [kindsOf])
      hsource

/-- An instruction is a body that conforms, and the end of a command. -/
theorem exec_conforms (i : Instr) (s : State) : ∃ r : Res, exec i s = r.finish ∧ r.Conforms i s := by
  have query {n : NodeIx} {k : Node → Res} (hk : ∀ nd, (k nd).Conforms i s)
      (hbad : .badNode ∈ kindsOf i := by simp [kindsOf]) : (withNode n s k).Conforms i s :=
    withNode_meets (fun _ => .of_mem hbad) fun nd _ => hk nd
  have hresult (x : Word64) : (result x s).Conforms i s := done_conforms (changesOnly_res0 s x)
  have check {failed : Prop} [Decidable failed] {k : Err} {info : Word64} {r : Res} (hok : r.Conforms i s)
      (hk : k ∈ kindsOf i := by simp [kindsOf]) : (if failed then raise k info s else r).Conforms i s :=
    guard_meets (fun _ => .of_mem hk) fun _ => hok
  have hcode {cd : CodeReg} (c : BinaryCode) : (Res.done (s.setCode cd c)).Conforms i s :=
    done_conforms (changesOnly_setCode s cd c)
  have hstore {cd : CodeReg} (c : BinaryCode) (hover : .codeOverflow ∈ kindsOf i := by simp [kindsOf]) :
      (storeCode cd c s).Conforms i s :=
    check (hcode c) hover
  cases i with
  | nop => exact ⟨_, rfl, done_conforms (.refl [] s)⟩
  | rst => exact ⟨.done (softReset s), rfl, fun hi => absurd rfl hi⟩
  | rew src snk => exact ⟨_, rfl, done_conforms (changesOnly_rewind s src snk)⟩
  | ftClr => exact ⟨_, rfl, done_conforms (changesOnly_clearCounts s)⟩
  | ftInc v => exact ⟨_, rfl, check (done_conforms (changesOnly_setCount s v _))⟩
  | ftSet v => exact ⟨_, rfl, check (done_conforms (changesOnly_setCount s v _))⟩
  | ftCnt v => exact ⟨_, rfl, hresult _⟩
  | ftOcc => exact ⟨_, rfl, done_conforms (occBody_within s)⟩
  | ftScan =>
    exact ⟨_, rfl, (scanLoop_within s _ _).conforms_sequenced (scanBody_raises s) fun _ =>
      scanLoop_meets (by simp [kindsOf]) (em _) le_rfl 0⟩
  | pqClr => exact ⟨_, rfl, done_conforms (changesOnly_pq s [])⟩
  | pqEnq n => exact ⟨_, rfl, enqueue_meets .of_mem .of_mem fun q _ => ⟨rfl, rfl⟩⟩
  | pqDeq => exact ⟨_, rfl, dequeue_meets .of_mem fun n q _ => ⟨rfl, rfl⟩⟩
  | pqPeek => exact ⟨_, rfl, dequeue_meets .of_mem fun n q => hresult _⟩
  | pqLen => exact ⟨_, rfl, hresult _⟩
  | trClr => exact ⟨_, rfl, done_conforms (changesOnly_clearTree s)⟩
  | trLeaf v => exact ⟨_, rfl, check fun _ => ⟨rfl, rfl⟩⟩
  | trMerge n1 n2 =>
    exact ⟨_, rfl, query fun _ => query fun _ => check <| check <| check <| check <| check fun _ => ⟨rfl, rfl⟩⟩
  | trBuild =>
    exact ⟨_, rfl, (buildBody_within s).conforms_sequenced (buildBody_raises s) fun _ =>
      buildBody_meets (by simp [kindsOf])⟩
  | trRoot =>
    refine ⟨_, rfl, ?_⟩
    split
    · exact hresult _
    · exact MayRaise.of_mem
  | trSetroot n => exact ⟨_, rfl, query fun _ _ => ⟨rfl, rfl⟩⟩
  | trIsleaf n => exact ⟨_, rfl, query fun _ => hresult _⟩
  | trValue n => exact ⟨_, rfl, query fun _ => leafValue_meets .of_mem fun _ => hresult _⟩
  | trLeft n => exact ⟨_, rfl, query fun _ => childLeft_meets .of_mem fun _ => hresult _⟩
  | trRight n => exact ⟨_, rfl, query fun _ => childRight_meets .of_mem fun _ => hresult _⟩
  | trWeight n => exact ⟨_, rfl, query fun _ => hresult _⟩
  | trHeight n => exact ⟨_, rfl, (heightBody_within s n).conforms (heightBody_meets n .of_mem inv_or_stops)⟩
  | trEq n1 n2 => exact ⟨_, rfl, (eqBody_within s n1 n2).conforms (eqBody_meets n1 n2 .of_mem inv_or_stops)⟩
  | bcNew cd bit => exact ⟨_, rfl, hcode _⟩
  | bcPush cd bit => exact ⟨_, rfl, withCode_meets .of_mem fun _ => hstore _⟩
  | bcLen cs => exact ⟨_, rfl, withCode_meets .of_mem fun _ => hresult _⟩
  | bcGet cs a =>
    refine ⟨_, rfl, withCode_meets .of_mem fun c => ?_⟩
    split
    · exact MayRaise.of_mem
    · exact hresult _
  | bcSlice cd cs a b => exact ⟨_, rfl, withCode_meets .of_mem fun _ => check (check (hcode _))⟩
  | bcSet cd a bit => exact ⟨_, rfl, withCode_meets .of_mem fun _ => check (hcode _)⟩
  | bcSplice cd cs a b =>
    exact ⟨_, rfl, withCode_meets .of_mem fun _ => withCode_meets .of_mem fun _ => check (hstore _)⟩
  | bcIns cd a bit => exact ⟨_, rfl, withCode_meets .of_mem fun _ => check (hstore _)⟩
  | bcDel cd a b => exact ⟨_, rfl, withCode_meets .of_mem fun _ => check (check (hcode _))⟩
  | bcCat cd cs ct => exact ⟨_, rfl, withCode_meets .of_mem fun _ => withCode_meets .of_mem fun _ => hstore _⟩
  | bcEq cs ct => exact ⟨_, rfl, withCode_meets .of_mem fun _ => withCode_meets .of_mem fun _ => hresult _⟩
  | ctClr => exact ⟨_, rfl, done_conforms (changesOnly_ct s emptyTable)⟩
  | ctSt a cs => exact ⟨_, rfl, withCode_meets .of_mem fun _ => done_conforms (changesOnly_ct s _)⟩
  | ctLd cd a => exact ⟨_, rfl, withCtEntry_meets .of_mem fun _ => hcode _⟩
  | cgRun =>
    exact ⟨_, rfl, (codegenBody_within s).conforms
      (codegenBody_meets .of_mem .of_mem inv_or_mayRaise_badNode inv_or_stops)⟩
  | encHdr => exact ⟨_, rfl, (headerBody_within s).conforms (headerBody_meets .of_mem)⟩
  | encPut v => exact ⟨_, rfl, (putBody_within s v).conforms (putBody_meets .of_mem v)⟩
  | encFlush => exact ⟨_, rfl, done_conforms (changesOnly_bbFlush s)⟩
  | encBody =>
    exact ⟨_, rfl, (encodeBody_within s).conforms_sequenced (encodeBody_raises s (by decide)) fun _ =>
      encodeBody_meets (by simp [kindsOf]) (em _)⟩
  | encRun =>
    exact ⟨_, rfl, (encodePass_within s).conforms_sequenced (encodePass_raises s) fun _ =>
      encodePass_meets (by simp [kindsOf]) (by simp [kindsOf]) (by simp [kindsOf]) (em _)⟩
  | decHdr =>
    have herr := decodeHeader_raises (P := Err.IsError) (by decide) (by decide) (by decide) s
    exact ⟨_, rfl, (decodeHeader_within s).conforms_sequenced herr fun _ =>
      decodeHeader_meets (by simp [kindsOf]) (by simp [kindsOf]) (by simp [kindsOf]) (em _)⟩
  | decBit =>
    exact ⟨_, rfl, (bitBody_within s).conforms
      (bitBody_meets inv_or_mayRaise_badNode (.inr .of_mem) .of_mem .of_mem sourceThere_or_stops)⟩
  | decSym =>
    have hdescent (h : Inv s) : DescentAllowed (· ∈ kindsOf .decSym) (¬ SourceThere s) s :=
      ⟨h, .inr (by simp [kindsOf]), by simp [kindsOf], by simp [kindsOf], em _⟩
    exact ⟨_, rfl, (symbolLoop_within s _).conforms_sequenced (symbolLoop_raises s _) fun h =>
      symbolLoop_meets (hdescent h) _⟩
  | decBody =>
    have hdescent (h : Inv s) : DescentAllowed (· ∈ kindsOf .decBody) (¬ SourceThere s) s :=
      ⟨h, .inr (by simp [kindsOf]), by simp [kindsOf], by simp [kindsOf], em _⟩
    exact ⟨_, rfl, (decodeBody_within s).conforms_sequenced (decodeBody_raises s) fun h =>
      decodeBody_meets ⟨.inr (by simp [kindsOf]), fun _ => hdescent h⟩⟩
  | decRun =>
    exact ⟨_, rfl, (decodePass_within s).conforms_sequenced (decodePass_raises s) fun h =>
      decodePass_meets h (by simp [kindsOf]) (by simp [kindsOf]) (by simp [kindsOf]) (by simp [kindsOf])
        (by simp [kindsOf]) (em _)⟩
  | streamEmpty =>
    have hw := smallRecord_within s 3 0#32 0#32 0#8 (t := 0#8) (by decide)
    exact ⟨_, rfl, hw.conforms_sequenced (runRecord_raises _) fun _ =>
      runRecord_meets_of_fileType_ne rfl (show 0#8 ≠ 2#8 by decide)⟩
  | streamDegen count value =>
    have hw := smallRecord_within s 8 0#32 count value (t := 1#8) (by decide)
    exact ⟨_, rfl, hw.conforms_sequenced (runRecord_raises _) fun _ =>
      runRecord_meets_of_fileType_ne rfl (show 1#8 ≠ 2#8 by decide)⟩
  | streamGeneral total counts => exact ⟨_, exec_eq_runRecord rfl s, streamGeneral_conforms total counts s⟩

/-- Settles O51: a body that reaches its end has not written `FAULTED` or `ERRINFO`; what one raises is an error. -/
theorem everyCommandReports : Obligations.EveryCommandReports := by
  unfold Obligations.EveryCommandReports
  intro i s t h hi
  obtain ⟨r, hexec, hr⟩ := exec_conforms i s
  rcases Res.finish_eq_next.1 (hexec.symm.trans h) with ⟨u, rfl, rfl⟩ | ⟨k, info, u, rfl, rfl⟩
  · obtain ⟨hfaulted, hinfo⟩ := hr hi
    exact .inl ⟨rfl, hfaulted, hinfo⟩
  · obtain ⟨⟨hok, hcomparable⟩, -, -⟩ := hr
    exact .inr ⟨hok, hcomparable, rfl⟩

/-- Settles O52: an atomic command raises in the state it began in, and `raise` writes nothing else. -/
theorem failingAtomicCommandsChangeNothing : Obligations.FailingAtomicCommandsChangeNothing := by
  unfold Obligations.FailingAtomicCommandsChangeNothing
  intro i s t hatomic h herr
  obtain ⟨r, hexec, hr⟩ := exec_conforms i s
  rcases Res.finish_eq_next.1 (hexec.symm.trans h) with ⟨u, rfl, rfl⟩ | ⟨k, info, u, rfl, rfl⟩
  · exact absurd rfl herr
  · obtain rfl := hr.unchanged hatomic
    rfl

/-- Settles O53: where the invariants hold, what a body raises is of its row. -/
theorem commandsRaiseOnlyTheirKinds : Obligations.CommandsRaiseOnlyTheirKinds := by
  unfold Obligations.CommandsRaiseOnlyTheirKinds
  intro i s t hinv h
  obtain ⟨r, hexec, hr⟩ := exec_conforms i s
  rcases Res.finish_eq_next.1 (hexec.symm.trans h) with ⟨u, rfl, rfl⟩ | ⟨k, info, u, rfl, rfl⟩
  · exact .inl rfl
  · exact .inr (hr.kind hinv)

/-- Settles O60: a body that stops contradicts the invariants or the host's duty; the other two ends are next states. -/
theorem everyCommandEnds : Obligations.EveryCommandEnds := by
  unfold Obligations.EveryCommandEnds
  intro i s hinv hthere
  obtain ⟨r, hexec, hr⟩ := exec_conforms i s
  cases r with
  | done t => exact ⟨_, hexec⟩
  | raised k info t => exact ⟨_, hexec⟩
  | stopped g => exact absurd ⟨hinv, hthere⟩ hr

end Sys2Proof.Machine
end
